-- ==== Sys2Proof/Word.lean ====
section
/-! DEFINITION. The word types of the block: a byte of the window, a 16-bit PCM sample, a 32-bit register or slot. -/

namespace Sys2Proof

/-- One byte of the window (R80). -/
abbrev Byte := BitVec 8

/-- One PCM sample, `int16` (R20). -/
abbrev Sample := BitVec 16

/-- One register, one `IDX` slot, one command word (R32, R42, R110). -/
abbrev Word := BitVec 32

end Sys2Proof
end

