-- ==== Sys2Proof/Machine/Poly.lean ====
section
/-! DEFINITION. Polynomials in `z^-1` as lists of coefficients, that of `z^0` first, the products of R182 and the sum and
difference polynomials of R181. -/

namespace Sys2Proof.Machine

/-- The sum of two polynomials in `z^-1`, coefficient of `z^0` first. -/
def polyAdd : List Rat → List Rat → List Rat
  | [], q => q
  | p, [] => p
  | a :: p, b :: q => (a + b) :: polyAdd p q

/-- The product of two polynomials in `z^-1`. -/
def polyMul : List Rat → List Rat → List Rat
  | [], _ => []
  | a :: p, q => polyAdd (q.map (a * ·)) (0 :: polyMul p q)

/-- `prod_k (1 - 2 c_k z^-1 + z^-2)`: the polynomial whose roots are the points of the unit circle with the cosines
`c_k` (R181, R182). -/
def quadProduct : List Rat → List Rat
  | [] => [1]
  | c :: cs => polyMul [1, -2 * c, 1] (quadProduct cs)

/-- The elements at the positions 0, 2, 4, ... of a list: the roots of `P` in an LSP vector, and of `Q` in its tail
(R181). -/
def everyOther : List Rat → List Rat
  | [] => []
  | [x] => [x]
  | x :: _ :: rest => x :: everyOther rest

/-- The sum polynomial `P(z) = A(z) + z^-(p+1) A(z^-1)` (R181). -/
def sumPoly (a : List Rat) : List Rat := polyAdd a (0 :: a.reverse)

/-- The difference polynomial `Q(z) = A(z) - z^-(p+1) A(z^-1)` (R181). -/
def diffPoly (a : List Rat) : List Rat := polyAdd a ((0 :: a.reverse).map (-1 * ·))

end Sys2Proof.Machine
end

