-- ==== Sys2Proof/Machine/Num.lean ====
section
/-! DEFINITION. The five configuration functions of the ideal arithmetic (R17), what R18 says of four of them, and what
R181 says of `NUM.lsproots`: the LSP vector of a filter, by the roots of its sum and difference polynomials, and the
failure where they lack the interlaced roots. -/

namespace Sys2Proof

open Machine

/-- The five configuration functions of the ideal arithmetic (R17). Each is total; what it answers outside the
operands R18 speaks of is open. `lsproots` answers `none` where its method fails (R181). -/
structure Num where
  log2 : Rat → Rat
  sqrt : Rat → Rat
  pow2 : Rat → Rat
  cospi : Rat → Rat
  lsproots : List Rat → Option (List Rat)

/-- `l` is the LSP vector of `A(z)` of even order (R181) as `cospi` has it, the coefficients of `A` being `a`: strictly increasing in
`(0, 1)`, the roots of `P(z)` being `-1` and the angles `pi * l` at its even positions, those of `Q(z)` being `+1` and
the angles at its odd ones. `cospi(x)` stands for `cos(pi * x)` (R18). -/
abbrev IsLsp (cospi : Rat → Rat) (a l : List Rat) : Prop :=
  (a.length = l.length + 1 ∧ l.length % 2 = 0) ∧ l.Pairwise (· < ·) ∧ (∀ x ∈ l, 0 < x ∧ x < 1)
    ∧ sumPoly a = polyMul [1, 1] (quadProduct ((everyOther l).map cospi))
    ∧ diffPoly a = polyMul [1, -1] (quadProduct ((everyOther l.tail).map cospi))

/-- `A(z)` is monic and minimum phase: every zero lies inside the unit circle (R181). -/
def MinPhase (a : List Rat) : Prop :=
  a.head? = some 1
    ∧ ∀ z : ℂ, (∑ i ∈ Finset.range a.length, ((a.getD i 0 : Rat) : ℂ) * z ^ (a.length - 1 - i)) = 0 → ‖z‖ < 1

/-- The polynomial in `z^-1` with the coefficients `p` has a root on the unit circle at the angle `w`. -/
def VanishesAt (p : List Rat) (w : ℝ) : Prop :=
  ∑ i ∈ Finset.range p.length, ((p.getD i 0 : Rat) : ℂ) * Complex.exp (-(w * Complex.I)) ^ i = 0

/-- `P` and `Q` have the `p` interlaced roots of R181 at the angles `w`: `0 < w_0 < ... < w_{p-1} < pi` on the unit
circle, `P` at the even positions and `Q` at the odd ones. -/
def InterlacedAt (a : List Rat) (w : List ℝ) : Prop :=
  w.length + 1 = a.length ∧ w.Pairwise (· < ·) ∧ (∀ x ∈ w, 0 < x ∧ x < Real.pi)
    ∧ ∀ (k : Nat) (h : k < w.length), VanishesAt (if k % 2 = 0 then sumPoly a else diffPoly a) w[k]

/-- `P` and `Q` have `p` interlaced roots (R181). -/
def Interlaced (a : List Rat) : Prop := ∃ w, InterlacedAt a w

/-- `l` is the exact LSP vector of `A(z)` (R181): the interlaced roots lie at the angles `pi * l`. -/
def IsExactLsp (a l : List Rat) : Prop := InterlacedAt a (l.map fun x : Rat => Real.pi * (x : ℝ))

namespace Num

/-- What a model may assume of the configuration functions: R18, and for `lsproots` R181 with the corner case of R180.
R18's "non-decreasing" in full contradicts `NUM.sqrt(x*x) = x`, since no rational-valued function is non-decreasing and
exact on every rational square (`no_monotone_rational_sqrt` of `Laws/Numbers.lean`). The model asks every pair that lies
at least one part in `2^32` apart (`sqrt_mono_far`), and of the nearer ones (`sqrt_mono`) every pair but that of a square
below a number that is none (the square root rounds down there), or every pair but that of such a number below a square
(it rounds up). DESIGN CHOICE (log entry 3).
R181's ideal form answers every minimum-phase filter: with the exact vector where that vector is rational
(`lsproots_exact`), and else with one within one part in `2^32` of it (`lsproots_close`). The cosines are R181's own
example at order 2 (`lsproots_two`), and exact at every order where they are rational (`lsproots_cospi`). `NUM.lsproots`
fails where `P` and `Q` lack the `p` interlaced roots. DEDUCED, and the bound of one part in `2^32` a DESIGN CHOICE (log
entry 18). -/
structure Ok (N : Num) : Prop where
  log2_strictMono : ∀ x y : Rat, 0 < x → x < y → N.log2 x < N.log2 y
  log2_zpow : ∀ k : Int, N.log2 ((2 : Rat) ^ k) = k
  sqrt_nonneg : ∀ x : Rat, 0 ≤ x → 0 ≤ N.sqrt x
  sqrt_mono : (∀ x y : Rat, 0 ≤ x → x ≤ y → (IsSquare x → IsSquare y) → N.sqrt x ≤ N.sqrt y)
    ∨ (∀ x y : Rat, 0 ≤ x → x ≤ y → (IsSquare y → IsSquare x) → N.sqrt x ≤ N.sqrt y)
  sqrt_mono_far : ∀ x y : Rat, 0 ≤ x → x + x / 2 ^ 32 ≤ y → N.sqrt x ≤ N.sqrt y
  sqrt_sq : ∀ x : Rat, 0 ≤ x → N.sqrt (x * x) = x
  pow2_strictMono : ∀ x y : Rat, x < y → N.pow2 x < N.pow2 y
  pow2_pos : ∀ x : Rat, 0 < N.pow2 x
  pow2_int : ∀ k : Int, N.pow2 k = (2 : Rat) ^ k
  cospi_strictAnti : ∀ x y : Rat, 0 ≤ x → x < y → y ≤ 1 → N.cospi y < N.cospi x
  cospi_zero : N.cospi 0 = 1
  cospi_third : N.cospi (1 / 3) = 1 / 2
  cospi_half : N.cospi (1 / 2) = 0
  cospi_two_thirds : N.cospi (2 / 3) = -(1 / 2)
  cospi_one : N.cospi 1 = -1
  lsproots_length : ∀ a l, N.lsproots a = some l → l.length = a.length - 1
  lsproots_increasing : ∀ a l, N.lsproots a = some l → l.Pairwise (· < ·)
  lsproots_range : ∀ a l, N.lsproots a = some l → ∀ x ∈ l, 0 < x ∧ x < 1
  lsproots_minPhase : ∀ a, a.length % 2 = 1 → MinPhase a → ∃ l, N.lsproots a = some l
  lsproots_exact : ∀ a l, a.length % 2 = 1 → MinPhase a → IsExactLsp a l → N.lsproots a = some l
  lsproots_close : ∀ a l w, a.length % 2 = 1 → MinPhase a → InterlacedAt a w → N.lsproots a = some l →
    ∀ (k : Nat) (_ : k < l.length) (_ : k < w.length), |(l[k] : ℝ) - w[k] / Real.pi| ≤ 1 / 2 ^ 32
  lsproots_two : ∀ a1 a2, MinPhase [1, a1, a2] → ∃ x y, N.lsproots [1, a1, a2] = some [x, y]
    ∧ N.cospi x = (1 - a1 - a2) / 2 ∧ N.cospi y = -(1 + a1 - a2) / 2
  lsproots_cospi : ∀ a, (∃ l, IsLsp N.cospi a l) → ∃ l, N.lsproots a = some l ∧ IsLsp N.cospi a l
  lsproots_fails : ∀ a, a.length % 2 = 1 → ¬Interlaced a → N.lsproots a = none
  lsproots_flat : ∀ p : Nat, p % 2 = 0 →
    N.lsproots (1 :: List.replicate p 0) =
      some ((List.range p).map fun i : Nat => ((i : Rat) + 1) / ((p : Rat) + 1))

end Num
end Sys2Proof
end

