-- ==== Sys2Proof/Machine/MinPhase.lean ====
section
/-! DEFINITION. A test that decides whether a filter is minimum phase (R181), the proof that it does, and the roots of `P`
and `Q`: those of a minimum-phase filter interlace, and so do those that an exact LSP vector names. `Num.sample` answers
or fails by them. -/

namespace Sys2Proof

open Machine

/-! ## Zeros inside the unit circle -/

section

open Polynomial

/-- `z^n A(z)` for the coefficients `c`, whose zeros are those of `A(z)`. -/
noncomputable def descSum (n : Nat) (c : Nat → Rat) (z : ℂ) : ℂ :=
  ∑ i ∈ Finset.range (n + 1), (c i : ℂ) * z ^ (n - i)

/-- `A` as a polynomial in `z^-1`, here `z`. -/
noncomputable def ascSum (n : Nat) (c : Nat → Rat) (z : ℂ) : ℂ :=
  ∑ i ∈ Finset.range (n + 1), (c i : ℂ) * z ^ i

theorem ascSum_eq (n : Nat) (c : Nat → Rat) {z : ℂ} (hz : z ≠ 0) : ascSum n c z = z ^ n * descSum n c z⁻¹ := by
  rw [ascSum, descSum, Finset.mul_sum]
  refine Finset.sum_congr rfl fun i hi => ?_
  have hi : i ≤ n := Nat.lt_succ_iff.1 (Finset.mem_range.1 hi)
  rw [inv_pow, mul_left_comm, ← pow_sub₀ _ hz (by omega), show n - (n - i) = i by omega]

theorem conj_descSum (n : Nat) (c : Nat → Rat) (z : ℂ) :
    descSum n c ((starRingEnd ℂ) z) = (starRingEnd ℂ) (descSum n c z) := by
  simp [descSum, map_sum]

/-- A monic polynomial is the product over its zeros, which come in conjugate pairs. -/
theorem exists_roots (n : Nat) (c : Nat → Rat) (h : c 0 = 1) :
    ∃ s : Multiset ℂ, s.card = n ∧ (∀ z, descSum n c z = (s.map fun r => z - r).prod)
      ∧ s.map (starRingEnd ℂ) = s := by
  set F : ℂ[X] := X ^ n + ∑ i ∈ Finset.range n, C (c (i + 1) : ℂ) * X ^ (n - (i + 1)) with hF
  have hlt : (∑ i ∈ Finset.range n, C (c (i + 1) : ℂ) * X ^ (n - (i + 1)) : ℂ[X]).degree < (n : WithBot Nat) := by
    refine (degree_sum_le _ _).trans_lt ((Finset.sup_lt_iff (by exact WithBot.bot_lt_coe n)).2 fun i hi => ?_)
    have := Finset.mem_range.1 hi
    refine (degree_C_mul_X_pow_le _ _).trans_lt ?_
    exact_mod_cast (by omega : n - (i + 1) < n)
  have hm : F.Monic := monic_X_pow_add hlt
  have hd : F.natDegree = n := natDegree_eq_of_degree_eq_some (by
    rw [hF, degree_add_eq_left_of_degree_lt (by rw [degree_X_pow]; exact hlt), degree_X_pow])
  have he : ∀ z, F.eval z = descSum n c z := fun z => by
    rw [descSum, Finset.sum_range_succ', hF]
    simp [eval_finsetSum, h, add_comm]
  have hs : F.Splits := IsAlgClosed.splits F
  refine ⟨F.roots, ?_, fun z => ?_, ?_⟩
  · rw [← hd]; exact hs.natDegree_eq_card_roots.symm
  · rw [← he]
    conv_lhs => rw [hs.eq_prod_roots_of_monic hm]
    rw [eval_multiset_prod, Multiset.map_map]; simp
  · have hc : F.map (starRingEnd ℂ) = F := by simp [hF, Polynomial.map_sum]
    have := hs.roots_map (starRingEnd ℂ)
    rw [hc] at this
    exact this.symm

/-- All zeros lie inside the unit circle. -/
def Inside (n : Nat) (c : Nat → Rat) : Prop := ∀ z, descSum n c z = 0 → ‖z‖ < 1

/-- The zeros of a monic polynomial that has them all inside the unit circle. -/
theorem exists_roots_inside {n : Nat} {c : Nat → Rat} (h : c 0 = 1) (hi : Inside n c) :
    ∃ s : Multiset ℂ, s.card = n ∧ (∀ z, descSum n c z = (s.map fun r => z - r).prod)
      ∧ s.map (starRingEnd ℂ) = s ∧ ∀ r ∈ s, ‖r‖ < 1 := by
  obtain ⟨s, hn, hs, hc⟩ := exists_roots n c h
  refine ⟨s, hn, hs, hc, fun r hr => hi r ?_⟩
  rw [hs]
  exact Multiset.prod_eq_zero (Multiset.mem_map.2 ⟨r, hr, sub_self r⟩)

theorem norm_ratCast (q : Rat) : ‖(q : ℂ)‖ = ((|q| : Rat) : ℝ) := by
  rw [← Complex.ofReal_ratCast, Complex.norm_real, Real.norm_eq_abs, Rat.cast_abs]

theorem norm_one_sub_le {r z : ℂ} (hr : ‖r‖ < 1) (hz : 1 ≤ ‖z‖) : ‖1 - (starRingEnd ℂ) r * z‖ ≤ ‖z - r‖ := by
  have h1 : ‖r‖ ^ 2 < 1 := by nlinarith [norm_nonneg r]
  have h2 : 1 ≤ ‖z‖ ^ 2 := by nlinarith [norm_nonneg z]
  refine le_of_sq_le_sq ?_ (norm_nonneg _)
  have e : ∀ w : ℂ, ‖w‖ ^ 2 = w.re ^ 2 + w.im ^ 2 := fun w => by rw [← Complex.normSq_eq_norm_sq, Complex.normSq_apply]; ring
  rw [e] at h1 h2
  rw [e, e]
  simp
  nlinarith [mul_nonneg (sub_nonneg.2 h2) (sub_nonneg.2 h1.le)]

theorem ascSum_eq_prod {n : Nat} {c : Nat → Rat} {s : Multiset ℂ} (hn : s.card = n)
    (hs : ∀ z, descSum n c z = (s.map fun r => z - r).prod) {z : ℂ} (hz : z ≠ 0) :
    ascSum n c z = (s.map fun r => 1 - r * z).prod := by
  rw [ascSum_eq n c hz, hs, ← hn]
  clear hs hn
  induction s using Multiset.induction with
  | empty => simp
  | cons r s ih =>
    rw [Multiset.card_cons, Multiset.map_cons, Multiset.prod_cons, Multiset.map_cons, Multiset.prod_cons, ← ih, pow_succ,
      show 1 - r * z = z * (z⁻¹ - r) by rw [mul_sub, mul_inv_cancel₀ hz]; ring]
    ring

/-- The reversed polynomial is no larger outside the unit circle. -/
theorem norm_ascSum_le {n : Nat} {c : Nat → Rat} (h : c 0 = 1) (hi : Inside n c) {z : ℂ} (hz : 1 ≤ ‖z‖) :
    ‖ascSum n c z‖ ≤ ‖descSum n c z‖ := by
  obtain ⟨s, hn, hs, hc, hin⟩ := exists_roots_inside h hi
  have hz0 : z ≠ 0 := fun h => by rw [h, norm_zero] at hz; linarith
  rw [ascSum_eq_prod hn hs hz0, hs]
  conv_lhs => rw [← hc]
  rw [Multiset.map_map]
  clear hs hn hc
  induction s using Multiset.induction with
  | empty => simp
  | cons r s ih =>
    simp only [Multiset.map_cons, Multiset.prod_cons, norm_mul]
    exact mul_le_mul (norm_one_sub_le (hin r (Multiset.mem_cons_self r s)) hz)
      (ih fun x hx => hin x (Multiset.mem_cons_of_mem hx)) (norm_nonneg _) (norm_nonneg _)

/-- The last coefficient is the product of the zeros, up to sign. -/
theorem norm_last_lt {n : Nat} {c : Nat → Rat} (h : c 0 = 1) (hi : Inside (n + 1) c) : |c (n + 1)| < 1 := by
  obtain ⟨s, hn, hs, -, hin⟩ := exists_roots_inside h hi
  have h0 : descSum (n + 1) c 0 = c (n + 1) := by
    rw [descSum, Finset.sum_range_succ, Finset.sum_eq_zero fun i hi => ?_]
    · simp
    · have := Finset.mem_range.1 hi
      simp [zero_pow (by omega : n + 1 - i ≠ 0)]
  have hlt : ∀ s : Multiset ℂ, (∀ r ∈ s, ‖r‖ < 1) → ‖(s.map fun r => 0 - r).prod‖ ≤ 1 := fun s hin => by
    induction s using Multiset.induction with
    | empty => simp
    | cons r s ih =>
      simp only [Multiset.map_cons, Multiset.prod_cons, norm_mul, zero_sub, norm_neg] at ih ⊢
      exact mul_le_one₀ (hin r (Multiset.mem_cons_self r s)).le (norm_nonneg _) (ih fun x hx => hin x (Multiset.mem_cons_of_mem hx))
  obtain ⟨r, hr⟩ := Multiset.card_pos_iff_exists_mem.1 (by omega : 0 < s.card)
  obtain ⟨t, rfl⟩ := Multiset.exists_cons_of_mem hr
  have hn1 : ‖((c (n + 1) : Rat) : ℂ)‖ < 1 := by
    rw [← h0, hs, Multiset.map_cons, Multiset.prod_cons, norm_mul, zero_sub, norm_neg]
    exact (mul_le_of_le_one_right (norm_nonneg _) (hlt t fun x hx => hin x (Multiset.mem_cons_of_mem hx))).trans_lt (hin r hr)
  rw [norm_ratCast] at hn1
  exact_mod_cast hn1

/-- A coefficient of the filter one order lower: the step-down recursion with the last coefficient as its reflection
coefficient, the inverse of R174's. -/
def stepDown (n : Nat) (c : Nat → Rat) (i : Nat) : Rat := (c i - c n * c (n - i)) / (1 - c n * c n)

theorem one_sub_sq_ne {k : Rat} (hk : |k| < 1) : 1 - k * k ≠ 0 := by
  nlinarith [abs_nonneg k, abs_mul_abs_self k]

theorem stepDown_zero {n : Nat} {c : Nat → Rat} (h : c 0 = 1) (hk : |c (n + 1)| < 1) : stepDown (n + 1) c 0 = 1 := by
  rw [stepDown, h, Nat.sub_zero, div_self (one_sub_sq_ne hk)]

theorem ascSum_reflect (n : Nat) (c : Nat → Rat) (z : ℂ) :
    ascSum n c z = ∑ i ∈ Finset.range (n + 1), (c (n - i) : ℂ) * z ^ (n - i) := by
  rw [ascSum, ← Finset.sum_range_reflect]
  exact Finset.sum_congr rfl fun i _ => by simp

theorem descSum_stepDown {n : Nat} {c : Nat → Rat} (h : c 0 = 1) (hk : |c (n + 1)| < 1) (z : ℂ) :
    descSum (n + 1) c z = z * descSum n (stepDown (n + 1) c) z + c (n + 1) * ascSum n (stepDown (n + 1) c) z := by
  have hd := one_sub_sq_ne hk
  have h0 := stepDown_zero h hk
  have hm : ∀ j < n, c (j + 1) = stepDown (n + 1) c (j + 1) + c (n + 1) * stepDown (n + 1) c (n - j) := fun j hj => by
    rw [stepDown, stepDown, show n + 1 - (n - j) = j + 1 by omega, show n + 1 - (j + 1) = n - j by omega]
    rw [mul_div_assoc', ← add_div, eq_div_iff hd]
    ring
  rw [ascSum_reflect, descSum, descSum, Finset.sum_range_succ, Finset.sum_range_succ', Finset.sum_range_succ',
    Finset.sum_range_succ, mul_add, mul_add, Finset.mul_sum, Finset.mul_sum, h, h0, Nat.sub_self, Nat.sub_self, h0]
  have hs : ∑ j ∈ Finset.range n, (c (j + 1) : ℂ) * z ^ (n + 1 - (j + 1))
      = ∑ j ∈ Finset.range n, z * ((stepDown (n + 1) c (j + 1) : ℂ) * z ^ (n - (j + 1)))
        + ∑ j ∈ Finset.range n, (c (n + 1) : ℂ) * ((stepDown (n + 1) c (n - j) : ℂ) * z ^ (n - j)) := by
    rw [← Finset.sum_add_distrib]
    refine Finset.sum_congr rfl fun j hj => ?_
    have hj := Finset.mem_range.1 hj
    rw [hm j hj, show n + 1 - (j + 1) = (n - (j + 1)) + 1 by omega, show n - j = (n - (j + 1)) + 1 by omega]
    push_cast
    ring
  rw [hs, Nat.sub_zero, Nat.sub_zero]
  push_cast
  ring

theorem descSum_of_stepDown_sub {n : Nat} {c : Nat → Rat} (h : c 0 = 1) (hk : |c (n + 1)| < 1) (z : ℂ) :
    (1 - c (n + 1) * c (n + 1)) * (z * descSum n (stepDown (n + 1) c) z) = descSum (n + 1) c z - c (n + 1) * ascSum (n + 1) c z := by
  have hd := one_sub_sq_ne hk
  have hm : ∀ i, (1 - c (n + 1) * c (n + 1) : ℂ) * (stepDown (n + 1) c i : ℂ) = c i - c (n + 1) * c (n + 1 - i) := fun i => by
    rw [stepDown]; push_cast
    exact mul_div_cancel₀ _ (by exact_mod_cast hd)
  rw [ascSum_reflect, descSum, descSum, Finset.mul_sum, Finset.mul_sum, Finset.mul_sum, ← Finset.sum_sub_distrib, Finset.sum_range_succ (n := n + 1)]
  rw [Nat.sub_self, h]
  simp only [pow_zero, Rat.cast_one, mul_one, sub_self, add_zero]
  refine Finset.sum_congr rfl fun i hi => ?_
  have := Finset.mem_range.1 hi
  rw [show n + 1 - i = (n - i) + 1 by omega, pow_succ, mul_left_comm, ← mul_assoc _ (stepDown _ _ _ : ℂ), hm,
    show n + 1 - i = (n - i) + 1 by omega]
  ring

/-- The step-down test (Schur and Cohn): one order. -/
theorem inside_stepDown {n : Nat} {c : Nat → Rat} (h : c 0 = 1) :
    Inside (n + 1) c ↔ |c (n + 1)| < 1 ∧ Inside n (stepDown (n + 1) c) := by
  constructor
  · intro hi
    have hk := norm_last_lt h hi
    refine ⟨hk, fun z hz => ?_⟩
    by_contra hn
    have hn := not_lt.1 hn
    have he := descSum_of_stepDown_sub h hk z
    rw [hz, mul_zero, mul_zero] at he
    have hr := norm_ascSum_le h hi hn
    have hf : ‖descSum (n + 1) c z‖ = ((|c (n + 1)| : Rat) : ℝ) * ‖ascSum (n + 1) c z‖ := by
      rw [← norm_ratCast, ← norm_mul, ← sub_eq_zero.1 he.symm]
    have hkq : ((|c (n + 1)| : Rat) : ℝ) < 1 := by exact_mod_cast hk
    have hk0 : (0 : ℝ) ≤ ((|c (n + 1)| : Rat) : ℝ) := by exact_mod_cast abs_nonneg _
    have : ‖descSum (n + 1) c z‖ = 0 := by nlinarith [norm_nonneg (descSum (n + 1) c z), mul_le_mul_of_nonneg_left hr hk0]
    exact absurd (hi z (norm_eq_zero.1 this)) (not_lt.2 hn)
  · rintro ⟨hk, hi⟩ z hz
    by_contra hn
    have hn := not_lt.1 hn
    have hd := one_sub_sq_ne hk
    have h0 := stepDown_zero h hk
    have hr := norm_ascSum_le h0 hi hn
    have he := descSum_stepDown h hk z
    rw [hz] at he
    have hf : ‖z‖ * ‖descSum n (stepDown (n + 1) c) z‖ = ((|c (n + 1)| : Rat) : ℝ) * ‖ascSum n (stepDown (n + 1) c) z‖ := by
      rw [← norm_ratCast, ← norm_mul, ← norm_mul, ← norm_neg, eq_neg_of_add_eq_zero_left he.symm, neg_neg]
    have hkq : ((|c (n + 1)| : Rat) : ℝ) < 1 := by exact_mod_cast hk
    have hk0 : (0 : ℝ) ≤ ((|c (n + 1)| : Rat) : ℝ) := by exact_mod_cast abs_nonneg _
    have : ‖descSum n (stepDown (n + 1) c) z‖ = 0 := by
      nlinarith [norm_nonneg (descSum n (stepDown (n + 1) c) z), norm_nonneg (ascSum n (stepDown (n + 1) c) z), mul_le_mul_of_nonneg_left hr hk0]
    exact absurd (hi z (norm_eq_zero.1 this)) (not_lt.2 hn)

end

/-! ## The phase of a minimum-phase filter on the unit circle -/

theorem norm_circle (w : ℝ) : ‖Complex.exp (-(w * Complex.I))‖ = 1 := by
  rw [Complex.norm_exp]; simp

theorem conj_circle (w : ℝ) :
    (starRingEnd ℂ) (Complex.exp (-(w * Complex.I))) = (Complex.exp (-(w * Complex.I)))⁻¹ := by
  rw [← Complex.exp_conj, ← Complex.exp_neg]; simp

/-- A factor `1 - r u` lies right of the imaginary axis. -/
theorem factor_mem_slitPlane {r u : ℂ} (hr : ‖r‖ < 1) (hu : ‖u‖ = 1) : 1 - r * u ∈ Complex.slitPlane := by
  have h1 : ‖r * u‖ < 1 := by rw [norm_mul, hu, mul_one]; exact hr
  have h2 := (abs_le.1 (Complex.abs_re_le_norm (r * u))).2
  refine .inl ?_
  rw [Complex.sub_re, Complex.one_re]
  linarith

theorem prod_eq_exp (s : Multiset ℂ) (h : ∀ x ∈ s, x ≠ 0) :
    ∃ ρ : ℝ, 0 < ρ ∧ s.prod = ρ * Complex.exp ((s.map Complex.arg).sum * Complex.I) := by
  induction s using Multiset.induction with
  | empty => exact ⟨1, one_pos, by simp⟩
  | cons x s ih =>
    obtain ⟨ρ, h0, hs⟩ := ih fun y hy => h y (Multiset.mem_cons_of_mem hy)
    refine ⟨‖x‖ * ρ, mul_pos (norm_pos_iff.2 (h x (Multiset.mem_cons_self x s))) h0, ?_⟩
    rw [Multiset.prod_cons, hs, Multiset.map_cons, Multiset.sum_cons]
    conv_lhs => rw [← Complex.norm_mul_exp_arg_mul_I x]
    push_cast
    rw [add_mul, Complex.exp_add]
    ring

/-- At a real point the phases of conjugate factors cancel. -/
theorem sum_arg_real {s : Multiset ℂ} (hc : s.map (starRingEnd ℂ) = s) (hi : ∀ r ∈ s, ‖r‖ < 1) {e : ℝ} (he : |e| = 1) :
    (s.map fun r => Complex.arg (1 - r * e)).sum = 0 := by
  have hu : ‖(e : ℂ)‖ = 1 := by rw [Complex.norm_real, Real.norm_eq_abs, he]
  have h : (s.map fun r => Complex.arg (1 - r * e)).sum = -(s.map fun r => Complex.arg (1 - r * e)).sum := by
    conv_lhs => rw [← hc]
    rw [← Multiset.sum_map_neg', Multiset.map_map, Multiset.map_map]
    congr 1
    refine Multiset.map_congr rfl fun r hr => ?_
    have hm := factor_mem_slitPlane (hi r hr) hu
    rw [Function.comp_apply, Function.comp_apply, show 1 - (starRingEnd ℂ) r * (e : ℂ) = (starRingEnd ℂ) (1 - r * e) by simp, Complex.arg_conj,
      if_neg (Complex.mem_slitPlane_iff_arg.1 hm).1]
  linarith

/-- On the unit circle the filter is a positive magnitude times a phase whose excess `θ` over the linear one rises
continuously from 0 to `(n + 1) π / 2`. -/
theorem exists_phase {n : Nat} {c : Nat → Rat} (h : c 0 = 1) (hi : Inside n c) :
    ∃ θ : ℝ → ℝ, Continuous θ ∧ θ 0 = 0 ∧ θ Real.pi = (n + 1) * (Real.pi / 2) ∧ ∀ w : ℝ, ∃ ρ : ℝ, 0 < ρ ∧
      ascSum n c (Complex.exp (-(w * Complex.I))) = ρ * Complex.exp ((θ w - w * (n + 1) / 2 : ℝ) * Complex.I) := by
  obtain ⟨s, hn, hs, hc, hin⟩ := exists_roots_inside h hi
  refine ⟨fun w => (s.map fun r => Complex.arg (1 - r * Complex.exp (-(w * Complex.I)))).sum + w * (n + 1) / 2, ?_, ?_, ?_, ?_⟩
  · refine (continuous_multiset_sum s fun r hr => ?_).add (by fun_prop)
    refine continuous_iff_continuousAt.2 fun w => ?_
    exact ContinuousAt.comp (f := fun w : ℝ => 1 - r * Complex.exp (-(w * Complex.I)))
      (Complex.continuousAt_arg (factor_mem_slitPlane (hin r hr) (norm_circle w))) (by fun_prop)
  · have := sum_arg_real hc hin (e := 1) (by simp)
    simpa using this
  · have := sum_arg_real hc hin (e := -1) (by simp)
    have he : Complex.exp (-((Real.pi : ℂ) * Complex.I)) = ((-1 : ℝ) : ℂ) := by rw [Complex.exp_neg, Complex.exp_pi_mul_I]; norm_num
    simp only [he, this]
    ring
  · intro w
    have hne : Complex.exp (-(w * Complex.I)) ≠ 0 := Complex.exp_ne_zero _
    obtain ⟨ρ, h0, hp⟩ := prod_eq_exp (s.map fun r => 1 - r * Complex.exp (-(w * Complex.I))) fun x hx => by
      obtain ⟨r, hr, rfl⟩ := Multiset.mem_map.1 hx
      exact Complex.slitPlane_ne_zero (factor_mem_slitPlane (hin r hr) (norm_circle w))
    refine ⟨ρ, h0, ?_⟩
    rw [ascSum_eq_prod hn hs hne, hp, Multiset.map_map]
    congr 3
    simp only [add_sub_cancel_right]
    rfl

/-- A continuous phase passes every multiple of a quarter turn on its way, in order. -/
theorem exists_crossings {θ : ℝ → ℝ} (hθ : Continuous θ) {hi : ℝ} (n : Nat) {lo : ℝ} {m : Nat} (hlo : lo < hi)
    (h0 : θ lo = m * (Real.pi / 2)) (h1 : θ hi = (m + n + 1 : Nat) * (Real.pi / 2)) :
    ∃ w : List ℝ, w.length = n ∧ w.Pairwise (· < ·) ∧ (∀ x ∈ w, lo < x ∧ x < hi)
      ∧ ∀ k (h : k < w.length), θ w[k] = (m + k + 1 : Nat) * (Real.pi / 2) := by
  induction n generalizing lo m with
  | zero => exact ⟨[], rfl, .nil, by simp, by simp⟩
  | succ n ih =>
    have hp := Real.pi_pos
    have hmem : ((m + 1 : Nat) : ℝ) * (Real.pi / 2) ∈ Set.Ioo (θ lo) (θ hi) := by
      rw [h0, h1]
      push_cast
      constructor <;> nlinarith [(Nat.cast_nonneg n : (0 : ℝ) ≤ n)]
    obtain ⟨x, hx, hv⟩ := intermediate_value_Ioo hlo.le hθ.continuousOn hmem
    obtain ⟨w, hl, hw, hr, hk⟩ := ih hx.2 hv (by rw [h1]; congr 2; omega)
    refine ⟨x :: w, by simp [hl], List.pairwise_cons.2 ⟨fun y hy => (hr y hy).1, hw⟩, ?_, ?_⟩
    · intro y hy
      rcases List.mem_cons.1 hy with rfl | hy
      · exact hx
      · exact ⟨hx.1.trans (hr y hy).1, (hr y hy).2⟩
    · intro k h
      cases k with
      | zero => exact hv
      | succ k => rw [List.getElem_cons_succ, hk k (by simpa using h)]; congr 2; omega

/-! ## Filters as lists -/

/-- The step-down test on a filter of order `n`: every reflection coefficient lies in `(-1, 1)`. -/
def stableFrom : Nat → List Rat → Bool
  | 0, _ => true
  | n + 1, a => decide (|a.getD (n + 1) 0| < 1)
    && stableFrom n ((List.range (n + 1)).map (stepDown (n + 1) fun i => a.getD i 0))

/-- The filter is monic and minimum phase (R181). -/
def stable (a : List Rat) : Bool := decide (a.head? = some 1) && stableFrom (a.length - 1) a

theorem inside_congr {n : Nat} {c d : Nat → Rat} (h : ∀ i ≤ n, c i = d i) : Inside n c ↔ Inside n d := by
  have he : ∀ z, descSum n c z = descSum n d z := fun z =>
    Finset.sum_congr rfl fun i hi => by rw [h i (Nat.lt_succ_iff.1 (Finset.mem_range.1 hi))]
  simp only [Inside, he]

theorem stableFrom_iff (n : Nat) (a : List Rat) (h : a.getD 0 0 = 1) :
    stableFrom n a = true ↔ Inside n fun i => a.getD i 0 := by
  induction n generalizing a with
  | zero => exact ⟨fun _ z hz => by simp [descSum] at hz; simp_all, fun _ => rfl⟩
  | succ n ih =>
    rw [inside_stepDown (c := fun i => a.getD i 0) h, stableFrom, Bool.and_eq_true, decide_eq_true_iff]
    refine and_congr_right fun hk => ?_
    have hget : ∀ i ≤ n, ((List.range (n + 1)).map (stepDown (n + 1) fun i => a.getD i 0)).getD i 0
        = stepDown (n + 1) (fun i => a.getD i 0) i := fun i hi => by
      simp [List.getD, Nat.lt_succ_of_le hi]
    rw [ih _ (by rw [hget 0 (Nat.zero_le n)]; exact stepDown_zero h hk)]
    exact inside_congr hget

theorem getD_of_head {a : List Rat} (h : a.head? = some 1) : a.getD 0 0 = 1 := by
  cases a with
  | nil => cases h
  | cons x a => simpa using h

theorem minPhase_iff {a : List Rat} : MinPhase a ↔ a.head? = some 1 ∧ Inside (a.length - 1) fun i => a.getD i 0 := by
  cases a with
  | nil => simp [MinPhase]
  | cons x a => rfl

/-- The test decides whether a filter is minimum phase. -/
theorem stable_iff (a : List Rat) : stable a = true ↔ MinPhase a := by
  rw [minPhase_iff, stable, Bool.and_eq_true, decide_eq_true_iff]
  exact and_congr_right fun h => stableFrom_iff _ a (getD_of_head h)

/-- The filters of order 2 that are minimum phase: the stability triangle. -/
theorem minPhase_two (a1 a2 : Rat) : MinPhase [1, a1, a2] ↔ -1 < a1 + a2 ∧ a1 - a2 < 1 ∧ a2 < 1 := by
  rw [← stable_iff]
  simp [stable, stableFrom, stepDown, List.range_succ, abs_lt]
  constructor
  · rintro ⟨⟨k1, k2⟩, m1, m2⟩
    have hd : 0 < 1 - a2 * a2 := by nlinarith
    rw [lt_div_iff₀ hd] at m1
    rw [div_lt_one hd] at m2
    refine ⟨?_, ?_, k2⟩ <;> nlinarith
  · rintro ⟨c0, c1, c2⟩
    have k1 : -1 < a2 := by linarith
    have hd : 0 < 1 - a2 * a2 := by nlinarith
    rw [lt_div_iff₀ hd, div_lt_one hd]
    refine ⟨⟨k1, c2⟩, ?_, ?_⟩ <;> nlinarith

theorem minPhase_flat (p : Nat) : MinPhase (1 :: List.replicate p 0) := by
  refine ⟨rfl, fun z hz => ?_⟩
  rw [List.length_cons, List.length_replicate, Finset.sum_range_succ', Finset.sum_eq_zero fun i hi => by
    simp [List.getD, Finset.mem_range.1 hi]] at hz
  have : z = 0 := by
    simp at hz
    exact hz.1
  rw [this, norm_zero]
  exact one_pos

/-! ## Roots of `P` and `Q` -/

open Polynomial in
/-- The polynomial of a list of coefficients. -/
noncomputable def coeffPoly : List Rat → ℚ[X]
  | [] => 0
  | a :: p => C a + X * coeffPoly p

section

open Polynomial

theorem coeffPoly_add (p q : List Rat) : coeffPoly (polyAdd p q) = coeffPoly p + coeffPoly q := by
  induction p, q using polyAdd.induct with
  | case1 q => simp [polyAdd, coeffPoly]
  | case2 p h => cases p <;> simp [polyAdd, coeffPoly]
  | case3 a p b q ih => simp only [polyAdd, coeffPoly, ih, C_add]; ring

theorem coeffPoly_smul (a : Rat) (q : List Rat) : coeffPoly (q.map (a * ·)) = C a * coeffPoly q := by
  induction q with
  | nil => simp [coeffPoly]
  | cons b q ih => simp only [List.map_cons, coeffPoly, ih, C_mul]; ring

theorem coeffPoly_mul (p q : List Rat) : coeffPoly (polyMul p q) = coeffPoly p * coeffPoly q := by
  induction p with
  | nil => simp [polyMul, coeffPoly]
  | cons a p ih => simp only [polyMul, coeffPoly_add, coeffPoly_smul, coeffPoly, ih, C_0]; ring

/-- The value at `u` of the polynomial of a list of coefficients. -/
noncomputable def polyValue (u : ℂ) (p : List Rat) : ℂ := aeval u (coeffPoly p)

end

theorem polyValue_nil (u : ℂ) : polyValue u [] = 0 := by simp [polyValue, coeffPoly]

theorem polyValue_cons (u : ℂ) (a : Rat) (p : List Rat) : polyValue u (a :: p) = a + u * polyValue u p := by
  simp [polyValue, coeffPoly]

theorem polyValue_eq_sum (u : ℂ) (p : List Rat) :
    polyValue u p = ∑ i ∈ Finset.range p.length, ((p.getD i 0 : Rat) : ℂ) * u ^ i := by
  induction p with
  | nil => exact polyValue_nil u
  | cons a p ih =>
    rw [polyValue_cons, ih, List.length_cons, Finset.sum_range_succ', Finset.mul_sum, add_comm]
    congr 1
    · exact Finset.sum_congr rfl fun i _ => by rw [List.getD_cons_succ]; ring
    · simp

theorem polyValue_add (u : ℂ) (p q : List Rat) : polyValue u (polyAdd p q) = polyValue u p + polyValue u q := by
  simp [polyValue, coeffPoly_add]

theorem polyValue_smul (u : ℂ) (a : Rat) (q : List Rat) : polyValue u (q.map (a * ·)) = a * polyValue u q := by
  simp [polyValue, coeffPoly_smul]

theorem polyValue_mul (u : ℂ) (p q : List Rat) : polyValue u (polyMul p q) = polyValue u p * polyValue u q := by
  simp [polyValue, coeffPoly_mul]

theorem vanishesAt_iff {p : List Rat} {w : ℝ} : VanishesAt p w ↔ polyValue (Complex.exp (-(w * Complex.I))) p = 0 := by
  rw [polyValue_eq_sum]; rfl

theorem polyValue_sumPoly (u : ℂ) (a : List Rat) :
    polyValue u (sumPoly a) = polyValue u a + u * polyValue u a.reverse := by
  simp [sumPoly, polyValue_add, polyValue_cons]

theorem polyValue_diffPoly (u : ℂ) (a : List Rat) :
    polyValue u (diffPoly a) = polyValue u a - u * polyValue u a.reverse := by
  simp only [diffPoly, polyValue_add, polyValue_smul, polyValue_cons]
  push_cast
  ring

theorem polyValue_eq_ascSum (u : ℂ) {a : List Rat} (h : a ≠ []) :
    polyValue u a = ascSum (a.length - 1) (fun i => a.getD i 0) u := by
  have := List.length_pos_of_ne_nil h
  rw [polyValue_eq_sum, ascSum, Nat.sub_add_cancel this]

theorem polyValue_reverse (u : ℂ) {a : List Rat} (h : a ≠ []) :
    polyValue u a.reverse = descSum (a.length - 1) (fun i => a.getD i 0) u := by
  have := List.length_pos_of_ne_nil h
  rw [polyValue_eq_sum, descSum, ← Finset.sum_range_reflect, List.length_reverse, Nat.sub_add_cancel this]
  refine Finset.sum_congr rfl fun i hi => ?_
  have hi := Finset.mem_range.1 hi
  congr 2
  rw [List.getD, List.getElem?_reverse (by omega), show a.length - 1 - (a.length - 1 - i) = i by omega]
  rfl

/-- On the unit circle the two halves of `P` and `Q` are a magnitude times opposite phases. -/
theorem halves_of_phase {n : Nat} {c : Nat → Rat} {w ρ t : ℝ}
    (h : ascSum n c (Complex.exp (-(w * Complex.I))) = ρ * Complex.exp ((t - w * (n + 1) / 2 : ℝ) * Complex.I)) :
    Complex.exp (-(w * Complex.I)) * descSum n c (Complex.exp (-(w * Complex.I)))
      = ρ * Complex.exp ((-t - w * (n + 1) / 2 : ℝ) * Complex.I) := by
  set u := Complex.exp (-(w * Complex.I)) with hu
  have hne : u ≠ 0 := Complex.exp_ne_zero _
  have hd : descSum n c u = u ^ n * (starRingEnd ℂ) (ascSum n c u) := by
    rw [ascSum_eq n c hne, map_mul, map_pow, ← conj_circle w, conj_descSum, ← hu, Complex.conj_conj, ← mul_assoc, ← mul_pow,
      hu, conj_circle, mul_inv_cancel₀ hne, one_pow, one_mul]
  rw [hd, h, map_mul, Complex.conj_ofReal, ← Complex.exp_conj, map_mul, Complex.conj_ofReal, Complex.conj_I, ← mul_assoc,
    ← pow_succ', hu, ← Complex.exp_nat_mul, mul_left_comm, ← Complex.exp_add]
  congr 2
  push_cast
  ring

/-- The roots of `P` and `Q` of a minimum-phase filter interlace on the unit circle (R181). -/
theorem interlaced_of_minPhase {a : List Rat} (h : MinPhase a) : Interlaced a := by
  have ha : a ≠ [] := by rintro rfl; cases h.1
  have hlen := List.length_pos_of_ne_nil ha
  obtain ⟨h1, hi⟩ := minPhase_iff.1 h
  have h1 := getD_of_head h1
  obtain ⟨θ, hc, h0, hp, hθ⟩ := exists_phase (c := fun i => a.getD i 0) h1 hi
  obtain ⟨w, hl, hw, hr, hk⟩ := exists_crossings hc (a.length - 1) (m := 0) Real.pi_pos (by simpa using h0)
    (by rw [hp]; push_cast; ring)
  refine ⟨w, by omega, hw, hr, fun k hlt => ?_⟩
  obtain ⟨ρ, -, he⟩ := hθ w[k]
  have hd := halves_of_phase he
  have hq : Complex.exp ((θ w[k] - w[k] * ((a.length - 1 : Nat) + 1) / 2 : ℝ) * Complex.I)
      = (-1) ^ (k + 1) * Complex.exp ((-θ w[k] - w[k] * ((a.length - 1 : Nat) + 1) / 2 : ℝ) * Complex.I) := by
    rw [← Complex.exp_pi_mul_I, ← Complex.exp_nat_mul, ← Complex.exp_add, hk k hlt]
    congr 1
    push_cast
    ring
  rw [vanishesAt_iff]
  split_ifs with hm
  · rw [polyValue_sumPoly, polyValue_eq_ascSum _ ha, polyValue_reverse _ ha, hd, he, hq,
      Odd.neg_one_pow (Nat.odd_iff.2 (by omega))]
    ring
  · rw [polyValue_diffPoly, polyValue_eq_ascSum _ ha, polyValue_reverse _ ha, hd, he, hq,
      Even.neg_one_pow (Nat.even_iff.2 (by omega))]
    ring

/-- A factor `1 - 2 cos(w) z^-1 + z^-2` has its roots at the angles `w` and `-w`. -/
theorem quad_value (w : ℝ) :
    1 - 2 * (Real.cos w : ℂ) * Complex.exp (-(w * Complex.I)) + Complex.exp (-(w * Complex.I)) ^ 2 = 0 := by
  rw [Complex.ofReal_cos, Complex.cos, mul_div_cancel₀ _ (two_ne_zero), add_mul, ← Complex.exp_add, ← neg_mul, neg_mul,
    add_neg_cancel, Complex.exp_zero]
  ring

theorem quadProduct_value {u : ℂ} {c : Rat} {cs : List Rat} (h : c ∈ cs) (hu : 1 - 2 * (c : ℂ) * u + u ^ 2 = 0) :
    polyValue u (quadProduct cs) = 0 := by
  induction cs with
  | nil => cases h
  | cons d cs ih =>
    rw [quadProduct, polyValue_mul]
    rcases List.mem_cons.1 h with rfl | h
    · refine mul_eq_zero_of_left (Eq.trans ?_ hu) _
      simp only [polyValue_cons, polyValue_nil]
      push_cast
      ring
    · rw [ih h, mul_zero]

theorem everyOther_cons (x : Rat) (l : List Rat) : everyOther (x :: l) = x :: everyOther l.tail := by cases l <;> rfl

/-- The element at an even position of a list is an entry of `everyOther`, that at an odd one of `everyOther` of its
tail. -/
theorem getElem_mem_everyOther (l : List Rat) (k : Nat) (h : k < l.length) :
    l[k] ∈ everyOther (if k % 2 = 0 then l else l.tail) := by
  induction l using everyOther.induct generalizing k with
  | case1 => simp at h
  | case2 y =>
    have : k = 0 := by simpa using h
    subst this
    simp [everyOther]
  | case3 y z rest ih =>
    rcases k with _ | _ | k
    · simp [everyOther]
    · simp [everyOther_cons]
    · have hk := ih k (by simpa using h)
      rw [show (k + 1 + 1) % 2 = k % 2 by omega]
      simp only [List.getElem_cons_succ]
      split_ifs at hk ⊢ with hm
      · exact List.mem_cons_of_mem _ hk
      · rw [List.tail_cons, everyOther_cons]
        exact List.mem_cons_of_mem _ hk

/-- The vector that `cospi` names has its interlaced roots at the angles with its cosines (R181). -/
theorem interlacedAt_of_isLsp {cospi : Rat → Rat} (hc : ∀ x y : Rat, 0 ≤ x → x < y → y ≤ 1 → cospi y < cospi x)
    (h0 : cospi 0 = 1) (h1 : cospi 1 = -1) {a l : List Rat} (h : IsLsp cospi a l) :
    InterlacedAt a (l.map fun x => Real.arccos (cospi x)) := by
  obtain ⟨⟨hl, -⟩, hw, hr, hP, hQ⟩ := h
  have hb : ∀ x ∈ l, -1 < (cospi x : ℝ) ∧ (cospi x : ℝ) < 1 := fun x hx => by
    have hx := hr x hx
    have hu := hc 0 x le_rfl hx.1 hx.2.le
    have hd := hc x 1 hx.1.le hx.2 le_rfl
    rw [h0] at hu
    rw [h1] at hd
    exact ⟨by exact_mod_cast hd, by exact_mod_cast hu⟩
  refine ⟨by rw [List.length_map, hl], ?_, ?_, ?_⟩
  · rw [List.pairwise_map]
    refine hw.imp_of_mem fun {x y} hx hy hxy => ?_
    refine Real.strictAntiOn_arccos ⟨(hb y hy).1.le, (hb y hy).2.le⟩ ⟨(hb x hx).1.le, (hb x hx).2.le⟩ ?_
    exact_mod_cast hc x y (hr x hx).1.le hxy (hr y hy).2.le
  · intro w hm
    obtain ⟨x, hx, rfl⟩ := List.mem_map.1 hm
    exact ⟨Real.arccos_pos.2 (hb x hx).2, Real.arccos_lt_pi.2 (hb x hx).1⟩
  · intro k hk
    have hk' : k < l.length := by simpa using hk
    have hm := getElem_mem_everyOther l k hk'
    have hx := hb _ (List.getElem_mem hk')
    have hv := quad_value (Real.arccos (cospi l[k]))
    rw [Real.cos_arccos hx.1.le hx.2.le] at hv
    rw [List.getElem_map, vanishesAt_iff]
    split_ifs at hm ⊢
    · rw [hP, polyValue_mul, quadProduct_value (List.mem_map_of_mem hm) (by exact_mod_cast hv), mul_zero]
    · rw [hQ, polyValue_mul, quadProduct_value (List.mem_map_of_mem hm) (by exact_mod_cast hv), mul_zero]

end Sys2Proof
end

