-- ==== Sys2Proof/Machine/UnitRoots.lean ====
section
/-! DEFINITION. The exact LSP vector where it is rational (R181): a test that decides whether a polynomial has a root at a
rational multiple of `pi`, a search that finds the vector, and that there is at most one. `Num.sample` answers by them. -/

namespace Sys2Proof

open Machine

/-! ## A root at a root of unity -/

/-- `x^e - 1`. -/
def unitPoly (e : Nat) : List Rat := -1 :: (List.replicate (e - 1) 0 ++ [1])

/-- The product of `x^e - 1` over the proper divisors `e` of `d`: it vanishes at every `d`-th root of unity but the
primitive ones. -/
def lowerRoots (d : Nat) : List Rat :=
  (((List.range d).filter fun e => decide (0 < e ∧ d % e = 0)).map unitPoly).foldr polyMul [1]

/-- The coefficients of `p` whose positions are `r` modulo `d`, summed. -/
def foldCoeff (d : Nat) (p : List Rat) (r : Nat) : Rat :=
  ((List.range p.length).map fun j => if j % d = r then p.getD j 0 else 0).sum

/-- `p` vanishes at every `d`-th root of unity. -/
def vanishesAll (d : Nat) (p : List Rat) : Bool := (List.range d).all fun r => decide (foldCoeff d p r = 0)

/-- `p` has a root on the unit circle at the angle `pi * x`. -/
def vanishesTest (p : List Rat) (x : Rat) : Bool :=
  vanishesAll (x / 2).den (polyMul p (lowerRoots (x / 2).den))

theorem polyValue_foldCoeff {d : Nat} (hd : 0 < d) (p : List Rat) {z : ℂ} (hz : z ^ d = 1) :
    polyValue z p = ∑ r ∈ Finset.range d, (foldCoeff d p r : ℂ) * z ^ r := by
  have hf : ∀ r, (foldCoeff d p r : ℂ) = ∑ j ∈ Finset.range p.length, if j % d = r then (p.getD j 0 : ℂ) else 0 :=
    fun r => by
      rw [foldCoeff, ← List.sum_toFinset _ List.nodup_range, List.toFinset_range]
      push_cast
      exact Finset.sum_congr rfl fun j _ => by split_ifs <;> simp
  simp only [hf, Finset.sum_mul, polyValue_eq_sum]
  rw [Finset.sum_comm]
  refine Finset.sum_congr rfl fun j _ => ?_
  rw [Finset.sum_eq_single (j % d)]
  · rw [if_pos rfl, ← pow_mod_orderOf z j, ← pow_mod_orderOf z (j % d),
      Nat.mod_mod_of_dvd j (orderOf_dvd_of_pow_eq_one hz)]
  · intro r _ hr
    rw [if_neg hr.symm, zero_mul]
  · intro h
    exact absurd (Finset.mem_range.2 (Nat.mod_lt j hd)) h

section

open Polynomial

theorem vanishesAll_iff {d : Nat} (hd : 0 < d) (p : List Rat) :
    vanishesAll d p = true ↔ ∀ z : ℂ, z ^ d = 1 → polyValue z p = 0 := by
  rw [vanishesAll, List.all_eq_true]
  simp only [List.mem_range, decide_eq_true_iff]
  constructor
  · intro h z hz
    rw [polyValue_foldCoeff hd p hz]
    exact Finset.sum_eq_zero fun r hr => by rw [h r (Finset.mem_range.1 hr)]; simp
  · intro h r hr
    set G : ℂ[X] := ∑ r ∈ Finset.range d, C (foldCoeff d p r : ℂ) * X ^ r with hG
    have hdeg : G.degree < d := by
      refine (degree_sum_le _ _).trans_lt ((Finset.sup_lt_iff (by exact WithBot.bot_lt_coe d)).2 fun i hi => ?_)
      exact (degree_C_mul_X_pow_le _ _).trans_lt (by exact_mod_cast Finset.mem_range.1 hi)
    have h0 : G = 0 := by
      refine eq_zero_of_degree_lt_of_eval_finset_eq_zero (nthRootsFinset d (1 : ℂ)) ?_ fun z hz => ?_
      · rw [(Complex.isPrimitiveRoot_exp d hd.ne').card_nthRootsFinset]; exact hdeg
      · have hz := (mem_nthRootsFinset hd (1 : ℂ)).1 hz
        have := h z hz
        rw [polyValue_foldCoeff hd p hz] at this
        rw [hG, eval_finsetSum]
        simpa using this
    have hc := congrArg (fun q => coeff q r) h0
    simp only [hG, finsetSum_coeff, coeff_C_mul, coeff_X_pow, coeff_zero] at hc
    rw [Finset.sum_eq_single r (fun i _ hi => by rw [if_neg hi.symm, mul_zero])
      (fun hn => absurd (Finset.mem_range.2 hr) hn), if_pos rfl, mul_one] at hc
    exact_mod_cast hc

theorem polyValue_monomial (z : ℂ) (n : Nat) : polyValue z (List.replicate n 0 ++ [1]) = z ^ n := by
  induction n with
  | zero => simp [polyValue_cons, polyValue_nil]
  | succ n ih => rw [List.replicate_succ, List.cons_append, polyValue_cons, ih, pow_succ]; simp; ring

theorem polyValue_zeros (z : ℂ) (n : Nat) : polyValue z (List.replicate n 0) = 0 := by
  induction n with
  | zero => exact polyValue_nil z
  | succ n ih => rw [List.replicate_succ, polyValue_cons, ih]; simp

theorem polyValue_unitPoly (z : ℂ) {e : Nat} (he : 0 < e) : polyValue z (unitPoly e) = z ^ e - 1 := by
  rw [unitPoly, polyValue_cons, polyValue_monomial, ← pow_succ', Nat.sub_add_cancel he]
  push_cast
  ring

/-- The product vanishes at a `d`-th root of unity if and only if that root is not primitive. -/
theorem lowerRoots_eq_zero_iff {d : Nat} (hd : 0 < d) {z : ℂ} (hz : z ^ d = 1) :
    polyValue z (lowerRoots d) = 0 ↔ ¬IsPrimitiveRoot z d := by
  have hp : ∀ L : List (List Rat), polyValue z (L.foldr polyMul [1]) = 0 ↔ ∃ q ∈ L, polyValue z q = 0 := fun L => by
    induction L with
    | nil => simp [polyValue_cons, polyValue_nil]
    | cons q L ih => rw [List.foldr_cons, polyValue_mul, mul_eq_zero, ih]; simp
  rw [lowerRoots, hp, ← not_iff_not, not_not]
  constructor
  · intro h
    refine IsPrimitiveRoot.mk_of_lt z hd hz fun e h0 hlt hone => h ⟨_, List.mem_map.2 ⟨e.gcd d, List.mem_filter.2 ⟨?_, ?_⟩, rfl⟩, ?_⟩
    · exact List.mem_range.2 ((Nat.gcd_le_left d h0).trans_lt hlt)
    · exact decide_eq_true ⟨Nat.gcd_pos_of_pos_left d h0, Nat.mod_eq_zero_of_dvd (Nat.gcd_dvd_right e d)⟩
    · rw [polyValue_unitPoly z (Nat.gcd_pos_of_pos_left d h0), sub_eq_zero]
      exact orderOf_dvd_iff_pow_eq_one.1 (Nat.dvd_gcd (orderOf_dvd_of_pow_eq_one hone) (orderOf_dvd_of_pow_eq_one hz))
  · rintro h ⟨q, hq, hv⟩
    obtain ⟨e, he, rfl⟩ := List.mem_map.1 hq
    obtain ⟨hlt, he⟩ := List.mem_filter.1 he
    obtain ⟨h0, -⟩ := of_decide_eq_true he
    rw [polyValue_unitPoly z h0, sub_eq_zero] at hv
    exact h.pow_ne_one_of_pos_of_lt h0.ne' (List.mem_range.1 hlt) hv

/-- A polynomial with a primitive root of unity as a root is a multiple of the cyclotomic polynomial. -/
theorem cyclotomic_dvd {d : Nat} (hd : 0 < d) {z : ℂ} (hz : IsPrimitiveRoot z d) {p : List Rat}
    (h : polyValue z p = 0) : cyclotomic d ℚ ∣ coeffPoly p := by
  rw [cyclotomic_eq_minpoly_rat hz hd]
  exact minpoly.dvd ℚ z h

theorem polyValue_conj {d : Nat} (hd : 0 < d) {z y : ℂ} (hz : IsPrimitiveRoot z d) (hy : IsPrimitiveRoot y d)
    {p : List Rat} (h : polyValue z p = 0) : polyValue y p = 0 := by
  obtain ⟨q, hq⟩ := cyclotomic_dvd hd hz h
  rw [cyclotomic_eq_minpoly_rat hy hd] at hq
  rw [polyValue, hq, map_mul, minpoly.aeval, zero_mul]

/-- The point of the unit circle at a rational multiple of `pi`. -/
theorem isPrimitiveRoot_angle (x : Rat) :
    IsPrimitiveRoot (Complex.exp (-(((Real.pi * (x : ℝ) : ℝ) : ℂ) * Complex.I))) (x / 2).den := by
  have h := Complex.isPrimitiveRoot_exp_rat (-(x / 2))
  rw [Rat.neg_den] at h
  convert h using 2
  push_cast
  ring

/-- The test decides whether a polynomial has a root at a rational multiple of `pi`. -/
theorem vanishesTest_iff (p : List Rat) (x : Rat) : vanishesTest p x = true ↔ VanishesAt p (Real.pi * (x : ℝ)) := by
  have hd : 0 < (x / 2).den := (x / 2).den_pos
  have hx := isPrimitiveRoot_angle x
  rw [vanishesTest, vanishesAll_iff hd, vanishesAt_iff]
  constructor
  · intro h
    have := h _ hx.pow_eq_one
    rw [polyValue_mul] at this
    exact (mul_eq_zero.1 this).resolve_right fun h0 => (lowerRoots_eq_zero_iff hd hx.pow_eq_one).1 h0 hx
  · intro h z hz
    rw [polyValue_mul, mul_eq_zero]
    by_cases hp : IsPrimitiveRoot z (x / 2).den
    · exact .inl (polyValue_conj hd hx hp h)
    · exact .inr ((lowerRoots_eq_zero_iff hd hz).2 hp)

/-! ## The angles a polynomial can have -/

/-- A multiple of the order of every root of unity that is a root of a polynomial of at most `n` coefficients. -/
def orderBound (n : Nat) : Nat := (n + 1).factorial ^ (n + 1)

theorem dvd_orderBound {d n : Nat} (hd : 0 < d) (h : d.totient ≤ n) : d ∣ orderBound n := by
  refine (Nat.dvd_iff_prime_pow_dvd_dvd _ _).2 fun q k hq hk => ?_
  rcases Nat.eq_zero_or_pos k with rfl | hk0
  · simp
  have hle : (q ^ k).totient ≤ n :=
    (Nat.le_of_dvd (Nat.totient_pos.2 hd) (Nat.totient_dvd_of_dvd hk)).trans h
  rw [Nat.totient_prime_pow hq hk0] at hle
  have h1 : 0 < q ^ (k - 1) := pow_pos hq.pos _
  have h2 : 0 < q - 1 := by have := hq.two_le; omega
  have hq1 : q - 1 ≤ n := (Nat.le_mul_of_pos_left _ h1).trans hle
  have hk1 : k - 1 < n + 1 :=
    (Nat.lt_pow_self hq.one_lt).trans_le (((Nat.le_mul_of_pos_right _ h2).trans hle).trans n.le_succ)
  exact (pow_dvd_pow_of_dvd (Nat.dvd_factorial hq.pos (by omega)) k).trans (pow_dvd_pow _ (by omega))

theorem degree_coeffPoly (p : List Rat) : (coeffPoly p).degree < p.length := by
  induction p with
  | nil => simp [coeffPoly]
  | cons a p ih =>
    rw [coeffPoly, List.length_cons]
    refine (degree_add_le _ _).trans_lt (max_lt (degree_C_le.trans_lt (by exact_mod_cast p.length.succ_pos)) ?_)
    rw [degree_mul, degree_X, Nat.cast_add, Nat.cast_one, add_comm]
    exact WithBot.add_lt_add_right (by simp) ih

theorem coeff_zero_coeffPoly (p : List Rat) : (coeffPoly p).coeff 0 = p.getD 0 0 := by
  cases p <;> simp [coeffPoly]

/-- The fractions of `pi` at which a polynomial of at most `n` coefficients can have a root. -/
def angleCandidates (n : Nat) : List Rat := (List.range (orderBound n)).map fun i : Nat => (i : Rat) / orderBound n

theorem orderBound_pos (n : Nat) : 0 < orderBound n := pow_pos (Nat.factorial_pos _) _

theorem mem_angleCandidates {p : List Rat} (hp : p.getD 0 0 ≠ 0) {n : Nat} (hn : p.length ≤ n) {x : Rat}
    (hx : 0 < x ∧ x < 1) (h : VanishesAt p (Real.pi * (x : ℝ))) : x ∈ angleCandidates n := by
  have hd : 0 < (x / 2).den := (x / 2).den_pos
  have hne : coeffPoly p ≠ 0 := fun h0 => hp (by rw [← coeff_zero_coeffPoly, h0, coeff_zero])
  have hdeg := natDegree_le_of_dvd (cyclotomic_dvd hd (isPrimitiveRoot_angle x) (vanishesAt_iff.1 h)) hne
  rw [natDegree_cyclotomic] at hdeg
  obtain ⟨c, hc⟩ := dvd_orderBound hd
    ((hdeg.trans (natDegree_le_of_degree_le (degree_coeffPoly p).le)).trans hn)
  have hM : (0 : Rat) < orderBound n := by exact_mod_cast orderBound_pos n
  have hMx : (orderBound n : Rat) * x = ((2 * c * (x / 2).num : ℤ) : Rat) := by
    have hden := Rat.den_mul_eq_num (x / 2)
    rw [hc]
    push_cast
    rw [← hden]
    ring
  have h0 : 0 < 2 * (c : ℤ) * (x / 2).num := by exact_mod_cast hMx ▸ mul_pos hM hx.1
  have h1 : 2 * (c : ℤ) * (x / 2).num < orderBound n := by
    have : (orderBound n : Rat) * x < orderBound n := by nlinarith
    rw [hMx] at this
    exact_mod_cast this
  obtain ⟨i, hi⟩ := Int.eq_ofNat_of_zero_le h0.le
  rw [hi] at hMx h1
  refine List.mem_map.2 ⟨i, List.mem_range.2 (by exact_mod_cast h1), ?_⟩
  rw [div_eq_iff hM.ne', mul_comm, hMx]
  simp

theorem angleCandidates_pairwise (n : Nat) : (angleCandidates n).Pairwise (· < ·) := by
  rw [angleCandidates, List.pairwise_map]
  refine List.pairwise_lt_range.imp fun {i j} hij => ?_
  rw [div_lt_div_iff_of_pos_right (by exact_mod_cast orderBound_pos n)]
  exact_mod_cast hij

/-! ## At most one vector -/

theorem polyValue_star (z : ℂ) (p : List Rat) :
    polyValue ((starRingEnd ℂ) z) p = (starRingEnd ℂ) (polyValue z p) := by
  simp [polyValue_eq_sum]

/-- A polynomial with a real root has at most half as many angles in `(0, pi)` as it can have further roots. -/
theorem two_mul_card_angles {p : List Rat} (hp : p.getD 0 0 ≠ 0) {n : Nat} (hn : p.length ≤ n + 2) {e : ℂ}
    (he : e.im = 0) (hv : polyValue e p = 0) {S : Finset ℝ}
    (hS : ∀ w ∈ S, (0 < w ∧ w < Real.pi) ∧ VanishesAt p w) : 2 * S.card ≤ n := by
  set u : ℝ → ℂ := fun w => Complex.exp (-(w * Complex.I)) with hu
  have him : ∀ w, (u w).im = -Real.sin w := fun w => by simp [hu, Complex.exp_im]
  have hre : ∀ w, (u w).re = Real.cos w := fun w => by simp [hu, Complex.exp_re]
  have hneg : ∀ w ∈ S, (u w).im < 0 := fun w hw => by
    rw [him]
    exact neg_neg_of_pos (Real.sin_pos_of_pos_of_lt_pi (hS w hw).1.1 (hS w hw).1.2)
  have hinj : Set.InjOn u S := fun x hx y hy h =>
    Real.injOn_cos ⟨(hS x hx).1.1.le, (hS x hx).1.2.le⟩ ⟨(hS y hy).1.1.le, (hS y hy).1.2.le⟩
      (by rw [← hre, ← hre, h])
  set A := S.image u
  set B := A.image (starRingEnd ℂ)
  have hA : ∀ z ∈ A, z.im < 0 ∧ polyValue z p = 0 := fun z hz => by
    obtain ⟨w, hw, rfl⟩ := Finset.mem_image.1 hz
    exact ⟨hneg w hw, vanishesAt_iff.1 (hS w hw).2⟩
  have hB : ∀ z ∈ B, 0 < z.im ∧ polyValue z p = 0 := fun z hz => by
    obtain ⟨y, hy, rfl⟩ := Finset.mem_image.1 hz
    exact ⟨by rw [Complex.conj_im]; exact neg_pos.2 (hA y hy).1, by rw [polyValue_star, (hA y hy).2, map_zero]⟩
  have hcard : (insert e (A ∪ B)).card = 2 * S.card + 1 := by
    rw [Finset.card_insert_of_notMem, Finset.card_union_of_disjoint,
      Finset.card_image_of_injective _ (starRingEnd ℂ).injective, Finset.card_image_of_injOn hinj]
    · ring
    · exact Finset.disjoint_left.2 fun z h1 h2 => lt_asymm (hA z h1).1 (hB z h2).1
    · intro h
      rcases Finset.mem_union.1 h with h | h
      · exact (hA e h).1.ne he
      · exact (hB e h).1.ne' he
  by_contra hlt
  have h0 : (coeffPoly p).map (algebraMap ℚ ℂ) = 0 := by
    refine eq_zero_of_degree_lt_of_eval_finset_eq_zero (insert e (A ∪ B)) ?_ fun z hz => ?_
    · rw [degree_map, hcard]
      exact (degree_coeffPoly p).trans_le (by exact_mod_cast (by omega : p.length ≤ 2 * S.card + 1))
    · rw [eval_map_algebraMap]
      rcases Finset.mem_insert.1 hz with rfl | hz
      · exact hv
      · exact (Finset.mem_union.1 hz).elim (fun h => (hA z h).2) fun h => (hB z h).2
  rw [Polynomial.map_eq_zero] at h0
  exact hp (by rw [← coeff_zero_coeffPoly, h0, coeff_zero])

end

theorem getD_polyAdd (p q : List Rat) : (polyAdd p q).getD 0 0 = p.getD 0 0 + q.getD 0 0 := by
  cases p <;> cases q <;> simp [polyAdd]

theorem length_polyAdd (p q : List Rat) : (polyAdd p q).length = max p.length q.length := by
  induction p, q using polyAdd.induct with
  | case1 q => simp [polyAdd]
  | case2 p h => cases p <;> simp [polyAdd]
  | case3 a p b q ih => simp only [polyAdd, List.length_cons, ih]; omega

theorem sumPoly_value_neg_one {a : List Rat} (ha : a.length % 2 = 1) : polyValue (-1) (sumPoly a) = 0 := by
  have hne : a ≠ [] := by rintro rfl; cases ha
  rw [polyValue_sumPoly, polyValue_eq_ascSum _ hne, polyValue_reverse _ hne, ascSum_eq _ _ (by norm_num),
    Even.neg_one_pow (Nat.even_iff.2 (by omega)), inv_neg, inv_one]
  ring

theorem diffPoly_value_one {a : List Rat} (ha : a.length % 2 = 1) : polyValue 1 (diffPoly a) = 0 := by
  have hne : a ≠ [] := by rintro rfl; cases ha
  rw [polyValue_diffPoly, polyValue_eq_ascSum _ hne, polyValue_reverse _ hne, ascSum_eq _ _ one_ne_zero]
  simp

/-- All the angles at which `P` or `Q` of a filter of order `p` can have roots are at most `p` (R181). -/
theorem card_angles_le {a : List Rat} (ha : a.length % 2 = 1) (h1 : a.head? = some 1) {S : Finset ℝ}
    (hS : ∀ w ∈ S, (0 < w ∧ w < Real.pi) ∧ (VanishesAt (sumPoly a) w ∨ VanishesAt (diffPoly a) w)) :
    S.card + 1 ≤ a.length := by
  classical
  have h1 := getD_of_head h1
  have hlen : ∀ q : List Rat, q.length = a.length + 1 → (polyAdd a q).length ≤ (a.length - 1) + 2 := fun q hq => by
    rw [length_polyAdd, hq]; omega
  have hP := two_mul_card_angles (p := sumPoly a) (e := -1) (S := S.filter fun w => VanishesAt (sumPoly a) w)
    (by rw [sumPoly, getD_polyAdd, h1]; simp) (hlen _ (by simp)) (by simp) (sumPoly_value_neg_one ha)
    fun w hw => ⟨(hS w (Finset.mem_filter.1 hw).1).1, (Finset.mem_filter.1 hw).2⟩
  have hQ := two_mul_card_angles (p := diffPoly a) (e := 1) (S := S.filter fun w => VanishesAt (diffPoly a) w)
    (by rw [diffPoly, getD_polyAdd, h1]; simp) (hlen _ (by simp)) (by simp) (diffPoly_value_one ha)
    fun w hw => ⟨(hS w (Finset.mem_filter.1 hw).1).1, (Finset.mem_filter.1 hw).2⟩
  have hsub : S ⊆ (S.filter fun w => VanishesAt (sumPoly a) w) ∪ S.filter fun w => VanishesAt (diffPoly a) w :=
    fun w hw => Finset.mem_union.2 ((hS w hw).2.imp (fun h => Finset.mem_filter.2 ⟨hw, h⟩) fun h =>
      Finset.mem_filter.2 ⟨hw, h⟩)
  have := (Finset.card_le_card hsub).trans (Finset.card_union_le _ _)
  omega

/-- The angles of an interlaced pair are roots of `P` or `Q`. -/
theorem interlacedAt_vanishes {a : List Rat} {w : List ℝ} (h : InterlacedAt a w) {x : ℝ} (hx : x ∈ w) :
    (0 < x ∧ x < Real.pi) ∧ (VanishesAt (sumPoly a) x ∨ VanishesAt (diffPoly a) x) := by
  obtain ⟨k, hk, rfl⟩ := List.getElem_of_mem hx
  refine ⟨h.2.2.1 _ hx, ?_⟩
  have := h.2.2.2 k hk
  split_ifs at this with hm
  · exact .inl this
  · exact .inr this

/-- The interlaced roots are unique (R181). -/
theorem interlacedAt_unique {a : List Rat} (ha : a.length % 2 = 1) (h1 : a.head? = some 1) {w v : List ℝ}
    (hw : InterlacedAt a w) (hv : InterlacedAt a v) : w = v := by
  have hcard : ∀ {l : List ℝ}, InterlacedAt a l → l.toFinset.card + 1 = a.length := fun {l} hl => by
    rw [List.toFinset_card_of_nodup (hl.2.1.imp ne_of_lt), hl.1]
  have hle := card_angles_le ha h1 (S := w.toFinset ∪ v.toFinset) fun x hx =>
    (Finset.mem_union.1 hx).elim (fun h => interlacedAt_vanishes hw (List.mem_toFinset.1 h)) fun h =>
      interlacedAt_vanishes hv (List.mem_toFinset.1 h)
  have heq : ∀ {l : List ℝ}, InterlacedAt a l → l.toFinset ⊆ w.toFinset ∪ v.toFinset →
      l.toFinset = w.toFinset ∪ v.toFinset := fun hl hs =>
    Finset.eq_of_subset_of_card_le hs (by have := hcard hl; omega)
  have hset := (heq hw Finset.subset_union_left).trans (heq hv Finset.subset_union_right).symm
  refine List.Perm.eq_of_pairwise (le := (· < ·)) (fun _ _ _ _ h h' => absurd h (lt_asymm h')) hw.2.1 hv.2.1 ?_
  refine (List.perm_ext_iff_of_nodup (hw.2.1.imp ne_of_lt) (hv.2.1.imp ne_of_lt)).2 fun x => ?_
  rw [← List.mem_toFinset, hset, List.mem_toFinset]

/-! ## The flat filter -/

/-- `n` equally spaced values in `(0, 1)`. -/
def equallySpaced (n : Nat) : List Rat := (List.range n).map fun i : Nat => ((i : Rat) + 1) / ((n : Rat) + 1)

theorem equallySpaced_pairwise (n : Nat) : (equallySpaced n).Pairwise (· < ·) := by
  rw [equallySpaced, List.pairwise_map]
  refine List.pairwise_lt_range.imp fun {i j} hij => ?_
  have hd : (0 : Rat) < (n : Rat) + 1 := by positivity
  rw [div_lt_div_iff_of_pos_right hd]
  exact_mod_cast Nat.succ_lt_succ hij

theorem equallySpaced_mem {n : Nat} {x : Rat} (hx : x ∈ equallySpaced n) : 0 < x ∧ x < 1 := by
  obtain ⟨i, hi, rfl⟩ := List.mem_map.1 hx
  have hd : (0 : Rat) < (n : Rat) + 1 := by positivity
  refine ⟨by positivity, ?_⟩
  rw [div_lt_one hd]
  exact_mod_cast Nat.succ_lt_succ (List.mem_range.1 hi)

/-- The exact LSP vector of `A(z) = 1` is equally spaced (R180). -/
theorem isExactLsp_flat (p : Nat) : IsExactLsp (1 :: List.replicate p 0) (equallySpaced p) := by
  have hp := Real.pi_pos
  refine ⟨by simp [equallySpaced], ?_, ?_, fun k hk => ?_⟩
  · rw [List.pairwise_map]
    refine (equallySpaced_pairwise p).imp fun h => ?_
    exact mul_lt_mul_of_pos_left (Rat.cast_lt.2 h) hp
  · intro w hw
    obtain ⟨x, hx, rfl⟩ := List.mem_map.1 hw
    obtain ⟨h0, h1⟩ := equallySpaced_mem hx
    exact ⟨mul_pos hp (Rat.cast_pos.2 h0), mul_lt_of_lt_one_right hp (by exact_mod_cast h1)⟩
  · set w := ((equallySpaced p).map fun x : Rat => Real.pi * (x : ℝ))[k] with hw
    have he : Complex.exp (-(w * Complex.I)) ^ (p + 1) = (-1) ^ (k + 1) := by
      rw [← Complex.exp_nat_mul, show ((-1 : ℂ)) = Complex.exp (-(Real.pi * Complex.I)) by
        rw [Complex.exp_neg, Complex.exp_pi_mul_I]; norm_num, ← Complex.exp_nat_mul]
      congr 1
      simp only [hw, equallySpaced, List.getElem_map, List.getElem_range]
      push_cast
      field_simp
    rw [vanishesAt_iff]
    split_ifs with hm
    · rw [polyValue_sumPoly, List.reverse_cons, List.reverse_replicate, polyValue_monomial, polyValue_cons, polyValue_zeros,
        ← pow_succ', he, Odd.neg_one_pow (Nat.odd_iff.2 (by omega))]
      simp
    · rw [polyValue_diffPoly, List.reverse_cons, List.reverse_replicate, polyValue_monomial, polyValue_cons, polyValue_zeros,
        ← pow_succ', he, Even.neg_one_pow (Nat.even_iff.2 (by omega))]
      simp

/-! ## The search -/

/-- `l` is the exact LSP vector of `a`: the test. -/
def exactTest (a l : List Rat) : Bool :=
  decide (l.length + 1 = a.length ∧ l.Pairwise (· < ·) ∧ ∀ x ∈ l, 0 < x ∧ x < 1)
    && (List.range l.length).all fun k => vanishesTest (if k % 2 = 0 then sumPoly a else diffPoly a) (l.getD k 0)

/-- The test decides whether a rational vector is the exact one. -/
theorem exactTest_iff (a l : List Rat) : exactTest a l = true ↔ IsExactLsp a l := by
  have hp := Real.pi_pos
  rw [exactTest, Bool.and_eq_true, decide_eq_true_iff, List.all_eq_true, IsExactLsp, InterlacedAt, and_assoc, and_assoc]
  simp only [List.length_map, List.pairwise_map, List.mem_range, vanishesTest_iff, List.mem_map, forall_exists_index,
    and_imp, forall_apply_eq_imp_iff₂, List.getElem_map]
  refine and_congr_right fun _ => and_congr ?_ (and_congr ?_ ?_)
  · refine Iff.of_eq (congrArg (fun r => List.Pairwise r l) ?_)
    funext x y
    rw [mul_lt_mul_iff_of_pos_left hp, Rat.cast_lt]
  · refine forall₂_congr fun x _ => and_congr ?_ ?_
    · rw [mul_pos_iff_of_pos_left hp, Rat.cast_pos]
    · rw [mul_lt_iff_lt_one_right hp]
      exact_mod_cast Iff.rfl
  · refine forall₂_congr fun k hk => ?_
    rw [List.getD_eq_getElem _ _ hk]

/-- An exact vector has the length of the order, is strictly increasing and lies in `(0, 1)` (R181). -/
theorem isExactLsp_bounds {a l : List Rat} (h : IsExactLsp a l) :
    l.length + 1 = a.length ∧ l.Pairwise (· < ·) ∧ ∀ x ∈ l, 0 < x ∧ x < 1 := by
  have h := (exactTest_iff a l).2 h
  rw [exactTest, Bool.and_eq_true, decide_eq_true_iff] at h
  exact h.1

/-- The exact LSP vector of `a`, where it is rational. -/
def exactSearch (a : List Rat) : Option (List Rat) :=
  (((angleCandidates (a.length + 1)).filter fun x => vanishesTest (sumPoly a) x || vanishesTest (diffPoly a) x).sublistsLen
    (a.length - 1)).find? (exactTest a)

theorem exactSearch_isExact {a l : List Rat} (h : exactSearch a = some l) : IsExactLsp a l :=
  (exactTest_iff a l).1 (List.find?_some (p := exactTest a) h)

/-- Two exact vectors of one filter are equal. -/
theorem isExactLsp_unique {a : List Rat} (ha : a.length % 2 = 1) (h1 : a.head? = some 1) {l m : List Rat}
    (hl : IsExactLsp a l) (hm : IsExactLsp a m) : l = m := by
  refine List.map_injective_iff.2 (fun x y hxy => ?_) (interlacedAt_unique ha h1 hl hm)
  exact Rat.cast_injective (mul_left_cancel₀ Real.pi_ne_zero hxy)

/-- The search finds it. -/
theorem exactSearch_eq {a l : List Rat} (ha : a.length % 2 = 1) (h1 : a.head? = some 1) (h : IsExactLsp a l) :
    exactSearch a = some l := by
  obtain ⟨hl, hw, hr⟩ := isExactLsp_bounds h
  have h1' := getD_of_head h1
  have hmem : ∀ x ∈ l, x ∈ (angleCandidates (a.length + 1)).filter fun x =>
      vanishesTest (sumPoly a) x || vanishesTest (diffPoly a) x := fun x hx => by
    obtain ⟨-, hv⟩ := interlacedAt_vanishes h (List.mem_map_of_mem hx)
    rw [List.mem_filter, Bool.or_eq_true, vanishesTest_iff, vanishesTest_iff]
    refine ⟨hv.elim (mem_angleCandidates ?_ ?_ (hr x hx)) (mem_angleCandidates ?_ ?_ (hr x hx)), hv⟩
    · rw [sumPoly, getD_polyAdd, h1']; simp
    · rw [sumPoly, length_polyAdd]; simp
    · rw [diffPoly, getD_polyAdd, h1']; simp
    · rw [diffPoly, length_polyAdd]; simp
  have hs := List.sublist_of_subperm_of_pairwise (r := (· < ·)) (List.subperm_of_subset (hw.imp ne_of_lt) hmem) hw
    ((angleCandidates_pairwise _).filter _)
  obtain ⟨m, hm⟩ : ∃ m, exactSearch a = some m := by
    rw [← Option.isSome_iff_exists, exactSearch, List.find?_isSome]
    exact ⟨l, List.mem_sublistsLen.2 ⟨hs, by omega⟩, (exactTest_iff a l).2 h⟩
  rw [hm, isExactLsp_unique ha h1 (exactSearch_isExact hm) h]

end Sys2Proof
end

