-- ==== Sys2Proof/Machine/RootIntervals.lean ====
section
/-! DEFINITION. Rational intervals of cosines around the roots of `P` and `Q` (R181): a test by changes of sign, that what
passes it holds the interlaced roots, and that every minimum-phase filter has intervals that pass it, as narrow as is
asked. `Num.sample` answers an irrational vector by them. -/

namespace Sys2Proof

open Machine

/-! ## `P` and `Q` on the unit circle as real sums -/

/-- `P` at the angle `w`, up to a factor that is not 0. -/
noncomputable def realPart (a : List Rat) (w : ℝ) : ℝ :=
  ∑ i ∈ Finset.range a.length, ((a.getD i 0 : Rat) : ℝ) * Real.cos ((a.length / 2 - i) * w)

/-- `Q` at the angle `w`, up to a factor that is not 0. -/
noncomputable def imagPart (a : List Rat) (w : ℝ) : ℝ :=
  ∑ i ∈ Finset.range a.length, ((a.getD i 0 : Rat) : ℝ) * Real.sin ((a.length / 2 - i) * w)

/-- The value that changes sign at the root `k`: of `P` at the even positions, of `Q` at the odd ones. -/
noncomputable def signPart (a : List Rat) (k : Nat) (w : ℝ) : ℝ := if k % 2 = 0 then realPart a w else imagPart a w

theorem continuous_signPart (a : List Rat) (k : Nat) : Continuous (signPart a k) := by
  unfold signPart realPart imagPart
  split_ifs <;> fun_prop

theorem ascSum_eq_parts {a : List Rat} (h : a ≠ []) (w : ℝ) :
    ascSum (a.length - 1) (fun i => a.getD i 0) (Complex.exp (-(w * Complex.I)))
      = Complex.exp (-(w * a.length / 2 * Complex.I)) * (realPart a w + imagPart a w * Complex.I) := by
  have := List.length_pos_of_ne_nil h
  rw [ascSum, Nat.sub_add_cancel this, realPart, imagPart]
  push_cast
  rw [Finset.sum_mul, ← Finset.sum_add_distrib, Finset.mul_sum]
  refine Finset.sum_congr rfl fun i _ => ?_
  rw [mul_assoc, ← mul_add, ← Complex.exp_mul_I, ← Complex.exp_nat_mul, mul_left_comm, ← Complex.exp_add]
  congr 2
  ring

theorem vanishesAt_signPart {a : List Rat} (h : a ≠ []) (k : Nat) (w : ℝ) :
    VanishesAt (if k % 2 = 0 then sumPoly a else diffPoly a) w ↔ signPart a k w = 0 := by
  have hlen := List.length_pos_of_ne_nil h
  have hz := ascSum_eq_parts h w
  set u := Complex.exp (-(w * Complex.I)) with hu
  have hne : u ≠ 0 := Complex.exp_ne_zero _
  set x := Complex.exp (-(w * a.length / 2 * Complex.I)) with hx
  have hx0 : x ≠ 0 := Complex.exp_ne_zero _
  have hd : u * descSum (a.length - 1) (fun i => a.getD i 0) u = x * (realPart a w - imagPart a w * Complex.I) := by
    have hc : descSum (a.length - 1) (fun i => a.getD i 0) u
        = u ^ (a.length - 1) * (starRingEnd ℂ) (ascSum (a.length - 1) (fun i => a.getD i 0) u) := by
      rw [ascSum_eq _ _ hne, map_mul, map_pow, ← conj_circle w, conj_descSum, ← hu, Complex.conj_conj, ← mul_assoc,
        ← mul_pow, hu, conj_circle, mul_inv_cancel₀ hne, one_pow, one_mul]
    rw [hc, ← mul_assoc, ← pow_succ', Nat.sub_add_cancel hlen, hz, map_mul, ← mul_assoc]
    congr 1
    · rw [hx, hu, ← Complex.exp_conj, ← Complex.exp_nat_mul, ← Complex.exp_add]
      congr 1
      simp [map_ofNat (starRingEnd ℂ) 2]
      ring
    · simp [sub_eq_add_neg]
  rw [vanishesAt_iff, signPart]
  split_ifs with hm
  · rw [polyValue_sumPoly, polyValue_eq_ascSum _ h, polyValue_reverse _ h, hd, hz,
      show x * (realPart a w + imagPart a w * Complex.I) + x * (realPart a w - imagPart a w * Complex.I)
        = 2 * x * (realPart a w : ℂ) by ring]
    simp [hx0]
  · rw [polyValue_diffPoly, polyValue_eq_ascSum _ h, polyValue_reverse _ h, hd, hz,
      show x * (realPart a w + imagPart a w * Complex.I) - x * (realPart a w - imagPart a w * Complex.I)
        = 2 * x * Complex.I * (imagPart a w : ℂ) by ring]
    simp [hx0]

/-! ## The same sums in the cosine -/

/-- The Chebyshev values `cos(n w)` for `c = cos(w)`. -/
def cheb (c : Rat) : Nat → Rat
  | 0 => 1
  | 1 => c
  | n + 2 => 2 * c * cheb c (n + 1) - cheb c n

theorem cheb_eq {c : Rat} {w : ℝ} (h : Real.cos w = c) (n : Nat) : (cheb c n : ℝ) = Real.cos (n * w) := by
  induction n using cheb.induct with
  | case1 => simp [cheb]
  | case2 => simp [cheb, h]
  | case3 n ih1 ih2 =>
    rw [cheb]
    push_cast
    rw [ih1, ih2, ← h]
    have := Real.cos_add_cos ((n + 2 : ℝ) * w) (n * w)
    rw [show ((n + 2 : ℝ) * w + n * w) / 2 = (n + 1) * w by ring, show ((n + 2 : ℝ) * w - n * w) / 2 = w by ring] at this
    push_cast
    rw [show (n : ℝ) + 1 + 1 = n + 2 by ring]
    linarith

/-- `cos(k w)` for an integer `k` and `c = cos(w)`. -/
def chebInt (c : Rat) (k : Int) : Rat := cheb c k.natAbs

theorem chebInt_eq {c : Rat} {w : ℝ} (h : Real.cos w = c) (k : Int) : (chebInt c k : ℝ) = Real.cos (k * w) := by
  rw [chebInt, cheb_eq h, Nat.cast_natAbs, Int.cast_abs]
  rcases abs_choice (k : ℝ) with hk | hk
  · rw [hk]
  · rw [hk, neg_mul, Real.cos_neg]

/-- The sign of `P` (`k` even) or `Q` (`k` odd) at the cosine `c`, for a filter of even order. -/
def signValue (a : List Rat) (k : Nat) (c : Rat) : Rat :=
  ((List.range a.length).map fun i : Nat =>
    a.getD i 0 * (chebInt c ((a.length / 2 : Nat) - i) + (-1) ^ k * chebInt c ((a.length / 2 : Nat) + 1 - i))).sum

/-- The factor by which the two sums differ is positive in `(0, pi)`. -/
theorem signValue_eq {a : List Rat} (ha : a.length % 2 = 1) (k : Nat) {c : Rat} {w : ℝ} (h : Real.cos w = c)
    (hw : 0 < w ∧ w < Real.pi) : ∃ f : ℝ, 0 < f ∧ (signValue a k c : ℝ) = f * signPart a k w := by
  have hl : (a.length : ℝ) = 2 * (a.length / 2 : Nat) + 1 := by exact_mod_cast (by omega : a.length = 2 * (a.length / 2) + 1)
  have hs : (signValue a k c : ℝ) = ∑ i ∈ Finset.range a.length, ((a.getD i 0 : Rat) : ℝ)
      * (Real.cos (((a.length / 2 : Nat) - i) * w) + (-1) ^ k * Real.cos (((a.length / 2 : Nat) + 1 - i) * w)) := by
    rw [signValue, ← List.sum_toFinset _ List.nodup_range, List.toFinset_range]
    push_cast
    refine Finset.sum_congr rfl fun i _ => ?_
    rw [chebInt_eq h, chebInt_eq h]
    push_cast
    rfl
  rw [hs, signPart]
  generalize (a.length / 2 : Nat) = m at hl
  split_ifs with hm
  · refine ⟨2 * Real.cos (w / 2), mul_pos two_pos (Real.cos_pos_of_mem_Ioo ⟨by linarith [Real.pi_pos], by linarith⟩), ?_⟩
    rw [realPart, Finset.mul_sum]
    refine Finset.sum_congr rfl fun i _ => ?_
    rw [Even.neg_one_pow (Nat.even_iff.2 hm), one_mul, Real.cos_add_cos, mul_left_comm, hl,
      show (((m : ℝ) - i) * w + (m + 1 - i) * w) / 2 = ((2 * m + 1) / 2 - i) * w by ring,
      show (((m : ℝ) - i) * w - (m + 1 - i) * w) / 2 = -(w / 2) by ring, Real.cos_neg]
    ring
  · refine ⟨2 * Real.sin (w / 2), mul_pos two_pos (Real.sin_pos_of_pos_of_lt_pi (by linarith) (by linarith)), ?_⟩
    rw [imagPart, Finset.mul_sum]
    refine Finset.sum_congr rfl fun i _ => ?_
    rw [Odd.neg_one_pow (Nat.odd_iff.2 (by omega)), neg_one_mul, ← sub_eq_add_neg, Real.cos_sub_cos, mul_left_comm, hl,
      show (((m : ℝ) - i) * w + (m + 1 - i) * w) / 2 = ((2 * m + 1) / 2 - i) * w by ring,
      show (((m : ℝ) - i) * w - (m + 1 - i) * w) / 2 = -(w / 2) by ring, Real.sin_neg]
    ring

/-! ## The test -/

/-- Intervals of cosines, upper end first and descending, no wider than `e`, at whose ends `P` and `Q` in turn have opposite
signs. -/
abbrev RootIntervals (a : List Rat) (e : Rat) (L : List (Rat × Rat)) : Prop :=
  L.length + 1 = a.length ∧ L.Pairwise (fun I J => J.1 ≤ I.2)
    ∧ (∀ I ∈ L, -1 < I.2 ∧ I.2 < I.1 ∧ I.1 < 1 ∧ I.1 - I.2 ≤ e)
    ∧ ∀ (k : Nat) (h : k < L.length), signValue a k L[k].1 * signValue a k L[k].2 < 0

/-- Intervals that pass the test hold the interlaced roots. -/
theorem interlacedAt_of_rootIntervals {a : List Rat} (ha : a.length % 2 = 1) {e : Rat} {L : List (Rat × Rat)}
    (h : RootIntervals a e L) : ∃ w, InterlacedAt a w ∧ ∀ (k : Nat) (hk : k < L.length) (hk' : k < w.length),
      Real.arccos L[k].1 < w[k] ∧ w[k] < Real.arccos L[k].2 := by
  have hne : a ≠ [] := by rintro rfl; cases ha
  obtain ⟨hl, hd, hb, hs⟩ := h
  have hr : ∀ k : Fin L.length, ∃ w, (Real.arccos L[k].1 < w ∧ w < Real.arccos L[k].2) ∧ signPart a k w = 0 := fun k => by
    obtain ⟨b1, b2, b3, -⟩ := hb _ (List.getElem_mem k.2)
    have c1 : (-1 : ℝ) < (L[k].2 : ℝ) := by exact_mod_cast b1
    have c2 : (L[k].2 : ℝ) < (L[k].1 : ℝ) := by exact_mod_cast b2
    have c3 : (L[k].1 : ℝ) < 1 := by exact_mod_cast b3
    have hlt : Real.arccos L[k].1 < Real.arccos L[k].2 :=
      Real.strictAntiOn_arccos ⟨c1.le, (c2.trans c3).le⟩ ⟨(c1.trans c2).le, c3.le⟩ c2
    obtain ⟨f, f0, hf⟩ := signValue_eq ha k (Real.cos_arccos (c1.trans c2).le c3.le)
      ⟨Real.arccos_pos.2 c3, Real.arccos_lt_pi.2 (c1.trans c2)⟩
    obtain ⟨g, g0, hg⟩ := signValue_eq ha k (Real.cos_arccos c1.le (c2.trans c3).le)
      ⟨Real.arccos_pos.2 (c2.trans c3), Real.arccos_lt_pi.2 c1⟩
    have hneg : signPart a k (Real.arccos L[k].1) * signPart a k (Real.arccos L[k].2) < 0 := by
      have : ((signValue a k L[k].1 * signValue a k L[k].2 : Rat) : ℝ) < 0 := by exact_mod_cast hs k k.2
      rw [Rat.cast_mul, hf, hg, show f * signPart a k (Real.arccos L[k].1) * (g * signPart a k (Real.arccos L[k].2))
        = f * g * (signPart a k (Real.arccos L[k].1) * signPart a k (Real.arccos L[k].2)) by ring] at this
      exact neg_of_mul_neg_right this (mul_pos f0 g0).le
    rcases mul_neg_iff.1 hneg with ⟨h1, h2⟩ | ⟨h1, h2⟩
    · obtain ⟨w, hw, hv⟩ := intermediate_value_Ioo' hlt.le (continuous_signPart a k).continuousOn ⟨h2, h1⟩
      exact ⟨w, hw, hv⟩
    · obtain ⟨w, hw, hv⟩ := intermediate_value_Ioo hlt.le (continuous_signPart a k).continuousOn ⟨h1, h2⟩
      exact ⟨w, hw, hv⟩
  choose g hg hv using hr
  refine ⟨List.ofFn g, ⟨by rw [List.length_ofFn, hl], ?_, ?_, ?_⟩, ?_⟩
  · rw [List.pairwise_ofFn]
    intro i j hij
    refine (hg i).2.trans_le (le_trans ?_ (hg j).1.le)
    exact Real.arccos_le_arccos (by exact_mod_cast List.pairwise_iff_getElem.1 hd i j i.2 j.2 hij)
  · intro x hx
    obtain ⟨i, rfl⟩ := List.mem_ofFn.1 hx
    exact ⟨(Real.arccos_nonneg _).trans_lt (hg i).1, (hg i).2.trans_le (Real.arccos_le_pi _)⟩
  · intro k hk
    rw [List.getElem_ofFn]
    exact (vanishesAt_signPart hne k _).2 (hv ⟨k, by simpa using hk⟩)
  · intro k hk hk'
    rw [List.getElem_ofFn]
    exact hg ⟨k, hk⟩

/-! ## Every minimum-phase filter has such intervals -/

/-- Every angle at which `P` or `Q` has a root is one of the interlaced angles. -/
theorem mem_of_vanishesAt {a : List Rat} (ha : a.length % 2 = 1) (h1 : a.head? = some 1) {w : List ℝ}
    (hw : InterlacedAt a w) {x : ℝ} (hx : 0 < x ∧ x < Real.pi)
    (hv : VanishesAt (sumPoly a) x ∨ VanishesAt (diffPoly a) x) : x ∈ w := by
  have hle := card_angles_le ha h1 (S := insert x w.toFinset) fun y hy => by
    rcases Finset.mem_insert.1 hy with rfl | hy
    · exact ⟨hx, hv⟩
    · exact interlacedAt_vanishes hw (List.mem_toFinset.1 hy)
  have hc : w.toFinset.card + 1 = a.length := by rw [List.toFinset_card_of_nodup (hw.2.1.imp ne_of_lt), hw.1]
  by_contra hn
  rw [Finset.card_insert_of_notMem fun h => hn (List.mem_toFinset.1 h)] at hle
  omega

/-- The quarter-turn form of the two sums: each is a sine of the excess over a multiple of a quarter turn. -/
theorem exists_quarter (k : Nat) : ∃ σ : ℝ, σ ≠ 0 ∧ ∀ t,
    (if k % 2 = 0 then Real.cos t else Real.sin t) = σ * Real.sin (t - (k + 1 : Nat) * (Real.pi / 2)) := by
  have hone : ∀ m : Nat, ((-1 : ℝ) ^ m) * (-1) ^ m = 1 := fun m => by rw [← mul_pow]; norm_num
  rcases Nat.even_or_odd' k with ⟨m, rfl | rfl⟩
  · refine ⟨-(-1) ^ m, neg_ne_zero.2 (pow_ne_zero _ (by norm_num)), fun t => ?_⟩
    rw [if_pos (by omega), show t - ((2 * m + 1 : Nat) : ℝ) * (Real.pi / 2) = t - Real.pi / 2 - m * Real.pi by push_cast; ring,
      Real.sin_sub_nat_mul_pi, Real.sin_sub_pi_div_two]
    linear_combination (-Real.cos t) * hone m
  · refine ⟨(-1) ^ (m + 1), pow_ne_zero _ (by norm_num), fun t => ?_⟩
    rw [if_neg (by omega), show t - ((2 * m + 1 + 1 : Nat) : ℝ) * (Real.pi / 2) = t - (m + 1 : Nat) * Real.pi by push_cast; ring,
      Real.sin_sub_nat_mul_pi]
    linear_combination (-Real.sin t) * hone (m + 1)

/-- The angles of a minimum-phase filter, with the phase that orders them: below the angle `k` it is under `k + 1` quarter
turns, above it over. -/
theorem exists_ordered_phase {a : List Rat} (ha : a.length % 2 = 1) (h : MinPhase a) :
    ∃ (w : List ℝ) (θ : ℝ → ℝ), InterlacedAt a w ∧ Continuous θ
      ∧ (∀ x, ∃ ρ : ℝ, 0 < ρ ∧ ∀ k, signPart a k x = ρ * if k % 2 = 0 then Real.cos (θ x) else Real.sin (θ x))
      ∧ ∀ (k : Nat) (hk : k < w.length), θ w[k] = (k + 1 : Nat) * (Real.pi / 2)
        ∧ (∀ x, 0 < x → x < w[k] → θ x < (k + 1 : Nat) * (Real.pi / 2))
        ∧ ∀ x, w[k] < x → x < Real.pi → (k + 1 : Nat) * (Real.pi / 2) < θ x := by
  have hne : a ≠ [] := by rintro rfl; cases h.1
  have hlen := List.length_pos_of_ne_nil hne
  have hp := Real.pi_pos
  obtain ⟨h1, hi⟩ := minPhase_iff.1 h
  have h1' := getD_of_head h1
  obtain ⟨θ, hc, h0, hpi, hθ⟩ := exists_phase (c := fun i => a.getD i 0) h1' hi
  have hcast : ((a.length - 1 : Nat) : ℝ) + 1 = a.length := by exact_mod_cast Nat.sub_add_cancel hlen
  rw [hcast] at hpi
  simp only [hcast] at hθ
  have hsign : ∀ x, ∃ ρ : ℝ, 0 < ρ ∧ ∀ k, signPart a k x = ρ * if k % 2 = 0 then Real.cos (θ x) else Real.sin (θ x) :=
    fun x => by
      obtain ⟨ρ, hρ, he⟩ := hθ x
      have hparts := (ascSum_eq_parts hne x).symm.trans he
      have heq : (realPart a x : ℂ) + imagPart a x * Complex.I = ρ * (Complex.cos (θ x) + Complex.sin (θ x) * Complex.I) := by
        refine mul_left_cancel₀ (Complex.exp_ne_zero (-(x * a.length / 2 * Complex.I))) (hparts.trans ?_)
        rw [← Complex.exp_mul_I, mul_left_comm, ← Complex.exp_add]
        congr 2
        push_cast
        ring
      have hr : realPart a x = ρ * Real.cos (θ x) := by
        have := congrArg Complex.re heq
        rw [← Complex.ofReal_cos, ← Complex.ofReal_sin] at this
        simpa [-Complex.ofReal_cos, -Complex.ofReal_sin] using this
      have hm : imagPart a x = ρ * Real.sin (θ x) := by
        have := congrArg Complex.im heq
        rw [← Complex.ofReal_cos, ← Complex.ofReal_sin] at this
        simpa [-Complex.ofReal_cos, -Complex.ofReal_sin] using this
      exact ⟨ρ, hρ, fun k => by rw [signPart]; split_ifs <;> assumption⟩
  obtain ⟨w, hl, hw, hr, hk⟩ := exists_crossings hc (a.length - 1) (m := 0) hp (by simpa using h0)
    (by rw [hpi, show 0 + (a.length - 1) + 1 = a.length by omega])
  simp only [Nat.zero_add] at hk
  have hzero : ∀ (k : Nat) x, θ x = (k + 1 : Nat) * (Real.pi / 2) → signPart a k x = 0 := fun k x hx => by
    obtain ⟨ρ, -, he⟩ := hsign x
    obtain ⟨σ, -, hq⟩ := exists_quarter k
    rw [he, hq, hx, sub_self, Real.sin_zero, mul_zero, mul_zero]
  have hI : InterlacedAt a w :=
    ⟨by omega, hw, hr, fun k hlt => (vanishesAt_signPart hne k _).2 (hzero k _ (hk k hlt))⟩
  have huniq : ∀ (k : Nat) (hlt : k < w.length) x, 0 < x → x < Real.pi → θ x = (k + 1 : Nat) * (Real.pi / 2) → x = w[k] :=
    fun k hlt x hx0 hx1 hx => by
      have hv := (vanishesAt_signPart hne k x).2 (hzero k x hx)
      have hmem := mem_of_vanishesAt ha h1 hI ⟨hx0, hx1⟩ (by split_ifs at hv; exacts [.inl hv, .inr hv])
      obtain ⟨j, hj, rfl⟩ := List.getElem_of_mem hmem
      rw [hk j hj] at hx
      have : j = k := by
        have := mul_right_cancel₀ (by positivity) hx
        have : j + 1 = k + 1 := by exact_mod_cast this
        omega
      subst this
      rfl
  refine ⟨w, θ, hI, hc, hsign, fun k hlt => ⟨hk k hlt, fun x hx0 hx => ?_, fun x hx hx1 => ?_⟩⟩
  · by_contra hn
    have hpos : θ 0 < (k + 1 : Nat) * (Real.pi / 2) := by rw [h0]; positivity
    obtain ⟨y, hy, hv⟩ := intermediate_value_Ioc hx0.le hc.continuousOn ⟨hpos, not_lt.1 hn⟩
    have := huniq k hlt y hy.1 (hy.2.trans_lt (hx.trans (hr _ (List.getElem_mem hlt)).2)) hv
    linarith [hy.2]
  · by_contra hn
    have hlast : (k + 1 : Nat) * (Real.pi / 2) < θ Real.pi := by
      rw [hpi]
      exact mul_lt_mul_of_pos_right (by exact_mod_cast (by omega : k + 1 < a.length)) (by positivity)
    obtain ⟨y, hy, hv⟩ := intermediate_value_Ico hx1.le hc.continuousOn ⟨not_lt.1 hn, hlast⟩
    have hpos := (hr _ (List.getElem_mem hlt)).1
    have := huniq k hlt y (by linarith [hy.1]) hy.2 hv
    linarith [hy.1]

/-- A rational cosine just above that of an angle and just below: near in value, and its angle near. -/
theorem exists_cos_between {s t : ℝ} (hs : 0 ≤ s) (hst : s < t) (ht : t ≤ Real.pi) {lo hi : ℝ} (hlo : lo < Real.cos s)
    (hhi : Real.cos t < hi) (hlh : lo < hi) : ∃ c : Rat, lo < c ∧ (c : ℝ) < hi ∧ s < Real.arccos c ∧ Real.arccos c < t := by
  have hc := Real.strictAntiOn_cos ⟨hs, hst.le.trans ht⟩ ⟨hs.trans hst.le, ht⟩ hst
  obtain ⟨c, h1, h2⟩ := exists_rat_btwn (max_lt (lt_min hlh hlo) (lt_min hhi hc) :
    max lo (Real.cos t) < min hi (Real.cos s))
  obtain ⟨h1, h1'⟩ := max_lt_iff.1 h1
  obtain ⟨h2, h2'⟩ := lt_min_iff.1 h2
  refine ⟨c, h1, h2, ?_, ?_⟩
  · rw [← Real.arccos_cos hs (hst.le.trans ht)]
    exact Real.strictAntiOn_arccos ⟨(Real.neg_one_le_cos t).trans h1'.le, h2'.le.trans (Real.cos_le_one s)⟩
      ⟨Real.neg_one_le_cos s, Real.cos_le_one s⟩ h2'
  · rw [← Real.arccos_cos (hs.trans hst.le) ht]
    exact Real.strictAntiOn_arccos ⟨Real.neg_one_le_cos t, Real.cos_le_one t⟩
      ⟨(Real.neg_one_le_cos t).trans h1'.le, h2'.le.trans (Real.cos_le_one s)⟩ h1'

/-- A minimum-phase filter has intervals that pass the test, of any width. -/
theorem exists_rootIntervals {a : List Rat} (ha : a.length % 2 = 1) (h : MinPhase a) {e : Rat} (he : 0 < e) :
    ∃ L, RootIntervals a e L := by
  have hp := Real.pi_pos
  obtain ⟨w, θ, hI, hc, hsign, hord⟩ := exists_ordered_phase ha h
  obtain ⟨hl, hw, hr, -⟩ := hI
  set v : Nat → ℝ := fun j => if j = 0 then 0 else w.getD (j - 1) Real.pi with hv
  have v0 : v 0 = 0 := rfl
  have vw : ∀ (k : Nat) (hk : k < w.length), v (k + 1) = w[k] := fun k hk => by simp [hv, hk]
  have vend : v (w.length + 1) = Real.pi := by simp [hv]
  have vstep : ∀ j, j ≤ w.length → v j < v (j + 1) := fun j hj => by
    rcases j with _ | j
    · rcases hj.lt_or_eq with h | h
      · rw [v0, vw 0 h]; exact (hr _ (List.getElem_mem h)).1
      · rw [v0, h, vend]; exact hp
    · rw [vw j hj]
      rcases hj.lt_or_eq with h | h
      · rw [vw (j + 1) h]; exact List.pairwise_iff_getElem.1 hw _ _ _ _ (Nat.lt_succ_self j)
      · rw [h, vend]; exact (hr _ (List.getElem_mem hj)).2
  have vmono : ∀ i j, i ≤ j → j ≤ w.length + 1 → v i ≤ v j := fun i j hij => by
    induction j, hij using Nat.le_induction with
    | base => exact fun _ => le_rfl
    | succ j _ ih => exact fun hj => (ih (by omega)).trans (vstep j (by omega)).le
  set m : Nat → ℝ := fun j => (v j + v (j + 1)) / 2 with hm
  have hk : ∀ k : Fin w.length, ∃ I : Rat × Rat, (m k < Real.arccos I.1 ∧ Real.arccos I.1 < Real.arccos I.2
      ∧ Real.arccos I.2 < m (k + 1)) ∧ (-1 < I.2 ∧ I.2 < I.1 ∧ I.1 < 1 ∧ I.1 - I.2 ≤ e)
      ∧ signValue a k I.1 * signValue a k I.2 < 0 := fun k => by
    obtain ⟨hθ, hlow, hup⟩ := hord k k.2
    have hvk := vw k k.2
    have s1 := vstep k k.2.le
    have s2 := vstep (k + 1) k.2
    have b0 : 0 ≤ v k := v0 ▸ vmono 0 k (Nat.zero_le _) (by omega)
    have b1 : v (k + 1 + 1) ≤ Real.pi := vend ▸ vmono (k + 1 + 1) (w.length + 1) (by omega) le_rfl
    set x := w[(k : Nat)] with hx
    rw [hvk] at s1 s2
    have m1 : m k = (v k + x) / 2 := by simp only [hm, hvk]
    have m2 : m (k + 1) = (x + v (k + 1 + 1)) / 2 := by simp only [hm, hvk]
    obtain ⟨δ, hδ, hnear⟩ := Metric.continuous_iff.1 hc x Real.pi hp
    obtain ⟨c, -, c2, c3, c4⟩ := exists_cos_between (s := max (m k) (x - δ)) (t := x) (le_max_of_le_left (by linarith))
      (max_lt (by linarith) (by linarith)) (by linarith) (lo := -2) (hi := Real.cos x + (e / 2 : Rat))
      (by linarith [Real.neg_one_le_cos (max (m k) (x - δ))]) (lt_add_of_pos_right _ (by exact_mod_cast half_pos he))
      (by linarith [Real.neg_one_le_cos x, (by exact_mod_cast half_pos he : (0 : ℝ) < (e / 2 : Rat))])
    obtain ⟨d, d1, -, d3, d4⟩ := exists_cos_between (s := x) (t := min (m (k + 1)) (x + δ)) (by linarith)
      (lt_min (by linarith) (by linarith)) (min_le_of_left_le (by linarith)) (lo := Real.cos x - (e / 2 : Rat)) (hi := 2)
      (sub_lt_self _ (by exact_mod_cast half_pos he)) (by linarith [Real.cos_le_one (min (m (k + 1)) (x + δ))])
      (by linarith [Real.cos_le_one x, (by exact_mod_cast half_pos he : (0 : ℝ) < (e / 2 : Rat))])
    obtain ⟨c3, c3'⟩ := max_lt_iff.1 c3
    obtain ⟨d4, d4'⟩ := lt_min_iff.1 d4
    have cpos : (c : ℝ) < 1 := Real.arccos_pos.1 (by linarith)
    have dneg : -1 < (d : ℝ) := Real.arccos_lt_pi.1 (by linarith)
    have hdc : (d : ℝ) < c := by
      by_contra hn
      have := Real.arccos_le_arccos (not_lt.1 hn)
      linarith
    refine ⟨(c, d), ⟨c3, c4.trans d3, d4⟩, ⟨by exact_mod_cast dneg, by exact_mod_cast hdc, by exact_mod_cast cpos, ?_⟩, ?_⟩
    · have : (c : ℝ) - d ≤ (e / 2 : Rat) + (e / 2 : Rat) := by linarith
      have : ((c - d : Rat) : ℝ) ≤ ((e / 2 + e / 2 : Rat) : ℝ) := by push_cast at this ⊢; linarith
      have := (Rat.cast_le (K := ℝ)).1 this
      linarith
    · have hcw : 0 < Real.arccos c ∧ Real.arccos c < Real.pi := ⟨by linarith, by linarith⟩
      have hdw : 0 < Real.arccos d ∧ Real.arccos d < Real.pi := ⟨by linarith, by linarith⟩
      obtain ⟨f, f0, hf⟩ := signValue_eq ha k (Real.cos_arccos (by linarith) cpos.le) hcw
      obtain ⟨g, g0, hg⟩ := signValue_eq ha k (Real.cos_arccos dneg.le (by linarith)) hdw
      obtain ⟨ρ, r0, hρ⟩ := hsign (Real.arccos c)
      obtain ⟨τ, t0, hτ⟩ := hsign (Real.arccos d)
      obtain ⟨σ, hσ, hq⟩ := exists_quarter k
      rw [hρ, hq] at hf
      rw [hτ, hq] at hg
      have n1 := hnear (Real.arccos c) (by rw [Real.dist_eq, abs_lt]; constructor <;> linarith)
      have n2 := hnear (Real.arccos d) (by rw [Real.dist_eq, abs_lt]; constructor <;> linarith)
      rw [Real.dist_eq, hθ, abs_lt] at n1 n2
      have e1 : Real.sin (θ (Real.arccos c) - (k + 1 : Nat) * (Real.pi / 2)) < 0 :=
        Real.sin_neg_of_neg_of_neg_pi_lt (by linarith [hlow _ hcw.1 c4]) (by linarith)
      have e2 : 0 < Real.sin (θ (Real.arccos d) - (k + 1 : Nat) * (Real.pi / 2)) :=
        Real.sin_pos_of_pos_of_lt_pi (by linarith [hup _ d3 hdw.2]) (by linarith)
      have hneg : ((signValue a k c * signValue a k d : Rat) : ℝ) < 0 := by
        rw [Rat.cast_mul, hf, hg]
        generalize Real.sin (θ (Real.arccos c) - (k + 1 : Nat) * (Real.pi / 2)) = p at e1
        generalize Real.sin (θ (Real.arccos d) - (k + 1 : Nat) * (Real.pi / 2)) = q at e2
        rw [show f * (ρ * (σ * p)) * (g * (τ * (σ * q))) = f * ρ * (g * τ) * (σ * σ) * (q * p) by ring]
        exact mul_neg_of_pos_of_neg
          (mul_pos (mul_pos (mul_pos f0 r0) (mul_pos g0 t0)) (mul_self_pos.2 hσ)) (mul_neg_of_pos_of_neg e2 e1)
      exact_mod_cast hneg
  choose I hI1 hI2 hI3 using hk
  refine ⟨List.ofFn I, by rw [List.length_ofFn, hl], ?_, ?_, ?_⟩
  · rw [List.pairwise_ofFn]
    intro i j hij
    have hmm : m (i + 1) ≤ m j := by
      have := vmono (i + 1) j (by omega) (by omega)
      have := vmono (i + 1 + 1) (j + 1) (by omega) (by omega)
      simp only [hm]; linarith
    have hlt : Real.arccos (I i).2 < Real.arccos (I j).1 := (hI1 i).2.2.trans (hmm.trans_lt (hI1 j).1)
    by_contra hn
    have := Real.arccos_le_arccos (by exact_mod_cast (not_le.1 hn).le : ((I i).2 : ℝ) ≤ (I j).1)
    linarith
  · intro J hJ
    obtain ⟨i, rfl⟩ := List.mem_ofFn.1 hJ
    exact hI2 i
  · intro k hk
    rw [List.getElem_ofFn]
    exact hI3 ⟨k, by simpa using hk⟩

end Sys2Proof
end

