-- ==== Sys2Proof/Machine/SampleCos.lean ====
section
/-! DEFINITION. A rational cosine and its inverse for `Num.sample`: what R18 asks of `NUM.cospi`, onto the rationals, and
within one part in `2^34` of the true angle, so that R181's vector can be answered through it. -/

namespace Sys2Proof

/-! ## Angles by doubling -/

/-- A piecewise linear fraction of `pi` through the points R18 fixes. -/
def crudeArccos (c : Rat) : Rat :=
  if 1 / 2 < c then 2 / 3 * (1 - c) else if -(1 / 2) < c then (3 / 2 - c) / 3 else 2 / 3 * (1 / 2 - c)

/-- The fraction of `pi` with the cosine `c`, to `n` binary digits: a doubled angle has the cosine `2 c^2 - 1`. -/
def arccosDigits : Nat → Rat → Rat
  | 0, c => crudeArccos c
  | n + 1, c =>
    if 0 ≤ c then arccosDigits n (2 * c * c - 1) / 2 else 1 - arccosDigits n (2 * c * c - 1) / 2

theorem double_mem {c : Rat} (h : -1 ≤ c ∧ c ≤ 1) : -1 ≤ 2 * c * c - 1 ∧ 2 * c * c - 1 ≤ 1 := by
  constructor <;> nlinarith [mul_self_nonneg c]

theorem arccosDigits_points (n : Nat) :
    arccosDigits n 1 = 0 ∧ arccosDigits n (1 / 2) = 1 / 3 ∧ arccosDigits n 0 = 1 / 2
      ∧ arccosDigits n (-(1 / 2)) = 2 / 3 ∧ arccosDigits n (-1) = 1 := by
  induction n with
  | zero => decide +kernel
  | succ n ih =>
    obtain ⟨h1, -, -, h4, h5⟩ := ih
    norm_num [arccosDigits]
    norm_num at h4
    norm_num [h1, h4, h5]

theorem arccosDigits_mem (n : Nat) {c : Rat} (h : -1 ≤ c ∧ c ≤ 1) : 0 ≤ arccosDigits n c ∧ arccosDigits n c ≤ 1 := by
  induction n generalizing c with
  | zero =>
    simp only [arccosDigits, crudeArccos]
    split_ifs <;> constructor <;> linarith
  | succ n ih =>
    have := ih (double_mem h)
    rw [arccosDigits]
    split_ifs <;> constructor <;> linarith

theorem arccosDigits_anti (n : Nat) {c d : Rat} (hc : -1 ≤ c) (hcd : c < d) (hd : d ≤ 1) :
    arccosDigits n d < arccosDigits n c := by
  induction n generalizing c d with
  | zero =>
    simp only [arccosDigits, crudeArccos]
    split_ifs <;> linarith
  | succ n ih =>
    have mc := double_mem ⟨hc, hcd.le.trans hd⟩
    have md := double_mem ⟨hc.trans hcd.le, hd⟩
    rw [arccosDigits, arccosDigits]
    split_ifs with h1 h2 h2
    · have := ih mc.1 (by nlinarith : 2 * c * c - 1 < 2 * d * d - 1) md.2
      linarith
    · have h := ih (c := -1) le_rfl (by nlinarith : -1 < 2 * c * c - 1) mc.2
      rw [(arccosDigits_points n).2.2.2.2] at h
      have := (arccosDigits_mem n md).2
      linarith
    · linarith
    · have := ih md.1 (by nlinarith : 2 * d * d - 1 < 2 * c * c - 1) mc.2
      linarith

theorem arccos_double {c : ℝ} (h : -1 ≤ c ∧ c ≤ 1) :
    Real.arccos (2 * c * c - 1) = if 0 ≤ c then 2 * Real.arccos c else 2 * Real.pi - 2 * Real.arccos c := by
  have hc : 2 * c * c - 1 = Real.cos (2 * Real.arccos c) := by rw [Real.cos_two_mul, Real.cos_arccos h.1 h.2]; ring
  have h0 := Real.arccos_nonneg c
  have h1 := Real.arccos_le_pi c
  split_ifs with hn
  · have := Real.arccos_le_pi_div_two.2 hn
    rw [hc, Real.arccos_cos (by linarith) (by linarith)]
  · have := (Real.arccos_le_pi_div_two (x := c)).not.2 hn
    rw [hc, ← Real.cos_two_pi_sub, Real.arccos_cos (by linarith) (by linarith)]

/-- The digits are those of the true angle. -/
theorem arccosDigits_close (n : Nat) {c : Rat} (h : -1 ≤ c ∧ c ≤ 1) :
    |(arccosDigits n c : ℝ) - Real.arccos c / Real.pi| ≤ 1 / 2 ^ n := by
  have hp := Real.pi_pos
  induction n generalizing c with
  | zero =>
    have hm := arccosDigits_mem 0 h
    have m0 : (0 : ℝ) ≤ (arccosDigits 0 c : ℝ) := by exact_mod_cast hm.1
    have m1 : (arccosDigits 0 c : ℝ) ≤ 1 := by exact_mod_cast hm.2
    have a0 : 0 ≤ Real.arccos c / Real.pi := div_nonneg (Real.arccos_nonneg _) hp.le
    have a1 : Real.arccos c / Real.pi ≤ 1 := (div_le_one hp).2 (Real.arccos_le_pi _)
    rw [pow_zero, div_one, abs_le]
    constructor <;> linarith
  | succ n ih =>
    have ih := ih (double_mem h)
    have hd := arccos_double (c := (c : ℝ)) ⟨by exact_mod_cast h.1, by exact_mod_cast h.2⟩
    push_cast at ih
    rw [hd] at ih
    rw [arccosDigits, pow_succ]
    have e : (1 : ℝ) / (2 ^ n * 2) = 1 / 2 ^ n / 2 := by rw [div_div]
    rw [e]
    by_cases hc : 0 ≤ c
    · rw [if_pos (by exact_mod_cast hc), mul_div_assoc] at ih
      rw [if_pos hc]
      push_cast
      rw [abs_le] at ih ⊢
      constructor <;> linarith
    · rw [if_neg (by exact_mod_cast hc), sub_div, mul_div_assoc, mul_div_assoc, div_self hp.ne'] at ih
      rw [if_neg hc]
      push_cast
      rw [abs_le] at ih ⊢
      constructor <;> linarith

/-- Near cosines have near angles, also at the ends. -/
theorem arccos_sub_le {a b : ℝ} (ha : -1 ≤ a) (hab : a ≤ b) (hb : b ≤ 1) {e : ℝ} (he : 0 ≤ e) (h : b - a ≤ 2 * e ^ 2) :
    (Real.arccos a - Real.arccos b) / Real.pi ≤ e := by
  have hp := Real.pi_pos
  set t := Real.arccos a with ht
  set f := Real.arccos b with hf
  have htf : f ≤ t := Real.arccos_le_arccos hab
  have h0 : 0 ≤ f := Real.arccos_nonneg b
  have h1 : t ≤ Real.pi := Real.arccos_le_pi a
  have hct : Real.cos t = a := Real.cos_arccos ha (hab.trans hb)
  have hcf : Real.cos f = b := Real.cos_arccos (ha.trans hab) hb
  have hs : Real.sin ((t - f) / 2) ≤ Real.sin ((t + f) / 2) := by
    have hd : Real.sin ((t + f) / 2) - Real.sin ((t - f) / 2) = 2 * Real.sin (f / 2) * Real.cos (t / 2) := by
      rw [show (t + f) / 2 = t / 2 + f / 2 by ring, show (t - f) / 2 = t / 2 - f / 2 by ring, Real.sin_add, Real.sin_sub]
      ring
    have := mul_nonneg (Real.sin_nonneg_of_nonneg_of_le_pi (by linarith : 0 ≤ f / 2) (by linarith))
      (Real.cos_nonneg_of_neg_pi_div_two_le_of_le (by linarith : -(Real.pi / 2) ≤ t / 2) (by linarith))
    linarith
  have hj : 2 / Real.pi * ((t - f) / 2) ≤ Real.sin ((t - f) / 2) :=
    Real.mul_le_sin (by linarith) (by linarith)
  have hba : b - a = 2 * Real.sin ((t + f) / 2) * Real.sin ((t - f) / 2) := by
    have := Real.cos_sub_cos t f
    rw [hct, hcf] at this
    linarith
  set q := (t - f) / Real.pi with hq
  have hq0 : 0 ≤ q := div_nonneg (by linarith) hp.le
  have hjq : q ≤ Real.sin ((t - f) / 2) := by
    refine le_trans (le_of_eq ?_) hj
    rw [hq]; field_simp
  have : q ^ 2 ≤ e ^ 2 := by nlinarith
  exact abs_le_of_sq_le_sq' this he |>.2

/-! ## A bijection of the rationals -/

/-- How many knots lie between the cosines 0 and 1. -/
def knots : Int := 2 ^ 70

/-- The angle of the knot `i`, whose cosine is `i / knots`. -/
def knotAngle (i : Int) : Rat := arccosDigits 40 (i / knots)

/-- The fraction of `pi` with the cosine `c`, linear between the knots. -/
def fineArccos (c : Rat) : Rat :=
  let i := ⌊c * knots⌋
  knotAngle i + (c * knots - i) * (knotAngle (i + 1) - knotAngle i)

/-- The last knot whose angle is not below `x`. -/
def knotBelow (x : Rat) : Int :=
  (Nat.findGreatest (fun j : Nat => x ≤ knotAngle (j - knots)) (2 * knots).toNat : Nat) - knots

/-- The inverse of `fineArccos`. -/
def fineCospi (x : Rat) : Rat :=
  let i := knotBelow x
  (i + (knotAngle i - x) / (knotAngle i - knotAngle (i + 1))) / knots

theorem knots_pos : (0 : Rat) < knots := by norm_num [knots]

theorem knot_mem {i : Int} (h : -knots ≤ i ∧ i ≤ knots) : -1 ≤ (i : Rat) / knots ∧ (i : Rat) / knots ≤ 1 := by
  have hk := knots_pos
  constructor
  · rw [le_div_iff₀ hk]; exact_mod_cast (by omega : -1 * knots ≤ i)
  · rw [div_le_one hk]; exact_mod_cast h.2

theorem knotAngle_anti {i j : Int} (hi : -knots ≤ i) (hij : i < j) (hj : j ≤ knots) : knotAngle j < knotAngle i := by
  refine arccosDigits_anti 40 (knot_mem ⟨hi, by omega⟩).1 ?_ (knot_mem ⟨by omega, hj⟩).2
  exact div_lt_div_of_pos_right (by exact_mod_cast hij) knots_pos

theorem knotAngle_anti_le {i j : Int} (hi : -knots ≤ i) (hij : i ≤ j) (hj : j ≤ knots) : knotAngle j ≤ knotAngle i := by
  rcases hij.lt_or_eq with h | rfl
  · exact (knotAngle_anti hi h hj).le
  · exact le_rfl

theorem knotAngle_ends : knotAngle (-knots) = 1 ∧ knotAngle knots = 0 := by
  have hk := knots_pos.ne'
  refine ⟨?_, ?_⟩
  · rw [knotAngle, Int.cast_neg, neg_div, div_self hk]; exact (arccosDigits_points 40).2.2.2.2
  · rw [knotAngle, div_self hk]; exact (arccosDigits_points 40).1

theorem fineArccos_knot (i : Int) : fineArccos (i / knots) = knotAngle i := by
  have hk := knots_pos.ne'
  rw [fineArccos, div_mul_cancel₀ _ hk, Int.floor_intCast, sub_self, zero_mul, add_zero]

/-- A cosine lies at the last knot or in the cell of its knot. -/
theorem floor_knot {c : Rat} (h : -1 ≤ c ∧ c ≤ 1) :
    -knots ≤ ⌊c * knots⌋ ∧ ⌊c * knots⌋ ≤ knots ∧ (⌊c * knots⌋ = knots → c = 1)
      ∧ 0 ≤ c * knots - ⌊c * knots⌋ ∧ c * knots - ⌊c * knots⌋ < 1 := by
  have hk := knots_pos
  have hf := Int.floor_le (c * knots)
  have hf' := Int.lt_floor_add_one (c * knots)
  refine ⟨Int.le_floor.2 ?_, ?_, fun he => ?_, by linarith, by linarith⟩
  · push_cast; nlinarith
  · have : (⌊c * knots⌋ : Rat) ≤ knots := by nlinarith
    exact_mod_cast this
  · rw [he] at hf
    have : 1 ≤ c := le_of_mul_le_mul_right (by linarith) hk
    exact le_antisymm h.2 this

theorem fineArccos_one : fineArccos 1 = 0 := by
  have h := fineArccos_knot knots
  rwa [div_self knots_pos.ne', knotAngle_ends.2] at h

/-- The value lies between the angles of its cell. -/
theorem fineArccos_cell {c : Rat} (h : -1 ≤ c ∧ c < 1) :
    ⌊c * knots⌋ < knots ∧ knotAngle (⌊c * knots⌋ + 1) < fineArccos c ∧ fineArccos c ≤ knotAngle ⌊c * knots⌋ := by
  obtain ⟨h1, h2, h3, h4, h5⟩ := floor_knot ⟨h.1, h.2.le⟩
  have hlt : ⌊c * knots⌋ < knots := lt_of_le_of_ne h2 fun he => h.2.ne (h3 he)
  have ha := knotAngle_anti h1 (lt_add_one _) (by omega : ⌊c * knots⌋ + 1 ≤ knots)
  refine ⟨hlt, ?_, ?_⟩ <;> simp only [fineArccos] <;> nlinarith

theorem fineArccos_anti {c d : Rat} (hc : -1 ≤ c) (hcd : c < d) (hd : d ≤ 1) : fineArccos d < fineArccos c := by
  have hk := knots_pos
  obtain ⟨hcl, hc1, -⟩ := fineArccos_cell ⟨hc, hcd.trans_le hd⟩
  have hfc := floor_knot ⟨hc, hcd.le.trans hd⟩
  rcases hd.lt_or_eq with hd | rfl
  · obtain ⟨hdl, -, hd1⟩ := fineArccos_cell ⟨hc.trans hcd.le, hd⟩
    have hle : ⌊c * knots⌋ ≤ ⌊d * knots⌋ := Int.floor_le_floor (mul_le_mul_of_nonneg_right hcd.le hk.le)
    rcases hle.lt_or_eq with h | h
    · exact (hd1.trans (knotAngle_anti_le (by omega) (by omega) hdl.le)).trans_lt hc1
    · have ha := knotAngle_anti hfc.1 (lt_add_one _) (by omega : ⌊c * knots⌋ + 1 ≤ knots)
      simp only [fineArccos, ← h]
      nlinarith [mul_lt_mul_of_pos_right hcd hk]
  · rw [fineArccos_one]
    refine lt_of_le_of_lt ?_ hc1
    rw [← knotAngle_ends.2]
    exact knotAngle_anti_le (by omega) (by omega) le_rfl

theorem fineArccos_injective {c d : Rat} (hc : -1 ≤ c ∧ c ≤ 1) (hd : -1 ≤ d ∧ d ≤ 1) (h : fineArccos c = fineArccos d) :
    c = d := by
  rcases lt_trichotomy c d with hlt | rfl | hlt
  · exact absurd h (fineArccos_anti hc.1 hlt hd.2).ne'
  · rfl
  · exact absurd h (fineArccos_anti hd.1 hlt hc.2).ne

theorem fineArccos_neg_one : fineArccos (-1) = 1 := by
  have h := fineArccos_knot (-knots)
  rwa [Int.cast_neg, neg_div, div_self knots_pos.ne', knotAngle_ends.1] at h

theorem fineArccos_mem {c : Rat} (h : -1 ≤ c ∧ c ≤ 1) : 0 ≤ fineArccos c ∧ fineArccos c ≤ 1 := by
  constructor
  · rcases h.2.lt_or_eq with h' | rfl
    · exact (fineArccos_one ▸ fineArccos_anti h.1 h' le_rfl).le
    · exact fineArccos_one.ge
  · rcases h.1.lt_or_eq with h' | rfl
    · exact (fineArccos_neg_one ▸ fineArccos_anti le_rfl h' h.2).le
    · exact fineArccos_neg_one.le

/-- The angle is the true one to one part in `2^34`. -/
theorem fineArccos_close {c : Rat} (h : -1 ≤ c ∧ c ≤ 1) :
    |(fineArccos c : ℝ) - Real.arccos c / Real.pi| ≤ 1 / 2 ^ 34 := by
  have hp := Real.pi_pos
  rcases h.2.lt_or_eq with h' | rfl
  swap
  · rw [fineArccos_one]; norm_num
  obtain ⟨hl, h1, h2⟩ := fineArccos_cell ⟨h.1, h'⟩
  obtain ⟨hf, -, -, hf0, hf1⟩ := floor_knot h
  set i := ⌊c * knots⌋
  have hk : (0 : ℝ) < (knots : ℝ) := by exact_mod_cast (by norm_num [knots] : (0 : Int) < knots)
  have hi := knot_mem (i := i) ⟨hf, hl.le⟩
  have hj := knot_mem (i := i + 1) ⟨by omega, by omega⟩
  have ci := arccosDigits_close 40 hi
  have cj := arccosDigits_close 40 hj
  rw [abs_le] at ci cj
  have r1 : (knotAngle (i + 1) : ℝ) < fineArccos c := by exact_mod_cast h1
  have r2 : (fineArccos c : ℝ) ≤ knotAngle i := by exact_mod_cast h2
  have e1 : ((i : Rat) / knots : Rat) ≤ c := by rw [div_le_iff₀ knots_pos]; linarith
  have e2 : c ≤ (((i + 1 : Int) : Rat) / knots : Rat) := by
    rw [le_div_iff₀ knots_pos]; push_cast; linarith
  have a1 : Real.arccos c / Real.pi ≤ Real.arccos ((((i : Rat) / knots : Rat)) : ℝ) / Real.pi :=
    div_le_div_of_nonneg_right (Real.arccos_le_arccos (by exact_mod_cast e1)) hp.le
  have a2 : Real.arccos ((((i + 1 : Int) : Rat) / knots : Rat) : ℝ) / Real.pi ≤ Real.arccos c / Real.pi :=
    div_le_div_of_nonneg_right (Real.arccos_le_arccos (by exact_mod_cast e2)) hp.le
  have hw := arccos_sub_le (a := (((i : Rat) / knots : Rat) : ℝ)) (b := ((((i + 1 : Int) : Rat) / knots : Rat) : ℝ))
    (by exact_mod_cast hi.1) (by exact_mod_cast e1.trans e2) (by exact_mod_cast hj.2) (e := 1 / 2 ^ 35) (by positivity) (by
      push_cast
      rw [← sub_div]
      norm_num [knots])
  rw [sub_div] at hw
  simp only [knotAngle] at r1 r2
  rw [abs_le]
  constructor <;> linarith

/-- The knot of the inverse: `x` lies in its cell. -/
theorem knotBelow_spec {x : Rat} (h : 0 ≤ x ∧ x ≤ 1) :
    -knots ≤ knotBelow x ∧ knotBelow x ≤ knots ∧ x ≤ knotAngle (knotBelow x)
      ∧ (knotBelow x < knots → knotAngle (knotBelow x + 1) < x) := by
  have hk : (0 : Int) ≤ 2 * knots := by norm_num [knots]
  set P : Nat → Prop := fun j => x ≤ knotAngle (j - knots) with hP
  have h0 : P 0 := by
    show x ≤ knotAngle ((0 : Nat) - knots)
    rw [Nat.cast_zero, zero_sub, knotAngle_ends.1]; exact h.2
  have hs := Nat.findGreatest_spec (P := P) (Nat.zero_le (2 * knots).toNat) h0
  have hle := Nat.findGreatest_le (P := P) (2 * knots).toNat
  have hg := Nat.findGreatest_is_greatest (P := P) (n := (2 * knots).toNat) (lt_add_one _)
  have hb : knotBelow x = (Nat.findGreatest P (2 * knots).toNat : Nat) - knots := rfl
  generalize Nat.findGreatest P (2 * knots).toNat = j at hs hle hg hb
  refine ⟨by omega, by omega, by rw [hb]; exact hs, fun hlt => ?_⟩
  have := hg (by omega)
  rw [hb]
  refine not_le.1 fun hn => this ?_
  show x ≤ knotAngle ((j + 1 : Nat) - knots)
  rwa [Nat.cast_add, Nat.cast_one, add_sub_right_comm]

/-- The inverse is one, into `[-1, 1]`. -/
theorem fineCospi_spec {x : Rat} (h : 0 ≤ x ∧ x ≤ 1) :
    (-1 ≤ fineCospi x ∧ fineCospi x ≤ 1) ∧ fineArccos (fineCospi x) = x := by
  have hk := knots_pos
  obtain ⟨h1, h2, h3, h4⟩ := knotBelow_spec h
  rcases h2.lt_or_eq with hlt | he
  · have hx := h4 hlt
    have ha := knotAngle_anti h1 (lt_add_one _) (by omega : knotBelow x + 1 ≤ knots)
    set i := knotBelow x with hi
    set t := (knotAngle i - x) / (knotAngle i - knotAngle (i + 1)) with ht
    have t0 : 0 ≤ t := div_nonneg (by linarith) (by linarith)
    have t1 : t < 1 := by rw [ht, div_lt_one (by linarith)]; linarith
    have hc : fineCospi x = (i + t) / knots := rfl
    have hm : fineCospi x * knots = i + t := by rw [hc, div_mul_cancel₀ _ hk.ne']
    have hfl : ⌊fineCospi x * knots⌋ = i := by
      rw [hm, Int.floor_eq_iff]; constructor <;> linarith
    refine ⟨?_, ?_⟩
    · have b1 : -(knots : Rat) ≤ i := by exact_mod_cast h1
      have b2 : (i : Rat) + 1 ≤ knots := by exact_mod_cast (by omega : i + 1 ≤ knots)
      rw [hc]
      constructor
      · rw [le_div_iff₀ hk]; linarith
      · rw [div_le_one hk]; linarith
    · simp only [fineArccos, hfl]
      rw [hm, add_sub_cancel_left, ht]
      have : knotAngle i - knotAngle (i + 1) ≠ 0 := by linarith
      field_simp
      ring
  · have hx0 : x = 0 := by
      rw [he, knotAngle_ends.2] at h3
      exact le_antisymm h3 h.1
    have hc : fineCospi x = 1 := by
      rw [fineCospi, he, knotAngle_ends.2, hx0, sub_zero, zero_div, add_zero, div_self hk.ne']
    rw [hc, fineArccos_one, hx0]
    exact ⟨⟨by norm_num, le_rfl⟩, rfl⟩

/-! ## The two functions of the sample -/

/-- The fraction of `pi` with the cosine `c`: the points R18 fixes first. -/
def sampleArccos (c : Rat) : Rat :=
  if c = 1 then 0 else if c = 1 / 2 then 1 / 3 else if c = 0 then 1 / 2 else if c = -(1 / 2) then 2 / 3
  else if c = -1 then 1 else fineArccos c

/-- A rational cosine: the points R18 fixes first. -/
def sampleCospi (x : Rat) : Rat :=
  if x = 0 then 1 else if x = 1 / 3 then 1 / 2 else if x = 1 / 2 then 0 else if x = 2 / 3 then -(1 / 2)
  else if x = 1 then -1 else fineCospi x

theorem sampleArccos_eq (c : Rat) : sampleArccos c = fineArccos c := by
  have hk := knots_pos.ne'
  have knot : ∀ (i : Int) (q : Rat), q = i / knots → fineArccos q = arccosDigits 40 q := fun i q h => by
    rw [h, fineArccos_knot, knotAngle]
  obtain ⟨-, p2, p3, p4, -⟩ := arccosDigits_points 40
  unfold sampleArccos
  split_ifs with h1 h2 h3 h4 h5
  · rw [h1, fineArccos_one]
  · rw [h2, knot (2 ^ 69) _ (by norm_num [knots]), p2]
  · rw [h3, knot 0 _ (by simp), p3]
  · rw [h4, knot (-(2 ^ 69)) _ (by norm_num [knots]), p4]
  · rw [h5, fineArccos_neg_one]
  · rfl

theorem sampleArccos_anti {c d : Rat} (hc : -1 ≤ c) (hcd : c < d) (hd : d ≤ 1) : sampleArccos d < sampleArccos c := by
  rw [sampleArccos_eq, sampleArccos_eq]; exact fineArccos_anti hc hcd hd

theorem sampleArccos_mem {c : Rat} (h : -1 ≤ c ∧ c ≤ 1) : 0 ≤ sampleArccos c ∧ sampleArccos c ≤ 1 := by
  rw [sampleArccos_eq]; exact fineArccos_mem h

/-- The sample cosine is into `[-1, 1]`, and the sample angle undoes it. -/
theorem sampleCospi_spec {x : Rat} (h : 0 ≤ x ∧ x ≤ 1) :
    (-1 ≤ sampleCospi x ∧ sampleCospi x ≤ 1) ∧ sampleArccos (sampleCospi x) = x := by
  unfold sampleCospi
  split_ifs with h1 h2 h3 h4 h5
  · subst h1; decide +kernel
  · subst h2; decide +kernel
  · subst h3; decide +kernel
  · subst h4; decide +kernel
  · subst h5; decide +kernel
  · rw [sampleArccos_eq]; exact fineCospi_spec h

theorem sampleCospi_anti {x y : Rat} (hx : 0 ≤ x) (hxy : x < y) (hy : y ≤ 1) : sampleCospi y < sampleCospi x := by
  obtain ⟨⟨hx1, -⟩, ex⟩ := sampleCospi_spec ⟨hx, hxy.le.trans hy⟩
  obtain ⟨⟨-, hy1⟩, ey⟩ := sampleCospi_spec ⟨hx.trans hxy.le, hy⟩
  by_contra hn
  rcases (not_lt.1 hn).lt_or_eq with h | h
  · have := sampleArccos_anti hx1 h hy1
    rw [ex, ey] at this
    exact lt_asymm this hxy
  · rw [← ex, h, ey] at hxy
    exact lt_irrefl _ hxy

/-- The sample cosine undoes the sample angle. -/
theorem sampleCospi_sampleArccos {c : Rat} (h : -1 ≤ c ∧ c ≤ 1) : sampleCospi (sampleArccos c) = c := by
  obtain ⟨hm, he⟩ := sampleCospi_spec (sampleArccos_mem h)
  rw [sampleArccos_eq, sampleArccos_eq] at he
  rw [sampleArccos_eq] at hm ⊢
  exact fineArccos_injective hm h he

end Sys2Proof
end

