-- ==== Sys2Proof/Machine/NumSample.lean ====
section
/-! DEFINITION. One choice of the configuration functions, and that it meets all of `Num.Ok`, so that what the model
assumes of them is seen to be satisfiable. It serves the stage tests; the machine's functions are `Config.setup.num`. -/

namespace Sys2Proof

open Machine

/-- The square root of a positive number, rounded down to 35 binary digits. -/
def rootDown (x : Rat) : Rat := 2 ^ (Int.log 4 x - 34) * Nat.sqrt ⌊x / 4 ^ (Int.log 4 x - 34)⌋₊

/-- A square root that is exact on the rational squares and rounded down elsewhere. -/
def sampleSqrt (x : Rat) : Rat := if Rat.sqrt x * Rat.sqrt x = x then Rat.sqrt x else rootDown x

/-- A common denominator of a filter's coefficients. -/
def commonDen (a : List Rat) : Nat := (a.map Rat.den).prod

/-- Every LSP whose cosine has a denominator that rational cosines of `a` can have, ascending. -/
def rootCandidates (a : List Rat) : List Rat :=
  (List.range (4 * commonDen a - 1)).map fun i : Nat =>
    sampleArccos ((2 * (commonDen a : Rat) - 1 - i) / (2 * (commonDen a : Rat)))

/-- The LSP vector of `a` as `sampleCospi` has it, where there is one. -/
def rootSearch (a : List Rat) : Option (List Rat) :=
  ((rootCandidates a).sublistsLen (a.length - 1)).find? fun l => decide (IsLsp sampleCospi a l)

theorem exists_vectorIntervals {a : List Rat} (h : stable a = true ∧ a.length % 2 = 1) :
    ∃ L, RootIntervals a (1 / 2 ^ 69) L :=
  exists_rootIntervals h.2 ((stable_iff a).1 h.1) (by norm_num)

/-- Narrow intervals around the cosines of the LSP vector of a minimum-phase filter: the first in an enumeration. -/
def vectorIntervals (a : List Rat) (h : stable a = true ∧ a.length % 2 = 1) : List (Rat × Rat) :=
  Encodable.choose (exists_vectorIntervals h)

/-- The vector of their upper ends. -/
def closeVector (a : List Rat) (h : stable a = true ∧ a.length % 2 = 1) : List Rat :=
  (vectorIntervals a h).map fun I => sampleArccos I.1

/-- One choice of the five functions: piecewise linear between the points R18 fixes or between close knots, and a root
finder that gives the exact vector where it or its cosines are rational, a close one for another minimum-phase filter,
and fails elsewhere. -/
def Num.sample : Num where
  log2 x := Int.log 2 x + (x / (2 : Rat) ^ Int.log 2 x - 1)
  sqrt := sampleSqrt
  pow2 y := (2 : Rat) ^ ⌊y⌋ * (1 + (y - ⌊y⌋))
  cospi := sampleCospi
  lsproots a := match rootSearch a with
    | some l => some l
    | none => if h : stable a = true ∧ a.length % 2 = 1 then some ((exactSearch a).getD (closeVector a h)) else none

/-! ## The root finder -/

section

open Polynomial

theorem coeffPoly_quad (c : Rat) : coeffPoly [1, -2 * c, 1] = 1 - C (2 * c) * X + X ^ 2 := by
  simp only [coeffPoly, C_1, C_mul, C_neg]; ring

theorem quad_dvd {c : Rat} {cs : List Rat} (h : c ∈ cs) : (1 - C (2 * c) * X + X ^ 2 : ℚ[X]) ∣ coeffPoly (quadProduct cs) := by
  induction cs with
  | nil => cases h
  | cons d cs ih =>
    rw [quadProduct, coeffPoly_mul, coeffPoly_quad]
    rcases List.mem_cons.1 h with rfl | h
    · exact dvd_mul_right _ _
    · exact (ih h).mul_left _

theorem coeff_zero_quadProduct (cs : List Rat) : (coeffPoly (quadProduct cs)).coeff 0 = 1 := by
  induction cs with
  | nil => simp [quadProduct, coeffPoly]
  | cons c cs ih => rw [quadProduct, coeffPoly_mul, mul_coeff_zero, ih, coeffPoly_quad]; simp

theorem exists_int_poly (M : Rat) (L : List Rat) (h : ∀ q ∈ L, ∃ k : ℤ, M * q = k) :
    ∃ G : ℤ[X], G.map (Int.castRingHom ℚ) = C M * coeffPoly L := by
  induction L with
  | nil => exact ⟨0, by simp [coeffPoly]⟩
  | cons q L ih =>
    obtain ⟨G, hG⟩ := ih fun q hq => h q (List.mem_cons_of_mem _ hq)
    obtain ⟨k, hk⟩ := h q List.mem_cons_self
    refine ⟨C k + X * G, ?_⟩
    rw [Polynomial.map_add, Polynomial.map_mul, map_C, map_X, hG, coeffPoly, mul_add, ← C_mul, hk, eq_intCast]
    ring

/-- By Gauss's lemma, a factor `1 - x z^-1 + z^-2` of a polynomial of constant coefficient 1 with coefficients in `Z / M`
has `x` in `Z / M`. -/
theorem den_dvd {M : Nat} (hM : 0 < M) {L : List Rat} {x : Rat} (hL : ∀ q ∈ L, ∃ k : ℤ, (M : Rat) * q = k)
    (hd : (1 - C x * X + X ^ 2 : ℚ[X]) ∣ coeffPoly L) (h0 : (coeffPoly L).coeff 0 = 1) : x.den ∣ M := by
  obtain ⟨G, hG⟩ := exists_int_poly M L hL
  set E : ℤ[X] := C (x.den : ℤ) - C x.num * X + C (x.den : ℤ) * X ^ 2 with hE
  have hx : C (x.num : ℚ) = C (x.den : ℚ) * C x := by rw [← C_mul, Rat.den_mul_eq_num]
  have hEm : E.map (Int.castRingHom ℚ) = C (x.den : ℚ) * (1 - C x * X + X ^ 2) := by
    rw [hE, Polynomial.map_add, Polynomial.map_sub, Polynomial.map_mul, Polynomial.map_mul, Polynomial.map_pow, map_X,
      map_C, map_C, eq_intCast, eq_intCast, Int.cast_natCast, hx]
    ring
  have hprim : E.IsPrimitive := by
    intro r hr
    rw [C_dvd_iff_dvd_coeff] at hr
    have h0 := hr 0
    have h1 := hr 1
    simp [hE, coeff_X, coeff_X_pow] at h0 h1
    have := x.reduced
    have hu : IsUnit (Int.gcd x.num x.den : ℤ) := by
      rw [show Int.gcd x.num x.den = 1 from this]; simp
    exact isUnit_of_dvd_unit (Int.dvd_coe_gcd h1 h0) hu
  have hG0 : G ≠ 0 := by
    rintro rfl
    have := congrArg (fun p => coeff p 0) hG
    simp [h0] at this
    exact hM.ne (by exact_mod_cast this)
  have hdvd : E.map (Int.castRingHom ℚ) ∣ G.map (Int.castRingHom ℚ) := by
    rw [hG, hEm]
    exact ((isUnit_C.2 (isUnit_iff_ne_zero.2 (by exact_mod_cast x.den_ne_zero))).mul_left_dvd).2 (hd.mul_left _)
  have hEG : E ∣ G := (IsPrimitive.Int.dvd_iff_map_cast_dvd_map_cast E G hprim).2 hdvd
  have hc := congrArg (fun p => coeff p 0) hG
  simp [h0] at hc
  obtain ⟨H, rfl⟩ := hEG
  have : (x.den : ℤ) ∣ (M : ℤ) := by
    have : (E * H).coeff 0 = (M : ℤ) := by exact_mod_cast hc
    rw [← this, mul_coeff_zero]
    simp [hE]
  exact_mod_cast this

theorem den_dvd_commonDen {a : List Rat} {q : Rat} (h : q ∈ a) : q.den ∣ commonDen a :=
  List.dvd_prod (List.mem_map_of_mem h)

theorem commonDen_pos (a : List Rat) : 0 < commonDen a :=
  List.prod_pos fun d hd => by obtain ⟨q, -, rfl⟩ := List.mem_map.1 hd; exact q.den_pos

theorem commonDen_mul {a : List Rat} {q : Rat} (h : q ∈ a) : ∃ k : ℤ, (commonDen a : Rat) * q = k := by
  obtain ⟨d, hd⟩ := den_dvd_commonDen h
  refine ⟨d * q.num, ?_⟩
  rw [hd]; push_cast
  rw [mul_comm (q.den : Rat), mul_assoc, Rat.den_mul_eq_num]

theorem polyAdd_int {M : Rat} {p q : List Rat} (hp : ∀ x ∈ p, ∃ k : ℤ, M * x = k) (hq : ∀ x ∈ q, ∃ k : ℤ, M * x = k) :
    ∀ x ∈ polyAdd p q, ∃ k : ℤ, M * x = k := by
  induction p, q using polyAdd.induct with
  | case1 q => simp only [polyAdd]; exact hq
  | case2 p h => cases p <;> exact hp
  | case3 a p b q ih =>
    intro x hx
    rw [polyAdd, List.mem_cons] at hx
    rcases hx with rfl | hx
    · obtain ⟨i, hi⟩ := hp a List.mem_cons_self
      obtain ⟨j, hj⟩ := hq b List.mem_cons_self
      exact ⟨i + j, by rw [mul_add, hi, hj]; push_cast; rfl⟩
    · exact ih (fun y hy => hp y (List.mem_cons_of_mem _ hy)) (fun y hy => hq y (List.mem_cons_of_mem _ hy)) x hx

theorem mem_everyOther {x : Rat} {l : List Rat} (h : x ∈ l) : x ∈ everyOther l ∨ x ∈ everyOther l.tail := by
  induction l using everyOther.induct with
  | case1 => cases h
  | case2 y => exact .inl h
  | case3 y z rest ih =>
    rw [List.tail_cons, everyOther_cons z, everyOther]
    rcases List.mem_cons.1 h with rfl | h
    · exact .inl List.mem_cons_self
    · rcases List.mem_cons.1 h with rfl | h
      · exact .inr List.mem_cons_self
      · exact (ih h).imp (List.mem_cons_of_mem _) (List.mem_cons_of_mem _)

/-- The cosines of an LSP vector have denominators that divide the product of those of the coefficients (R181). -/
theorem den_dvd_of_isLsp {cospi : Rat → Rat} {a l : List Rat} (h : IsLsp cospi a l) {x : Rat} (hx : x ∈ l) :
    (2 * cospi x).den ∣ commonDen a := by
  obtain ⟨-, -, -, hP, hQ⟩ := h
  have ha : ∀ y ∈ a, ∃ k : ℤ, (commonDen a : Rat) * y = k := fun y => commonDen_mul
  have hr : ∀ y ∈ 0 :: a.reverse, ∃ k : ℤ, (commonDen a : Rat) * y = k := fun y hy => by
    rcases List.mem_cons.1 hy with rfl | hy
    · exact ⟨0, by simp⟩
    · exact ha y (List.mem_reverse.1 hy)
  have hn : ∀ y ∈ (0 :: a.reverse).map (-1 * ·), ∃ k : ℤ, (commonDen a : Rat) * y = k := fun y hy => by
    obtain ⟨z, hz, rfl⟩ := List.mem_map.1 hy
    obtain ⟨k, hk⟩ := hr z hz
    exact ⟨-k, by rw [mul_left_comm, hk]; push_cast; ring⟩
  have key : ∀ (b : Rat) (L cs : List Rat), (∀ y ∈ L, ∃ k : ℤ, (commonDen a : Rat) * y = k) →
      L = polyMul [1, b] (quadProduct cs) → cospi x ∈ cs → (2 * cospi x).den ∣ commonDen a := fun b L cs hL he hm => by
    refine den_dvd (commonDen_pos a) hL ?_ ?_
    · rw [he, coeffPoly_mul]; exact (quad_dvd hm).mul_left _
    · rw [he, coeffPoly_mul, mul_coeff_zero, coeff_zero_quadProduct]; simp [coeffPoly]
  rcases mem_everyOther hx with h | h
  · exact key _ _ _ (polyAdd_int ha hr) hP (List.mem_map_of_mem h)
  · exact key _ _ _ (polyAdd_int ha hn) hQ (List.mem_map_of_mem h)

theorem sample_cospi_bounds : sampleCospi 0 = 1 ∧ sampleCospi 1 = -1 := by decide +kernel

theorem sampleCospi_mem {x : Rat} (h : 0 < x ∧ x < 1) : -1 < sampleCospi x ∧ sampleCospi x < 1 := by
  have hu := sampleCospi_anti le_rfl h.1 h.2.le
  have hd := sampleCospi_anti h.1.le h.2 le_rfl
  rw [sample_cospi_bounds.1] at hu
  rw [sample_cospi_bounds.2] at hd
  exact ⟨hd, hu⟩

theorem sampleArccos_sampleCospi {x : Rat} (h : 0 < x ∧ x < 1) : sampleArccos (sampleCospi x) = x :=
  (sampleCospi_spec ⟨h.1.le, h.2.le⟩).2

theorem mem_rootCandidates {a l : List Rat} (h : IsLsp sampleCospi a l) {x : Rat} (hx : x ∈ l) : x ∈ rootCandidates a := by
  obtain ⟨d, hd⟩ := den_dvd_of_isLsp h hx
  have hM := commonDen_pos a
  have hr := h.2.2.1 x hx
  obtain ⟨h2, h1⟩ := sampleCospi_mem hr
  set c := sampleCospi x with hc
  have hMq : (0 : Rat) < commonDen a := by exact_mod_cast hM
  have hn : (commonDen a : Rat) * (2 * c) = ((d * (2 * c).num : ℤ) : Rat) := by
    have := Rat.den_mul_eq_num (2 * c)
    rw [hd]; push_cast
    rw [mul_comm ((2 * c).den : Rat), mul_assoc, this]
  set n : ℤ := d * (2 * c).num
  have hn1 : n < 2 * commonDen a := by
    have : (n : Rat) < 2 * commonDen a := by rw [← hn]; nlinarith
    exact_mod_cast this
  have hn2 : -(2 * (commonDen a : ℤ)) < n := by
    have : -(2 * (commonDen a : Rat)) < n := by rw [← hn]; nlinarith
    exact_mod_cast this
  obtain ⟨i, hi⟩ : ∃ i : Nat, (i : ℤ) = 2 * commonDen a - 1 - n := ⟨(2 * commonDen a - 1 - n).toNat, by omega⟩
  refine List.mem_map.2 ⟨i, List.mem_range.2 (by omega), ?_⟩
  have hiq : (i : Rat) = 2 * commonDen a - 1 - n := by exact_mod_cast hi
  have : (2 * (commonDen a : Rat) - 1 - i) / (2 * commonDen a) = c := by
    rw [hiq, ← hn]; field_simp; ring
  show sampleArccos _ = x
  rw [this, hc, sampleArccos_sampleCospi hr]

theorem rootCandidates_pairwise (a : List Rat) : (rootCandidates a).Pairwise (· < ·) := by
  rw [rootCandidates, List.pairwise_map]
  have hMq : (0 : Rat) < 2 * commonDen a := by have := commonDen_pos a; positivity
  refine List.pairwise_lt_range.imp_of_mem fun {i j} _ hj hij => sampleArccos_anti ?_ ?_ ?_
  · have : (j : Rat) + 1 ≤ 4 * commonDen a := by
      have := List.mem_range.1 hj
      exact_mod_cast (by omega : j + 1 ≤ 4 * commonDen a)
    rw [le_div_iff₀ hMq]; linarith
  · have : (i : Rat) < j := by exact_mod_cast hij
    rw [div_lt_div_iff_of_pos_right hMq]; linarith
  · have : (0 : Rat) ≤ i := by positivity
    rw [div_le_one hMq]; linarith

theorem rootSearch_isSome {a l : List Rat} (h : IsLsp sampleCospi a l) : ∃ l', rootSearch a = some l' := by
  have hs : l.Sublist (rootCandidates a) := by
    refine List.sublist_of_subperm_of_pairwise (r := (· < ·)) ?_ h.2.1 (rootCandidates_pairwise a)
    exact List.subperm_of_subset (h.2.1.imp fun hlt => hlt.ne) fun x hx => mem_rootCandidates h hx
  rw [← Option.isSome_iff_exists, rootSearch, List.find?_isSome]
  refine ⟨l, List.mem_sublistsLen.2 ⟨hs, ?_⟩, decide_eq_true h⟩
  rw [h.1.1]; rfl

theorem rootSearch_isLsp {a l : List Rat} (h : rootSearch a = some l) : IsLsp sampleCospi a l := by
  rw [rootSearch] at h
  exact of_decide_eq_true (List.find?_some (p := fun l => decide (IsLsp sampleCospi a l)) h)

end

/-! ## The assumptions -/

namespace Num

/-- The vector of the upper ends: ordered, in `(0, 1)`, and close to the exact one. -/
theorem closeVector_spec {a : List Rat} (h : stable a = true ∧ a.length % 2 = 1) :
    (closeVector a h).length + 1 = a.length ∧ (closeVector a h).Pairwise (· < ·) ∧ (∀ x ∈ closeVector a h, 0 < x ∧ x < 1)
      ∧ ∀ w, InterlacedAt a w → ∀ (k : Nat) (_ : k < (closeVector a h).length) (_ : k < w.length),
        |((closeVector a h)[k] : ℝ) - w[k] / Real.pi| ≤ 1 / 2 ^ 32 := by
  have hp := Real.pi_pos
  have hL : RootIntervals a (1 / 2 ^ 69) (vectorIntervals a h) := Encodable.choose_spec (exists_vectorIntervals h)
  obtain ⟨w', hw', hin⟩ := interlacedAt_of_rootIntervals h.2 hL
  obtain ⟨hl, hd, hb, -⟩ := hL
  refine ⟨by rw [closeVector, List.length_map, hl], ?_, ?_, fun w hw k hk hk' => ?_⟩
  · rw [closeVector, List.pairwise_map]
    refine hd.imp_of_mem fun {I J} hI hJ hIJ => ?_
    obtain ⟨j1, j2, -, -⟩ := hb J hJ
    obtain ⟨-, i2, i3, -⟩ := hb I hI
    exact sampleArccos_anti (j1.trans j2).le (hIJ.trans_lt i2) i3.le
  · intro x hx
    obtain ⟨I, hI, rfl⟩ := List.mem_map.1 hx
    obtain ⟨i1, i2, i3, -⟩ := hb I hI
    have h0 := sampleArccos_anti (i1.trans i2).le i3 le_rfl
    have h1 := sampleArccos_anti le_rfl (i1.trans i2) i3.le
    rw [show sampleArccos 1 = 0 by decide +kernel] at h0
    rw [show sampleArccos (-1) = 1 by decide +kernel] at h1
    exact ⟨h0, h1⟩
  · obtain rfl := interlacedAt_unique h.2 ((stable_iff a).1 h.1).1 hw hw'
    have hkL : k < (vectorIntervals a h).length := by simpa [closeVector] using hk
    obtain ⟨n1, n2⟩ := hin k hkL hk'
    obtain ⟨i1, i2, i3, i4⟩ := hb _ (List.getElem_mem hkL)
    simp only [closeVector, List.getElem_map, sampleArccos_eq]
    set I := (vectorIntervals a h)[k]
    have hc := fineArccos_close (c := I.1) ⟨(i1.trans i2).le, i3.le⟩
    have hs := arccos_sub_le (a := (I.2 : ℝ)) (b := (I.1 : ℝ)) (by exact_mod_cast i1.le) (by exact_mod_cast i2.le)
      (by exact_mod_cast i3.le) (e := 1 / 2 ^ 35) (by positivity) (by
        have : ((I.1 - I.2 : Rat) : ℝ) ≤ ((1 / 2 ^ 69 : Rat) : ℝ) := by exact_mod_cast i4
        push_cast at this
        refine this.trans ?_
        norm_num)
    have a1 : Real.arccos I.1 / Real.pi ≤ w[k] / Real.pi := div_le_div_of_nonneg_right n1.le hp.le
    have a2 : w[k] / Real.pi ≤ Real.arccos I.2 / Real.pi := div_le_div_of_nonneg_right n2.le hp.le
    rw [sub_div] at hs
    rw [abs_le] at hc ⊢
    constructor <;> linarith

/-- The sample root finder answers the vector of `sampleCospi`, or for a minimum-phase filter the exact vector or a close
one. -/
theorem sample_lsproots_cases {a l : List Rat} (h : sample.lsproots a = some l) :
    IsLsp sampleCospi a l ∨ (MinPhase a ∧ (IsExactLsp a l ∨ ∃ hs, l = closeVector a hs)) := by
  simp only [sample] at h
  split at h
  · rename_i m hs
    exact .inl (Option.some.inj h ▸ rootSearch_isLsp hs)
  · split_ifs at h with hm
    refine .inr ⟨(stable_iff a).1 hm.1, ?_⟩
    rw [← Option.some.inj h]
    cases he : exactSearch a with
    | none => exact .inr ⟨hm, rfl⟩
    | some m => exact .inl (exactSearch_isExact he)

/-- The vector of `sampleCospi` has its interlaced roots at the angles with its cosines. -/
theorem sample_interlacedAt {a l : List Rat} (h : IsLsp sampleCospi a l) :
    InterlacedAt a (l.map fun x => Real.arccos (sampleCospi x)) :=
  interlacedAt_of_isLsp (fun _ _ hx hxy hy => sampleCospi_anti hx hxy hy) sample_cospi_bounds.1 sample_cospi_bounds.2 h

/-- Every answer is close to the exact vector. -/
theorem sample_lsproots_close {a l : List Rat} {w : List ℝ} (ha : a.length % 2 = 1) (h : MinPhase a)
    (hw : InterlacedAt a w) (hs : sample.lsproots a = some l) (k : Nat) (hk : k < l.length) (hk' : k < w.length) :
    |(l[k] : ℝ) - w[k] / Real.pi| ≤ 1 / 2 ^ 32 := by
  rcases sample_lsproots_cases hs with hc | ⟨-, he | ⟨hm, rfl⟩⟩
  · obtain rfl := interlacedAt_unique ha h.1 hw (sample_interlacedAt hc)
    have hx := hc.2.2.1 _ (List.getElem_mem hk)
    obtain ⟨b1, b2⟩ := sampleCospi_mem hx
    have hf := fineArccos_close ⟨b1.le, b2.le⟩
    rw [← sampleArccos_eq, sampleArccos_sampleCospi hx] at hf
    rw [List.getElem_map]
    exact hf.trans (by norm_num)
  · obtain rfl := interlacedAt_unique ha h.1 hw he
    rw [List.getElem_map, mul_div_cancel_left₀ _ Real.pi_ne_zero, sub_self, abs_zero]
    positivity
  · exact (closeVector_spec hm).2.2.2 w hw k hk hk'

/-- R181's example at order 2. -/
theorem sample_lsproots_two (a1 a2 : Rat) (h : MinPhase [1, a1, a2]) : ∃ x y, sample.lsproots [1, a1, a2] = some [x, y]
    ∧ sampleCospi x = (1 - a1 - a2) / 2 ∧ sampleCospi y = -(1 + a1 - a2) / 2 := by
  obtain ⟨c0, c1, c2⟩ := (minPhase_two a1 a2).1 h
  have e0 := sampleCospi_sampleArccos (c := (1 - a1 - a2) / 2) ⟨by linarith, by linarith⟩
  have e1 := sampleCospi_sampleArccos (c := -(1 + a1 - a2) / 2) ⟨by linarith, by linarith⟩
  have p0 := sampleArccos_anti (c := (1 - a1 - a2) / 2) (d := 1) (by linarith) (by linarith) le_rfl
  have p1 := sampleArccos_anti (c := -(1 + a1 - a2) / 2) (d := (1 - a1 - a2) / 2) (by linarith) (by linarith) (by linarith)
  have p2 := sampleArccos_anti (c := -1) (d := -(1 + a1 - a2) / 2) le_rfl (by linarith) (by linarith)
  rw [show sampleArccos 1 = 0 by decide +kernel] at p0
  rw [show sampleArccos (-1) = 1 by decide +kernel] at p2
  generalize sampleArccos ((1 - a1 - a2) / 2) = x at e0 p0 p1
  generalize sampleArccos (-(1 + a1 - a2) / 2) = y at e1 p1 p2
  have hl : IsLsp sampleCospi [1, a1, a2] [x, y] := by
    refine ⟨⟨by simp, by simp⟩, by simpa using p1, ?_, ?_, ?_⟩
    · intro z hz
      rcases List.mem_pair.1 hz with rfl | rfl
      · exact ⟨p0, p1.trans p2⟩
      · exact ⟨p0.trans p1, p2⟩
    · simp [sumPoly, everyOther, quadProduct, polyMul, polyAdd, e0]
      constructor <;> ring
    · simp [diffPoly, everyOther, quadProduct, polyMul, polyAdd, e1]
      constructor <;> ring
  obtain ⟨m, hm⟩ := rootSearch_isSome hl
  obtain ⟨⟨hlen, -⟩, -, -, hP, hQ⟩ := rootSearch_isLsp hm
  obtain ⟨x, y, rfl⟩ : ∃ x y, m = [x, y] := List.length_eq_two.1 (by simpa using hlen.symm)
  simp [sumPoly, diffPoly, everyOther, quadProduct, polyMul, polyAdd] at hP hQ
  exact ⟨x, y, by simp [sample, hm], by linarith, by linarith⟩

/-- The sample cosine is exact wherever the cosine of a rational multiple of `pi` is rational (Niven). -/
theorem sampleCospi_niven {x q : Rat} (hx : 0 < x ∧ x < 1) (h : Real.cos (Real.pi * x) = q) : sampleCospi x = q := by
  have hmem := niven_angle_div_pi_eq (r := x) ⟨q, by rw [mul_comm]; exact h⟩ ⟨hx.1.le, hx.2.le⟩
  simp only [Set.mem_insert_iff, Set.mem_singleton_iff] at hmem
  have two : Real.cos (Real.pi * (2 / 3)) = -(1 / 2) := by
    rw [show Real.pi * (2 / 3) = Real.pi - Real.pi / 3 by ring, Real.cos_pi_sub, Real.cos_pi_div_three]
  refine Rat.cast_injective (α := ℝ) (Eq.trans ?_ h)
  rcases hmem with rfl | rfl | rfl | rfl | rfl
  · exact absurd hx.1 (lt_irrefl 0)
  · rw [show sampleCospi (1 / 3) = 1 / 2 by decide +kernel]
    push_cast
    rw [show Real.pi * (1 / 3) = Real.pi / 3 by ring, Real.cos_pi_div_three]
  · rw [show sampleCospi (1 / 2) = 0 by decide +kernel]
    push_cast
    rw [show Real.pi * (1 / 2) = Real.pi / 2 by ring, Real.cos_pi_div_two]
  · rw [show sampleCospi (2 / 3) = -(1 / 2) by decide +kernel]
    push_cast
    rw [two]
  · exact absurd hx.2 (lt_irrefl 1)

/-- Where the exact vector is rational, the vector of `sampleCospi` is that one. -/
theorem sample_isLsp_eq {a l m : List Rat} (ha : a.length % 2 = 1) (h1 : a.head? = some 1) (hl : IsExactLsp a l)
    (hm : IsLsp sampleCospi a m) : m = l := by
  have he := interlacedAt_unique ha h1 hl (sample_interlacedAt hm)
  have hlen : l.length = m.length := by simpa using congrArg List.length he
  refine List.ext_getElem hlen.symm fun k hk hk' => ?_
  have hv : Real.pi * (l[k] : ℝ) = Real.arccos (sampleCospi m[k]) := by
    have := congrArg (fun v => v[k]?) he
    simpa [hk, hk'] using this
  have hr := (isExactLsp_bounds hl).2.2 _ (List.getElem_mem hk')
  have hmk := hm.2.2.1 _ (List.getElem_mem hk)
  obtain ⟨hd, hu⟩ := sampleCospi_mem hmk
  have hc := sampleCospi_niven hr (by
    rw [hv, Real.cos_arccos (by exact_mod_cast hd.le) (by exact_mod_cast hu.le)])
  rw [← sampleArccos_sampleCospi hmk, ← hc, sampleArccos_sampleCospi hr]

theorem sample_lsproots_exact {a l : List Rat} (ha : a.length % 2 = 1) (h : MinPhase a) (hl : IsExactLsp a l) :
    sample.lsproots a = some l := by
  simp only [sample, dif_pos (And.intro ((stable_iff a).2 h) ha)]
  split
  · rename_i m hs
    rw [sample_isLsp_eq ha h.1 hl (rootSearch_isLsp hs)]
  · rw [exactSearch_eq ha h.1 hl, Option.getD_some]

/-- What it answers has the interlaced roots. -/
theorem sample_lsproots_interlaced {a l : List Rat} (h : sample.lsproots a = some l) : Interlaced a := by
  rcases sample_lsproots_cases h with h | h
  · exact ⟨_, sample_interlacedAt h⟩
  · exact interlaced_of_minPhase h.1

theorem sample_log2_strictMono (x y : Rat) (hx : 0 < x) (hxy : x < y) : sample.log2 x < sample.log2 y := by
  have hy : 0 < y := hx.trans hxy
  have two : (1 : Nat) < 2 := by norm_num
  have hl : ∀ z : Rat, 0 < z → (2 : Rat) ^ Int.log 2 z ≤ z := fun z hz => by
    simpa using Int.zpow_log_le_self two hz
  have hu : ∀ z : Rat, z < (2 : Rat) ^ (Int.log 2 z + 1) := fun z => by
    simpa using Int.lt_zpow_succ_log_self two z
  have hmono : Int.log 2 x ≤ Int.log 2 y := Int.log_mono_right hx hxy.le
  have hpx : (0 : Rat) < (2 : Rat) ^ Int.log 2 x := by positivity
  have hpy : (0 : Rat) < (2 : Rat) ^ Int.log 2 y := by positivity
  rcases hmono.lt_or_eq with h | h
  · have h1 : x / (2 : Rat) ^ Int.log 2 x < 2 := by
      rw [div_lt_iff₀ hpx]
      have := hu x
      rw [zpow_add_one₀ (by norm_num)] at this
      linarith
    have h2 : 1 ≤ y / (2 : Rat) ^ Int.log 2 y := by
      rw [le_div_iff₀ hpy]
      have := hl y hy
      linarith
    have h3 : ((Int.log 2 x : Int) : Rat) + 1 ≤ Int.log 2 y := by exact_mod_cast h
    simp only [sample]
    linarith
  · have h1 : x / (2 : Rat) ^ Int.log 2 x < y / (2 : Rat) ^ Int.log 2 x :=
      (div_lt_div_iff_of_pos_right hpx).2 hxy
    simp only [sample]
    rw [← h]
    linarith

theorem sample_log2_zpow (k : Int) : sample.log2 ((2 : Rat) ^ k) = k := by
  have h : Int.log 2 ((2 : Rat) ^ k) = k := by simpa using Int.log_zpow (R := Rat) (b := 2) (by norm_num) k
  have hp : ((2 : Rat) ^ k) ≠ 0 := by positivity
  simp [sample, h, hp]

theorem sample_pow2_strictMono (x y : Rat) (hxy : x < y) : sample.pow2 x < sample.pow2 y := by
  have hf : ⌊x⌋ ≤ ⌊y⌋ := Int.floor_le_floor hxy.le
  have hx0 := Int.floor_le x
  have hx1 := Int.lt_floor_add_one x
  have hy0 := Int.floor_le y
  have hpx : (0 : Rat) < (2 : Rat) ^ ⌊x⌋ := by positivity
  have hpy : (0 : Rat) < (2 : Rat) ^ ⌊y⌋ := by positivity
  simp only [sample]
  rcases hf.lt_or_eq with h | h
  · have h1 : (2 : Rat) ^ ⌊x⌋ * 2 ≤ (2 : Rat) ^ ⌊y⌋ := by
      rw [← zpow_add_one₀ (by norm_num)]
      exact zpow_le_zpow_right₀ (by norm_num) h
    nlinarith
  · rw [← h] at hy0 ⊢
    nlinarith

theorem sampleSqrt_of_isSquare {x : Rat} (hx : 0 ≤ x) (h : IsSquare x) : 0 ≤ sampleSqrt x ∧ sampleSqrt x * sampleSqrt x = x := by
  obtain ⟨q, rfl⟩ := h
  have hq : Rat.sqrt (q * q) = |q| := Rat.sqrt_eq q
  rw [sampleSqrt, hq, abs_mul_abs_self, if_pos rfl]
  exact ⟨abs_nonneg q, abs_mul_abs_self q⟩

theorem sampleSqrt_of_not_isSquare {x : Rat} (h : ¬IsSquare x) : sampleSqrt x = rootDown x :=
  if_neg fun he => h ⟨_, he.symm⟩

/-- What the rounded root is: below the root, by less than one part in `2^33`, and at least its power of two. -/
theorem rootDown_spec {x : Rat} (hx : 0 < x) :
    0 < rootDown x ∧ rootDown x * rootDown x ≤ x ∧ x < rootDown x * rootDown x * (1 + 1 / 2 ^ 32)
      ∧ (2 : Rat) ^ Int.log 4 x ≤ rootDown x := by
  have hlog : (4 : Rat) ^ Int.log 4 x ≤ x := by simpa using Int.zpow_log_le_self (b := 4) (by norm_num) hx
  set e := Int.log 4 x - 34 with he
  have h4 : (4 : Rat) ^ e = 2 ^ e * 2 ^ e := by rw [← mul_zpow]; norm_num
  have h2 : (0 : Rat) < 2 ^ e := by positivity
  have h40 : (0 : Rat) < 4 ^ e := by positivity
  set n := ⌊x / 4 ^ e⌋₊ with hn
  have ht : (n : Rat) ≤ x / 4 ^ e := Nat.floor_le (by positivity)
  have ht' : x / 4 ^ e < n + 1 := Nat.lt_floor_add_one _
  have hbig : (2 ^ 34) * (2 ^ 34) ≤ n := by
    rw [hn, Nat.le_floor_iff (by positivity), le_div_iff₀ h40]
    refine le_trans (le_of_eq ?_) hlog
    rw [he, zpow_sub₀ (by norm_num)]
    norm_num
    field_simp
  have hr : 2 ^ 34 ≤ Nat.sqrt n := Nat.le_sqrt.2 hbig
  have hs : Nat.sqrt n * Nat.sqrt n ≤ n := Nat.sqrt_le n
  have hs' : n + 1 ≤ (Nat.sqrt n + 1) * (Nat.sqrt n + 1) := Nat.lt_succ_sqrt n
  have hf : rootDown x = 2 ^ e * (Nat.sqrt n : Rat) := rfl
  generalize Nat.sqrt n = r at hr hs hs' hf
  have hrq : (2 : Rat) ^ 34 ≤ r := by exact_mod_cast hr
  have hsq : (r : Rat) * r ≤ n := by exact_mod_cast hs
  have hsq' : (n : Rat) + 1 ≤ (r + 1) * (r + 1) := by exact_mod_cast hs'
  have hff : rootDown x * rootDown x = 4 ^ e * (r * r) := by rw [hf, h4]; ring
  refine ⟨by rw [hf]; exact mul_pos h2 (by linarith [pow_pos (two_pos : (0 : Rat) < 2) 34]), ?_, ?_, ?_⟩
  · rw [hff, mul_comm, ← le_div_iff₀ h40]
    exact hsq.trans ht
  · rw [hff, mul_assoc, mul_comm, ← div_lt_iff₀ h40]
    refine ht'.trans_le (hsq'.trans ?_)
    have hrr := mul_le_mul_of_nonneg_left hrq (by positivity : (0 : Rat) ≤ r)
    linarith
  · rw [hf, show Int.log 4 x = e + 34 by omega, zpow_add₀ (by norm_num)]
    exact mul_le_mul_of_nonneg_left (by exact_mod_cast hrq) h2.le

theorem rootDown_mono {x y : Rat} (hx : 0 < x) (hxy : x ≤ y) : rootDown x ≤ rootDown y := by
  have hy := hx.trans_le hxy
  obtain ⟨hx0, hx1, -, -⟩ := rootDown_spec hx
  obtain ⟨hy0, -, -, hy1⟩ := rootDown_spec hy
  rcases (Int.log_mono_right (b := 4) hx hxy).lt_or_eq with h | h
  · refine le_trans ?_ hy1
    have h4 : x < 4 ^ Int.log 4 y :=
      (by simpa using Int.lt_zpow_succ_log_self (b := 4) (by norm_num) x : x < 4 ^ (Int.log 4 x + 1)).trans_le
        (zpow_le_zpow_right₀ (by norm_num) (by omega))
    have h2 : (4 : Rat) ^ Int.log 4 y = 2 ^ Int.log 4 y * 2 ^ Int.log 4 y := by rw [← mul_zpow]; norm_num
    have hp : (0 : Rat) < 2 ^ Int.log 4 y := by positivity
    exact abs_le_of_sq_le_sq' (by nlinarith) hp.le |>.2
  · rw [rootDown, rootDown, h]
    refine mul_le_mul_of_nonneg_left ?_ (by positivity)
    exact_mod_cast Nat.sqrt_le_sqrt (Nat.floor_le_floor ((div_le_div_iff_of_pos_right (by positivity)).2 hxy))

theorem pos_of_not_isSquare {x : Rat} (hx : 0 ≤ x) (h : ¬IsSquare x) : 0 < x :=
  lt_of_le_of_ne hx fun he => h ⟨0, by rw [← he, mul_zero]⟩

/-- The sample square root is non-decreasing but from a square to a number that is none and nearer than one part in
`2^32`, where it may round down. -/
theorem sampleSqrt_mono (x y : Rat) (hx : 0 ≤ x) (hxy : x ≤ y)
    (hs : (IsSquare x → IsSquare y) ∨ x + x / 2 ^ 32 ≤ y) : sampleSqrt x ≤ sampleSqrt y := by
  have hy := hx.trans hxy
  by_cases h : IsSquare y
  · obtain ⟨hy0, hyy⟩ := sampleSqrt_of_isSquare hy h
    have hxx : sampleSqrt x * sampleSqrt x ≤ x := by
      by_cases hx' : IsSquare x
      · exact (sampleSqrt_of_isSquare hx hx').2.le
      · rw [sampleSqrt_of_not_isSquare hx']
        exact (rootDown_spec (pos_of_not_isSquare hx hx')).2.1
    exact abs_le_of_sq_le_sq' (by nlinarith) hy0 |>.2
  · have hy' := pos_of_not_isSquare hy h
    rw [sampleSqrt_of_not_isSquare h]
    by_cases hx' : IsSquare x
    · obtain ⟨-, hxx⟩ := sampleSqrt_of_isSquare hx hx'
      obtain ⟨h0, -, hu, -⟩ := rootDown_spec hy'
      have hfar := hs.resolve_left fun hi => h (hi hx')
      exact abs_le_of_sq_le_sq' (by norm_num at hu hfar; nlinarith) h0.le |>.2
    · rw [sampleSqrt_of_not_isSquare hx']
      exact rootDown_mono (pos_of_not_isSquare hx hx') hxy

theorem sample_ok : sample.Ok where
  log2_strictMono := sample_log2_strictMono
  log2_zpow := sample_log2_zpow
  sqrt_nonneg x hx := by
    show 0 ≤ sampleSqrt x
    by_cases h : IsSquare x
    · exact (sampleSqrt_of_isSquare hx h).1
    · rw [sampleSqrt_of_not_isSquare h]
      exact (rootDown_spec (pos_of_not_isSquare hx h)).1.le
  sqrt_mono := .inl fun x y hx hxy hs => sampleSqrt_mono x y hx hxy (.inl hs)
  sqrt_mono_far x y hx h := sampleSqrt_mono x y hx ((le_add_of_nonneg_right (by positivity)).trans h) (.inr h)
  sqrt_sq x hx := by
    show sampleSqrt (x * x) = x
    rw [sampleSqrt, show Rat.sqrt (x * x) = x from (Rat.sqrt_eq x).trans (abs_of_nonneg hx), if_pos rfl]
  pow2_strictMono := sample_pow2_strictMono
  pow2_pos x := by
    have := Int.floor_le x
    have : (0 : Rat) < 1 + (x - ⌊x⌋) := by linarith
    simp only [sample]
    positivity
  pow2_int k := by simp [sample]
  cospi_strictAnti _ _ hx h hy := sampleCospi_anti hx h hy
  cospi_zero := by decide +kernel
  cospi_third := by decide +kernel
  cospi_half := by decide +kernel
  cospi_two_thirds := by decide +kernel
  cospi_one := by decide +kernel
  lsproots_length a l h := by
    rcases sample_lsproots_cases h with h | ⟨-, h | ⟨hs, rfl⟩⟩
    · have := h.1.1; omega
    · have := (isExactLsp_bounds h).1; omega
    · have := (closeVector_spec hs).1; omega
  lsproots_increasing a l h := by
    rcases sample_lsproots_cases h with h | ⟨-, h | ⟨hs, rfl⟩⟩
    · exact h.2.1
    · exact (isExactLsp_bounds h).2.1
    · exact (closeVector_spec hs).2.1
  lsproots_range a l h x hx := by
    rcases sample_lsproots_cases h with h | ⟨-, h | ⟨hs, rfl⟩⟩
    · exact h.2.2.1 x hx
    · exact (isExactLsp_bounds h).2.2 x hx
    · exact (closeVector_spec hs).2.2.1 x hx
  lsproots_minPhase a ha h := by
    simp only [sample, dif_pos (And.intro ((stable_iff a).2 h) ha)]
    split <;> exact ⟨_, rfl⟩
  lsproots_exact a l ha h hl := sample_lsproots_exact ha h hl
  lsproots_close _ _ _ ha h hw hs := sample_lsproots_close ha h hw hs
  lsproots_two := sample_lsproots_two
  lsproots_cospi a h := by
    obtain ⟨l, hl⟩ := h
    obtain ⟨m, hm⟩ := rootSearch_isSome hl
    exact ⟨m, by simp [sample, hm], rootSearch_isLsp hm⟩
  lsproots_fails a _ h := Option.eq_none_iff_forall_ne_some.2 fun l hl => h (sample_lsproots_interlaced hl)
  lsproots_flat p hp :=
    sample_lsproots_exact (by rw [List.length_cons, List.length_replicate]; omega) (minPhase_flat p) (isExactLsp_flat p)

end Num
end Sys2Proof
end

