-- ==== Sys2Proof/Config.lean ====
section
/-! DEFINITION. What one build of the block fixes: the profile `P` of R8 to R11, the configuration
functions `NUM.*` of R17 and R18 (`Machine/Num.lean` says what they are), and the open parameters of
`92_eei_decisions.md`. The spec gives no value of any of them, so each enters the machine as a constant without a
body. -/

namespace Sys2Proof

/-- The profile `P` (R8): every dimension of R9, every table and threshold of R10, the window length of
R45, the thresholds of R244, the formats of R340 and the reset values of R60, each under the spec's name.
An array indexed from 0 is a list; an array indexed `[1..n]` is a list of length `n` whose entry `i` is the
spec's `i + 1`. -/
structure Profile where
  fs : Nat
  frsz : Nat
  nsf : Nat
  sfrsz : Nat
  vdim : Nat
  nvpsf : Nat
  nvpf : Nat
  cbsz : Nat
  lpco : Nat
  winsz : Nat
  lspporder : Nat
  lspcb1sz : Nat
  split1 : Nat
  lspcb21sz : Nat
  lspcb22sz : Nat
  minpp : Nat
  maxpp : Nat
  decf : Nat
  pwsz : Nat
  ppcbsz : Nat
  lgporder : Nat
  lgcbsz : Nat
  nrow : Nat
  ncol : Nat
  lsp1bits : Nat
  lsp21bits : Nat
  lsp22bits : Nat
  ppbits : Nat
  ptbits : Nat
  gbits : Nat
  ebitsShape : Nat
  ebits : Nat
  hpfB : List Rat
  hpfA : List Rat
  peB : Rat
  peA : Rat
  win : List Rat
  lagwin : List Rat
  bwexp : List Rat
  lspMean : List Rat
  lspp : List (List Rat)
  lspcb1 : List (List Rat)
  lspcb21 : List (List Rat)
  lspcb22 : List (List Rat)
  lsp21Fallback : Nat
  lspmin : Rat
  lspmax : Rat
  lspminsep : Rat
  gammaPw : Rat
  declpf : List Rat
  npeakMax : Nat
  improve : Rat
  devNear : Rat
  thNear : Rat
  multMax : Nat
  devMult : Rat
  thMult : Rat
  ppcb : List (List Rat)
  ltnfScale : Rat
  betaMax : Rat
  gammaNf : Rat
  cb : List (List Rat)
  lgmean : Rat
  lgp : List Rat
  lgcb : List Rat
  lgord : List Nat
  glimtab : List (List Rat)
  rowMin : Rat
  rowStep : Rat
  colMin : Rat
  colStep : Rat
  lgFloor : Rat
  estlAlpha : Rat
  estlBeta : Rat
  estlTh : Rat
  estlA : Rat
  nclglimTrapped : Nat
  levelConvergenceTime : Nat
  perSmooth : Rat
  lcgA : Word
  lcgC : Word
  scplcA : Rat
  scplcB : Rat
  scplcMin : Rat
  scplcMax : Rat
  holdPlc : Nat
  attnTaps : Rat
  attnE : Rat
  cfeMax : Nat
  lpcQ : Nat
  peQ : Nat
  sexpMin : Int
  sexpMax : Int
  resetLsp : List Rat
  resetLsppm : Rat
  resetCpp : Nat
  resetPp : Nat
  resetLgpm : Rat
  resetPrevlg0 : Rat
  resetPrevlg1 : Rat
  resetLevel : Rat
  resetLmax : Rat
  resetLmin : Rat
  resetLmean : Rat
  resetX1 : Rat
  resetE : Rat
  resetSexp : Int
  lcgSeed : Word
  deriving DecidableEq, Repr

namespace Profile

/-- `XH` of R45. -/
def xh (P : Profile) : Nat := max (P.winsz - P.frsz) P.lpco

/-- `FRSZD` of R45. -/
def frszd (P : Profile) : Nat := P.frsz / P.decf

/-- `PWSZD` of R45. -/
def pwszd (P : Profile) : Nat := P.pwsz / P.decf

/-- `KMIN = ceil(MINPP / DECF)` of R45. -/
def kmin (P : Profile) : Nat := (P.minpp + P.decf - 1) / P.decf

/-- `KMAX = floor(MAXPP / DECF)` of R45. -/
def kmax (P : Profile) : Nat := P.maxpp / P.decf

/-- `XDH` of R45. -/
def xdh (P : Profile) : Nat := P.pwszd - P.frszd + P.kmax

/-- `PWH` of R45. -/
def pwh (P : Profile) : Nat := P.pwsz - P.frsz + P.maxpp

/-- `DECLPF_LEN` of R45. -/
def declpfLen (P : Profile) : Nat := P.declpf.length

/-- `NIDX = 5 + NSF + NVPF` of R115. -/
def nidx (P : Profile) : Nat := 5 + P.nsf + P.nvpf

/-- The dimension constraints of R9, the divisibility of R45, `FRSZ >= 2` of R170 and the window limits of R81. -/
structure DimsOk (P : Profile) : Prop where
  frsz_eq : P.frsz = P.nsf * P.sfrsz
  nsf_pos : 1 ≤ P.nsf
  sfrsz_eq : P.sfrsz = P.nvpsf * P.vdim
  vdim_pos : 1 ≤ P.vdim
  nvpsf_pos : 1 ≤ P.nvpsf
  nvpf_eq : P.nvpf = P.nsf * P.nvpsf
  two_le_frsz : 2 ≤ P.frsz
  frsz_le : P.frsz ≤ 256
  nidx_le : P.nidx ≤ 128
  lpco_even : P.lpco % 2 = 0
  two_le_lpco : 2 ≤ P.lpco
  frsz_le_winsz : P.frsz ≤ P.winsz
  lpco_lt_winsz : P.lpco < P.winsz
  vdim_lt_minpp : P.vdim + 1 ≤ P.minpp
  minpp_lt_maxpp : P.minpp < P.maxpp
  decf_pos : 1 ≤ P.decf
  decf_dvd_frsz : P.frsz % P.decf = 0
  decf_dvd_pwsz : P.pwsz % P.decf = 0
  frsz_le_pwsz : P.frsz ≤ P.pwsz
  lspporder_pos : 1 ≤ P.lspporder
  lgporder_pos : 1 ≤ P.lgporder
  split1_pos : 1 ≤ P.split1
  split1_lt_lpco : P.split1 < P.lpco
  nrow_pos : 1 ≤ P.nrow
  ncol_pos : 1 ≤ P.ncol
  declpf_pos : 1 ≤ P.declpfLen

/-- The index widths of R9 and R115. DEDUCED: a slot is 32 bits wide and holds its index in bits `[w-1:0]`
(R42), so no width exceeds 32; a codebook that is searched has a row; a dimension that `PROFILE0..2` report fits
the field that reports it (R37). -/
structure WidthsOk (P : Profile) : Prop where
  cbsz_eq : P.cbsz = 2 ^ P.ebitsShape
  ebits_eq : P.ebits = P.ebitsShape + 1
  lspcb1 : 1 ≤ P.lspcb1sz ∧ P.lspcb1sz ≤ 2 ^ P.lsp1bits
  lspcb21 : 1 ≤ P.lspcb21sz ∧ P.lspcb21sz ≤ 2 ^ P.lsp21bits
  lspcb22 : 1 ≤ P.lspcb22sz ∧ P.lspcb22sz ≤ 2 ^ P.lsp22bits
  lags : P.maxpp - P.minpp < 2 ^ P.ppbits
  ppcb : 1 ≤ P.ppcbsz ∧ P.ppcbsz ≤ 2 ^ P.ptbits
  lgcb : 1 ≤ P.lgcbsz ∧ P.lgcbsz ≤ 2 ^ P.gbits
  lspbits_le : P.lsp1bits ≤ 32 ∧ P.lsp21bits ≤ 32 ∧ P.lsp22bits ≤ 32
  ppbits_le : P.ppbits ≤ 32
  ptbits_le : P.ptbits ≤ 32
  gbits_le : P.gbits ≤ 32
  ebits_le : P.ebits ≤ 32
  lpco_lt : P.lpco < 256
  nsf_lt : P.nsf < 16
  minpp_lt : P.minpp < 65536
  maxpp_lt : P.maxpp < 65536
  vdim_lt : P.vdim < 256

/-- The sizes R10 gives its tables. -/
structure TablesOk (P : Profile) : Prop where
  hpf : P.hpfB.length = 3 ∧ P.hpfA.length = 2
  win : P.win.length = P.winsz
  lagwin : P.lagwin.length = P.lpco + 1
  bwexp : P.bwexp.length = P.lpco
  lspMean : P.lspMean.length = P.lpco
  lspp : P.lspp.length = P.lpco ∧ ∀ row ∈ P.lspp, row.length = P.lspporder
  lspcb1 : P.lspcb1.length = P.lspcb1sz ∧ ∀ row ∈ P.lspcb1, row.length = P.lpco
  lspcb21 : P.lspcb21.length = P.lspcb21sz ∧ ∀ row ∈ P.lspcb21, row.length = P.split1
  lspcb22 : P.lspcb22.length = P.lspcb22sz ∧ ∀ row ∈ P.lspcb22, row.length = P.lpco - P.split1
  ppcb : P.ppcb.length = P.ppcbsz ∧ ∀ row ∈ P.ppcb, row.length = 3
  cb : P.cb.length = P.cbsz ∧ ∀ row ∈ P.cb, row.length = P.vdim
  lgp : P.lgp.length = P.lgporder
  lgcb : P.lgcb.length = P.lgcbsz
  glimtab : P.glimtab.length = P.nrow ∧ ∀ row ∈ P.glimtab, row.length = P.ncol
  resetLsp : P.resetLsp.length = P.lpco

/-- The filter constants: R11 (`PE_A`, `PE_B`), R173, R175, R240, R249, R310. -/
structure FiltersOk (P : Profile) : Prop where
  peA : 0 ≤ P.peA ∧ P.peA < 1
  peB : 0 ≤ P.peB ∧ P.peB < 1
  whiteNoise : 1 ≤ P.lagwin.getD 0 0
  bwexp : ∀ g ∈ P.bwexp, 0 < g ∧ g ≤ 1
  gammaPw : 0 < P.gammaPw ∧ P.gammaPw < 1
  ltnfScale : 0 ≤ P.ltnfScale
  betaMax : 0 ≤ P.betaMax ∧ P.betaMax < 1
  gammaNf : 0 < P.gammaNf ∧ P.gammaNf < 1

/-- The LSP bounds and the fallback row of R11. -/
structure LspOk (P : Profile) : Prop where
  lspmin_pos : 0 < P.lspmin
  lspminsep_pos : 0 < P.lspminsep
  room : P.lspmin + ((P.lpco - 1 : Nat) : Rat) * P.lspminsep < P.lspmax
  lspmax_lt : P.lspmax < 1
  fallback : P.lsp21Fallback < P.lspcb21sz

/-- The coarse pitch thresholds of R244. -/
structure PitchOk (P : Profile) : Prop where
  npeakMax : 1 ≤ P.npeakMax
  improve : 1 ≤ P.improve
  devNear : 0 ≤ P.devNear
  thNear : 0 < P.thNear ∧ P.thNear ≤ 1
  multMax : 2 ≤ P.multMax
  devMult : 0 ≤ P.devMult
  thMult : 0 < P.thMult ∧ P.thMult ≤ P.thNear

/-- The gain coder's tables: the monotone order of R11, the bins of R273, the level estimator's constants
of R270, the trap threshold of R11. -/
structure GainOk (P : Profile) : Prop where
  lgord : P.lgord.Perm (List.range P.lgcbsz)
  monotone : (P.lgord.map (fun i => P.lgcb.getD i 0)).Pairwise (· < ·)
  rowStep : 0 < P.rowStep
  colStep : 0 < P.colStep
  estlAlpha : 0 ≤ P.estlAlpha ∧ P.estlAlpha < 1
  estlBeta : 0 ≤ P.estlBeta ∧ P.estlBeta < 1
  estlA : 0 ≤ P.estlA ∧ P.estlA < 1
  estlTh : 0 ≤ P.estlTh ∧ P.estlTh ≤ 1
  trapped : 1 ≤ P.nclglimTrapped

/-- The concealment constants of R11, R151 and R371. -/
structure PlcOk (P : Profile) : Prop where
  perSmooth : 0 ≤ P.perSmooth ∧ P.perSmooth < 1
  scplcMin_pos : 0 < P.scplcMin
  scplcMin_le : P.scplcMin ≤ P.scplcMax
  attnTaps : 0 < P.attnTaps ∧ P.attnTaps < 1
  attnE : 0 < P.attnE ∧ P.attnE < 1
  hold_lt : P.holdPlc + 1 ≤ P.cfeMax
  cfeMax_le : P.cfeMax ≤ 65535

/-- The synthesis formats of R340. -/
structure SynthOk (P : Profile) : Prop where
  lpcQ_le : P.lpcQ ≤ 14
  peQ_le : P.peQ ≤ 14
  sexpMin_le : P.sexpMin ≤ 0
  le_sexpMax : 0 ≤ P.sexpMax
  le_sexpMin : -128 ≤ P.sexpMin
  sexpMax_le : P.sexpMax ≤ 127

/-- The reset parameters of R60. -/
structure ResetOk (P : Profile) : Prop where
  lsp_increasing : P.resetLsp.Pairwise (· < ·)
  lsp_range : ∀ l ∈ P.resetLsp, P.lspmin < l ∧ l < P.lspmax
  cpp : P.minpp ≤ P.resetCpp ∧ P.resetCpp ≤ P.maxpp
  pp : P.minpp ≤ P.resetPp ∧ P.resetPp ≤ P.maxpp
  eLast : 0 ≤ P.resetE
  sexp : P.sexpMin ≤ P.resetSexp ∧ P.resetSexp ≤ P.sexpMax

/-- A well-formed profile (R11): every constraint the spec states of `P`. -/
structure Wf (P : Profile) : Prop where
  dims : P.DimsOk
  widths : P.WidthsOk
  tables : P.TablesOk
  filters : P.FiltersOk
  lsp : P.LspOk
  pitch : P.PitchOk
  gain : P.GainOk
  plc : P.PlcOk
  synth : P.SynthOk
  reset : P.ResetOk

/-- One small well-formed profile, so that the constraints are seen to be satisfiable and the stages can be
tested. No machine of this package uses its values: the machine's profile is `Config.setup.profile`. -/
def sample : Profile where
  fs := 16000
  frsz := 8
  nsf := 2
  sfrsz := 4
  vdim := 2
  nvpsf := 2
  nvpf := 4
  cbsz := 2
  lpco := 2
  winsz := 8
  lspporder := 1
  lspcb1sz := 3
  split1 := 1
  lspcb21sz := 2
  lspcb22sz := 2
  minpp := 3
  maxpp := 8
  decf := 2
  pwsz := 8
  ppcbsz := 2
  lgporder := 2
  lgcbsz := 4
  nrow := 1
  ncol := 1
  lsp1bits := 2
  lsp21bits := 1
  lsp22bits := 1
  ppbits := 3
  ptbits := 1
  gbits := 2
  ebitsShape := 1
  ebits := 2
  hpfB := [1, -1, 0]
  hpfA := [0, 0]
  peB := 1 / 2
  peA := 0
  win := [1, 1, 1, 1, 1, 1, 1, 1]
  lagwin := [1, 1 / 2, 1 / 4]
  bwexp := [1 / 2, 1 / 4]
  lspMean := [1 / 3, 2 / 3]
  lspp := [[1 / 2], [1 / 2]]
  lspcb1 := [[0, 0], [1 / 10, 1 / 10], [1 / 5, 0]]
  lspcb21 := [[0], [1 / 100]]
  lspcb22 := [[1 / 10], [-1 / 20]]
  lsp21Fallback := 0
  lspmin := 1 / 100
  lspmax := 99 / 100
  lspminsep := 1 / 50
  gammaPw := 1 / 2
  declpf := [1 / 2, 1 / 2]
  npeakMax := 2
  improve := 3 / 2
  devNear := 1
  thNear := 1 / 2
  multMax := 2
  devMult := 1 / 4
  thMult := 1 / 4
  ppcb := [[0, 0, 0], [0, 1 / 2, 0]]
  ltnfScale := 1 / 2
  betaMax := 3 / 10
  gammaNf := 1 / 2
  cb := [[1, 0], [0, 1]]
  lgmean := 8
  lgp := [1 / 2, 1 / 4]
  lgcb := [0, -4, 4, 8]
  lgord := [1, 0, 2, 3]
  glimtab := [[2]]
  rowMin := 0
  rowStep := 1
  colMin := 0
  colStep := 1
  lgFloor := 0
  estlAlpha := 1 / 2
  estlBeta := 1 / 2
  estlTh := 1 / 2
  estlA := 1 / 2
  nclglimTrapped := 2
  levelConvergenceTime := 3
  perSmooth := 1 / 2
  lcgA := 1664525
  lcgC := 1013904223
  scplcA := 1
  scplcB := -1 / 2
  scplcMin := 1 / 4
  scplcMax := 1
  holdPlc := 2
  attnTaps := 1 / 2
  attnE := 1 / 2
  cfeMax := 65535
  lpcQ := 12
  peQ := 14
  sexpMin := -4
  sexpMax := 10
  resetLsp := [1 / 3, 2 / 3]
  resetLsppm := 0
  resetCpp := 4
  resetPp := 4
  resetLgpm := 0
  resetPrevlg0 := 0
  resetPrevlg1 := 0
  resetLevel := 6
  resetLmax := 10
  resetLmin := 0
  resetLmean := 5
  resetX1 := 6
  resetE := 0
  resetSexp := 0
  lcgSeed := 0

theorem sample_wf : sample.Wf := by
  constructor <;> constructor <;> decide +kernel

end Profile

namespace Config

/-- One build of the block: a well-formed profile (R8 to R11) with configuration functions that meet R18. -/
structure Setup where
  profile : Profile := Profile.sample
  num : Num := Num.sample
  profileOk : profile.Wf := by exact Profile.sample_wf
  numOk : num.Ok := by exact Num.sample_ok
  deriving Inhabited

/-- The build the machine runs on. OPEN parameters `P`, `NUMERICS` (taken as the ideal semantics, R17) and
`RESET_*` of `92_eei_decisions.md`: a constant without a body, so every theorem about the machine holds for
every well-formed profile and every admissible choice of the configuration functions. -/
opaque setup : Setup

/-- The machine's profile. -/
abbrev profile : Profile := setup.profile

/-- The machine's configuration functions. -/
abbrev num : Num := setup.num

/-- OPEN parameter `LATENCY(op)` (R141): the number of bus cycles between the acceptance of the `n`-th
accepted command and its completion, a free value for each opcode and each acceptance. -/
opaque latency : BitVec 4 → Nat → Nat

/-- What a lag lookup before the start of a history buffer answers: R14 calls such a read a specification error, not a
value, so nothing is known of it (log entry 24). -/
opaque outside : List Rat → Nat → Rat

/-- The same for a history of integers (R342). -/
opaque outsideInt : List Int → Nat → Int

/-- The unspecified value that the `n`-th read of `PCM_OUT` or `IDX` during a busy period returns (R88): a
free value for each such read. -/
opaque busyRead : Nat → Word

end Config
end Sys2Proof
end

