-- ==== Sys2Proof/Machine/Numeric.lean ====
section
/-! DEFINITION. The arithmetic the stages share (R12 to R19): arrays and sums, the search with its tie-break,
clamping and rounding, history buffers, the fixed-point primitives. -/

namespace Sys2Proof.Machine

/-- `v[i]` of R13. The profile and the context lengths keep every index the rules use inside the array. -/
def elt (v : List Rat) (i : Nat) : Rat := v.getD i 0

/-- `t[i][j]` of R13. -/
def elt2 (t : List (List Rat)) (i j : Nat) : Rat := elt (t.getD i []) j

/-- The array `[f 0, ..., f (n-1)]`. -/
def tab {α : Type} (n : Nat) (f : Nat → α) : List α := (List.range n).map f

/-- `sum_{k=0}^{n-1} f(k)`, zero for `n = 0` (R16). -/
def sumTo (n : Nat) (f : Nat → Rat) : Rat := (tab n f).sum

/-- The square of a value. -/
def sq (x : Rat) : Rat := x * x

/-- The first of `best :: xs` at which `f` is least: the strict-improvement scan of R15. -/
def argminFrom {α : Type} (f : α → Rat) (best : α) : List α → α
  | [] => best
  | x :: xs => if f x < f best then argminFrom f x xs else argminFrom f best xs

/-- `argmin_{j in 0..n-1} f(j)` with R15's tie-break. -/
def argmin (n : Nat) (f : Nat → Rat) : Nat := argminFrom f 0 (List.range n)

/-- `argmax` over `best :: xs` with R15's tie-break. -/
def argmaxFrom {α : Type} (f : α → Rat) (best : α) (xs : List α) : α := argminFrom (fun x => -f x) best xs

/-- `clamp(v, lo, hi)` of R16. -/
def clamp {α : Type} [LinearOrder α] (v lo hi : α) : α := min (max v lo) hi

/-- `round(v)` of R16: half toward plus infinity. -/
def round (v : Rat) : Int := ⌊v + 1 / 2⌋

/-- The last `n` samples of a signal. -/
def lastN {α : Type} (n : Nat) (l : List α) : List α := l.drop (l.length - n)

/-- Appends the newest sample to a history buffer and drops the oldest, so that its length stays (R311). -/
def push {α : Type} (m : List α) (x : α) : List α := (m ++ [x]).drop 1

/-- The bounds-checked lag lookup of R14: the sample `t >= 1` steps before the one being computed, the newest being
stored last (R46, R311); none before the start of the buffer. -/
def lag {α : Type} (m : List α) (t : Nat) : Option α := if t = 0 then none else if m.length < t then none else m[m.length - t]?

/-- `past(M, t)` of R311. R14 calls a lookup outside the buffer a specification error: it is a free value, and the
lengths of R45 keep every lookup of the rules inside (log entry 24). -/
def past (m : List Rat) (t : Nat) : Rat := (lag m t).getD (Config.outside m t)

/-- `past(M, i)` of R342 on an integer memory. -/
def pastInt (m : List Int) (t : Nat) : Int := (lag m t).getD (Config.outsideInt m t)

/-- Sample `n - k` of the current frame, a negative index reading the history before it (R14). -/
def sigAt (hist cur : List Rat) (n k : Nat) : Rat := if k ≤ n then elt cur (n - k) else past hist (k - n)

/-- Saturation to `W` bits, two's complement. -/
def satW (W : Nat) (v : Int) : Int := clamp v (-2 ^ (W - 1)) (2 ^ (W - 1) - 1)

/-- `sat16` of R19. -/
def sat16 (v : Int) : Int := clamp v (-32768) 32767

/-- `sat32` of R19. -/
def sat32 (v : Int) : Int := clamp v (-2147483648) 2147483647

/-- `add32` of R19: the value and its overflow flag. -/
def add32 (a b : Int) : Int × Bool := (sat32 (a + b), decide (a + b ≠ sat32 (a + b)))

/-- `sub32` of R19. -/
def sub32 (a b : Int) : Int × Bool := add32 a (-b)

/-- `mul16` of R19: exact. -/
def mul16 (a b : Int) : Int := a * b

/-- `shl32` of R19: a left shift saturates and reports it, a right shift floors and never overflows. -/
def shl32 (a k : Int) : Int × Bool :=
  if 0 ≤ k then (sat32 (a * 2 ^ k.toNat), decide (a * 2 ^ k.toNat ≠ sat32 (a * 2 ^ k.toNat)))
  else (a / 2 ^ (-k).toNat, false)

/-- `shl16` of R19: as `shl32` with `sat16`. -/
def shl16 (a k : Int) : Int × Bool :=
  if 0 ≤ k then (sat16 (a * 2 ^ k.toNat), decide (a * 2 ^ k.toNat ≠ sat16 (a * 2 ^ k.toNat)))
  else (a / 2 ^ (-k).toNat, false)

/-- `rnd_shr` of R19. -/
def rndShr (a k : Int) : Int :=
  if 1 ≤ k then (a + 2 ^ (k - 1).toNat) / 2 ^ k.toNat else if k = 0 then a else (shl32 a (-k)).1

/-- `tofix(v, q, W)` of R19. -/
def tofix (v : Rat) (q : Int) (W : Nat) : Int := satW W (round (v * (2 : Rat) ^ q))

end Sys2Proof.Machine
end

