-- ==== Sys2Proof/Machine/Context.lean ====
section
/-! DEFINITION. The encoder context `E` (R46), the decoder context `D` (R48), the parts the two share, and what
RESET_ENC (R61) and RESET_DEC (R62) make of them. A signal history stores its newest sample last; the
predictor memories and `prevlg` store their newest element first (R46). -/

namespace Sys2Proof.Machine

/-- The gain coder's fields, which both contexts hold and `44_gain_coder.md` names `C`: the log-gain predictor
memory, the last two log-gains (`prevlg0` the newest), the level estimator (R46, R48, R270). -/
structure GainState where
  lgpm : List Rat
  prevlg0 : Rat
  prevlg1 : Rat
  level : Rat
  lmax : Rat
  lmin : Rat
  lmean : Rat
  x1 : Rat
  deriving DecidableEq, Repr

/-- The three memories of the noise-feedback coder (R313): short-term noise feedback, long-term synthesis,
long-term noise feedback. -/
structure NfMem where
  stnfm : List Rat
  ltsym : List Rat
  ltnfm : List Rat
  deriving DecidableEq, Repr

/-- The encoder context `E` (R46). `hpfX1` is the spec's `E.hpf_x[1]`, and so on. -/
structure Enc where
  hpfX1 : Rat
  hpfX2 : Rat
  hpfY1 : Rat
  hpfY2 : Rat
  peH1 : Rat
  peP1 : Rat
  xhist : List Rat
  lsplast : List Rat
  lsppm : List (List Rat)
  pwmem : List Rat
  declpfMem : List Rat
  xdhist : List Rat
  pwhist : List Rat
  cpplast : Nat
  dhist : List Rat
  nf : NfMem
  gain : GainState
  deriving DecidableEq, Repr

/-- The fixed-point memories of the synthesis engine and their exponent (R48, R341). -/
structure SynState where
  stsym : List Sample
  deY1 : Sample
  deZ1 : Sample
  sexp : Int
  deriving DecidableEq, Repr

/-- The decoder context `D` (R48). -/
structure Dec where
  lsplast : List Rat
  lsppm : List (List Rat)
  ppLast : Nat
  bqLast : List Rat
  gain : GainState
  nclglim : Nat
  lctimer : Nat
  ltsym : List Rat
  syn : SynState
  eLast : Rat
  per : Rat
  cfecount : Nat
  idum : Word
  lspSubst : Bool
  deriving DecidableEq, Repr

/-- The reset values of the fields both contexts hold (R61, R62). -/
def GainState.reset (P : Profile) : GainState where
  lgpm := List.replicate P.lgporder P.resetLgpm
  prevlg0 := P.resetPrevlg0
  prevlg1 := P.resetPrevlg1
  level := P.resetLevel
  lmax := P.resetLmax
  lmin := P.resetLmin
  lmean := P.resetLmean
  x1 := P.resetX1

/-- The reset value of an LSP predictor memory (R61, R62). -/
def lsppmReset (P : Profile) : List (List Rat) :=
  List.replicate P.lpco (List.replicate P.lspporder P.resetLsppm)

/-- What RESET_ENC sets (R61), each buffer at the length R45 and R46 give it. -/
def Enc.reset (P : Profile) : Enc where
  hpfX1 := 0
  hpfX2 := 0
  hpfY1 := 0
  hpfY2 := 0
  peH1 := 0
  peP1 := 0
  xhist := List.replicate P.xh 0
  lsplast := P.resetLsp
  lsppm := lsppmReset P
  pwmem := List.replicate P.lpco 0
  declpfMem := List.replicate (P.declpfLen - 1) 0
  xdhist := List.replicate P.xdh 0
  pwhist := List.replicate P.pwh 0
  cpplast := P.resetCpp
  dhist := List.replicate (P.maxpp + 1) 0
  nf :=
    { stnfm := List.replicate P.lpco 0
      ltsym := List.replicate (P.maxpp + 1) 0
      ltnfm := List.replicate P.maxpp 0 }
  gain := GainState.reset P

/-- What RESET_DEC sets (R62). -/
def Dec.reset (P : Profile) : Dec where
  lsplast := P.resetLsp
  lsppm := lsppmReset P
  ppLast := P.resetPp
  bqLast := [0, 0, 0]
  gain := GainState.reset P
  nclglim := 0
  lctimer := 0
  ltsym := List.replicate (P.maxpp + 1) 0
  syn :=
    { stsym := List.replicate P.lpco 0
      deY1 := 0
      deZ1 := 0
      sexp := P.resetSexp }
  eLast := P.resetE
  per := 0
  cfecount := 0
  idum := P.lcgSeed
  lspSubst := false

end Sys2Proof.Machine
end

