-- ==== Sys2Proof/Machine/Lpc.lean ====
section
/-! DEFINITION. The preprocessor, the LPC analyzer and the conversions between LPC and LSP
(`41_lpc_analyzer.md`, R170 to R183). -/

namespace Sys2Proof.Machine

/-- The memory of the high-pass filter: its last two inputs and outputs, the newest first (R170). -/
structure HpfMem where
  x1 : Rat
  x2 : Rat
  y1 : Rat
  y2 : Rat
  deriving DecidableEq, Repr

/-- `HIGHPASS` of R170: the filtered samples and the memory it leaves. -/
def highpass (P : Profile) : HpfMem → List Rat → List Rat × HpfMem
  | m, [] => ([], m)
  | m, s :: rest =>
    let h := elt P.hpfB 0 * s + elt P.hpfB 1 * m.x1 + elt P.hpfB 2 * m.x2
      - elt P.hpfA 0 * m.y1 - elt P.hpfA 1 * m.y2
    let r := highpass P { x1 := s, x2 := m.x1, y1 := h, y2 := m.y1 } rest
    (h :: r.1, r.2)

/-- `PREEMPH` of R171: the samples, then the last input and the last output. -/
def preemph (P : Profile) : Rat → Rat → List Rat → List Rat × Rat × Rat
  | h1, p1, [] => ([], h1, p1)
  | h1, p1, h :: rest =>
    let x := h - P.peB * h1 + P.peA * p1
    let r := preemph P h x rest
    (x :: r.1, r.2)

/-- The windowed signal `w[0..WINSZ-1]` of R172, the window ending at the last sample of `buf = E.xhist ++ x`. -/
def windowed (P : Profile) (buf : List Rat) : List Rat :=
  tab P.winsz fun m => elt P.win m * past buf (P.winsz - m)

/-- The autocorrelation `r[0..LPCO]` of R172. -/
def autocorr (P : Profile) (w : List Rat) : List Rat :=
  tab (P.lpco + 1) fun k => sumTo (P.winsz - k) fun j => elt w (k + j) * elt w j

/-- Spectral smoothing (R173). -/
def smooth (P : Profile) (r : List Rat) : List Rat :=
  tab (P.lpco + 1) fun k => elt P.lagwin k * elt r k

/-- The flat filter `[1, 0, ..., 0]` of order `n`. -/
def flat (n : Nat) : List Rat := 1 :: List.replicate n 0

/-- Orders `i` up to `i + n - 1` of the recursion of R174 on `a` with prediction error `err`; it stops, keeping the
solution of the order before, at a reflection coefficient of magnitude 1 or more. -/
def levinsonFrom (p : Nat) (r : List Rat) : Nat → Nat → List Rat → Rat → List Rat
  | 0, _, a, _ => a
  | n + 1, i, a, err =>
    let acc := elt r i + sumTo (i - 1) fun j => elt a (j + 1) * elt r (i - (j + 1))
    let k := -acc / err
    if 1 ≤ |k| then a
    else
      let a' := tab (p + 1) fun j => if j = 0 ∨ i < j then elt a j else if j = i then k else elt a j + k * elt a (i - j)
      levinsonFrom p r n (i + 1) a' (err * (1 - k * k))

/-- The Levinson-Durbin recursion of R174 with its degenerate cases. -/
def levinson (p : Nat) (r : List Rat) : List Rat :=
  if elt r 0 ≤ 0 then flat p else levinsonFrom p r p 1 (flat p) (elt r 0)

/-- Bandwidth expansion (R175). -/
def bwExpand (P : Profile) (a : List Rat) : List Rat :=
  tab (P.lpco + 1) fun i => if i = 0 then elt a 0 else elt P.bwexp (i - 1) * elt a i

/-- `LPC_ANALYSIS` (R172 to R175): the frame's unquantized LPC vector from `E.xhist` and `x`. -/
def lpcAnalysis (P : Profile) (xhist x : List Rat) : List Rat :=
  bwExpand P (levinson P.lpco (smooth P (autocorr P (windowed P (xhist ++ x)))))

/-- The prediction residual of `x` under the filter `a`, the history `xhist` before it: `RESIDUAL` of R176, and the
unquantized residual `ru` of R240. -/
def residual (P : Profile) (a xhist x : List Rat) : List Rat :=
  tab x.length fun n => sumTo (P.lpco + 1) fun i => elt a i * sigAt xhist x n i

/-- `A2LSP` of R180: the previous LSP vector where the root finder fails. -/
def a2lsp (N : Num) (a lsplast : List Rat) : List Rat := (N.lsproots a).getD lsplast

/-- `prod_k (1 - 2 c z^-1 + z^-2)` with `c = NUM.cospi(l)` over the LSPs of a list (R182). -/
def lspProduct (N : Num) (l : List Rat) : List Rat := quadProduct (l.map N.cospi)

/-- The LSPs at the positions `first, first + 2, ...` below `LPCO`. -/
def everySecond (P : Profile) (first : Nat) (l : List Rat) : List Rat :=
  tab (P.lpco / 2) fun k => elt l (2 * k + first)

/-- `LSP2A` of R182. -/
def lsp2a (P : Profile) (N : Num) (l : List Rat) : List Rat :=
  let p := polyMul [1, 1] (lspProduct N (everySecond P 0 l))
  let q := polyMul [1, -1] (lspProduct N (everySecond P 1 l))
  tab (P.lpco + 1) fun i => (elt p i + elt q i) / 2

end Sys2Proof.Machine
end

