-- ==== Sys2Proof/Machine/Lsp.lean ====
section
/-! DEFINITION. The LSP quantizer and dequantizer (`42_lsp_quantizer.md`, R200 to R220). -/

namespace Sys2Proof.Machine

/-- `LSP_PREDICT` of R200. -/
def lspPredict (P : Profile) (pm : List (List Rat)) : List Rat :=
  tab P.lpco fun i => elt P.lspMean i + sumTo P.lspporder fun k => elt2 P.lspp i k * elt2 pm i k

/-- `LSP_SHIFT` of R201: every row takes its new error at the front and drops its oldest. -/
def lspShift (P : Profile) (pm : List (List Rat)) (q : List Rat) : List (List Rat) :=
  tab P.lpco fun i => (elt q i :: pm.getD i []).take P.lspporder

/-- Adjacent components do not decrease. -/
def nonDecreasing : List Rat → Bool
  | x :: y :: rest => decide (x ≤ y) && nonDecreasing (y :: rest)
  | _ => true

/-- `ELIGIBLE` of R204: non-negative and non-decreasing. -/
def eligible (u : List Rat) : Bool := decide (0 ≤ elt u 0) && nonDecreasing u

/-- The forward pass of R220: the head is raised to `low`, and each later component to at least `sep` above the
one before it. -/
def sepUp (sep : Rat) : Rat → List Rat → List Rat
  | _, [] => []
  | low, x :: rest => max x low :: sepUp sep (max x low + sep) rest

/-- The backward pass of R220 from `LSPMAX` at the last component. -/
def sepDown (sep top : Rat) : List Rat → List Rat
  | [] => []
  | [_] => [top]
  | x :: y :: rest =>
    let tail := sepDown sep top (y :: rest)
    min x (elt tail 0 - sep) :: tail

/-- `STABILIZE` of R220: sort, separate upwards from `LSPMIN`, and where the last component exceeds `LSPMAX`
separate downwards from it. -/
def stabilize (P : Profile) (l : List Rat) : List Rat :=
  let up := sepUp P.lspminsep P.lspmin (l.insertionSort (· ≤ ·))
  if P.lspmax < elt up (up.length - 1) then sepDown P.lspminsep P.lspmax up else up

/-- The sum of two vectors of `LPCO` components. -/
def vecAdd (P : Profile) (u v : List Rat) : List Rat := tab P.lpco fun i => elt u i + elt v i

/-- The difference of two vectors of `LPCO` components. -/
def vecSub (P : Profile) (u v : List Rat) : List Rat := tab P.lpco fun i => elt u i - elt v i

/-- First-stage search (R202): the row of `LSPCB1` nearest to the prediction error `e`. -/
def lspSearch1 (P : Profile) (e : List Rat) : Nat :=
  argmin P.lspcb1sz fun j => sumTo P.lpco fun i => sq (elt e i - elt2 P.lspcb1 j i)

/-- `u_j` of R203: the low sub-vector reconstructed from the first-stage vector `base = pred + LSPCB1[i1]` and row
`j` of `LSPCB21`. -/
def lowSplit (P : Profile) (base : List Rat) (j : Nat) : List Rat :=
  tab P.split1 fun i => elt base i + elt2 P.lspcb21 j i

/-- Low second-stage search (R203): the nearest eligible row, or the fallback row where none is eligible. -/
def lspSearch21 (P : Profile) (base e2 : List Rat) : Nat :=
  match (List.range P.lspcb21sz).filter fun j => eligible (lowSplit P base j) with
  | [] => P.lsp21Fallback
  | j :: js => argminFrom (fun j => sumTo P.split1 fun i => sq (elt e2 i - elt2 P.lspcb21 j i)) j js

/-- High second-stage search (R205). -/
def lspSearch22 (P : Profile) (e2 : List Rat) : Nat :=
  argmin P.lspcb22sz fun j =>
    sumTo (P.lpco - P.split1) fun i => sq (elt e2 (P.split1 + i) - elt2 P.lspcb22 j i)

/-- The quantized error `eq` that three rows stand for (R206, R210). -/
def lspError (P : Profile) (i1 i21 i22 : Nat) : List Rat :=
  tab P.lpco fun i =>
    elt2 P.lspcb1 i1 i + if i < P.split1 then elt2 P.lspcb21 i21 i else elt2 P.lspcb22 i22 (i - P.split1)

/-- What the LSP quantizer finds: the three rows, the stabilised LSP vector, the memory it leaves. -/
structure LspChoice where
  i1 : Nat
  i21 : Nat
  i22 : Nat
  lspq : List Rat
  lsppm : List (List Rat)
  deriving DecidableEq, Repr

/-- `LSP_QUANTIZE` (R202 to R207). -/
def lspQuantize (P : Profile) (lsppm : List (List Rat)) (lsp : List Rat) : LspChoice :=
  let pred := lspPredict P lsppm
  let e := vecSub P lsp pred
  let i1 := lspSearch1 P e
  let row1 := P.lspcb1.getD i1 []
  let e2 := vecSub P e row1
  let i21 := lspSearch21 P (vecAdd P pred row1) e2
  let i22 := lspSearch22 P e2
  let eq := lspError P i1 i21 i22
  { i1 := i1
    i21 := i21
    i22 := i22
    lspq := stabilize P (vecAdd P pred eq)
    lsppm := lspShift P lsppm eq }

/-- What the LSP dequantizer leaves: the LSP vector, the memory, and whether it substituted (R214). -/
structure LspResult where
  lspq : List Rat
  lsppm : List (List Rat)
  subst : Bool
  deriving DecidableEq, Repr

/-- The memory update that reproduces a known LSP vector: `q[i] = lsplast[i] - pred[i]` is shifted in (R213, R377). -/
def lspHold (P : Profile) (lsppm : List (List Rat)) (lsplast : List Rat) : List (List Rat) :=
  lspShift P lsppm (vecSub P lsplast (lspPredict P lsppm))

/-- `LSP_DEQUANTIZE` (R210 to R215): the ordering self-check, and the previous LSP where it fails. -/
def lspDequantize (P : Profile) (lsppm : List (List Rat)) (lsplast : List Rat) (i1 i21 i22 : Nat) : LspResult :=
  let eq := lspError P i1 i21 i22
  let l0 := vecAdd P (lspPredict P lsppm) eq
  if eligible (l0.take P.split1) then
    { lspq := stabilize P l0, lsppm := lspShift P lsppm eq, subst := false }
  else
    { lspq := stabilize P lsplast, lsppm := lspHold P lsppm lsplast, subst := true }

end Sys2Proof.Machine
end

