-- ==== Sys2Proof/Machine/Pitch.lean ====
section
/-! DEFINITION. The pitch estimator (`43_pitch_estimator.md`, R240 to R249). -/

namespace Sys2Proof.Machine

/-- The weighting recursion of R240 on the unquantized residual `ru`: the weighted samples and the memory left. -/
def weightFrom (P : Profile) (a : List Rat) : List Rat → List Rat → List Rat × List Rat
  | mem, [] => ([], mem)
  | mem, ru :: rest =>
    let pw := ru - sumTo P.lpco fun i => elt a (i + 1) * P.gammaPw ^ (i + 1) * past mem (i + 1)
    let r := weightFrom P a (push mem pw) rest
    (pw :: r.1, r.2)

/-- The weighted residual of R240: `pw[0..FRSZ-1]` and the new `E.pwmem`. -/
def weighted (P : Profile) (a pwmem xhist x : List Rat) : List Rat × List Rat :=
  weightFrom P a pwmem (residual P a xhist x)

/-- The decimation of R241: `xd[0..FRSZD-1]` of `pw` with the filter memory before it. -/
def decimate (P : Profile) (declpfMem pw : List Rat) : List Rat :=
  tab P.frszd fun m =>
    sumTo P.declpfLen fun t => elt P.declpf t * sigAt declpfMem pw (P.decf * m + P.decf - 1) t

/-- `cor^2 / en` where both are positive, else 0: the score of R243 and of R245. -/
def corrScore (cor en : Rat) : Rat := if 0 < cor ∧ 0 < en then sq cor / en else 0

/-- The sample of a buffer that lies `k` before sample `m` of the window that begins at `first` (R243, R245). -/
def windowAt (sig : List Rat) (first m k : Nat) : Rat := sigAt (sig.take first) (sig.drop first) m k

/-- The correlation of a signal with its copy `k` samples back, over the window `first .. first + len - 1`. -/
def corrAt (sig : List Rat) (first len k : Nat) : Rat :=
  sumTo len fun m => windowAt sig first m 0 * windowAt sig first m k

/-- The energy of the copy `k` samples back over the same window. -/
def energyAt (sig : List Rat) (first len k : Nat) : Rat :=
  sumTo len fun m => sq (windowAt sig first m k)

/-- The coarse scores of the lags `KMIN..KMAX` (R243). -/
def coarseScores (P : Profile) (xd : List Rat) : List Rat :=
  tab (P.kmax + 1 - P.kmin) fun i =>
    corrScore (corrAt xd P.kmax P.pwszd (P.kmin + i)) (energyAt xd P.kmax P.pwszd (P.kmin + i))

/-- `score(k)` of R244, 0 outside `KMIN..KMAX`. -/
def scoreOf (P : Profile) (scores : List Rat) (k : Nat) : Rat :=
  if P.kmin ≤ k ∧ k ≤ P.kmax then elt scores (k - P.kmin) else 0

/-- The coarse lags in ascending order. -/
def coarseLags (P : Profile) : List Nat := List.range' P.kmin (P.kmax + 1 - P.kmin)

/-- Step 1 of R244: the peaks. -/
def peaks (P : Profile) (sc : Nat → Rat) : List Nat :=
  (coarseLags P).filter fun k =>
    decide (0 < sc k ∧ (if k ≤ P.kmin then 0 else sc (k - 1)) ≤ sc k ∧ sc (k + 1) < sc k)

/-- Peak `j` comes before peak `k` in the choice of step 3 of R244: a higher score, or an equal one at a smaller lag. -/
def peakBefore (sc : Nat → Rat) (j k : Nat) : Bool := decide (sc k < sc j ∨ (sc j = sc k ∧ j < k))

/-- Step 3 of R244: the `NPEAK_MAX` best peaks, in ascending lag order. -/
def bestPeaks (P : Profile) (sc : Nat → Rat) (ps : List Nat) : List Nat :=
  ps.filter fun k => decide ((ps.filter fun j => peakBefore sc j k).length < P.npeakMax)

/-- Step 4 of R244: a later peak replaces the choice only if it is better by the margin. -/
def marginScan (P : Profile) (sc : Nat → Rat) (first : Nat) (rest : List Nat) : Nat :=
  rest.foldl (fun kc k => if P.improve * sc kc < sc k then k else kc) first

/-- Step 7's test of R244: `kc` lies near a multiple or a submultiple of the previous lag `kp`. -/
def nearMultiple (P : Profile) (kp : Rat) (kc : Nat) : Bool :=
  (List.range' 2 (P.multMax - 1)).any fun m : Nat =>
    decide (|(kc : Rat) - m * kp| ≤ P.devMult * m ∨ |(kc : Rat) - kp / m| ≤ P.devMult)

/-- Steps 5 to 7 of R244 on the candidates `cand` after step 4 chose `kc`. -/
def preferRecent (P : Profile) (sc : Nat → Rat) (kp : Rat) (cand : List Nat) (kc : Nat) : Nat :=
  match cand.filter fun k : Nat => decide (|(k : Rat) - kp| ≤ P.devNear) with
  | [] => kc
  | n :: ns =>
    let kn := argminFrom (fun k : Nat => |(k : Rat) - kp|) n ns
    if P.thNear * sc kc ≤ sc kn then kn
    else if nearMultiple P kp kc && decide (P.thMult * sc kc ≤ sc kn) then kn
    else kc

/-- The coarse lag where no score is positive (step 2 of R244). -/
def coarseDefault (P : Profile) (kp : Rat) : Nat := (clamp (round kp) (P.kmin : Int) (P.kmax : Int)).toNat

/-- The coarse selection of R244 from the scores and the previous pitch period. -/
def coarseSelect (P : Profile) (scores : List Rat) (cpplast : Nat) : Nat :=
  let sc := scoreOf P scores
  let kp : Rat := (cpplast : Rat) / P.decf
  let cand := bestPeaks P sc (peaks P sc)
  match cand with
  | [] => coarseDefault P kp
  | first :: rest => preferRecent P sc kp cand (marginScan P sc first rest)

/-- The candidate lags `L` of R245, ascending. -/
def fineLags (P : Profile) (kc : Nat) : List Nat :=
  (List.range' P.minpp (P.maxpp + 1 - P.minpp)).filter fun t =>
    decide (P.decf * kc ≤ t + (P.decf - 1) ∧ t ≤ P.decf * kc + (P.decf - 1))

/-- The score `sc(t)` of R245. -/
def fineScore (P : Profile) (pwb : List Rat) (t : Nat) : Rat :=
  corrScore (corrAt pwb P.maxpp P.pwsz t) (energyAt pwb P.maxpp P.pwsz t)

/-- The refined pitch period of R245. -/
def refine (P : Profile) (pwb : List Rat) (kc : Nat) : Nat :=
  let lags := fineLags P kc
  match lags with
  | [] => clamp (P.decf * kc) P.minpp P.maxpp
  | t :: ts =>
    if lags.all fun u => decide (fineScore P pwb u = 0) then clamp (P.decf * kc) P.minpp P.maxpp
    else argmaxFrom (fineScore P pwb) t ts

/-- The single-tap optimal gain `g1` of R245. -/
def singleTap (P : Profile) (pwb : List Rat) (pp : Nat) : Rat :=
  if 0 < energyAt pwb P.maxpp P.pwsz pp then
    corrAt pwb P.maxpp P.pwsz pp / energyAt pwb P.maxpp P.pwsz pp
  else 0

/-- What the pitch search finds and the histories it leaves. -/
structure PitchResult where
  pp : Nat
  g1 : Rat
  pwmem : List Rat
  declpfMem : List Rat
  xdhist : List Rat
  pwhist : List Rat
  deriving DecidableEq, Repr

/-- `PITCH_SEARCH` of R247: R240 to R246 in order. -/
def pitchSearch (P : Profile) (e : Enc) (a x : List Rat) : PitchResult :=
  let w := weighted P a e.pwmem e.xhist x
  let xdb := e.xdhist ++ decimate P e.declpfMem w.1
  let kc := coarseSelect P (coarseScores P xdb) e.cpplast
  let pwb := e.pwhist ++ w.1
  let pp := refine P pwb kc
  { pp := pp
    g1 := singleTap P pwb pp
    pwmem := w.2
    declpfMem := lastN (P.declpfLen - 1) (e.declpfMem ++ w.1)
    xdhist := lastN P.xdh xdb
    pwhist := lastN P.pwh pwb }

/-- The prediction of sample `n` of the frame by the taps `bq` at lag `pp`, in the residual buffer `db = E.dhist ++ d`:
`sum_k bq[k] * db[B+n-pp+1-k]` with `B = MAXPP + 1` (R248, R276). -/
def openLoop (P : Profile) (db bq : List Rat) (pp n : Nat) : Rat :=
  sumTo 3 fun k => elt bq k * windowAt db (P.maxpp + 1) n (pp - 1 + k)

/-- The taps of row `pti` of `PPCB`: `bq[0]` multiplies lag `pp - 1`, `bq[1]` lag `pp`, `bq[2]` lag `pp + 1`
(R150, R248). -/
def tapsOfIndex (P : Profile) (pti : Nat) : List Rat := tab 3 fun k => elt2 P.ppcb pti k

/-- `TAP_QUANTIZE` of R248: the row of `PPCB` with the least prediction error over the frame. -/
def tapQuantize (P : Profile) (db : List Rat) (pp : Nat) : Nat :=
  argmin P.ppcbsz fun j =>
    sumTo P.frsz fun n => sq (elt db (P.maxpp + 1 + n) - openLoop P db (tapsOfIndex P j) pp n)

/-- `LTNF_COEF` of R249. -/
def ltnfCoef (P : Profile) (g1 : Rat) : Rat := min P.betaMax (P.ltnfScale * clamp g1 0 1)

end Sys2Proof.Machine
end

