-- ==== Sys2Proof/Machine/Gain.lean ====
section
/-! DEFINITION. The level estimator and the gain coder (`44_gain_coder.md`, R270 to R288). `g` is the gain part of
either context, the `C` of that file. -/

namespace Sys2Proof.Machine

/-- `LEVEL_UPDATE` of R270 with the log-gain `lg`. -/
def levelUpdate (P : Profile) (g : GainState) (lg : Rat) : GainState :=
  let lmax := if g.lmax < lg then lg else g.lmean + P.estlAlpha * (g.lmax - g.lmean)
  let lmin := if lg < g.lmin then lg else g.lmean + P.estlAlpha * (g.lmin - g.lmean)
  let lmean := P.estlBeta * g.lmean + (1 - P.estlBeta) * (lmax + lmin) / 2
  let lth := lmean + P.estlTh * (lmax - lmean)
  let x1 := if lth < lg then P.estlA * g.x1 + (1 - P.estlA) * lg else g.x1
  let level := if lth < lg then P.estlA * g.level + (1 - P.estlA) * x1 else g.level
  { g with lmax := lmax, lmin := lmin, lmean := lmean, x1 := x1, level := level }

/-- `GAIN_PREDICT` of R272. -/
def gainPredict (P : Profile) (g : GainState) : Rat :=
  P.lgmean + sumTo P.lgporder fun k => elt P.lgp k * elt g.lgpm k

/-- The codebook value at position `p` of the monotone order: `LGCB[LGORD[p]]` (R11). -/
def lgAt (P : Profile) (p : Nat) : Rat := elt P.lgcb (P.lgord.getD p 0)

/-- `IORD[i]`, the position of row `i` in the monotone order (R119). -/
def iord (P : Profile) (i : Nat) : Nat := P.lgord.idxOf i

/-- One bin of the limiter table: `clamp(floor((v - lo) / step), 0, n-1)` (R273). -/
def bin (v lo step : Rat) (n : Nat) : Nat := (clamp ⌊(v - lo) / step⌋ 0 ((n : Int) - 1)).toNat

/-- The allowed log-gain step `lim` of R273. -/
def gainLim (P : Profile) (g : GainState) : Rat :=
  elt2 P.glimtab (bin (g.prevlg0 - g.level) P.rowMin P.rowStep P.nrow)
    (bin (g.prevlg0 - g.prevlg1) P.colMin P.colStep P.ncol)

/-- The walk of R273: down the monotone order while the step exceeds the limit, stopping at position 0. -/
def limitWalk (P : Profile) (lgpe prevlg0 lim : Rat) : Nat → Nat
  | 0 => 0
  | p + 1 => if lim < lgpe + lgAt P (p + 1) - prevlg0 then limitWalk P lgpe prevlg0 lim p else p + 1

/-- `GAIN_LIMIT` of R273: the position, and whether the walk moved. -/
def gainLimit (P : Profile) (g : GainState) (lgpe : Rat) (p : Nat) : Nat × Bool :=
  let p' := limitWalk P lgpe g.prevlg0 (gainLim P g) p
  (p', decide (p' ≠ p))

/-- A new log-gain `lgq` with the prediction error `err`: the memory and the pair `prevlg` shift (R274, R378). -/
def gainShift (P : Profile) (g : GainState) (err lgq : Rat) : GainState :=
  { g with lgpm := (err :: g.lgpm).take P.lgporder, prevlg0 := lgq, prevlg1 := g.prevlg0 }

/-- `GAIN_COMMIT` of R274: the log-gain and the state. -/
def gainCommit (P : Profile) (g : GainState) (lgpe : Rat) (p : Nat) : Rat × GainState :=
  (lgpe + lgAt P p, gainShift P g (lgAt P p) (lgpe + lgAt P p))

/-- `LINEAR_GAIN` of R275. -/
def linearGain (N : Num) (lgq : Rat) : Rat := N.pow2 (lgq / 2)

/-- The log-gain of a mean-square energy, floored at `LG_FLOOR` (R276, R378). -/
def logEnergy (P : Profile) (N : Num) (es : Rat) : Rat :=
  if 0 < es ∧ P.lgFloor < N.log2 es then N.log2 es else P.lgFloor

/-- The mean-square energy `Es` of the open-loop long-term residual of subframe `s` (R276). -/
def targetEnergy (P : Profile) (db bq : List Rat) (pp s : Nat) : Rat :=
  1 / P.sfrsz * sumTo P.sfrsz fun m =>
    sq (elt db (P.maxpp + 1 + (s * P.sfrsz + m)) - openLoop P db bq pp (s * P.sfrsz + m))

/-- Nearest neighbour in the monotone order (R277). -/
def gainSearch (P : Profile) (elg : Rat) : Nat := argmin P.lgcbsz fun p => |elg - lgAt P p|

/-- `GAIN_QUANTIZE` (R276 to R280) of a subframe with mean-square energy `es`: the index, the linear gain, the
state. -/
def gainQuantize (P : Profile) (N : Num) (g : GainState) (es : Rat) : Nat × Rat × GainState :=
  let lgpe := gainPredict P g
  let p := (gainLimit P g lgpe (gainSearch P (logEnergy P N es - lgpe))).1
  let c := gainCommit P g lgpe p
  (P.lgord.getD p 0, linearGain N c.1, c.2)

/-- The two counters of the trap/escape machine (R287). -/
structure TrapState where
  nclglim : Nat
  lctimer : Nat
  deriving DecidableEq, Repr

/-- The trap/escape machine of R287 on position `p`: the position used and the counters left. -/
def trapStep (P : Profile) (t : TrapState) (g : GainState) (lgpe : Rat) (p : Nat) : Nat × TrapState :=
  if 0 < t.lctimer then (p, { nclglim := 0, lctimer := t.lctimer - 1 })
  else
    let l := gainLimit P g lgpe p
    let n := if l.2 then t.nclglim + 1 else 0
    (l.1, if P.nclglimTrapped ≤ n then { nclglim := 0, lctimer := P.levelConvergenceTime }
          else { nclglim := n, lctimer := t.lctimer })

/-- `GAIN_DEQUANTIZE` (R283, R287): the linear gain, the state, the counters. -/
def gainDequantize (P : Profile) (N : Num) (t : TrapState) (g : GainState) (gi : Nat) :
    Rat × GainState × TrapState :=
  let lgpe := gainPredict P g
  let r := trapStep P t g lgpe (iord P gi)
  let c := gainCommit P g lgpe r.1
  (linearGain N c.1, c.2, r.2)

/-- The gain-predictor update of one concealed subframe from its mean-square energy `es` (R378), the level
estimator first. -/
def gainConceal (P : Profile) (N : Num) (g : GainState) (es : Rat) : GainState :=
  let g1 := levelUpdate P g g.prevlg0
  gainShift P g1 (logEnergy P N es - gainPredict P g1) (logEnergy P N es)

end Sys2Proof.Machine
end

