-- ==== Sys2Proof/Machine/Excitation.lean ====
section
/-! DEFINITION. The noise-feedback VQ excitation coder and its decoder (`45_excitation.md`, R310 to R322). -/

namespace Sys2Proof.Machine

/-- `STNF_COEF` of R310: entry `i` is `f[i + 1]`. -/
def stnfCoef (P : Profile) (a : List Rat) : List Rat :=
  tab P.lpco fun i => -(elt a (i + 1)) * P.gammaNf ^ (i + 1)

/-- The long-term prediction `sum_{k=0}^{2} bq[k] * past(M, pp - 1 + k)` (R313, R320, R374). -/
def ltPredict (ltsym bq : List Rat) (pp : Nat) : Rat :=
  sumTo 3 fun k => elt bq k * past ltsym (pp - 1 + k)

/-- The zero-state response of R312 to the codevector entries `c`, after the response entries `h`. -/
def zsrFrom (P : Profile) (f : List Rat) : List Rat → List Rat → List Rat
  | h, [] => h
  | h, c :: rest =>
    zsrFrom P f (h ++ [c + sumTo (min h.length P.lpco) fun i => elt f i * elt h (h.length - (i + 1))]) rest

/-- `ZERO_STATE_RESPONSES` of R312: row `j` is `h_j`. -/
def zeroStateResponses (P : Profile) (f : List Rat) : List (List Rat) := P.cb.map (zsrFrom P f [])

/-- The frame's parameters of the noise-feedback filters: the taps, the lag, `beta` and `f` (R313). -/
structure NfParams where
  bq : List Rat
  pp : Nat
  beta : Rat
  f : List Rat
  deriving DecidableEq, Repr

/-- One sample of R313 with the residual `d` and the codebook contribution `c`: `ql` and the three memories. -/
def nfSample (P : Profile) (q : NfParams) (m : NfMem) (d c : Rat) : Rat × NfMem :=
  let us := d + sumTo P.lpco fun i => elt q.f i * past m.stnfm (i + 1)
  let ppv := ltPredict m.ltsym q.bq q.pp
  let t := us - ppv + q.beta * past m.ltnfm q.pp
  let dq := ppv + c
  let ql := t - c
  let qs := us - dq
  (ql, { stnfm := push m.stnfm qs, ltsym := push m.ltsym dq, ltnfm := push m.ltnfm ql })

/-- R313 over the samples of a vector, each a residual with its codebook contribution: the `ql` and the memories. -/
def nfRun (P : Profile) (q : NfParams) : NfMem → List (Rat × Rat) → List Rat × NfMem
  | m, [] => ([], m)
  | m, x :: rest =>
    let s := nfSample P q m x.1 x.2
    let r := nfRun P q s.2 rest
    (s.1 :: r.1, r.2)

/-- The zero-input response `tz` of R314: the pass with no codebook contribution, its memories discarded. -/
def zeroInputResponse (P : Profile) (q : NfParams) (m : NfMem) (dv : List Rat) : List Rat :=
  (nfRun P q m (dv.map fun d => (d, 0))).1

/-- The sign a candidate stands for: `true` is `-1` (R118). -/
def signOf (neg : Bool) : Rat := if neg then -1 else 1

/-- The score of candidate `(j, neg)` (R314). -/
def excScore (P : Profile) (tz : List Rat) (zsr : List (List Rat)) (gq : Rat) (c : Nat × Bool) : Rat :=
  sumTo P.vdim fun m => sq (elt tz m - signOf c.2 * gq * elt2 zsr c.1 m)

/-- The candidates in R15's order: row ascending, `+1` before `-1`. -/
def excCandidates (P : Profile) : List (Nat × Bool) :=
  (List.range P.cbsz).flatMap fun j => [(j, false), (j, true)]

/-- The winner of R314, a pure function of the zero-input and zero-state responses and the gain. -/
def excSearch (P : Profile) (tz : List Rat) (zsr : List (List Rat)) (gq : Rat) : Nat × Bool :=
  argminFrom (excScore P tz zsr gq) (0, false) (excCandidates P)

/-- The codebook contribution `c[n0 + m] = sg * gq * CB[j][m]` of a candidate over a vector (R314, R320). -/
def contribution (P : Profile) (gq : Rat) (c : Nat × Bool) : List Rat :=
  tab P.vdim fun m => signOf c.2 * gq * elt2 P.cb c.1 m

/-- The excitation index of a candidate (R118, R315). -/
def excIndex (P : Profile) (c : Nat × Bool) : Nat := c.1 + P.cbsz * if c.2 then 1 else 0

/-- The candidate an excitation index stands for (R118, R320). -/
def excOfIndex (P : Profile) (ei : Nat) : Nat × Bool := (ei % P.cbsz, decide (P.cbsz ≤ ei))

/-- The commit pass of R316 with a candidate, on the real memories. -/
def nfCommit (P : Profile) (q : NfParams) (m : NfMem) (dv : List Rat) (gq : Rat) (c : Nat × Bool) : List Rat × NfMem :=
  nfRun P q m (dv.zip (contribution P gq c))

/-- `NFC_VECTOR` (R314 to R316): the index of the vector `dv` of the residual, and the memories. -/
def nfcVector (P : Profile) (q : NfParams) (zsr : List (List Rat)) (gq : Rat) (m : NfMem) (dv : List Rat) :
    Nat × NfMem :=
  let c := excSearch P (zeroInputResponse P q m dv) zsr gq
  (excIndex P c, (nfCommit P q m dv gq c).2)

/-- The long-term synthesis of a run of codebook contributions: the excitation `dq` and the memory (R320, R374). -/
def ltSynth (bq : List Rat) (pp : Nat) : List Rat → List Rat → List Rat × List Rat
  | m, [] => ([], m)
  | m, c :: rest =>
    let dq := ltPredict m bq pp + c
    let r := ltSynth bq pp (push m dq) rest
    (dq :: r.1, r.2)

/-- `EXC_DECODE` (R320): the excitation of one vector, its innovation energy, the memory. -/
def excDecode (P : Profile) (ltsym bq : List Rat) (pp : Nat) (gq : Rat) (ei : Nat) : List Rat × Rat × List Rat :=
  let c := contribution P gq (excOfIndex P ei)
  let r := ltSynth bq pp ltsym c
  (r.1, (c.map sq).sum, r.2)

end Sys2Proof.Machine
end

