-- ==== Sys2Proof/Machine/Synthesis.lean ====
section
/-! DEFINITION. The LPC synthesis engine, in fixed point (`46_synthesis.md`, R340 to R349). -/

namespace Sys2Proof.Machine

/-- The coefficients `aqi[1..LPCO]` of R340; entry `i` is `aqi[i + 1]`. -/
def aqFixed (P : Profile) (aq : List Rat) : List Int := tab P.lpco fun i => tofix (elt aq (i + 1)) P.lpcQ 16

/-- The accumulator of one sample of R342: saturating, in order of `i`. -/
def stAcc (q : Nat) (aqi M : List Int) (u : Int) : Int :=
  (List.range aqi.length).foldl (fun acc i => (sub32 acc (mul16 (aqi.getD i 0) (pastInt M (i + 1)))).1) (u * 2 ^ q)

/-- What a pass of the short-term filter gives: the samples, the unsaturated samples, the memory. -/
structure StOut where
  y : List Int
  yraw : List Int
  mem : List Int
  deriving DecidableEq, Repr

/-- `ST_FILTER` of R342. -/
def stFilter (q : Nat) (aqi : List Int) : List Int → List Int → StOut
  | M, [] => { y := [], yraw := [], mem := M }
  | M, u :: rest =>
    let yr := rndShr (stAcc q aqi M u) q
    let r := stFilter q aqi (push M (sat16 yr)) rest
    { y := sat16 yr :: r.y, yraw := yr :: r.yraw, mem := r.mem }

/-- The excitation at an exponent (R343, R346). -/
def excFixed (dq : List Rat) (sexp : Int) : List Int := dq.map fun v => tofix v sexp 16

/-- The peak magnitude of R343. -/
def peakOf (yraw : List Int) : Nat := yraw.foldl (fun p v => max p v.natAbs) 0

/-- The largest `k` with `peak * 2^k < 2^14`, for a positive peak (R344). -/
def headroom (peak : Nat) : Int := 13 - (Nat.log2 peak : Int)

/-- The exponent change of R344, clamped to the exponent's range. -/
def chooseDelta (P : Profile) (sexp : Int) (peak : Nat) : Int :=
  clamp (sexp + if peak = 0 then P.sexpMax - sexp else headroom peak) P.sexpMin P.sexpMax - sexp

/-- The memories of the engine as integers: the short-term memory and the two de-emphasis memories. -/
structure SynMem where
  st : List Int
  y1 : Int
  z1 : Int
  deriving DecidableEq, Repr

/-- Some memory overflows when shifted by `k` (R345). -/
def shiftOverflows (m : SynMem) (k : Int) : Bool :=
  m.st.any (fun v => (shl16 v k).2) || (shl16 m.y1 k).2 || (shl16 m.z1 k).2

/-- The retry loop of R345 for a positive shift: one less until nothing overflows, and 0 at the latest. -/
def retryDelta (m : SynMem) : Nat → Nat
  | 0 => 0
  | n + 1 => if shiftOverflows m (n + 1 : Nat) then retryDelta m n else n + 1

/-- The shift the loop of R345 ends with: a shift of 0 or less is taken as it is. -/
def validDelta (m : SynMem) (delta : Int) : Int := if 0 < delta then (retryDelta m delta.toNat : Int) else delta

/-- The memories rescaled by a shift (R345). -/
def rescale (m : SynMem) (k : Int) : SynMem where
  st := m.st.map fun v => (shl16 v k).1
  y1 := (shl16 m.y1 k).1
  z1 := (shl16 m.z1 k).1

/-- The de-emphasis of R346: the samples `z` and the two memories. -/
def deemph (P : Profile) : Int → Int → List Int → List Int × Int × Int
  | y1, z1, [] => ([], y1, z1)
  | y1, z1, y :: rest =>
    let acc1 := (sub32 (y * 2 ^ P.peQ) (mul16 (tofix P.peA P.peQ 16) y1)).1
    let acc2 := (add32 acc1 (mul16 (tofix P.peB P.peQ 16) z1)).1
    let z := sat16 (rndShr acc2 P.peQ)
    let r := deemph P y z rest
    (z :: r.1, r.2)

/-- The memories of the context as integers. -/
def SynState.toMem (s : SynState) : SynMem where
  st := s.stsym.map BitVec.toInt
  y1 := s.deY1.toInt
  z1 := s.deZ1.toInt

/-- The context's form of the memories at an exponent. -/
def SynMem.toState (m : SynMem) (sexp : Int) : SynState where
  stsym := m.st.map (BitVec.ofInt 16)
  deY1 := BitVec.ofInt 16 m.y1
  deZ1 := BitVec.ofInt 16 m.z1
  sexp := sexp

/-- The validated shift of a frame: the trial pass (R343), the exponent choice (R344), the retry loop (R345). DEDUCED,
where the spec disagrees with itself: D52 of `92_eei_decisions.md` has the trial pass without saturation, and R343 runs
`ST_FILTER`, whose accumulator and memory saturate (R342); R343 is followed, and what does not saturate is the sample
`yraw` whose peak is taken (log entry 28). -/
def frameDelta (P : Profile) (s : SynState) (aqi : List Int) (dq : List Rat) : Int :=
  let trial := stFilter P.lpcQ aqi s.toMem.st (excFixed dq s.sexp)
  validDelta s.toMem (chooseDelta P s.sexp (peakOf trial.yraw))

/-- `SYNTHESIZE` (R340 to R347): the PCM frame and the memories. -/
def synthesize (P : Profile) (s : SynState) (aq dq : List Rat) : List Int × SynState :=
  let aqi := aqFixed P aq
  let delta := frameDelta P s aqi dq
  let sexp := s.sexp + delta
  let m := rescale s.toMem delta
  let real := stFilter P.lpcQ aqi m.st (excFixed dq sexp)
  let de := deemph P m.y1 m.z1 real.y
  (de.1.map fun z => sat16 (rndShr z sexp),
    SynMem.toState { st := real.mem, y1 := de.2.1, z1 := de.2.2 } sexp)

end Sys2Proof.Machine
end

