-- ==== Sys2Proof/Machine/Plc.lean ====
section
/-! DEFINITION. The packet-loss concealment machine (`47_plc.md`, R370 to R382). -/

namespace Sys2Proof.Machine

/-- The two states of the concealment machine, derived from `D.cfecount` (R370). -/
inductive PlcMode where
  | normal
  | concealing
  deriving DecidableEq, Repr

/-- The state of the concealment machine (R370). -/
def plcMode (d : Dec) : PlcMode := if 0 < d.cfecount then .concealing else .normal

/-- The erasure counter in CONCEAL (R371). -/
def cfeNext (P : Profile) (cfecount : Nat) : Nat := min (cfecount + 1) P.cfeMax

/-- One step of the generator (R372). -/
def lcgNext (P : Profile) (idum : Word) : Word := P.lcgA * idum + P.lcgC

/-- The noise sample of a generator state: bits `[31:16]` as an `int16` (R372). -/
def noiseSample (idum : Word) : Int := (idum.extractLsb' 16 16).toInt

/-- `n` noise samples and the generator state after them (R372). -/
def lcgRun (P : Profile) : Nat → Word → List Int × Word
  | 0, idum => ([], idum)
  | n + 1, idum =>
    let next := lcgNext P idum
    let r := lcgRun P n next
    (noiseSample next :: r.1, r.2)

/-- The energy of the noise, `En` of R373. -/
def noiseEnergy (noise : List Int) : Rat := (noise.map fun v : Int => sq (v : Rat)).sum

/-- The scaling bias `sc` of R373. -/
def plcScale (P : Profile) (per : Rat) : Rat := clamp (P.scplcA + P.scplcB * per) P.scplcMin P.scplcMax

/-- The noise gain of R373. -/
def plcGain (P : Profile) (N : Num) (eLast per en : Rat) : Rat :=
  if 0 < en then N.sqrt (eLast / en) * plcScale P per else 0

/-- The scaled noise `cn` of R373. -/
def scaledNoise (gain : Rat) (noise : List Int) : List Rat := noise.map fun v : Int => gain * (v : Rat)

/-- The mean-square energy of subframe `s` of the concealed excitation (R378). -/
def subframeEnergy (P : Profile) (cn : List Rat) (s : Nat) : Rat :=
  1 / P.sfrsz * sumTo P.sfrsz fun m => sq (elt cn (s * P.sfrsz + m))

/-- The fade of R379, active once the erasure counter exceeds the hold threshold. -/
def fade (P : Profile) (d : Dec) : Dec :=
  if P.holdPlc < d.cfecount then
    { d with bqLast := d.bqLast.map (P.attnTaps * ·), eLast := P.attnE * d.eLast }
  else d

/-- `CONCEAL` on the decoder context (R371 to R379 in order): the PCM frame and the context. -/
def concealFrame (P : Profile) (N : Num) (d : Dec) : List Int × Dec :=
  let noise := lcgRun P P.frsz d.idum
  let cn := scaledNoise (plcGain P N d.eLast d.per (noiseEnergy noise.1)) noise.1
  let lt := ltSynth d.bqLast d.ppLast d.ltsym cn
  let syn := synthesize P d.syn (lsp2a P N d.lsplast) lt.1
  let gain := (List.range P.nsf).foldl (fun g s => gainConceal P N g (subframeEnergy P cn s)) d.gain
  (syn.1,
    fade P
      { d with
        cfecount := cfeNext P d.cfecount
        idum := noise.2
        ltsym := lt.2
        syn := syn.2
        lsppm := lspHold P d.lsppm d.lsplast
        gain := gain })

end Sys2Proof.Machine
end

