-- ==== Sys2Proof/Syntax.lean ====
section
/-! DEFINITION. The commands of the block (R112) and what can reach it from outside: the host's bus accesses
(R13, R85, R122) and the platform's reset input (R430). -/

namespace Sys2Proof

/-- One constructor per row of the opcode table. No command has an operand of its own: every operand is
implicit (R113). -/
inductive Instr where
  | nop
  | resetEnc
  | resetDec
  | encode
  | decode
  | conceal
  deriving DecidableEq, Repr

/-- The width of one bus access (R85). -/
inductive Width where
  | w8
  | w16
  | w32
  deriving DecidableEq, Repr

/-- The number of bytes an access moves. -/
def Width.bytes : Width → Nat
  | .w8 => 1
  | .w16 => 2
  | .w32 => 4

/-- One event at the block's port, as it arrives: a host read or write at a byte offset of the window (`RD32`,
`RD16`, `WR32`, `WR16` of R122, and the 8-bit forms R85 refuses), or power-on reset (R430). A write narrower
than 32 bits carries its data in the low bits. -/
inductive HostEvent where
  | read (width : Width) (offset : Nat)
  | write (width : Width) (offset : Nat) (data : Word)
  | powerOn
  deriving DecidableEq, Repr

/-- The pseudo-instructions of R122 that are one access. `CMD m` is `cmdWrite` of the command's word. -/
def HostEvent.cmdWrite (w : Word) : HostEvent := .write .w32 0x000 w

/-- `CLRST` of R122. -/
def HostEvent.clrst : HostEvent := .write .w32 0x004 0x0000000E

/-- `SETIDX k, v` of R122. -/
def HostEvent.setIdx (k : Nat) (v : Word) : HostEvent := .write .w32 (0x500 + 4 * k) v

/-- `GETIDX k` of R122. -/
def HostEvent.getIdx (k : Nat) : HostEvent := .read .w32 (0x500 + 4 * k)

/-- `PUTPCM n, v` of R122. -/
def HostEvent.putPcm (n : Nat) (v : Sample) : HostEvent := .write .w16 (0x100 + 2 * n) (v.setWidth 32)

/-- `GETPCM n` of R122. -/
def HostEvent.getPcm (n : Nat) : HostEvent := .read .w16 (0x300 + 2 * n)

end Sys2Proof
end

