-- ==== Sys2Proof/WellFormed.lean ====
section
/-! DEFINITION. What a well-formed term is: a command word (R111, R114), a command (which has nothing to check,
R113), a bus access of a width and an alignment the port accepts at all (R85, R86). The profile's own check is
`Profile.Wf` of Config. -/

namespace Sys2Proof

/-- A legal command word: reserved bits 0 and an opcode of R112's map (R111, R114). -/
def wordWf (w : Word) : Bool := w.toNat / 16 == 0 && decide (w.toNat % 16 < 6)

/-- A command has no operand (R113), so every term of `Instr` is well formed. -/
def Instr.wf : Instr → Bool
  | .nop => true
  | .resetEnc => true
  | .resetDec => true
  | .encode => true
  | .decode => true
  | .conceal => true

/-- An access the port accepts whatever its location: not 8 bits wide (R85), aligned to its width (R86). -/
def accessWf (width : Width) (offset : Nat) : Bool :=
  width != .w8 && offset % width.bytes == 0

/-- The same of an event. -/
def HostEvent.wf : HostEvent → Bool
  | .read width offset => accessWf width offset
  | .write width offset _ => accessWf width offset
  | .powerOn => true

end Sys2Proof
end

