-- ==== Sys2Proof/Decode.lean ====
section
/-! DEFINITION. The command word (R110 to R114): decoding it, total on any word and on any bytes, every illegal
word refused by name; and the encoder, from the same opcode map. -/

namespace Sys2Proof

/-- Why a command word, or a run of bytes, is no command. -/
inductive DecodeError where
  /-- Fewer than the four bytes of R110. -/
  | truncated
  /-- `CMD[31:4]` is not 0 (R111, R401 (c)). -/
  | reservedBits
  /-- The opcode is in 0x6 to 0xF (R114, R401 (b)). -/
  | reservedOpcode (op : BitVec 4)
  deriving DecidableEq, Repr

/-- `CMD[3:0]`, the opcode field (R111). -/
def opField (w : Word) : BitVec 4 := w.extractLsb' 0 4

/-- `CMD[31:4]`, the reserved field (R111). -/
def rsvField (w : Word) : BitVec 28 := w.extractLsb' 4 28

/-- The opcode map of R112. -/
def decodeOp (op : BitVec 4) : Except DecodeError Instr :=
  match op.toNat with
  | 0x0 => .ok .nop
  | 0x1 => .ok .resetEnc
  | 0x2 => .ok .resetDec
  | 0x3 => .ok .encode
  | 0x4 => .ok .decode
  | 0x5 => .ok .conceal
  | _ => .error (.reservedOpcode op)

/-- Decodes one command word: a word with a reserved bit set is illegal whatever its opcode (R111, R114). -/
def decodeWord (w : Word) : Except DecodeError Instr :=
  if rsvField w = 0 then decodeOp (opField w) else .error .reservedBits

/-- A 32-bit word from its four bytes, lowest address first: little-endian (R84). -/
def wordOfBytes (b0 b1 b2 b3 : Byte) : Word := (b3 ++ b2 ++ b1 ++ b0 : BitVec 32)

/-- The four bytes of a word, lowest address first (R84). -/
def bytesOfWord (w : Word) : List Byte :=
  [w.extractLsb' 0 8, w.extractLsb' 8 8, w.extractLsb' 16 8, w.extractLsb' 24 8]

/-- Decodes the command at the head of a run of bytes and gives the bytes after it: every command is four
bytes long (R110). -/
def decodeBytes : List Byte → Except DecodeError (Instr × List Byte)
  | b0 :: b1 :: b2 :: b3 :: rest =>
    match decodeWord (wordOfBytes b0 b1 b2 b3) with
    | .ok i => .ok (i, rest)
    | .error e => .error e
  | _ => .error .truncated

/-- The opcode of each command (R112). -/
def opcodeOf : Instr → BitVec 4
  | .nop => 0x0
  | .resetEnc => 0x1
  | .resetDec => 0x2
  | .encode => 0x3
  | .decode => 0x4
  | .conceal => 0x5

/-- The command word of a command: its opcode in `[3:0]`, zeros above (R111, R112). -/
def encode (i : Instr) : Word := (0 : BitVec 28) ++ opcodeOf i

/-- The bytes of a command as the bus carries them (R84, R110). -/
def encodeBytes (i : Instr) : List Byte := bytesOfWord (encode i)

/-- The instruction an opcode-table word stands for: its bytes laid out as R84 says and decoded. Bits at or
above `nbits` are 0. -/
def decodeTableWord (nbits w : Nat) : Option Instr :=
  match decodeBytes (bytesOfWord (BitVec.ofNat 32 (w % 2 ^ nbits))) with
  | .ok (i, _) => some i
  | .error _ => none

end Sys2Proof
end

