-- ==== Sys2Proof/Machine/State.lean ====
section
/-! DEFINITION. The block's state (R30) with what the model adds to run it, the reasons a step stops, and the state
after power-on reset (R63, R431). Everything here is plain data. -/

namespace Sys2Proof.Machine

/-- The buffers `PCM_IN`, `PCM_OUT` and `IDX` as the bytes the window holds (R40 to R42, R84): a list of offset and
byte pairs, offsets strictly rising. An offset that is not listed is unwritten (R43). -/
abbrev Memory := List Host.Cell

/-- The canonical form: offsets strictly rising. Any byte may stand at any offset, since what an unlisted offset
reads as is no byte. -/
def Memory.wf : Memory → Bool
  | [] => true
  | [_] => true
  | c :: d :: rest => decide (c.1 < d.1) && Memory.wf (d :: rest)

/-- Why an access gets a bus error response (R403). -/
inductive BusError where
  /-- An 8-bit access, or a width the location does not accept (R85). -/
  | width
  /-- A misaligned access (R86). -/
  | misaligned
  /-- A reserved offset, or one outside the window (R80, R82). -/
  | unmapped
  /-- A write to a read-only location that does not ignore writes (R82). -/
  | readOnly
  deriving DecidableEq, Repr

/-- The faults of a step. Both are the spec's own: the model stops where R43, R82 say a model treats the case as a
fault. -/
inductive Fault where
  /-- Raised by a host access that the port answers with a bus error response (R82, R85, R86, R403). The block's
  state does not change. Safe: the block would go on, and the model proves nothing of what follows. -/
  | busError (why : BusError) (offset : Nat)
  /-- Raised by a host read, an ENCODE or a DECODE that needs a buffer element nothing has written since power-on
  reset (R43, R431); `offset` is where the element or the host's
  access begins. Safe: the value is unspecified. -/
  | unwritten (offset : Nat)
  deriving DecidableEq, Repr

/-- The refusals of a step. -/
inductive Refusal where
  /-- Raised by an arm of `exec` whose instruction has no meaning yet; no arm is such. Safe. -/
  | notModelled (mnemonic : String)
  /-- Raised by a host write to `PCM_IN` or `IDX` while a command runs: R88 calls its effect undefined and says a
  model refuses the run. Safe. -/
  | bufferWriteWhileBusy (offset : Nat)
  /-- Raised by a busy state whose command word is no legal command. No such state is reachable: a word is decoded
  before it is accepted (R140). Safe. -/
  | illegalLatched (word : Word)
  deriving DecidableEq, Repr

/-- What the port answered to the last event it performed. -/
inductive BusAnswer where
  | idle
  | written
  | data16 (value : Sample)
  | data32 (value : Word)
  deriving DecidableEq, Repr

/-- The machine. The block's own state (R30, R36) is `cmd` to `mem`; `wait` to `answer` are the model's. -/
structure State where
  /-- The command word being executed; `STATUS.BUSY` is 1 exactly when there is one (R34, R36). -/
  cmd : Option Word
  /-- `STATUS.DONE` (R34). -/
  done : Bool
  /-- `STATUS.ERR_CMD` (R34, R401). -/
  errCmd : Bool
  /-- `STATUS.ERR_IDX` (R34, R402). -/
  errIdx : Bool
  /-- `INTEN[1:0]` (R35); the other bits read 0. -/
  inten : BitVec 2
  /-- `ERRINFO` (R38). -/
  errinfo : Word
  /-- The encoder context `E` (R46). -/
  enc : Enc
  /-- The decoder context `D` (R48). -/
  dec : Dec
  /-- `PCM_IN`, `PCM_OUT` and `IDX` (R40 to R42). -/
  mem : Memory
  /-- Model: the bus cycles left before the running command completes (R141). DESIGN CHOICE (log entries 5, 16). -/
  wait : Nat
  /-- Model: how many commands have been accepted, the index of the next free latency (R141). DESIGN CHOICE (log
  entries 5, 16). -/
  accepted : Nat
  /-- Model: how many unspecified values have been read, the index of the next one (R88). DESIGN CHOICE (log entries
  11, 16). -/
  draws : Nat
  /-- Model: the events that will reach the port, in arrival order (R89). DESIGN CHOICE (log entries 6, 16). -/
  inputs : List HostEvent
  /-- Model: the port's answer to the last event. DESIGN CHOICE (log entries 16, 22). -/
  answer : BusAnswer
  deriving DecidableEq, Repr

/-- The state after power-on reset (R63, R431), before anything reaches the port. -/
def State.reset : State where
  cmd := none
  done := false
  errCmd := false
  errIdx := false
  inten := 0
  errinfo := 0
  enc := Enc.reset Config.profile
  dec := Dec.reset Config.profile
  mem := []
  wait := 0
  accepted := 0
  draws := 0
  inputs := []
  answer := .idle

end Sys2Proof.Machine
end

