-- ==== Sys2Proof/Machine/Flags.lean ====
section
/-! DEFINITION. Every register the host reads as a word, computed from the state: `STATUS` with its mirrored bits
(R34), `INTEN` and the interrupt line (R35, R405), `ID`, `PROFILE0..2`, `ERRINFO` and `DECINFO` (R33, R37 to R39). -/

namespace Sys2Proof.Machine

/-- `STATUS.BUSY` (R34): a command is executing. -/
def State.busy (s : State) : Bool := s.cmd.isSome

/-- `STATUS.PLC` (R34, R370). -/
def State.plcBit (s : State) : Bool := decide (plcMode s.dec = .concealing)

/-- `STATUS.LSP_SUBST` (R34, R214). -/
def State.substBit (s : State) : Bool := s.dec.lspSubst

/-- `STATUS.GTRAP` (R34, R287). -/
def State.gtrapBit (s : State) : Bool := decide (0 < s.dec.lctimer)

/-- The word that has bit `n` set where `b` holds, and no other bit. -/
def bitAt (b : Bool) (n : Nat) : Word := if b then BitVec.ofNat 32 (2 ^ n) else 0

/-- `STATUS` as the host reads it (R34): bit 4 and bits `[31:8]` read 0. -/
def statusWord (s : State) : Word :=
  bitAt s.busy 0 ||| bitAt s.done 1 ||| bitAt s.errCmd 2 ||| bitAt s.errIdx 3
    ||| bitAt s.plcBit 5 ||| bitAt s.substBit 6 ||| bitAt s.gtrapBit 7

/-- `INTEN` as the host reads it (R35). -/
def intenWord (s : State) : Word := s.inten.setWidth 32

/-- The interrupt line (R35, R405). -/
def irq (s : State) : Bool :=
  (s.inten.getLsbD 0 && s.done) || (s.inten.getLsbD 1 && (s.errCmd || s.errIdx))

/-- `ID` (R33). -/
def idWord : Word := 0x4C504301

/-- `PROFILE0` (R37): `[15:0] = FRSZ`, `[23:16] = LPCO`, `[27:24] = NSF`. -/
def profile0Word (P : Profile) : Word :=
  (0 : BitVec 4) ++ BitVec.ofNat 4 P.nsf ++ BitVec.ofNat 8 P.lpco ++ BitVec.ofNat 16 P.frsz

/-- `PROFILE1` (R37): `[15:0] = MINPP`, `[31:16] = MAXPP`. -/
def profile1Word (P : Profile) : Word := BitVec.ofNat 16 P.maxpp ++ BitVec.ofNat 16 P.minpp

/-- `PROFILE2` (R37): `[15:0] = NIDX`, `[23:16] = VDIM`. -/
def profile2Word (P : Profile) : Word := (0 : BitVec 8) ++ BitVec.ofNat 8 P.vdim ++ BitVec.ofNat 16 P.nidx

/-- `ERRINFO`'s form (R38): `[3:0]` an opcode field, `[15:8]` a slot, `[16]` rejected while busy. -/
def errinfoWord (busy : Bool) (slot : BitVec 8) (op : BitVec 4) : Word :=
  (0 : BitVec 15) ++ BitVec.ofBool busy ++ slot ++ (0 : BitVec 4) ++ op

/-- `DECINFO` (R39): `[15:0] = min(cfecount, 0xFFFF)`, `[23:16] = sexp`, `[31:24] = min(lctimer, 0xFF)`. DEDUCED, where
the spec disagrees with itself: U7 of `93_implementation_defined.md` lists bits `[31:24]` as reserved, reading 0, and
R39 and R411 are followed (log entry 26); R411 says that `D.nclglim` too is read through `DECINFO`, and R39, which has
no field for it, is followed (log entry 27). -/
def decinfoWord (d : Dec) : Word :=
  BitVec.ofNat 8 (min d.lctimer 0xFF) ++ BitVec.ofInt 8 d.syn.sexp ++ BitVec.ofNat 16 (min d.cfecount 0xFFFF)

end Sys2Proof.Machine
end

