-- ==== Sys2Proof/Machine/Ops.lean ====
section
/-! DEFINITION. The named operations over the buffers and the control registers: one byte, a half word, a word of
the buffers; `STATUS` and `INTEN` writes; raising an error (the block's one form of exception, R401 to R407);
accepting and completing a command (R140). -/

namespace Sys2Proof.Machine

/-- The byte at an offset; none where nothing has written it (R43). -/
def Memory.read : Memory → Nat → Option Byte
  | [], _ => none
  | c :: rest, a => if c.1 = a then some c.2 else if a < c.1 then none else Memory.read rest a

/-- Writes one byte, keeping the canonical form. -/
def Memory.write : Memory → Nat → Byte → Memory
  | [], a, b => [(a, b)]
  | c :: rest, a, b =>
    if a < c.1 then (a, b) :: c :: rest
    else if a = c.1 then (a, b) :: rest
    else c :: Memory.write rest a b

/-- A 16-bit element, little-endian (R84). -/
def Memory.read16 (m : Memory) (a : Nat) : Option Sample :=
  match m.read a, m.read (a + 1) with
  | some lo, some hi => some (hi ++ lo)
  | _, _ => none

/-- A 32-bit element, little-endian (R84). -/
def Memory.read32 (m : Memory) (a : Nat) : Option Word :=
  match m.read16 a, m.read16 (a + 2) with
  | some lo, some hi => some (hi ++ lo)
  | _, _ => none

/-- Writes a 16-bit element (R84). -/
def Memory.write16 (m : Memory) (a : Nat) (v : Sample) : Memory :=
  (m.write a (v.extractLsb' 0 8)).write (a + 1) (v.extractLsb' 8 8)

/-- Writes a 32-bit element (R84). -/
def Memory.write32 (m : Memory) (a : Nat) (v : Word) : Memory :=
  (m.write16 a (v.extractLsb' 0 16)).write16 (a + 2) (v.extractLsb' 16 16)

/-- Writes a run of 16-bit elements upwards from an offset: how DECODE and CONCEAL fill `PCM_OUT` (R41). -/
def Memory.writeSamples (m : Memory) : Nat → List Sample → Memory
  | _, [] => m
  | a, v :: rest => Memory.writeSamples (m.write16 a v) (a + 2) rest

/-- Writes a run of 32-bit elements upwards from an offset: how ENCODE fills `IDX` (R42). -/
def Memory.writeWords (m : Memory) : Nat → List Word → Memory
  | _, [] => m
  | a, v :: rest => Memory.writeWords (m.write32 a v) (a + 4) rest

/-- Reads `n` elements of `stride` bytes upwards from an offset; the offset of the first unwritten one where there
is one (R43). -/
def readRun {α : Type} (get : Nat → Option α) (stride : Nat) : Nat → Nat → Except Nat (List α)
  | 0, _ => .ok []
  | n + 1, a =>
    match get a with
    | none => .error a
    | some v =>
      match readRun get stride n (a + stride) with
      | .error b => .error b
      | .ok vs => .ok (v :: vs)

/-- The two errors the block reports (R401, R402). -/
inductive ErrorKind where
  | errCmd
  | errIdx
  deriving DecidableEq, Repr

/-- `raise ERR_<X>(info)` of R13, the block's one shared form of taking an exception: the status bit is set and
`ERRINFO` takes the information of this error (R38, R401, R402). Nothing else changes: no pc is saved, no mode
changes, no handler is entered (R407), and there is nothing to return from (R408). -/
def State.raise (s : State) (kind : ErrorKind) (info : Word) : State :=
  match kind with
  | .errCmd => { s with errCmd := true, errinfo := info }
  | .errIdx => { s with errIdx := true, errinfo := info }

/-- The rejection of a `CMD` write (R401): `ERRINFO` takes the opcode field, and bit 16 where the block was busy. -/
def State.rejectCmd (s : State) (w : Word) : State :=
  s.raise .errCmd (errinfoWord s.busy 0 (opField w))

/-- The end of an accepted command (R140): `DONE` is set and `BUSY` falls. -/
def State.complete (s : State) : State := { s with done := true, cmd := none }

/-- The end of a DECODE rejected at slot `k0` (R140, R147, R402): the error is raised, `DONE` is not set, `BUSY` falls. -/
def State.rejectIdx (s : State) (k0 : Nat) : State :=
  { s.raise .errIdx (errinfoWord false (BitVec.ofNat 8 k0) 0x4) with cmd := none }

/-- The acceptance of a command word (R140, R141): `BUSY` is set, the word is latched, and the command will
complete after a number of bus cycles the spec leaves open. -/
def State.accept (s : State) (w : Word) : State :=
  { s with cmd := some w, wait := Config.latency (opField w) s.accepted, accepted := s.accepted + 1 }

/-- A write of `w` to `CMD` (R140, R141, R406): rejected while busy, rejected where illegal, else accepted. -/
def State.writeCmd (s : State) (w : Word) : State :=
  if s.busy then s.rejectCmd w
  else
    match decodeWord w with
    | .error _ => s.rejectCmd w
    | .ok _ => s.accept w

/-- A write to `STATUS` (R34): each W1C bit written as 1 is cleared, every other bit is unchanged. -/
def State.writeStatus (s : State) (w : Word) : State :=
  { s with
    done := s.done && !w.getLsbD 1
    errCmd := s.errCmd && !w.getLsbD 2
    errIdx := s.errIdx && !w.getLsbD 3 }

/-- A write to `INTEN` (R35): bits `[31:2]` are ignored. -/
def State.writeInten (s : State) (w : Word) : State := { s with inten := w.setWidth 2 }

/-- Power-on reset (R63, R430): every register and both contexts take their reset values, the buffers are
unwritten, a running command is aborted. The model's own fields go on: what is still to arrive, and the counters,
so that a free value is never drawn twice. -/
def State.powerOn (s : State) : State :=
  { State.reset with accepted := s.accepted, draws := s.draws, inputs := s.inputs }

end Sys2Proof.Machine
end

