-- ==== Sys2Proof/Machine/Operands.lean ====
section
/-! DEFINITION. The implicit operands of the commands (R113): the frame in `PCM_IN`, the IndexSet in `IDX` with its
slot table and its check (R115, R116, R147), the frame in `PCM_OUT`. -/

namespace Sys2Proof.Machine

/-- The offset of sample `n` of `PCM_IN` (R40). -/
def pcmInOff (n : Nat) : Nat := 0x100 + 2 * n

/-- The offset of sample `n` of `PCM_OUT` (R41). -/
def pcmOutOff (n : Nat) : Nat := 0x300 + 2 * n

/-- The offset of slot `k` of `IDX` (R42). -/
def idxOff (k : Nat) : Nat := 0x500 + 4 * k

/-- The frame in `PCM_IN` (R40, R145); the offset of its first unwritten sample where there is one (R43). -/
def readPcmIn (P : Profile) (m : Memory) : Except Nat (List Sample) := readRun m.read16 2 P.frsz (pcmInOff 0)

/-- The words in `IDX` (R42, R146); the offset of the first unwritten slot where there is one (R43). -/
def readIdx (P : Profile) (m : Memory) : Except Nat (List Word) := readRun m.read32 4 P.nidx (idxOff 0)

/-- Writes a frame to `PCM_OUT` (R41, R347). -/
def writePcmOut (m : Memory) (pcm : List Int) : Memory := m.writeSamples (pcmOutOff 0) (pcm.map (BitVec.ofInt 16))

/-- Writes an IndexSet to `IDX`, the bits above each index 0 (R42, R145). -/
def writeIdx (m : Memory) (ix : List Nat) : Memory := m.writeWords (idxOff 0) (ix.map (BitVec.ofNat 32))

/-- The width in bits of slot `k` and the number of values it may take (R115). -/
def slotSpec (P : Profile) (k : Nat) : Nat × Nat :=
  if k = 0 then (P.lsp1bits, P.lspcb1sz)
  else if k = 1 then (P.lsp21bits, P.lspcb21sz)
  else if k = 2 then (P.lsp22bits, P.lspcb22sz)
  else if k = 3 then (P.ppbits, P.maxpp - P.minpp + 1)
  else if k = 4 then (P.ptbits, P.ppcbsz)
  else if k < 5 + P.nsf then (P.gbits, P.lgcbsz)
  else (P.ebits, 2 * P.cbsz)

/-- Slot `k` holding `w` is in range (R116): the index in bits `[width-1:0]` is one of its values and the bits above
are 0. -/
def slotOk (P : Profile) (k : Nat) (w : Word) : Bool :=
  decide (w.toNat % 2 ^ (slotSpec P k).1 < (slotSpec P k).2) && decide (w.toNat / 2 ^ (slotSpec P k).1 = 0)

/-- `INDEX_CHECK` of R147: the smallest slot out of range, none where all are in range. -/
def firstBadSlot (P : Profile) (ws : List Word) : Option Nat :=
  (List.range P.nidx).find? fun k => !slotOk P k (ws.getD k 0)

end Sys2Proof.Machine
end

