-- ==== Sys2Proof/Machine/Bus.lean ====
section
/-! DEFINITION. The bus port (`20_memory.md`): the address map, widths and alignment, reads and writes of every
location, and the platform's reset input. Accesses are performed one at a time in arrival order (R89). -/

namespace Sys2Proof.Machine

/-- The locations of the address map (R81). -/
inductive Location where
  | cmd
  | status
  | inten
  | ident
  | profile0
  | profile1
  | profile2
  | errinfo
  | decinfo
  | pcmIn
  | pcmOut
  | idx
  deriving DecidableEq, Repr

/-- The register that holds a byte offset below 0x024 (R81). -/
def registerAt : Nat → Location
  | 0 => .cmd
  | 1 => .status
  | 2 => .inten
  | 3 => .ident
  | 4 => .profile0
  | 5 => .profile1
  | 6 => .profile2
  | 7 => .errinfo
  | _ => .decinfo

/-- `n` bytes at `offset` lie inside `len` bytes at `base`. -/
def within (base len offset n : Nat) : Bool := decide (base ≤ offset ∧ offset + n ≤ base + len)

/-- The location that holds `n` bytes at `offset`, by the map of R81; none at a reserved offset (R82) or outside the
window (R80). -/
def locate (P : Profile) (offset n : Nat) : Option Location :=
  if within 0x000 0x024 offset n then some (registerAt (offset / 4))
  else if within 0x100 (2 * P.frsz) offset n then some .pcmIn
  else if within 0x300 (2 * P.frsz) offset n then some .pcmOut
  else if within 0x500 (4 * P.nidx) offset n then some .idx
  else none

/-- The widths a location accepts (R85). -/
def Location.accepts : Location → Width → Bool
  | _, .w8 => false
  | .pcmIn, .w16 => true
  | .pcmOut, .w16 => true
  | _, .w16 => false
  | _, .w32 => true

/-- The location an access reaches, or the bus error it gets (R82, R85, R86). -/
def checkAccess (P : Profile) (width : Width) (offset : Nat) : Except BusError Location :=
  if width = .w8 then .error .width
  else if offset % width.bytes ≠ 0 then .error .misaligned
  else
    match locate P offset width.bytes with
    | none => .error .unmapped
    | some l => if l.accepts width then .ok l else .error .width

/-- The word a register reads as (R32 to R39); `CMD` reads 0 (R32, R82). The buffers are no registers. -/
def registerWord (P : Profile) (s : State) : Location → Word
  | .cmd => 0
  | .status => statusWord s
  | .inten => intenWord s
  | .ident => idWord
  | .profile0 => profile0Word P
  | .profile1 => profile1Word P
  | .profile2 => profile2Word P
  | .errinfo => s.errinfo
  | .decinfo => decinfoWord s.dec
  | .pcmIn => 0
  | .pcmOut => 0
  | .idx => 0

/-- Answers an access with 32 bits of data. -/
def State.answerWord (s : State) (v : Word) : State := { s with answer := .data32 v }

/-- A buffer read of what is stored; a fault at an unwritten element (R43). -/
def readBuffer (s : State) (width : Width) (offset : Nat) : Host.Outcome State Fault Refusal :=
  match width with
  | .w32 =>
    match s.mem.read32 offset with
    | some v => .next (s.answerWord v)
    | none => .fault (.unwritten offset)
  | _ =>
    match s.mem.read16 offset with
    | some v => .next { s with answer := .data16 v }
    | none => .fault (.unwritten offset)

/-- A read of `PCM_OUT` or `IDX` while a command runs: an unspecified value (R88), the next free one. -/
def readUnspecified (s : State) (width : Width) : State :=
  { s with
    draws := s.draws + 1
    answer := match width with
      | .w32 => .data32 (Config.busyRead s.draws)
      | _ => .data16 ((Config.busyRead s.draws).setWidth 16) }

/-- A host read (R81 to R88). It changes nothing of the block (R87). `PCM_IN` reads as stored while a command runs,
since the block never writes it (R40): DEDUCED (log entry 13). -/
def busRead (P : Profile) (s : State) (width : Width) (offset : Nat) : Host.Outcome State Fault Refusal :=
  match checkAccess P width offset with
  | .error e => .fault (.busError e offset)
  | .ok .pcmIn => readBuffer s width offset
  | .ok .pcmOut => if s.busy then .next (readUnspecified s width) else readBuffer s width offset
  | .ok .idx => if s.busy then .next (readUnspecified s width) else readBuffer s width offset
  | .ok l => .next (s.answerWord (registerWord P s l))

/-- A write of a buffer element (R84, R85). -/
def Memory.writeAt (m : Memory) (width : Width) (offset : Nat) (data : Word) : Memory :=
  match width with
  | .w32 => m.write32 offset data
  | _ => m.write16 offset (data.setWidth 16)

/-- A write to `PCM_IN` or `IDX`: refused while a command runs (R88). -/
def writeBuffer (s : State) (width : Width) (offset : Nat) (data : Word) : Host.Outcome State Fault Refusal :=
  if s.busy then .refused (.bufferWriteWhileBusy offset)
  else .next { s with mem := s.mem.writeAt width offset data, answer := .written }

/-- A host write (R81 to R88): `ID` and `PROFILE0..2` ignore it, the other read-only locations get a bus error (R82). -/
def busWrite (P : Profile) (s : State) (width : Width) (offset : Nat) (data : Word) :
    Host.Outcome State Fault Refusal :=
  match checkAccess P width offset with
  | .error e => .fault (.busError e offset)
  | .ok .cmd => .next { s.writeCmd data with answer := .written }
  | .ok .status => .next { s.writeStatus data with answer := .written }
  | .ok .inten => .next { s.writeInten data with answer := .written }
  | .ok .ident => .next { s with answer := .written }
  | .ok .profile0 => .next { s with answer := .written }
  | .ok .profile1 => .next { s with answer := .written }
  | .ok .profile2 => .next { s with answer := .written }
  | .ok .errinfo => .fault (.busError .readOnly offset)
  | .ok .decinfo => .fault (.busError .readOnly offset)
  | .ok .pcmIn => writeBuffer s width offset data
  | .ok .pcmOut => .fault (.busError .readOnly offset)
  | .ok .idx => writeBuffer s width offset data

/-- One event at the port. -/
def perform (s : State) : HostEvent → Host.Outcome State Fault Refusal
  | .read width offset => busRead Config.profile s width offset
  | .write width offset data => busWrite Config.profile s width offset data
  | .powerOn => .next s.powerOn

/-- One bus cycle of the port: the next event that arrives, or none (R89). -/
def busCycle (s : State) : Host.Outcome State Fault Refusal :=
  match s.inputs with
  | [] => .next s
  | e :: rest => perform { s with inputs := rest } e

end Sys2Proof.Machine
end

