-- ==== Sys2Proof/Machine/Control.lean ====
section
/-! DEFINITION. The control commands NOP, RESET_ENC and RESET_DEC (R142 to R144): the execution of an accepted
command up to its completion (R140). -/

namespace Sys2Proof.Machine

/-- NOP (R142): no effect on the contexts or the buffers; `DONE` is set. -/
def execNop (s : State) : Host.Outcome State Fault Refusal := .next s.complete

/-- RESET_ENC (R143): the encoder context takes the values of R61; `DONE` is set. -/
def execResetEnc (s : State) : Host.Outcome State Fault Refusal :=
  .next { s with enc := Enc.reset Config.profile }.complete

/-- RESET_DEC (R144): the decoder context takes the values of R62; `DONE` is set. -/
def execResetDec (s : State) : Host.Outcome State Fault Refusal :=
  .next { s with dec := Dec.reset Config.profile }.complete

end Sys2Proof.Machine
end

