-- ==== Sys2Proof/Machine/Decoder.lean ====
section
/-! DEFINITION. The decoder pipeline on the context (R146, R150, R151), from an IndexSet already checked (R147). -/

namespace Sys2Proof.Machine

/-- The pitch period of an index: `PPI + MINPP` (R117, R150). -/
def pitchOfIndex (P : Profile) (ppi : Nat) : Nat := ppi + P.minpp

/-- `PERIODICITY_UPDATE` of R151. -/
def periodicity (P : Profile) (per : Rat) (bq : List Rat) : Rat :=
  P.perSmooth * per + (1 - P.perSmooth) * min 1 (sumTo 3 fun k => sq (elt bq k))

/-- The index in slot `k` of an IndexSet. -/
def slot (ix : List Nat) (k : Nat) : Nat := ix.getD k 0

/-- What the decoder's subframe loop carries: the context parts it writes, the excitation and its energy so far. -/
structure DecLoop where
  gain : GainState
  trap : TrapState
  ltsym : List Rat
  dq : List Rat
  eacc : Rat
  deriving DecidableEq, Repr

/-- One vector of a subframe (R146, R320). -/
def decVector (P : Profile) (bq : List Rat) (pp : Nat) (ix : List Nat) (gq : Rat) (s : Nat) (l : DecLoop) (v : Nat) :
    DecLoop :=
  let r := excDecode P l.ltsym bq pp gq (slot ix (5 + P.nsf + s * P.nvpsf + v))
  { l with ltsym := r.2.2, dq := l.dq ++ r.1, eacc := l.eacc + r.2.1 }

/-- One subframe: level estimator, gain dequantizer, the vectors (R146, R271). -/
def decSubframe (P : Profile) (N : Num) (bq : List Rat) (pp : Nat) (ix : List Nat) (l : DecLoop) (s : Nat) : DecLoop :=
  let g := gainDequantize P N l.trap (levelUpdate P l.gain l.gain.prevlg0) (slot ix (5 + s))
  (List.range P.nvpsf).foldl (decVector P bq pp ix g.1 s) { l with gain := g.2.1, trap := g.2.2 }

/-- `DECODE` on the decoder context (R146): the PCM frame and the context. -/
def decodeFrame (P : Profile) (N : Num) (d : Dec) (ix : List Nat) : List Int × Dec :=
  let lsp := lspDequantize P d.lsppm d.lsplast (slot ix 0) (slot ix 1) (slot ix 2)
  let pp := pitchOfIndex P (slot ix 3)
  let bq := tapsOfIndex P (slot ix 4)
  let l := (List.range P.nsf).foldl (decSubframe P N bq pp ix)
    { gain := d.gain, trap := { nclglim := d.nclglim, lctimer := d.lctimer }, ltsym := d.ltsym, dq := [], eacc := 0 }
  let syn := synthesize P d.syn (lsp2a P N lsp.lspq) l.dq
  (syn.1,
    { lsplast := lsp.lspq
      lsppm := lsp.lsppm
      ppLast := pp
      bqLast := bq
      gain := l.gain
      nclglim := l.trap.nclglim
      lctimer := l.trap.lctimer
      ltsym := l.ltsym
      syn := syn.2
      eLast := l.eacc
      per := periodicity P d.per bq
      cfecount := 0
      idum := d.idum
      lspSubst := lsp.subst })

end Sys2Proof.Machine
end

