-- ==== Sys2Proof/Machine/Encoder.lean ====
section
/-! DEFINITION. The encoder pipeline on the context (R145): every stage in the order of the rule, frame-local
values held only while it runs (R152). -/

namespace Sys2Proof.Machine

/-- The frame-local values of ENCODE that its subframes read (R145, R152), and the indices found before them. -/
structure EncFrame where
  choice : LspChoice
  pp : Nat
  pti : Nat
  db : List Rat
  nfq : NfParams
  deriving DecidableEq, Repr

/-- The part of ENCODE before the subframe loop: its frame-local values and the context after it (R170 to R249,
R310). `E.xhist` and `E.dhist` take this frame's samples only at the end of R145, but nothing reads them after
this part, since the loop reads `db`: DEDUCED (log entry 17). -/
def encAnalyse (P : Profile) (N : Num) (e : Enc) (pcm : List Int) : EncFrame × Enc :=
  let h := highpass P { x1 := e.hpfX1, x2 := e.hpfX2, y1 := e.hpfY1, y2 := e.hpfY2 } (pcm.map fun v : Int => (v : Rat))
  let x := preemph P e.peH1 e.peP1 h.1
  let a := lpcAnalysis P e.xhist x.1
  let choice := lspQuantize P e.lsppm (a2lsp N a e.lsplast)
  let d := residual P (lsp2a P N choice.lspq) e.xhist x.1
  let pitch := pitchSearch P e a x.1
  let db := e.dhist ++ d
  let pti := tapQuantize P db pitch.pp
  ({ choice := choice
     pp := pitch.pp
     pti := pti
     db := db
     nfq := { bq := tapsOfIndex P pti, pp := pitch.pp, beta := ltnfCoef P pitch.g1, f := stnfCoef P a } },
   { e with
     hpfX1 := h.2.x1
     hpfX2 := h.2.x2
     hpfY1 := h.2.y1
     hpfY2 := h.2.y2
     peH1 := x.2.1
     peP1 := x.2.2
     xhist := lastN P.xh (e.xhist ++ x.1)
     lsplast := choice.lspq
     lsppm := choice.lsppm
     pwmem := pitch.pwmem
     declpfMem := pitch.declpfMem
     xdhist := pitch.xdhist
     pwhist := pitch.pwhist
     cpplast := pitch.pp
     dhist := lastN (P.maxpp + 1) db })

/-- The residual of vector `v` of subframe `s` (R311). -/
def vectorOf (P : Profile) (db : List Rat) (s v : Nat) : List Rat :=
  tab P.vdim fun m => elt db (P.maxpp + 1 + (s * P.sfrsz + v * P.vdim + m))

/-- What the subframe loop carries: the context parts it writes, the gain and excitation indices so far. -/
structure EncLoop where
  nf : NfMem
  gain : GainState
  gi : List Nat
  ei : List Nat
  deriving DecidableEq, Repr

/-- One vector of a subframe with its gain and zero-state responses (R145). -/
def encVector (P : Profile) (fr : EncFrame) (zsr : List (List Rat)) (gq : Rat) (s : Nat) (l : EncLoop) (v : Nat) :
    EncLoop :=
  let r := nfcVector P fr.nfq zsr gq l.nf (vectorOf P fr.db s v)
  { l with nf := r.2, ei := l.ei ++ [r.1] }

/-- One subframe: level estimator, gain coder, zero-state responses, the vectors (R145, R271). -/
def encSubframe (P : Profile) (N : Num) (fr : EncFrame) (l : EncLoop) (s : Nat) : EncLoop :=
  let g := gainQuantize P N (levelUpdate P l.gain l.gain.prevlg0) (targetEnergy P fr.db fr.nfq.bq fr.pp s)
  let zsr := zeroStateResponses P fr.nfq.f
  (List.range P.nvpsf).foldl (encVector P fr zsr g.2.1 s) { l with gain := g.2.2, gi := l.gi ++ [g.1] }

/-- The IndexSet in the order of R115. -/
def indexSet (P : Profile) (fr : EncFrame) (l : EncLoop) : List Nat :=
  [fr.choice.i1, fr.choice.i21, fr.choice.i22, fr.pp - P.minpp, fr.pti] ++ l.gi ++ l.ei

/-- `ENCODE` on the encoder context (R145): the IndexSet and the context. -/
def encodeFrame (P : Profile) (N : Num) (e : Enc) (pcm : List Int) : List Nat × Enc :=
  let a := encAnalyse P N e pcm
  let l := (List.range P.nsf).foldl (encSubframe P N a.1) { nf := e.nf, gain := e.gain, gi := [], ei := [] }
  (indexSet P a.1 l, { a.2 with nf := l.nf, gain := l.gain })

end Sys2Proof.Machine
end

