-- ==== Sys2Proof/Machine/Frame.lean ====
section
/-! DEFINITION. The frame commands ENCODE, DECODE and CONCEAL (R145, R146, R148): their operands read from the
buffers, the pipeline run on the context, the results written, the command completed or rejected (R140, R147). -/

namespace Sys2Proof.Machine

/-- ENCODE (R145) of a frame that was read: `IDX` and `E` are written, `DONE` is set. -/
def State.encodeWith (s : State) (pcm : List Sample) : State :=
  let r := encodeFrame Config.profile Config.num s.enc (pcm.map BitVec.toInt)
  { s with enc := r.2, mem := writeIdx s.mem r.1 }.complete

/-- ENCODE (R145). It faults only where a sample of `PCM_IN` was never written (R43). -/
def execEncode (s : State) : Host.Outcome State Fault Refusal :=
  match readPcmIn Config.profile s.mem with
  | .error a => .fault (.unwritten a)
  | .ok pcm => .next (s.encodeWith pcm)

/-- DECODE (R146) of an IndexSet in range: `PCM_OUT` and `D` are written, `DONE` is set. -/
def State.decodeWith (s : State) (ws : List Word) : State :=
  let r := decodeFrame Config.profile Config.num s.dec (ws.map BitVec.toNat)
  { s with dec := r.2, mem := writePcmOut s.mem r.1 }.complete

/-- DECODE (R146), rejected at the first slot out of range (R147, R402). It faults only where a slot of `IDX` was
never written (R43), before the check: DESIGN CHOICE (log entry 10). -/
def execDecode (s : State) : Host.Outcome State Fault Refusal :=
  match readIdx Config.profile s.mem with
  | .error a => .fault (.unwritten a)
  | .ok ws =>
    match firstBadSlot Config.profile ws with
    | some k0 => .next (s.rejectIdx k0)
    | none => .next (s.decodeWith ws)

/-- CONCEAL (R148): `PCM_OUT` and `D` are written, `DONE` is set (R380). -/
def execConceal (s : State) : Host.Outcome State Fault Refusal :=
  let r := concealFrame Config.profile Config.num s.dec
  .next { s with dec := r.2, mem := writePcmOut s.mem r.1 }.complete

end Sys2Proof.Machine
end

