-- ==== Sys2Proof/Machine/Dispatch.lean ====
section
/-! DEFINITION. The meaning of each command: the execution of one accepted command (R140), one arm per constructor. -/

namespace Sys2Proof.Machine

def exec (i : Instr) (s : State) : Host.Outcome State Fault Refusal :=
  match i with
  | .nop => Sys2Proof.Machine.execNop s
  | .resetEnc => Sys2Proof.Machine.execResetEnc s
  | .resetDec => Sys2Proof.Machine.execResetDec s
  | .encode => Sys2Proof.Machine.execEncode s
  | .decode => Sys2Proof.Machine.execDecode s
  | .conceal => Sys2Proof.Machine.execConceal s

end Sys2Proof.Machine
end

