-- ==== Sys2Proof/Machine/Step.lean ====
section
/-! DEFINITION. One step of the machine: the block completes the command it runs once its busy period is over, and
otherwise one bus cycle passes, with the next event of the port if one arrives (R89, R140, R141). -/

namespace Sys2Proof.Machine

/-- Runs the latched command word (R140): decoded, it is executed. -/
def runLatched (w : Word) (s : State) : Host.Outcome State Fault Refusal :=
  match decodeWord w with
  | .ok i => exec i s
  | .error _ => .refused (.illegalLatched w)

/-- One step. A running command completes when no cycle of its busy period is left (R141: the completion is a step
of the block that comes after any number of host steps, and comes eventually); until then, and while the block is
idle, a bus cycle passes. -/
def step (s : State) : Host.Outcome State Fault Refusal :=
  match s.cmd, s.wait with
  | some w, 0 => runLatched w s
  | some _, n + 1 => busCycle { s with wait := n }
  | none, _ => busCycle s

/-- `s` with a command word latched and its busy period over, so that the next step decodes and runs it: the state
in which R140 has accepted the word and only its execution is left. DESIGN CHOICE (log entry 7). -/
def State.withFetchWord (s : State) (nbits w : Nat) : State :=
  { s with cmd := some (BitVec.ofNat 32 (w % 2 ^ nbits)), wait := 0 }

end Sys2Proof.Machine
end

