-- ==== Sys2Proof/Safety.lean ====
section
/-! DEFINITION. What the claims call a safe run: the invariant of the block's state, the duties of the host
(R434, R436) under which no step stops, and what a step that goes on is. -/

namespace Sys2Proof.Machine

/-- An LSP vector that crosses frames: `LPCO` components, strictly increasing, in `[LSPMIN, LSPMAX]` (R183, R216). -/
def LspStable (P : Profile) (l : List Rat) : Prop :=
  l.length = P.lpco ∧ l.Pairwise (· < ·) ∧ ∀ x ∈ l, P.lspmin ≤ x ∧ x ≤ P.lspmax

/-- An LSP predictor memory of the size R46 gives it. -/
def LsppmSized (P : Profile) (pm : List (List Rat)) : Prop :=
  pm.length = P.lpco ∧ ∀ row ∈ pm, row.length = P.lspporder

/-- A pitch period in `MINPP..MAXPP` (R22). -/
def LagOk (P : Profile) (pp : Nat) : Prop := P.minpp ≤ pp ∧ pp ≤ P.maxpp

/-- The encoder context in its value domains (R44 to R46): every buffer of its length, the lag and the LSP vector in
range. -/
structure Enc.Ok (P : Profile) (e : Enc) : Prop where
  xhist : e.xhist.length = P.xh
  lsplast : LspStable P e.lsplast
  lsppm : LsppmSized P e.lsppm
  pwmem : e.pwmem.length = P.lpco
  declpfMem : e.declpfMem.length = P.declpfLen - 1
  xdhist : e.xdhist.length = P.xdh
  pwhist : e.pwhist.length = P.pwh
  cpplast : LagOk P e.cpplast
  dhist : e.dhist.length = P.maxpp + 1
  stnfm : e.nf.stnfm.length = P.lpco
  ltsym : e.nf.ltsym.length = P.maxpp + 1
  ltnfm : e.nf.ltnfm.length = P.maxpp
  lgpm : e.gain.lgpm.length = P.lgporder

/-- The decoder context in its value domains (R44, R48). -/
structure Dec.Ok (P : Profile) (d : Dec) : Prop where
  lsplast : LspStable P d.lsplast
  lsppm : LsppmSized P d.lsppm
  ppLast : LagOk P d.ppLast
  bqLast : d.bqLast.length = 3
  lgpm : d.gain.lgpm.length = P.lgporder
  nclglim : d.nclglim ≤ P.nclglimTrapped
  lctimer : d.lctimer ≤ P.levelConvergenceTime
  ltsym : d.ltsym.length = P.maxpp + 1
  stsym : d.syn.stsym.length = P.lpco
  sexp : P.sexpMin ≤ d.syn.sexp ∧ d.syn.sexp ≤ P.sexpMax
  eLast : 0 ≤ d.eLast
  per : 0 ≤ d.per ∧ d.per ≤ 1
  cfecount : d.cfecount ≤ P.cfeMax

/-- An offset in the mapped part of one of the three buffers (R81). -/
def InBuffer (P : Profile) (a : Nat) : Prop :=
  (0x100 ≤ a ∧ a < 0x100 + 2 * P.frsz) ∨ (0x300 ≤ a ∧ a < 0x300 + 2 * P.frsz)
    ∨ (0x500 ≤ a ∧ a < 0x500 + 4 * P.nidx)

/-- An access the port takes, by the map, the widths and the alignment (R81, R85, R86), said without the port's own
functions: 32 bits wide and aligned in a register or a buffer, or 16 bits wide and aligned in a PCM buffer. -/
def AccessMapped (P : Profile) (width : Width) (a : Nat) : Prop :=
  (width = .w32 ∧ a % 4 = 0 ∧ (a < 0x024 ∨ (0x100 ≤ a ∧ a + 4 ≤ 0x100 + 2 * P.frsz)
      ∨ (0x300 ≤ a ∧ a + 4 ≤ 0x300 + 2 * P.frsz) ∨ (0x500 ≤ a ∧ a + 4 ≤ 0x500 + 4 * P.nidx)))
    ∨ (width = .w16 ∧ a % 2 = 0 ∧ ((0x100 ≤ a ∧ a + 2 ≤ 0x100 + 2 * P.frsz)
      ∨ (0x300 ≤ a ∧ a + 2 ≤ 0x300 + 2 * P.frsz)))

/-- The invariant of the block: the buffers' canonical form and place (R81), a latched command that is legal (R140),
the reserved bits of `ERRINFO` (R38), both contexts in their value domains (R44). -/
structure State.Inv (s : State) : Prop where
  memWf : s.mem.wf = true
  memMapped : ∀ c ∈ s.mem, InBuffer Config.profile c.1
  cmdLegal : ∀ w, s.cmd = some w → wordWf w = true
  errinfo : ∃ busy slot op, s.errinfo = errinfoWord busy slot op
  enc : s.enc.Ok Config.profile
  dec : s.dec.Ok Config.profile

/-- A step that goes on. -/
def Proceeds (o : Host.Outcome State Fault Refusal) : Prop := ∃ t, o = .next t

/-- Every element a buffer read of this width needs has been written (R43). -/
def elementWritten (m : Memory) (width : Width) (offset : Nat) : Bool :=
  match width with
  | .w32 => (m.read32 offset).isSome
  | _ => (m.read16 offset).isSome

/-- The host may do this event now: the access is one the port accepts (R82, R85, R86), a write goes to a location
that takes or ignores writes, and the duties of R434 and R436 towards the buffers are kept. -/
def hostMay (P : Profile) (s : State) : HostEvent → Bool
  | .powerOn => true
  | .read width offset =>
    match checkAccess P width offset with
    | .error _ => false
    | .ok .pcmIn => elementWritten s.mem width offset
    | .ok .pcmOut => s.busy || elementWritten s.mem width offset
    | .ok .idx => s.busy || elementWritten s.mem width offset
    | .ok _ => true
  | .write width offset _ =>
    match checkAccess P width offset with
    | .error _ => false
    | .ok .errinfo => false
    | .ok .decinfo => false
    | .ok .pcmOut => false
    | .ok .pcmIn => !s.busy
    | .ok .idx => !s.busy
    | .ok _ => true

/-- The buffers hold what a command reads: before an ENCODE every sample of `PCM_IN`, before a DECODE every slot of
`IDX` (R434). -/
def operandsWritten (P : Profile) (m : Memory) : Instr → Prop
  | .encode => ∀ n < P.frsz, (m.read16 (pcmInOff n)).isSome
  | .decode => ∀ k < P.nidx, (m.read32 (idxOff k)).isSome
  | .nop => True
  | .resetEnc => True
  | .resetDec => True
  | .conceal => True

/-- `PCM_IN` holds the frame `pcm` (R40). -/
structure HoldsPcm (P : Profile) (m : Memory) (pcm : List Sample) : Prop where
  length : pcm.length = P.frsz
  sample : ∀ n (h : n < pcm.length), m.read16 (0x100 + 2 * n) = some pcm[n]

/-- `IDX` holds the slot words `ws` (R42). -/
structure HoldsSlots (P : Profile) (m : Memory) (ws : List Word) : Prop where
  length : ws.length = P.nidx
  slot : ∀ k (h : k < ws.length), m.read32 (0x500 + 4 * k) = some ws[k]

/-- The word `w` of slot `k` is in range (R116): its low bits, as many as the slot is wide, lie in the slot's value
range, and the bits above are 0. -/
def SlotInRange (P : Profile) (k : Nat) (w : Word) : Prop :=
  w.toNat % 2 ^ (slotSpec P k).1 < (slotSpec P k).2 ∧ w.toNat / 2 ^ (slotSpec P k).1 = 0

/-- A DECODE of `ws` is not rejected: `IDX` holds them and every slot is in range (R147). -/
structure DecodeReady (P : Profile) (m : Memory) (ws : List Word) : Prop where
  holds : HoldsSlots P m ws
  inRange : ∀ k (h : k < ws.length), SlotInRange P k ws[k]

/-- The two contexts hold equal values in every mirrored field (R154). -/
structure Mirrored (e : Enc) (d : Dec) : Prop where
  lsplast : e.lsplast = d.lsplast
  lsppm : e.lsppm = d.lsppm
  gain : e.gain = d.gain
  ltsym : e.nf.ltsym = d.ltsym

/-- The next step of this state is one the host's duties allow: a command that ends has its operands, an event that
arrives is one the host may do. -/
def Complies (s : State) : Prop :=
  (∀ w i, s.cmd = some w → s.wait = 0 → decodeWord w = .ok i → operandsWritten Config.profile s.mem i) ∧
    ∀ e rest, (s.cmd = none ∨ 0 < s.wait) → s.inputs = e :: rest → hostMay Config.profile s e = true

end Sys2Proof.Machine
end

