-- ==== Sys2Proof/Certificates/Slice0/Obligations.lean ====
section
/-! DEFINITION. The statements for the provers. `Config.profile` and `Config.num` have no body, so a statement about
the machine is one about every well-formed profile; a statement about a stage takes its profile as an argument. -/

open Sys2Proof Sys2Proof.Machine

/-! ## The command word -/

/-- R112: the word of each command decodes to it, and the words beside them are refused. -/
def Obligations.CommandWordsDecode : Prop :=
  decodeWord 0x00000000 = .ok .nop ∧ decodeWord 0x00000001 = .ok .resetEnc ∧ decodeWord 0x00000002 = .ok .resetDec
    ∧ decodeWord 0x00000003 = .ok .encode ∧ decodeWord 0x00000004 = .ok .decode
    ∧ decodeWord 0x00000005 = .ok .conceal
    ∧ decodeWord 0x00000006 = .error (.reservedOpcode 6) ∧ decodeWord 0x0000000F = .error (.reservedOpcode 15)
    ∧ decodeWord 0x00000010 = .error .reservedBits ∧ decodeWord 0x80000005 = .error .reservedBits

/-- R111, R114: the illegal words are exactly those with an opcode in 0x6..0xF or a reserved bit set. -/
def Obligations.IllegalWordsRefused : Prop :=
  ∀ w : Word, (∃ e, decodeWord w = .error e) ↔ (w.extractLsb' 4 28 ≠ 0 ∨ 6 ≤ (w.extractLsb' 0 4).toNat)

/-- R110 to R112, R84: the four bytes of a command decode to it and leave what follows, and no other bytes decode to
that command: no bit of an encoding is dropped. -/
def Obligations.CommandEncodingUnique : Prop :=
  (∀ i rest, decodeBytes (encodeBytes i ++ rest) = .ok (i, rest))
    ∧ ∀ bytes i rest, decodeBytes bytes = .ok (i, rest) → bytes = encodeBytes i ++ rest

/-! ## The step -/

/-- R140: where the busy period of a latched word is over and the word decodes to a command, the step is that
command's execution, with nothing around it; a word placed by `withFetchWord` is such a word. The count of the busy
period in steps and `withFetchWord` are the model's choices (log entries 5 and 7). -/
def Obligations.StepRunsDecodedCommand : Prop :=
  (∀ s w i, s.cmd = some w → s.wait = 0 → decodeWord w = .ok i → step s = exec i s)
    ∧ ∀ s i, step (State.withFetchWord s 32 (Sys2Proof.encode i).toNat)
        = exec i { s with cmd := some (Sys2Proof.encode i), wait := 0 }

/-- R89, R141: in every other state a bus cycle passes: the oldest event that has arrived is performed, alone, and a
busy period has one cycle less to go. That the busy period is counted in steps is the model's choice (log entry 5). -/
def Obligations.BusCyclePassesToPort : Prop :=
  ∀ s, (s.cmd = none → step s = busCycle s)
    ∧ (∀ w n, s.cmd = some w → s.wait = n + 1 → step s = busCycle { s with wait := n })
    ∧ (s.inputs = [] → busCycle s = .next s)
    ∧ ∀ e rest, s.inputs = e :: rest → busCycle s = perform { s with inputs := rest } e

/-- R141, R442: an accepted command is executed after finitely many steps: with no host access in between, after the
`wait` cycles of its busy period (the model's count, log entry 5). -/
def Obligations.AcceptedCommandCompletes : Prop :=
  ∀ (s : State) (w : Word) (i : Instr), s.cmd = some w → decodeWord w = .ok i → s.inputs = [] →
    Sys2Proof.core.run (s.wait + 1) s = exec i { s with wait := 0 }

/-! ## The command register -/

/-- R140, R141: an idle block accepts a legal word: it is latched, `BUSY` reads 1, and nothing else the host can
see changes. The latency is a free value, counted as log entry 5 says. -/
def Obligations.LegalCommandAccepted : Prop :=
  ∀ s w i, s.cmd = none → decodeWord w = .ok i →
    perform s (.write .w32 0x000 w) = .next
      { s with
        cmd := some w
        wait := Config.latency (w.extractLsb' 0 4) s.accepted
        accepted := s.accepted + 1
        answer := .written }

/-- R401 (and R141 for a busy block): which words are rejected, and all that a rejection does. -/
def Obligations.CommandRejected : Prop :=
  ∀ s (w : Word), (s.busy = true ∨ 6 ≤ (w.extractLsb' 0 4).toNat ∨ w.extractLsb' 4 28 ≠ 0) →
    perform s (.write .w32 0x000 w) = .next
      { s with
        errCmd := true
        errinfo := (0 : BitVec 15) ++ BitVec.ofBool s.busy ++ (0 : BitVec 8) ++ (0 : BitVec 4) ++ w.extractLsb' 0 4
        answer := .written }

/-! ## The other registers -/

/-- R34: every bit `STATUS` reads as, what a write clears, and the value after reset. -/
def Obligations.StatusRegister : Prop :=
  (∀ s, perform s (.read .w32 0x004) = .next { s with answer := .data32 (statusWord s) })
    ∧ (∀ s, (statusWord s).getLsbD 0 = s.cmd.isSome ∧ (statusWord s).getLsbD 1 = s.done
        ∧ (statusWord s).getLsbD 2 = s.errCmd ∧ (statusWord s).getLsbD 3 = s.errIdx
        ∧ (statusWord s).getLsbD 4 = false ∧ (statusWord s).getLsbD 5 = decide (0 < s.dec.cfecount)
        ∧ (statusWord s).getLsbD 6 = s.dec.lspSubst ∧ (statusWord s).getLsbD 7 = decide (0 < s.dec.lctimer)
        ∧ ∀ n, 8 ≤ n → (statusWord s).getLsbD n = false)
    ∧ (∀ s (w : Word), perform s (.write .w32 0x004 w) = .next
        { s with
          done := s.done && !w.getLsbD 1
          errCmd := s.errCmd && !w.getLsbD 2
          errIdx := s.errIdx && !w.getLsbD 3
          answer := .written })
    ∧ statusWord State.reset = 0

/-- R35: `INTEN` reads back the two bits written, resets to 0, and with `STATUS` as read it makes the interrupt line. -/
def Obligations.InterruptEnableRegister : Prop :=
  (∀ s, perform s (.read .w32 0x008) = .next { s with answer := .data32 (intenWord s) })
    ∧ (∀ s (w : Word), ∃ t, perform s (.write .w32 0x008 w) = .next t ∧ intenWord t = w &&& 3
        ∧ t = { s with inten := t.inten, answer := .written })
    ∧ intenWord State.reset = 0
    ∧ ∀ s, irq s = (((intenWord s).getLsbD 0 && (statusWord s).getLsbD 1)
        || ((intenWord s).getLsbD 1 && ((statusWord s).getLsbD 2 || (statusWord s).getLsbD 3)))

/-- R405: the line is level-sensitive: clearing the pending bits (`CLRST`) or the enable bits drops it in that access,
and a read never moves it. -/
def Obligations.InterruptDrops : Prop :=
  (∀ s t, perform s .clrst = .next t → irq t = false)
    ∧ (∀ s t, perform s (.write .w32 0x008 0) = .next t → irq t = false)
    ∧ ∀ s t width offset, perform s (.read width offset) = .next t → irq t = irq s

/-- R33, R37: the hardwired registers read as the rules say and ignore writes. That every dimension fits the field that
reports it is the model's reading (log entry 12). -/
def Obligations.HardwiredRegisters : Prop :=
  (∀ s, perform s (.read .w32 0x00C) = .next { s with answer := .data32 0x4C504301 })
    ∧ (∀ s, ∃ v0 v1 v2 : Word,
        perform s (.read .w32 0x010) = .next { s with answer := .data32 v0 }
        ∧ perform s (.read .w32 0x014) = .next { s with answer := .data32 v1 }
        ∧ perform s (.read .w32 0x018) = .next { s with answer := .data32 v2 }
        ∧ (v0.extractLsb' 0 16).toNat = Config.profile.frsz
        ∧ (v0.extractLsb' 16 8).toNat = Config.profile.lpco
        ∧ (v0.extractLsb' 24 4).toNat = Config.profile.nsf ∧ v0.extractLsb' 28 4 = 0
        ∧ (v1.extractLsb' 0 16).toNat = Config.profile.minpp
        ∧ (v1.extractLsb' 16 16).toNat = Config.profile.maxpp
        ∧ (v2.extractLsb' 0 16).toNat = Config.profile.nidx
        ∧ (v2.extractLsb' 16 8).toNat = Config.profile.vdim ∧ v2.extractLsb' 24 8 = 0)
    ∧ ∀ s w offset, offset ∈ [0x00C, 0x010, 0x014, 0x018] →
        perform s (.write .w32 offset w) = .next { s with answer := .written }

/-- R39, R38: `DECINFO` shows the erasure counter, the exponent and the convergence timer; `ERRINFO` reads as it was
last written, and both refuse a write. That `DECINFO[31:24]` is the timer, as R39 has it, and does not read 0, as U7
has it, is the model's reading (log entry 26). -/
def Obligations.InfoRegisters : Prop :=
  (∀ s, ∃ v : Word, perform s (.read .w32 0x020) = .next { s with answer := .data32 v }
        ∧ (v.extractLsb' 0 16).toNat = min s.dec.cfecount 0xFFFF
        ∧ v.extractLsb' 16 8 = BitVec.ofInt 8 s.dec.syn.sexp
        ∧ (v.extractLsb' 24 8).toNat = min s.dec.lctimer 0xFF)
    ∧ (∀ s, perform s (.read .w32 0x01C) = .next { s with answer := .data32 s.errinfo })
    ∧ (∀ s w, perform s (.write .w32 0x01C w) = .fault (.busError .readOnly 0x01C)
        ∧ perform s (.write .w32 0x020 w) = .fault (.busError .readOnly 0x020))
    ∧ (decinfoWord State.reset.dec).extractLsb' 0 16 = 0
    ∧ (decinfoWord State.reset.dec).extractLsb' 16 8 = BitVec.ofInt 8 Config.profile.resetSexp
    ∧ (decinfoWord State.reset.dec).extractLsb' 24 8 = 0

/-! ## The port -/

/-- R87: a read changes nothing of the block: only the port's answer, and the count of unspecified values drawn. -/
def Obligations.ReadsChangeNothing : Prop :=
  ∀ s t width offset, perform s (.read width offset) = .next t →
    t = { s with answer := t.answer, draws := t.draws } ∧ (s.busy = false → t.draws = s.draws)

/-- R81, R82, R85, R86: the accesses that get a bus error response are exactly those the map, the widths and the
alignment exclude; `CMD` reads 0. That such an
access is a fault for its width or alignment too is the model's reading (log entry 8). -/
def Obligations.BusErrorsExactly : Prop :=
  (∀ s width a, (∃ why, perform s (.read width a) = .fault (.busError why a)) ↔ ¬AccessMapped Config.profile width a)
    ∧ (∀ s width a w, (∃ why, perform s (.write width a w) = .fault (.busError why a))
        ↔ (¬AccessMapped Config.profile width a ∨ a = 0x01C ∨ a = 0x020 ∨ (0x300 ≤ a ∧ a < 0x500)))
    ∧ ∀ s, perform s (.read .w32 0x000) = .next { s with answer := .data32 0 }

/-- R40, R84, R85: an idle host's 16-bit write puts a sample into `PCM_IN`, low byte first, and it reads back; a 32-bit
write at `0x100 + 4*m` writes samples `2m` and `2m+1`; no other byte of the buffers changes. -/
def Obligations.PcmReadBack : Prop :=
  (∀ s n v, s.busy = false → n < Config.profile.frsz →
      ∃ t, perform s (.putPcm n v) = .next t ∧ t = { s with mem := t.mem, answer := .written }
        ∧ t.mem.read (0x100 + 2 * n) = some (v.extractLsb' 0 8)
        ∧ t.mem.read (0x100 + 2 * n + 1) = some (v.extractLsb' 8 8)
        ∧ (∀ a, a ≠ 0x100 + 2 * n → a ≠ 0x100 + 2 * n + 1 → t.mem.read a = s.mem.read a)
        ∧ perform t (.read .w16 (0x100 + 2 * n)) = .next { t with answer := .data16 v })
    ∧ ∀ s m (w : Word), s.busy = false → 2 * m + 1 < Config.profile.frsz →
      ∃ t, perform s (.write .w32 (0x100 + 4 * m) w) = .next t ∧ t = { s with mem := t.mem, answer := .written }
        ∧ perform t (.read .w16 (0x100 + 2 * (2 * m))) = .next { t with answer := .data16 (w.extractLsb' 0 16) }
        ∧ perform t (.read .w16 (0x100 + 2 * (2 * m + 1)))
            = .next { t with answer := .data16 (w.extractLsb' 16 16) }
        ∧ perform t (.read .w32 (0x100 + 4 * m)) = .next { t with answer := .data32 w }
        ∧ ∀ a, (a < 0x100 + 4 * m ∨ 0x100 + 4 * m + 4 ≤ a) → t.mem.read a = s.mem.read a

/-- R42, R84: an idle host's write to an `IDX` slot reads back, its four bytes lie little-endian, and no other byte
changes. -/
def Obligations.SlotReadBack : Prop :=
  ∀ s k w, s.busy = false → k < Config.profile.nidx →
    ∃ t, perform s (.setIdx k w) = .next t ∧ t = { s with mem := t.mem, answer := .written }
      ∧ (∀ j < 4, t.mem.read (0x500 + 4 * k + j) = some (w.extractLsb' (8 * j) 8))
      ∧ (∀ a, (a < 0x500 + 4 * k ∨ 0x500 + 4 * k + 4 ≤ a) → t.mem.read a = s.mem.read a)
      ∧ perform t (.getIdx k) = .next { t with answer := .data32 w }

/-- R88: while a command runs, registers read their current values, `PCM_OUT` and `IDX` read a free value, a write to
`PCM_IN` or `IDX` is refused, and a write to `CMD` is rejected without touching the running command; every other access
is answered as of an idle block (R34, R35, R37, R82, R85, R86). The counter that the free value is drawn by, that
`PCM_IN` reads as stored, and that a wrong width or alignment is a fault, are the model's (log entries 11, 13, 8). -/
def Obligations.AccessWhileBusy : Prop :=
  let P := Config.profile
  ∀ s w0, s.cmd = some w0 →
    (perform s (.read .w32 0x004) = .next { s with answer := .data32 (statusWord s) }
      ∧ perform s (.read .w32 0x008) = .next { s with answer := .data32 (intenWord s) }
      ∧ perform s (.read .w32 0x01C) = .next { s with answer := .data32 s.errinfo }
      ∧ perform s (.read .w32 0x020) = .next { s with answer := .data32 (decinfoWord s.dec) }
      ∧ (perform s (.read .w32 0x000) = .next { s with answer := .data32 0 }
        ∧ perform s (.read .w32 0x00C) = .next { s with answer := .data32 idWord }
        ∧ perform s (.read .w32 0x010) = .next { s with answer := .data32 (profile0Word P) }
        ∧ perform s (.read .w32 0x014) = .next { s with answer := .data32 (profile1Word P) }
        ∧ perform s (.read .w32 0x018) = .next { s with answer := .data32 (profile2Word P) }))
    ∧ (∀ a, AccessMapped P .w16 a → a < 0x300 →
        (∀ v, s.mem.read16 a = some v → perform s (.read .w16 a) = .next { s with answer := .data16 v })
        ∧ (s.mem.read16 a = none → perform s (.read .w16 a) = .fault (.unwritten a)))
    ∧ (∀ a, AccessMapped P .w32 a → 0x100 ≤ a → a < 0x300 →
        (∀ v, s.mem.read32 a = some v → perform s (.read .w32 a) = .next { s with answer := .data32 v })
        ∧ (s.mem.read32 a = none → perform s (.read .w32 a) = .fault (.unwritten a)))
    ∧ (∀ a, AccessMapped P .w16 a → 0x300 ≤ a → perform s (.read .w16 a) = .next
        { s with draws := s.draws + 1, answer := .data16 ((Config.busyRead s.draws).setWidth 16) })
    ∧ (∀ a, AccessMapped P .w32 a → 0x300 ≤ a → perform s (.read .w32 a) = .next
        { s with draws := s.draws + 1, answer := .data32 (Config.busyRead s.draws) })
    ∧ (∀ width a v, AccessMapped P width a → (0x100 ≤ a ∧ a < 0x300) ∨ 0x500 ≤ a →
        perform s (.write width a v) = .refused (.bufferWriteWhileBusy a))
    ∧ (∀ w, perform s (.write .w32 0x004 w) = .next
        { s with
          done := s.done && !w.getLsbD 1
          errCmd := s.errCmd && !w.getLsbD 2
          errIdx := s.errIdx && !w.getLsbD 3
          answer := .written })
    ∧ (∀ w, ∃ t, perform s (.write .w32 0x008 w) = .next t ∧ intenWord t = w &&& 3
        ∧ t = { s with inten := t.inten, answer := .written })
    ∧ (∀ w, ∀ a ∈ [0x00C, 0x010, 0x014, 0x018], perform s (.write .w32 a w) = .next { s with answer := .written })
    ∧ (∀ width a, ¬AccessMapped P width a → (∃ why, perform s (.read width a) = .fault (.busError why a))
        ∧ ∀ w, ∃ why, perform s (.write width a w) = .fault (.busError why a))
    ∧ (∀ width a w, AccessMapped P width a → (a = 0x01C ∨ a = 0x020 ∨ (0x300 ≤ a ∧ a < 0x500)) →
        perform s (.write width a w) = .fault (.busError .readOnly a))
    ∧ ∀ w, ∃ t, perform s (.write .w32 0x000 w) = .next t ∧ t.errCmd = true ∧ t.errinfo.getLsbD 16 = true
        ∧ t.errinfo.extractLsb' 0 4 = w.extractLsb' 0 4
        ∧ t = { s with errCmd := t.errCmd, errinfo := t.errinfo, answer := .written }

/-- R63, R430: what power-on reset leaves, whatever the block was doing. -/
def Obligations.PowerOnReset : Prop :=
  ∀ s, ∃ t, perform s .powerOn = .next t ∧ statusWord t = 0 ∧ intenWord t = 0 ∧ t.errinfo = 0 ∧ irq t = false
    ∧ t.cmd = none ∧ t.done = false ∧ (∀ a, t.mem.read a = none)
    ∧ (∃ e d, exec .resetEnc t = .next e ∧ exec .resetDec t = .next d ∧ t.enc = e.enc ∧ t.dec = d.dec)
    ∧ perform t (.read .w32 0x00C) = .next { t with answer := .data32 0x4C504301 }
    ∧ ∀ a ∈ [0x010, 0x014, 0x018], ∃ v : Word, perform s (.read .w32 a) = .next { s with answer := .data32 v }
        ∧ perform t (.read .w32 a) = .next { t with answer := .data32 v }

/-- R404: an error bit once set is cleared only by a write of 1 to it or by power-on reset, and `ERRINFO` changes only
in a step that sets an error bit or is power-on reset. -/
def Obligations.ErrorBitsSticky : Prop :=
  ∀ s t, step s = .next t →
    (s.errCmd = true → t.errCmd = false →
        ∃ rest, s.inputs = .powerOn :: rest ∨ ∃ w : Word, s.inputs = .write .w32 0x004 w :: rest ∧ w.getLsbD 2 = true)
    ∧ (s.errIdx = true → t.errIdx = false →
        ∃ rest, s.inputs = .powerOn :: rest ∨ ∃ w : Word, s.inputs = .write .w32 0x004 w :: rest ∧ w.getLsbD 3 = true)
    ∧ (t.errinfo ≠ s.errinfo →
        (∃ rest, s.inputs = .powerOn :: rest) ∨ (∃ w rest, s.inputs = .write .w32 0x000 w :: rest ∧ t.errCmd = true)
          ∨ (s.cmd = some (Sys2Proof.encode .decode) ∧ s.wait = 0 ∧ t.errIdx = true ∧ t.done = s.done))

/-! ## The control commands -/

/-- R142: NOP, word 0, sets `DONE` and ends; the contexts, the buffers and everything else stay. A busy block rejects
it. -/
def Obligations.NopEffect : Prop :=
  decodeWord 0x00000000 = .ok .nop
    ∧ (∀ s, exec .nop s = .next { s with done := true, cmd := none })
    ∧ ∀ s, s.busy = true → perform s (.write .w32 0x000 0x00000000)
        = .next { s with errCmd := true, errinfo := 0x00010000, answer := .written }

/-- R143, R61: every field of `E` after RESET_ENC, word 1, all else unchanged but the completion; it is idempotent. -/
def Obligations.ResetEncEffect : Prop :=
  let P := Config.profile
  decodeWord 0x00000001 = .ok .resetEnc ∧ ∀ s, ∃ t, exec .resetEnc s = .next t ∧ t = { s with enc := t.enc, done := true, cmd := none }
    ∧ (t.enc.hpfX1 = 0 ∧ t.enc.hpfX2 = 0 ∧ t.enc.hpfY1 = 0 ∧ t.enc.hpfY2 = 0 ∧ t.enc.peH1 = 0 ∧ t.enc.peP1 = 0)
    ∧ (t.enc.xhist = List.replicate P.xh 0 ∧ t.enc.pwmem = List.replicate P.lpco 0
      ∧ t.enc.declpfMem = List.replicate (P.declpfLen - 1) 0 ∧ t.enc.xdhist = List.replicate P.xdh 0
      ∧ t.enc.pwhist = List.replicate P.pwh 0 ∧ t.enc.dhist = List.replicate (P.maxpp + 1) 0
      ∧ t.enc.nf.stnfm = List.replicate P.lpco 0 ∧ t.enc.nf.ltsym = List.replicate (P.maxpp + 1) 0
      ∧ t.enc.nf.ltnfm = List.replicate P.maxpp 0)
    ∧ t.enc.lsplast = P.resetLsp ∧ t.enc.lsppm = List.replicate P.lpco (List.replicate P.lspporder P.resetLsppm)
    ∧ t.enc.cpplast = P.resetCpp
    ∧ t.enc.gain.lgpm = List.replicate P.lgporder P.resetLgpm
    ∧ (t.enc.gain.prevlg0 = P.resetPrevlg0 ∧ t.enc.gain.prevlg1 = P.resetPrevlg1 ∧ t.enc.gain.level = P.resetLevel
      ∧ t.enc.gain.lmax = P.resetLmax ∧ t.enc.gain.lmin = P.resetLmin ∧ t.enc.gain.lmean = P.resetLmean
      ∧ t.enc.gain.x1 = P.resetX1)
    ∧ exec .resetEnc t = .next t

/-- R144, R62: every field of `D` after RESET_DEC, word 2, the three status bits that mirror it, all else unchanged but
the completion; an encoder reset after it holds the same mirrored fields. -/
def Obligations.ResetDecEffect : Prop :=
  let P := Config.profile
  decodeWord 0x00000002 = .ok .resetDec ∧ ∀ s, ∃ t, exec .resetDec s = .next t ∧ t = { s with dec := t.dec, done := true, cmd := none }
    ∧ t.dec.lsplast = P.resetLsp ∧ t.dec.lsppm = List.replicate P.lpco (List.replicate P.lspporder P.resetLsppm)
    ∧ t.dec.ppLast = P.resetPp ∧ t.dec.bqLast = [0, 0, 0]
    ∧ t.dec.gain.lgpm = List.replicate P.lgporder P.resetLgpm
    ∧ (t.dec.gain.prevlg0 = P.resetPrevlg0 ∧ t.dec.gain.prevlg1 = P.resetPrevlg1 ∧ t.dec.gain.level = P.resetLevel
      ∧ t.dec.gain.lmax = P.resetLmax ∧ t.dec.gain.lmin = P.resetLmin ∧ t.dec.gain.lmean = P.resetLmean
      ∧ t.dec.gain.x1 = P.resetX1)
    ∧ t.dec.nclglim = 0 ∧ t.dec.lctimer = 0 ∧ t.dec.ltsym = List.replicate (P.maxpp + 1) 0
    ∧ t.dec.syn = { stsym := List.replicate P.lpco 0, deY1 := 0, deZ1 := 0, sexp := P.resetSexp }
    ∧ t.dec.eLast = P.resetE ∧ t.dec.per = 0 ∧ t.dec.cfecount = 0 ∧ t.dec.idum = P.lcgSeed
    ∧ t.dec.lspSubst = false
    ∧ ((statusWord t).getLsbD 5 = false ∧ (statusWord t).getLsbD 6 = false ∧ (statusWord t).getLsbD 7 = false)
    ∧ (decinfoWord t.dec).extractLsb' 0 16 = 0 ∧ (decinfoWord t.dec).extractLsb' 16 8 = BitVec.ofInt 8 P.resetSexp
    ∧ ∃ u, exec .resetEnc t = .next u ∧ Mirrored u.enc u.dec

/-! ## The frame commands: completion, results, frame -/

/-- R145: with a frame in `PCM_IN`, ENCODE completes: `E` and the slots of `IDX` take what the pipeline gives, the host
then reads each slot at the port (R42), `DONE` is set, and no other state and no other byte changes. -/
def Obligations.EncodeCompletes : Prop :=
  ∀ s pcm, HoldsPcm Config.profile s.mem pcm →
    ∃ t, exec .encode s = .next t
      ∧ t = { s with
          enc := (encodeFrame Config.profile Config.num s.enc (pcm.map BitVec.toInt)).2
          mem := t.mem
          done := true
          cmd := none }
      ∧ (∀ k < Config.profile.nidx, t.mem.read32 (idxOff k) = some (BitVec.ofNat 32
          ((encodeFrame Config.profile Config.num s.enc (pcm.map BitVec.toInt)).1.getD k 0))
          ∧ perform t (.getIdx k) = .next { t with answer := .data32 (BitVec.ofNat 32
            ((encodeFrame Config.profile Config.num s.enc (pcm.map BitVec.toInt)).1.getD k 0)) })
      ∧ ∀ a, (a < idxOff 0 ∨ idxOff 0 + 4 * Config.profile.nidx ≤ a) → t.mem.read a = s.mem.read a

/-- R145, R116: every slot an ENCODE writes is in range, so a DECODE of them is not rejected. -/
def Obligations.EncodeWritesInRange : Prop :=
  ∀ s t, exec .encode s = .next t → ∃ ws, DecodeReady Config.profile t.mem ws

/-- R43, R431: after power-on reset every buffer element is unwritten, and a read of an unwritten element by an idle
host, by ENCODE or by DECODE is a fault at the first such element. What counts as written is the model's reading (log
entry 9), and that DECODE faults there also where an earlier slot is out of range is its choice (log entry 10): R43 and
R147 give no order between the two. -/
def Obligations.UnwrittenElementsFault : Prop :=
  let P := Config.profile
  (∀ s t, perform s .powerOn = .next t → ∀ a, t.mem.read a = none)
    ∧ (∀ s width a, s.busy = false → AccessMapped P width a → 0x100 ≤ a →
        (∃ b, a ≤ b ∧ b < a + width.bytes ∧ s.mem.read b = none) →
        perform s (.read width a) = .fault (.unwritten a))
    ∧ (∀ s n, n < P.frsz → s.mem.read16 (pcmInOff n) = none →
        (∀ j < n, (s.mem.read16 (pcmInOff j)).isSome = true) → exec .encode s = .fault (.unwritten (pcmInOff n)))
    ∧ ∀ s k, k < P.nidx → s.mem.read32 (idxOff k) = none →
        (∀ j < k, (s.mem.read32 (idxOff j)).isSome = true) → exec .decode s = .fault (.unwritten (idxOff k))

/-- R146, R348: with an IndexSet in range in `IDX`, DECODE completes: `D` and every sample of `PCM_OUT` take what the
pipeline gives, the host then reads each sample and each aligned pair at the port (R41, R85), `DONE` is set, and no
other state and no other byte changes. -/
def Obligations.DecodeCompletes : Prop :=
  ∀ s ws, DecodeReady Config.profile s.mem ws →
    let pcm : Nat → Sample := fun n => BitVec.ofInt 16
      ((decodeFrame Config.profile Config.num s.dec (ws.map BitVec.toNat)).1.getD n 0)
    ∃ t, exec .decode s = .next t
      ∧ t = { s with
          dec := (decodeFrame Config.profile Config.num s.dec (ws.map BitVec.toNat)).2
          mem := t.mem
          done := true
          cmd := none }
      ∧ (∀ n < Config.profile.frsz, t.mem.read16 (pcmOutOff n) = some (pcm n)
          ∧ perform t (.getPcm n) = .next { t with answer := .data16 (pcm n) })
      ∧ (∀ m, 2 * m + 1 < Config.profile.frsz → perform t (.read .w32 (0x300 + 4 * m)) = .next
          { t with answer := .data32 (pcm (2 * m + 1) ++ pcm (2 * m)) })
      ∧ ∀ a, (a < pcmOutOff 0 ∨ pcmOutOff 0 + 2 * Config.profile.frsz ≤ a) → t.mem.read a = s.mem.read a

/-- R402, R147: a DECODE whose `IDX` holds a slot out of range raises `ERR_IDX` with the smallest such slot and
changes nothing else: `D`, `PCM_OUT`, `IDX` and `DONE` stay, and the block is idle again. -/
def Obligations.DecodeRejected : Prop :=
  ∀ s ws k0 (h0 : k0 < ws.length), HoldsSlots Config.profile s.mem ws → ¬SlotInRange Config.profile k0 ws[k0] →
    (∀ k (h : k < ws.length), k < k0 → SlotInRange Config.profile k ws[k]) →
    exec .decode s = .next
      { s with
        errIdx := true
        errinfo := (0 : BitVec 15) ++ (0 : BitVec 1) ++ BitVec.ofNat 8 k0 ++ (0 : BitVec 4) ++ (4 : BitVec 4)
        cmd := none }

/-- R148, R380, R348: CONCEAL completes in every state: `D` and every sample of `PCM_OUT` take what the concealment
gives, the host then reads each sample and each aligned pair at the port (R41, R85), `DONE` is set, `STATUS.PLC` reads
1, and no other state and no other byte changes. -/
def Obligations.ConcealCompletes : Prop :=
  ∀ s, let pcm : Nat → Sample := fun n => BitVec.ofInt 16 ((concealFrame Config.profile Config.num s.dec).1.getD n 0)
    ∃ t, exec .conceal s = .next t
    ∧ t = { s with
        dec := (concealFrame Config.profile Config.num s.dec).2
        mem := t.mem
        done := true
        cmd := none }
    ∧ (statusWord t).getLsbD 5 = true
    ∧ (∀ n < Config.profile.frsz, t.mem.read16 (pcmOutOff n) = some (pcm n)
        ∧ perform t (.getPcm n) = .next { t with answer := .data16 (pcm n) })
    ∧ (∀ m, 2 * m + 1 < Config.profile.frsz → perform t (.read .w32 (0x300 + 4 * m)) = .next
        { t with answer := .data32 (pcm (2 * m + 1) ++ pcm (2 * m)) })
    ∧ ∀ a, (a < pcmOutOff 0 ∨ pcmOutOff 0 + 2 * Config.profile.frsz ≤ a) → t.mem.read a = s.mem.read a

/-- R439, R153: ENCODE leaves `D`, DECODE and CONCEAL leave `E`; and what a command makes of its context and its output
buffer depends on that context and its input buffer alone. -/
def Obligations.ContextIndependence : Prop :=
  let P := Config.profile
  (∀ s t, exec .encode s = .next t → t.dec = s.dec) ∧ (∀ s t, exec .decode s = .next t → t.enc = s.enc)
    ∧ (∀ s t, exec .conceal s = .next t → t.enc = s.enc)
    ∧ (∀ s s' t t', s.enc = s'.enc → (∀ n < P.frsz, s.mem.read16 (pcmInOff n) = s'.mem.read16 (pcmInOff n)) →
        exec .encode s = .next t → exec .encode s' = .next t' →
        t.enc = t'.enc ∧ ∀ k < P.nidx, t.mem.read32 (idxOff k) = t'.mem.read32 (idxOff k))
    ∧ (∀ s s' ws t t', s.dec = s'.dec → DecodeReady P s.mem ws → DecodeReady P s'.mem ws →
        exec .decode s = .next t → exec .decode s' = .next t' →
        t.dec = t'.dec ∧ ∀ n < P.frsz, t.mem.read16 (pcmOutOff n) = t'.mem.read16 (pcmOutOff n))
    ∧ ∀ s s' t t', s.dec = s'.dec → exec .conceal s = .next t → exec .conceal s' = .next t' →
        t.dec = t'.dec ∧ ∀ n < P.frsz, t.mem.read16 (pcmOutOff n) = t'.mem.read16 (pcmOutOff n)

/-! ## The concealment machine -/

/-- R370, R371: the transition table of the two states, with the erasure counter each event leaves. -/
def Obligations.PlcTransitions : Prop :=
  let P := Config.profile
  (∀ s t, exec .conceal s = .next t → t.dec.cfecount = min (s.dec.cfecount + 1) P.cfeMax ∧ plcMode t.dec = .concealing)
    ∧ (∀ s ws t, DecodeReady P s.mem ws → exec .decode s = .next t → t.dec.cfecount = 0 ∧ plcMode t.dec = .normal)
    ∧ (∀ s ws t, HoldsSlots P s.mem ws → (∃ k, ∃ h : k < ws.length, ¬SlotInRange P k ws[k]) →
        exec .decode s = .next t → t.dec = s.dec)
    ∧ (∀ s t, exec .resetDec s = .next t → plcMode t.dec = .normal)
    ∧ (∀ s t, perform s .powerOn = .next t → plcMode t.dec = .normal)
    ∧ ∀ s, (statusWord s).getLsbD 5 = decide (plcMode s.dec = .concealing)

/-- R379, R380, R376: what CONCEAL keeps of `D`, and the fade of the taps and the innovation energy once the erasure
counter exceeds the hold threshold. -/
def Obligations.ConcealFade : Prop :=
  let P := Config.profile
  ∀ s t, exec .conceal s = .next t →
    (t.dec.lsplast = s.dec.lsplast ∧ t.dec.ppLast = s.dec.ppLast ∧ t.dec.per = s.dec.per
      ∧ t.dec.nclglim = s.dec.nclglim ∧ t.dec.lctimer = s.dec.lctimer ∧ t.dec.lspSubst = s.dec.lspSubst)
    ∧ (P.holdPlc < t.dec.cfecount →
        t.dec.bqLast = s.dec.bqLast.map (fun b => P.attnTaps * b) ∧ t.dec.eLast = P.attnE * s.dec.eLast)
    ∧ (t.dec.cfecount ≤ P.holdPlc → t.dec.bqLast = s.dec.bqLast ∧ t.dec.eLast = s.dec.eLast)

/-- R372, R374, R377, R378: the memories a CONCEAL updates: the generator after `FRSZ` steps; the LSP predictor memory,
into which it shifts the error that would have reproduced the concealed LSP; subframe by subframe the level estimator,
the log-gains and their predictor memory, from the energy of the noise it scaled (R373); the long-term memory, from a
memory and a lag in their domains (R48). The limiter's counters stay. -/
def Obligations.ConcealLspMemory : Prop :=
  let P := Config.profile
  let N := Config.num
  ∀ s t, exec .conceal s = .next t →
    let idum : Nat → Word := fun n => (fun x => P.lcgA * x + P.lcgC)^[n] s.dec.idum
    let noise : Nat → Rat := fun n => ((idum (n + 1)).extractLsb' 16 16).toInt
    let en := sumTo P.frsz fun n => noise n ^ 2
    let sc := max P.scplcMin (min P.scplcMax (P.scplcA + P.scplcB * s.dec.per))
    let cn : Nat → Rat := fun n => (if 0 < en then N.sqrt (s.dec.eLast / en) * sc else 0) * noise n
    t.dec.idum = idum P.frsz
      ∧ (∀ i < P.lpco,
          elt2 t.dec.lsppm i 0 = elt s.dec.lsplast i
              - (elt P.lspMean i + sumTo P.lspporder fun k => elt2 P.lspp i k * elt2 s.dec.lsppm i k)
            ∧ ∀ k, 1 ≤ k → k < P.lspporder → elt2 t.dec.lsppm i k = elt2 s.dec.lsppm i (k - 1))
      ∧ (∃ g : Nat → GainState, g 0 = s.dec.gain ∧ t.dec.gain = g P.nsf ∧ ∀ k < P.nsf,
          let l := levelUpdate P (g k) (g k).prevlg0
          let es := 1 / P.sfrsz * sumTo P.sfrsz fun m => cn (k * P.sfrsz + m) ^ 2
          let lgc := if 0 < es ∧ P.lgFloor < N.log2 es then N.log2 es else P.lgFloor
          g (k + 1) = { l with lgpm := (g (k + 1)).lgpm, prevlg0 := lgc, prevlg1 := (g k).prevlg0 }
            ∧ elt (g (k + 1)).lgpm 0 = lgc - (P.lgmean + sumTo P.lgporder fun j => elt P.lgp j * elt (g k).lgpm j)
            ∧ ∀ j, 1 ≤ j → j < P.lgporder → elt (g (k + 1)).lgpm j = elt (g k).lgpm (j - 1))
      ∧ t.dec.nclglim = s.dec.nclglim ∧ t.dec.lctimer = s.dec.lctimer
      ∧ (s.dec.ltsym.length = P.maxpp + 1 → P.minpp ≤ s.dec.ppLast → s.dec.ppLast ≤ P.maxpp →
          ∃ dq : List Rat, dq.length = P.frsz ∧ t.dec.ltsym = (s.dec.ltsym ++ dq).drop P.frsz
            ∧ ∀ n < P.frsz, elt dq n = cn n + sumTo 3 fun k => elt s.dec.bqLast k
                * elt (s.dec.ltsym ++ dq) (P.maxpp + 1 + n - (s.dec.ppLast - 1 + k)))

/-- R373: the energy of the scaled noise, exact where the root is exact, and the clamp of the scaling bias. -/
def Obligations.NoiseEnergyScaling : Prop :=
  ∀ (P : Profile) (N : Sys2Proof.Num), P.Wf → N.Ok → ∀ (noise : List Int) (eLast per : Rat),
    let en := noiseEnergy noise
    let cn := scaledNoise (plcGain P N eLast per en) noise
    let sc := max P.scplcMin (min P.scplcMax (P.scplcA + P.scplcB * per))
    (0 < en → (cn.map fun c => c ^ 2).sum = N.sqrt (eLast / en) ^ 2 * sc ^ 2 * en)
      ∧ (∀ r : Rat, 0 < en → 0 ≤ r → eLast = r ^ 2 * en → (cn.map fun c => c ^ 2).sum = eLast * sc ^ 2)
      ∧ (en = 0 → ∀ c ∈ cn, c = 0)

/-- R381, R379: in a run of CONCEAL commands from the Normal state the innovation energy and the taps are constant
through frame `HOLD_PLC + 1` and fade geometrically afterwards, so the energy of each concealed excitation is as R381
gives it wherever the root of R373 is exact. -/
def Obligations.InnovationDecay : Prop :=
  ∀ (P : Profile) (N : Sys2Proof.Num), P.Wf → N.Ok → ∀ (d : Dec) (n : Nat), d.cfecount = 0 →
    let dn := (fun c => (concealFrame P N c).2)^[n] d
    let noise := (lcgRun P P.frsz dn.idum).1
    let sc := max P.scplcMin (min P.scplcMax (P.scplcA + P.scplcB * d.per))
    dn.cfecount = min n P.cfeMax ∧ dn.per = d.per
      ∧ dn.eLast = P.attnE ^ (n - P.holdPlc) * d.eLast
      ∧ dn.bqLast = d.bqLast.map (fun b => P.attnTaps ^ (n - P.holdPlc) * b)
      ∧ (0 < noiseEnergy noise → N.sqrt (dn.eLast / noiseEnergy noise) ^ 2 = dn.eLast / noiseEnergy noise →
          ((scaledNoise (plcGain P N dn.eLast dn.per (noiseEnergy noise)) noise).map fun c => c ^ 2).sum
            = P.attnE ^ (n - P.holdPlc) * d.eLast * sc ^ 2)

/-- R372: the generator in closed form: after `n` steps `idum` is `A^n * idum + C * (A^(n-1) + ... + 1)` modulo
`2^32`, and sample `n` is the signed high half of the state after step `n + 1`. -/
def Obligations.NoiseGenerator : Prop :=
  ∀ (P : Profile) (idum : Word) (n : Nat),
    (lcgRun P n idum).2
        = BitVec.ofNat 32 (P.lcgA.toNat ^ n * idum.toNat
            + P.lcgC.toNat * ((List.range n).map fun k => P.lcgA.toNat ^ k).sum)
      ∧ (lcgRun P n idum).1.length = n
      ∧ ∀ k < n, (lcgRun P n idum).1.getD k 0 = ((lcgRun P (k + 1) idum).2.extractLsb' 16 16).toInt

/-! ## The decoder's stages -/

/-- R150, R151, R321: the pitch parameters and the periodicity a DECODE leaves, and its innovation energy, the sum of
the squared codebook contributions `gq * sg * CB[j][m]` of every vector, each subframe's gain `gq` following from the
one before (R271, R283); the gain state and the limiter's counters it leaves are those of the last subframe. The noise
generator stays where it was. -/
def Obligations.DecodePitchParams : Prop :=
  let P := Config.profile
  ∀ s ws t, DecodeReady P s.mem ws → exec .decode s = .next t →
    let ix : Nat → Nat := fun k => (ws.getD k 0).toNat
    t.dec.ppLast = ix 3 + P.minpp ∧ t.dec.ppLast ≤ P.maxpp
      ∧ t.dec.bqLast = [elt2 P.ppcb (ix 4) 0, elt2 P.ppcb (ix 4) 1, elt2 P.ppcb (ix 4) 2]
      ∧ t.dec.per = P.perSmooth * s.dec.per
          + (1 - P.perSmooth) * min 1 (elt t.dec.bqLast 0 ^ 2 + elt t.dec.bqLast 1 ^ 2 + elt t.dec.bqLast 2 ^ 2)
      ∧ (∃ (gq : Nat → Rat) (g : Nat → GainState) (tr : Nat → TrapState),
          g 0 = s.dec.gain ∧ tr 0 = { nclglim := s.dec.nclglim, lctimer := s.dec.lctimer }
          ∧ (∀ k < P.nsf, gainDequantize P Config.num (tr k) (levelUpdate P (g k) (g k).prevlg0) (ix (5 + k))
              = (gq k, g (k + 1), tr (k + 1)))
          ∧ t.dec.gain = g P.nsf ∧ t.dec.nclglim = (tr P.nsf).nclglim ∧ t.dec.lctimer = (tr P.nsf).lctimer
          ∧ t.dec.eLast = sumTo P.nsf fun k => sumTo P.nvpsf fun v => sumTo P.vdim fun m =>
              let ei := ix (5 + P.nsf + k * P.nvpsf + v)
              (gq k * (if P.cbsz ≤ ei then -1 else 1) * elt2 P.cb (ei % P.cbsz) m) ^ 2)
      ∧ t.dec.idum = s.dec.idum

/-- R216, R220: whatever the indices in range, the LSP vector a DECODE leaves has `LPCO` components, keeps the minimum
separation, and lies in `[LSPMIN, LSPMAX]`. -/
def Obligations.DecodedLspStable : Prop :=
  let P := Config.profile
  ∀ s ws t, DecodeReady P s.mem ws → s.dec.lsplast.length = P.lpco → exec .decode s = .next t →
    t.dec.lsplast.length = P.lpco
      ∧ (∀ i, i + 1 < P.lpco → elt t.dec.lsplast i + P.lspminsep ≤ elt t.dec.lsplast (i + 1))
      ∧ ∀ i < P.lpco, P.lspmin ≤ elt t.dec.lsplast i ∧ elt t.dec.lsplast i ≤ P.lspmax

/-- R212 to R214: where the reconstructed low split is negative or decreases, the DECODE reports the substitution, takes
the previous LSP, and its memory takes the error that reproduces it; elsewhere it takes the reconstructed one. -/
def Obligations.BitErrorSubstitution : Prop :=
  let P := Config.profile
  ∀ s ws t, DecodeReady P s.mem ws → exec .decode s = .next t →
    let pred := lspPredict P s.dec.lsppm
    let eq := lspError P (ws.getD 0 0).toNat (ws.getD 1 0).toNat (ws.getD 2 0).toNat
    let ok : Prop := 0 ≤ elt pred 0 + elt eq 0
      ∧ ∀ i, i + 1 < P.split1 → elt pred i + elt eq i ≤ elt pred (i + 1) + elt eq (i + 1)
    ((statusWord t).getLsbD 6 = true ↔ ¬ok)
      ∧ (ok → t.dec.lsplast = stabilize P (vecAdd P pred eq)) ∧ (¬ok → t.dec.lsplast = stabilize P s.dec.lsplast)
      ∧ (ok → ∀ i < P.lpco, elt2 t.dec.lsppm i 0 = elt eq i)
      ∧ (¬ok → ∀ i < P.lpco, elt2 t.dec.lsppm i 0 = elt s.dec.lsplast i - elt pred i)
      ∧ ∀ i < P.lpco, ∀ k, 1 ≤ k → k < P.lspporder → elt2 t.dec.lsppm i k = elt2 s.dec.lsppm i (k - 1)

/-- R220: the result of STABILIZE on any vector, and that it leaves alone a vector that already meets the bounds. -/
def Obligations.StabilizeSeparates : Prop :=
  ∀ (P : Profile) (l : List Rat), P.Wf → l.length = P.lpco →
    ((stabilize P l).length = P.lpco
      ∧ (∀ i, i + 1 < P.lpco → elt (stabilize P l) i + P.lspminsep ≤ elt (stabilize P l) (i + 1))
      ∧ P.lspmin ≤ elt (stabilize P l) 0 ∧ elt (stabilize P l) (P.lpco - 1) ≤ P.lspmax)
    ∧ ((∀ i, i + 1 < P.lpco → elt l i + P.lspminsep ≤ elt l (i + 1)) → P.lspmin ≤ elt l 0 →
        elt l (P.lpco - 1) ≤ P.lspmax → stabilize P l = l)

/-- R182: LSP2A of any vector gives a monic filter of order `LPCO`, the `z^-(LPCO+1)` terms of `P` and `Q` cancelling. -/
def Obligations.LspFilterMonic : Prop :=
  ∀ (P : Profile) (N : Sys2Proof.Num) (l : List Rat), P.Wf → l.length = P.lpco →
    (lsp2a P N l).length = P.lpco + 1 ∧ elt (lsp2a P N l) 0 = 1
      ∧ elt (polyMul [1, 1] (lspProduct N (everySecond P 0 l))) (P.lpco + 1)
          + elt (polyMul [1, -1] (lspProduct N (everySecond P 1 l))) (P.lpco + 1) = 0

/-! ## The gain coder -/

/-- R270: the level estimator keeps its running minimum, mean and maximum in order, and a log-gain outside them becomes
the new extreme; a log-gain at or below the threshold leaves the level statistic alone. -/
def Obligations.LevelEstimatorOrdered : Prop :=
  ∀ (P : Profile) (g : GainState) (lg : Rat), P.Wf → g.lmin ≤ g.lmean → g.lmean ≤ g.lmax →
    let t := levelUpdate P g lg
    t.lmin ≤ t.lmean ∧ t.lmean ≤ t.lmax ∧ (g.lmax < lg → t.lmax = lg) ∧ (lg < g.lmin → t.lmin = lg)
      ∧ (lg ≤ t.lmean + P.estlTh * (t.lmax - t.lmean) → t.level = g.level ∧ t.x1 = g.x1)

/-- R281, R288: a log-gain step of the encoder, and of the decoder while its timer is 0, is within the limit of R273 or
was taken at position 0. -/
def Obligations.GainStepLimited : Prop :=
  ∀ (P : Profile) (N : Sys2Proof.Num) (g : GainState), P.Wf →
    (∀ es, (gainQuantize P N g es).2.2.prevlg0 - (gainQuantize P N g es).2.2.prevlg1 ≤ gainLim P g
        ∨ (gainQuantize P N g es).1 = P.lgord.getD 0 0)
      ∧ ∀ tr gi, tr.lctimer = 0 → gi < P.lgcbsz →
        (gainDequantize P N tr g gi).2.1.prevlg0 - (gainDequantize P N tr g gi).2.1.prevlg1 ≤ gainLim P g
          ∨ elt (gainDequantize P N tr g gi).2.1.lgpm 0 = elt P.lgcb (P.lgord.getD 0 0)

/-- R285, R286: on the encoder's index, from equal gain states and an unarmed machine, the decoder's limiter never
walks, and it takes the encoder's gain and state. -/
def Obligations.MirroredGainNeverWalks : Prop :=
  ∀ (P : Profile) (N : Sys2Proof.Num) (g : GainState) (es : Rat), P.Wf →
    let q := gainQuantize P N g es
    q.1 < P.lgcbsz ∧ (gainLimit P g (gainPredict P g) (iord P q.1)).2 = false
      ∧ gainDequantize P N { nclglim := 0, lctimer := 0 } g q.1 = (q.2.1, q.2.2, { nclglim := 0, lctimer := 0 })

/-- R287: once armed, the timer disables the limiter for as many subframes as it holds, counting down, with the
binding counter at 0; and it is armed exactly by the subframe that brings the counter to the threshold. -/
def Obligations.TrapEscape : Prop :=
  ∀ (P : Profile), P.Wf →
    (∀ (tr : TrapState) (subframes : List (GainState × Rat × Nat)), subframes.length < tr.lctimer →
      let after := subframes.foldl (fun r x => (trapStep P r x.1 x.2.1 x.2.2).2) tr
      after.lctimer = tr.lctimer - subframes.length
        ∧ ∀ g lgpe p, trapStep P after g lgpe p = (p, { nclglim := 0, lctimer := after.lctimer - 1 }))
    ∧ ∀ (tr : TrapState) g lgpe p, tr.lctimer = 0 → tr.nclglim < P.nclglimTrapped →
      let l := gainLimit P g lgpe p
      (trapStep P tr g lgpe p).1 = l.1
        ∧ (l.2 = false → (trapStep P tr g lgpe p).2 = { nclglim := 0, lctimer := 0 })
        ∧ (l.2 = true → tr.nclglim + 1 < P.nclglimTrapped →
            (trapStep P tr g lgpe p).2 = { nclglim := tr.nclglim + 1, lctimer := 0 })
        ∧ (l.2 = true → tr.nclglim + 1 = P.nclglimTrapped →
            (trapStep P tr g lgpe p).2 = { nclglim := 0, lctimer := P.levelConvergenceTime })

/-! ## The encoder's stages -/

/-- R15: the searches return the first element, in the order of the set, among those that attain the extreme; the
(index, sign) pairs are ordered by index and, for one index, `+1` before `-1`. -/
def Obligations.SearchTieBreak : Prop :=
  (∀ (f : Nat → Rat) (n : Nat), 0 < n →
      argmin n f < n ∧ (∀ j < n, f (argmin n f) ≤ f j) ∧ ∀ j < argmin n f, f (argmin n f) < f j)
    ∧ (∀ (f : Nat → Rat) (x : Nat) (xs : List Nat), (x :: xs).Pairwise (· < ·) →
      argmaxFrom f x xs ∈ x :: xs ∧ (∀ y ∈ x :: xs, f y ≤ f (argmaxFrom f x xs))
        ∧ ∀ y ∈ x :: xs, y < argmaxFrom f x xs → f y < f (argmaxFrom f x xs))
    ∧ ∀ (P : Profile) (tz : List Rat) (zsr : List (List Rat)) (gq : Rat), 0 < P.cbsz →
      let c := excSearch P tz zsr gq
      c.1 < P.cbsz ∧ ∀ j < P.cbsz, ∀ neg, excScore P tz zsr gq c ≤ excScore P tz zsr gq (j, neg)
        ∧ ((j < c.1 ∨ (j = c.1 ∧ neg = false ∧ c.2 = true)) → excScore P tz zsr gq c < excScore P tz zsr gq (j, neg))

/-- R170: the high-pass filter's difference equation over the whole frame, the last two inputs and outputs before it
included, and the memory it leaves. -/
def Obligations.HighpassEquation : Prop :=
  ∀ (P : Profile) (m : HpfMem) (s : List Rat), 2 ≤ s.length →
    let r := highpass P m s
    let S := m.x2 :: m.x1 :: s
    let H := m.y2 :: m.y1 :: r.1
    r.1.length = s.length
      ∧ (∀ n < s.length, elt H (n + 2) = elt P.hpfB 0 * elt S (n + 2) + elt P.hpfB 1 * elt S (n + 1)
          + elt P.hpfB 2 * elt S n - elt P.hpfA 0 * elt H (n + 1) - elt P.hpfA 1 * elt H n)
      ∧ r.2 = { x1 := elt s (s.length - 1), x2 := elt s (s.length - 2),
                y1 := elt r.1 (s.length - 1), y2 := elt r.1 (s.length - 2) }

/-- R171: the same for the pre-emphasis. -/
def Obligations.PreemphEquation : Prop :=
  ∀ (P : Profile) (h1 p1 : Rat) (h : List Rat), 1 ≤ h.length →
    let r := preemph P h1 p1 h
    r.1.length = h.length
      ∧ (∀ n < h.length, elt (p1 :: r.1) (n + 1)
          = elt (h1 :: h) (n + 1) - P.peB * elt (h1 :: h) n + P.peA * elt (p1 :: r.1) n)
      ∧ r.2 = (elt h (h.length - 1), elt r.1 (h.length - 1))

/-- R174: on a silent window the recursion returns the flat filter; on any other what it returns solves the normal
equations of some order `m`, with every coefficient above `m` 0: the full order, unless a reflection coefficient of
magnitude 1 or more stopped it. -/
def Obligations.LevinsonNormalEquations : Prop :=
  ∀ (p : Nat) (r : List Rat), (elt r 0 ≤ 0 → levinson p r = 1 :: List.replicate p 0) ∧ (0 < elt r 0 →
    let a := levinson p r
    a.length = p + 1 ∧ elt a 0 = 1
      ∧ ∃ m, m ≤ p ∧ (∀ j, m < j → elt a j = 0)
        ∧ (∀ i, 1 ≤ i → i ≤ m → (sumTo (m + 1) fun j => elt a j * elt r (if j ≤ i then i - j else j - i)) = 0)
        ∧ 0 < (sumTo (m + 1) fun j => elt a j * elt r j)
        ∧ (m < p → (sumTo (m + 1) fun j => elt a j * elt r j) ≤ |sumTo (m + 1) fun j => elt a j * elt r (m + 1 - j)|))

/-- R246: the pitch search always gives a lag in `MINPP..MAXPP`; an ENCODE keeps it as the previous pitch period and
transmits it minus `MINPP`, in range. -/
def Obligations.PitchInRange : Prop :=
  (∀ (P : Profile) (e : Enc) (a x : List Rat), P.Wf →
      P.minpp ≤ (pitchSearch P e a x).pp ∧ (pitchSearch P e a x).pp ≤ P.maxpp)
    ∧ ∀ s t, exec .encode s = .next t →
      (Config.profile.minpp ≤ t.enc.cpplast ∧ t.enc.cpplast ≤ Config.profile.maxpp)
        ∧ ∃ w : Word, t.mem.read32 (idxOff 3) = some w ∧ w.toNat = t.enc.cpplast - Config.profile.minpp

/-- R317, R314, R316: the index and sign the excitation search commits give the least energy of long-term quantization
noise that any committed candidate would give from the same memories, and the first such in the search order. -/
def Obligations.ExcitationSearchExhaustive : Prop :=
  ∀ (P : Profile) (q : NfParams) (m : NfMem) (dv : List Rat) (gq : Rat), P.Wf → dv.length = P.vdim →
    P.minpp ≤ q.pp → q.pp ≤ P.maxpp → m.stnfm.length = P.lpco → m.ltsym.length = P.maxpp + 1 →
    m.ltnfm.length = P.maxpp →
    let energy : Nat × Bool → Rat := fun c => ((nfCommit P q m dv gq c).1.map fun x => x ^ 2).sum
    ∃ c : Nat × Bool, c.1 < P.cbsz
      ∧ nfcVector P q (zeroStateResponses P q.f) gq m dv = (c.1 + P.cbsz * c.2.toNat, (nfCommit P q m dv gq c).2)
      ∧ ∀ j < P.cbsz, ∀ neg, energy c ≤ energy (j, neg)
        ∧ ((j < c.1 ∨ (j = c.1 ∧ neg = false ∧ c.2 = true)) → energy c < energy (j, neg))

/-- R118, R315, R320: an excitation index stands for one row and sign, and back. -/
def Obligations.ExcitationIndexRoundTrip : Prop :=
  ∀ P : Profile, P.Wf →
    (∀ c : Nat × Bool, c.1 < P.cbsz → excIndex P c < 2 * P.cbsz ∧ excOfIndex P (excIndex P c) = c)
      ∧ ∀ ei < 2 * P.cbsz, (excOfIndex P ei).1 < P.cbsz ∧ excIndex P (excOfIndex P ei) = ei

/-- R154: a mirrored encoder and decoder stay mirrored over an ENCODE and the DECODE of what it wrote, unless no row of
the low split was eligible, the encoder took the fallback row, and the decoder's self-check then failed. -/
def Obligations.EncoderDecoderStayMirrored : Prop :=
  let P := Config.profile
  ∀ s t u, Mirrored s.enc s.dec → s.dec.nclglim = 0 → s.dec.lctimer = 0 →
    exec .encode s = .next t → exec .decode t = .next u →
    (Mirrored u.enc u.dec ∧ u.dec.nclglim = 0 ∧ u.dec.lctimer = 0 ∧ u.errIdx = s.errIdx)
      ∨ (u.dec.lspSubst = true ∧ ∃ w : Word, t.mem.read32 (idxOff 0) = some w
          ∧ t.mem.read32 (idxOff 1) = some (BitVec.ofNat 32 P.lsp21Fallback)
          ∧ ∀ j < P.lspcb21sz, eligible
              (lowSplit P (vecAdd P (lspPredict P s.enc.lsppm) (P.lspcb1.getD w.toNat [])) j) = false)

/-! ## The synthesis engine -/

/-- R344: the exponent change is the largest that keeps the trial peak below `2^14`, clamped to the exponent's range. -/
def Obligations.ExponentChoice : Prop :=
  ∀ (P : Profile) (sexp : Int) (peak : Nat), P.Wf →
    let e := sexp + chooseDelta P sexp peak
    (P.sexpMin ≤ e ∧ e ≤ P.sexpMax) ∧ (peak = 0 → e = P.sexpMax)
      ∧ (0 < peak → ∃ k : Int, (peak : Rat) * (2 : Rat) ^ k < 2 ^ 14
          ∧ (∀ j : Int, (peak : Rat) * (2 : Rat) ^ j < 2 ^ 14 → j ≤ k)
          ∧ e = min (max (sexp + k) P.sexpMin) P.sexpMax)

/-- R345, R19: the shift the retry loop ends with is the largest one not above `delta`, and not below 0 for a positive
`delta`, at which no memory overflows; a shift of 0 or less is taken as it is and never overflows. -/
def Obligations.RetryLoop : Prop :=
  ∀ (m : SynMem) (delta : Int),
    (-32768 ≤ m.y1 ∧ m.y1 ≤ 32767) → (-32768 ≤ m.z1 ∧ m.z1 ≤ 32767) → (∀ v ∈ m.st, -32768 ≤ v ∧ v ≤ 32767) →
    let k := validDelta m delta
    k ≤ delta ∧ shiftOverflows m k = false ∧ (delta ≤ 0 → k = delta) ∧ (0 < delta → 0 ≤ k)
      ∧ (∀ j, k < j → j ≤ delta → shiftOverflows m j = true)
      ∧ (0 ≤ k → (rescale m k).st = m.st.map (fun v => v * 2 ^ k.toNat) ∧ (rescale m k).y1 = m.y1 * 2 ^ k.toNat
          ∧ (rescale m k).z1 = m.z1 * 2 ^ k.toNat)

/-- R342 to R347: from zero memories, zero excitation gives a frame of zeros, leaves the memories zero and moves the
exponent to `SEXP_MAX`. -/
def Obligations.SilenceStaysSilent : Prop :=
  ∀ (P : Profile) (sexp : Int) (aq : List Rat) (n : Nat), P.Wf →
    synthesize P { stsym := List.replicate P.lpco 0, deY1 := 0, deZ1 := 0, sexp := sexp } aq (List.replicate n 0)
      = (List.replicate n 0, { stsym := List.replicate P.lpco 0, deY1 := 0, deZ1 := 0, sexp := P.sexpMax })

/-- R19: `tofix` is within half a unit of its operand unless it saturates, and `rnd_shr` is the nearest integer with
halves rounded up. -/
def Obligations.FixedPointRounding : Prop :=
  (∀ (v : Rat) (q : Int) (W : Nat), 1 ≤ W →
      (-(2 : Int) ^ (W - 1) ≤ tofix v q W ∧ tofix v q W ≤ 2 ^ (W - 1) - 1)
        ∧ (-(2 : Rat) ^ (W - 1) ≤ v * (2 : Rat) ^ q → v * (2 : Rat) ^ q + 1 / 2 < 2 ^ (W - 1) →
            |(tofix v q W : Rat) - v * (2 : Rat) ^ q| ≤ 1 / 2))
    ∧ ∀ (a : Int) (k : Nat), 1 ≤ k →
      (rndShr a k : Rat) - 1 / 2 ≤ (a : Rat) / 2 ^ k ∧ (a : Rat) / 2 ^ k < (rndShr a k : Rat) + 1 / 2

/-! ## The invariant -/

/-- The state after power-on reset meets the invariant (R431, R43, R61, R62). -/
def Obligations.InvariantAtReset : Prop := State.reset.Inv

/-- Every step keeps the invariant: the buffers canonical and in their windows, the latched word legal, the reserved bits
of `ERRINFO` 0, both contexts in their value domains (R38, R44 to R46, R48, R81). -/
def Obligations.InvariantKept : Prop := ∀ s t, s.Inv → step s = .next t → t.Inv

/-- R434, R436: while the host keeps its duties, no step stops: every step goes on to a next state. -/
def Obligations.CompliantStepProceeds : Prop := ∀ s, s.Inv → Complies s → Proceeds (step s)
end

