-- ==== Sys2Proof/Laws/Memory.lean ====
section
/-! SUPPORT. Laws of the buffers: what a read gives after a write, and that every operation keeps the canonical form. -/

namespace Sys2Proof.Machine

theorem Memory.read_write (m : Memory) (a b : Nat) (v : Byte) :
    (m.write a v).read b = if b = a then some v else m.read b := by
  induction m with
  | nil =>
    simp only [Memory.write, Memory.read]
    split_ifs <;> first | rfl | omega
  | cons c rest ih =>
    simp only [Memory.write]
    split_ifs with h1 h2 h3 h3 h3 <;> simp only [Memory.read, ih] <;> split_ifs <;> first | rfl | omega

@[simp] theorem Memory.read_write_self (m : Memory) (a : Nat) (v : Byte) : (m.write a v).read a = some v := by
  simp [Memory.read_write]

theorem Memory.read_write_of_ne {a b : Nat} (h : b ≠ a) (m : Memory) (v : Byte) : (m.write a v).read b = m.read b := by
  simp [Memory.read_write, h]

/-- The offsets a write lists are those listed before and its own. -/
theorem Memory.mem_write {m : Memory} {a : Nat} {v : Byte} {c : Host.Cell} (h : c ∈ m.write a v) : c.1 = a ∨ c ∈ m := by
  induction m with
  | nil => simp_all [Memory.write]
  | cons d rest ih =>
    simp only [Memory.write] at h
    split_ifs at h
    · rcases List.mem_cons.1 h with rfl | h <;> simp_all
    · rcases List.mem_cons.1 h with rfl | h <;> simp_all
    · rcases List.mem_cons.1 h with rfl | h
      · simp
      · rcases ih h with h | h <;> simp [h]

theorem Memory.wf_iff_pairwise (m : Memory) : m.wf = true ↔ m.Pairwise fun c d => c.1 < d.1 := by
  have h : m.wf = true ↔ m.IsChain fun c d => c.1 < d.1 := by
    induction m with
    | nil => simp [Memory.wf]
    | cons c rest ih =>
      cases rest with
      | nil => simp [Memory.wf]
      | cons d rest => simp [Memory.wf, List.isChain_cons_cons, ih]
  rw [h]
  exact List.isChain_iff_pairwise (R := fun c d : Host.Cell => c.1 < d.1)

theorem Memory.write_wf {m : Memory} (h : m.wf = true) (a : Nat) (v : Byte) : (m.write a v).wf = true := by
  rw [Memory.wf_iff_pairwise] at h ⊢
  induction m with
  | nil => simp [Memory.write]
  | cons c rest ih =>
    have hc := List.pairwise_cons.1 h
    simp only [Memory.write]
    split_ifs with h1 h2
    · refine List.pairwise_cons.2 ⟨fun d hd => ?_, h⟩
      rcases List.mem_cons.1 hd with rfl | hd
      · exact h1
      · exact h1.trans (hc.1 d hd)
    · exact List.pairwise_cons.2 ⟨fun d hd => h2 ▸ hc.1 d hd, hc.2⟩
    · refine List.pairwise_cons.2 ⟨fun d hd => ?_, ih hc.2⟩
      rcases Memory.mem_write hd with hd | hd
      · omega
      · exact hc.1 d hd

theorem Memory.write16_wf {m : Memory} (h : m.wf = true) (a : Nat) (v : Sample) : (m.write16 a v).wf = true :=
  Memory.write_wf (Memory.write_wf h _ _) _ _

theorem Memory.write32_wf {m : Memory} (h : m.wf = true) (a : Nat) (v : Word) : (m.write32 a v).wf = true :=
  Memory.write16_wf (Memory.write16_wf h _ _) _ _

theorem Memory.writeSamples_wf {m : Memory} (h : m.wf = true) (a : Nat) (vs : List Sample) :
    (m.writeSamples a vs).wf = true := by
  induction vs generalizing m a with
  | nil => exact h
  | cons v vs ih => exact ih (Memory.write16_wf h a v) (a + 2)

theorem Memory.writeWords_wf {m : Memory} (h : m.wf = true) (a : Nat) (vs : List Word) :
    (m.writeWords a vs).wf = true := by
  induction vs generalizing m a with
  | nil => exact h
  | cons v vs ih => exact ih (Memory.write32_wf h a v) (a + 4)

theorem Memory.read_write16_of_ne {m : Memory} {a b : Nat} {v : Sample} (h : b < a ∨ a + 2 ≤ b) :
    (m.write16 a v).read b = m.read b := by
  rw [Memory.write16, Memory.read_write_of_ne (by omega), Memory.read_write_of_ne (by omega)]

theorem Memory.read_write32_of_ne {m : Memory} {a b : Nat} {v : Word} (h : b < a ∨ a + 4 ≤ b) :
    (m.write32 a v).read b = m.read b := by
  rw [Memory.write32, Memory.read_write16_of_ne (by omega), Memory.read_write16_of_ne (by omega)]

theorem Memory.read_writeSamples_of_ne {m : Memory} {a b : Nat} {vs : List Sample}
    (h : b < a ∨ a + 2 * vs.length ≤ b) : (m.writeSamples a vs).read b = m.read b := by
  induction vs generalizing m a with
  | nil => rfl
  | cons v vs ih =>
    simp only [List.length_cons] at h
    rw [Memory.writeSamples, ih (by omega), Memory.read_write16_of_ne (by omega)]

theorem Memory.read_writeWords_of_ne {m : Memory} {a b : Nat} {vs : List Word}
    (h : b < a ∨ a + 4 * vs.length ≤ b) : (m.writeWords a vs).read b = m.read b := by
  induction vs generalizing m a with
  | nil => rfl
  | cons v vs ih =>
    simp only [List.length_cons] at h
    rw [Memory.writeWords, ih (by omega), Memory.read_write32_of_ne (by omega)]

/-- Two bytes the same, the same 16-bit element. -/
theorem Memory.read16_congr {m n : Memory} {a : Nat} (h0 : m.read a = n.read a) (h1 : m.read (a + 1) = n.read (a + 1)) :
    m.read16 a = n.read16 a := by
  simp only [Memory.read16, h0, h1]

/-- Four bytes the same, the same 32-bit element. -/
theorem Memory.read32_congr {m n : Memory} {a : Nat} (h : ∀ b, a ≤ b → b < a + 4 → m.read b = n.read b) :
    m.read32 a = n.read32 a := by
  simp only [Memory.read32, Memory.read16_congr (h a (by omega) (by omega)) (h (a + 1) (by omega) (by omega)),
    Memory.read16_congr (h (a + 2) (by omega) (by omega)) (h (a + 2 + 1) (by omega) (by omega))]

@[simp] theorem Memory.read16_write16 (m : Memory) (a : Nat) (v : Sample) : (m.write16 a v).read16 a = some v := by
  simp only [Memory.read16, Memory.write16, Memory.read_write]
  rw [if_neg (by omega : ¬a = a + 1)]
  simp only [if_true, Option.some.injEq]
  ext i hi
  simp only [BitVec.getElem_append, BitVec.getElem_extractLsb']
  split_ifs with h
  · simp [BitVec.getLsbD_eq_getElem hi]
  · rw [Nat.add_sub_of_le (by omega), BitVec.getLsbD_eq_getElem hi]

theorem Memory.read16_write16_of_ne {m : Memory} {a b : Nat} {v : Sample} (h : b + 2 ≤ a ∨ a + 2 ≤ b) :
    (m.write16 a v).read16 b = m.read16 b :=
  Memory.read16_congr (Memory.read_write16_of_ne (by omega)) (Memory.read_write16_of_ne (by omega))

@[simp] theorem Memory.read32_write32 (m : Memory) (a : Nat) (v : Word) : (m.write32 a v).read32 a = some v := by
  simp only [Memory.read32, Memory.write32, Memory.read16_write16]
  rw [Memory.read16_write16_of_ne (by omega), Memory.read16_write16]
  simp only [Option.some.injEq]
  ext i hi
  simp only [BitVec.getElem_append, BitVec.getElem_extractLsb']
  split_ifs with h
  · simp [BitVec.getLsbD_eq_getElem hi]
  · rw [Nat.add_sub_of_le (by omega), BitVec.getLsbD_eq_getElem hi]

/-- The elements of a run that was written read back as they were written. -/
theorem Memory.read16_writeSamples {m : Memory} {a n : Nat} {vs : List Sample} (h : n < vs.length) :
    (m.writeSamples a vs).read16 (a + 2 * n) = some vs[n] := by
  induction vs generalizing m a n with
  | nil => simp at h
  | cons v vs ih =>
    rw [Memory.writeSamples]
    cases n with
    | zero =>
      rw [Memory.read16_congr (n := m.write16 a v) (Memory.read_writeSamples_of_ne (by omega))
        (Memory.read_writeSamples_of_ne (by omega))]
      simp
    | succ n =>
      have := ih (m := m.write16 a v) (a := a + 2) (n := n) (by simpa using h)
      rw [show a + 2 * (n + 1) = a + 2 + 2 * n by omega, this]
      simp

theorem Memory.read32_writeWords {m : Memory} {a n : Nat} {vs : List Word} (h : n < vs.length) :
    (m.writeWords a vs).read32 (a + 4 * n) = some vs[n] := by
  induction vs generalizing m a n with
  | nil => simp at h
  | cons v vs ih =>
    rw [Memory.writeWords]
    cases n with
    | zero =>
      rw [Memory.read32_congr (n := m.write32 a v) fun b h1 h2 => Memory.read_writeWords_of_ne (by omega)]
      simp
    | succ n =>
      have := ih (m := m.write32 a v) (a := a + 4) (n := n) (by simpa using h)
      rw [show a + 4 * (n + 1) = a + 4 + 4 * n by omega, this]
      simp

/-- A run reads as a list exactly where every element of it is written. -/
theorem readRun_ok_iff {α : Type} {get : Nat → Option α} {stride n a : Nat} {vs : List α} :
    readRun get stride n a = .ok vs ↔ vs.length = n ∧ ∀ k (h : k < vs.length), get (a + stride * k) = some vs[k] := by
  induction n generalizing a vs with
  | zero =>
    simp only [readRun, Except.ok.injEq]
    constructor
    · rintro rfl; simp
    · rintro ⟨h, -⟩; exact (List.length_eq_zero_iff.1 h).symm
  | succ n ih =>
    simp only [readRun]
    constructor
    · intro h
      split at h
      · cases h
      · rename_i v hv
        split at h
        · cases h
        · rename_i ws hws
          obtain ⟨hl, hk⟩ := ih.1 hws
          simp only [Except.ok.injEq] at h
          subst h
          refine ⟨by simp [hl], fun k hk' => ?_⟩
          cases k with
          | zero => simpa using hv
          | succ k =>
            have := hk k (by simpa using hk')
            rw [show a + stride * (k + 1) = a + stride + stride * k by ring]
            simpa using this
    · rintro ⟨hl, hk⟩
      cases vs with
      | nil => simp at hl
      | cons v vs =>
        have h0 := hk 0 (by simp)
        simp only [Nat.mul_zero, Nat.add_zero, List.getElem_cons_zero] at h0
        have h1 : readRun get stride n (a + stride) = .ok vs := ih.2 ⟨by simpa using hl, fun k h => by
          have := hk (k + 1) (by simpa using h)
          rw [show a + stride + stride * k = a + stride * (k + 1) by ring]
          simpa using this⟩
        simp [h0, h1]

/-- A run answers the offset of its first unwritten element where it has one. -/
theorem readRun_error_iff {α : Type} {get : Nat → Option α} {stride n a b : Nat} :
    readRun get stride n a = .error b ↔
      ∃ k < n, b = a + stride * k ∧ get b = none ∧ ∀ j < k, (get (a + stride * j)).isSome := by
  induction n generalizing a with
  | zero => simp [readRun]
  | succ n ih =>
    simp only [readRun]
    cases hv : get a with
    | none =>
      simp only [Except.error.injEq]
      constructor
      · rintro rfl; exact ⟨0, by omega, by simp, hv, by simp⟩
      · rintro ⟨k, hk, rfl, hb, hj⟩
        rcases Nat.eq_zero_or_pos k with rfl | hk0
        · simp
        · have := hj 0 hk0
          simp [hv] at this
    | some v =>
      have step : (∃ k < n, b = a + stride + stride * k ∧ get b = none ∧ ∀ j < k, (get (a + stride + stride * j)).isSome)
          ↔ ∃ k < n + 1, b = a + stride * k ∧ get b = none ∧ ∀ j < k, (get (a + stride * j)).isSome := by
        constructor
        · rintro ⟨k, hk, hb, hn, hj⟩
          refine ⟨k + 1, by omega, by rw [hb]; ring, hn, fun j hj' => ?_⟩
          cases j with
          | zero => simp [hv]
          | succ j =>
            have := hj j (by omega)
            rwa [show a + stride * (j + 1) = a + stride + stride * j by ring]
        · rintro ⟨k, hk, hb, hn, hj⟩
          cases k with
          | zero => simp only [Nat.mul_zero, Nat.add_zero] at hb; rw [hb, hv] at hn; cases hn
          | succ k =>
            refine ⟨k, by omega, by rw [hb]; ring, hn, fun j hj' => ?_⟩
            have := hj (j + 1) (by omega)
            rwa [show a + stride + stride * j = a + stride * (j + 1) by ring]
      rw [← step, ← ih]
      cases h : readRun get stride n (a + stride) with
      | error c => simp
      | ok vs => simp

end Sys2Proof.Machine
end

