-- ==== Sys2Proof/Laws/State.lean ====
section
/-! SUPPORT. One lemma per field and update of the state, each true by `rfl`: what the update writes and that it
leaves every other field alone. -/

namespace Sys2Proof.Machine

variable (s : State)

@[simp] theorem complete_cmd : (State.complete s).cmd = none := rfl
@[simp] theorem complete_done : (State.complete s).done = true := rfl
@[simp] theorem complete_errCmd : (State.complete s).errCmd = s.errCmd := rfl
@[simp] theorem complete_errIdx : (State.complete s).errIdx = s.errIdx := rfl
@[simp] theorem complete_inten : (State.complete s).inten = s.inten := rfl
@[simp] theorem complete_errinfo : (State.complete s).errinfo = s.errinfo := rfl
@[simp] theorem complete_enc : (State.complete s).enc = s.enc := rfl
@[simp] theorem complete_dec : (State.complete s).dec = s.dec := rfl
@[simp] theorem complete_mem : (State.complete s).mem = s.mem := rfl
@[simp] theorem complete_wait : (State.complete s).wait = s.wait := rfl
@[simp] theorem complete_accepted : (State.complete s).accepted = s.accepted := rfl
@[simp] theorem complete_draws : (State.complete s).draws = s.draws := rfl
@[simp] theorem complete_inputs : (State.complete s).inputs = s.inputs := rfl
@[simp] theorem complete_answer : (State.complete s).answer = s.answer := rfl

@[simp] theorem accept_cmd (w : Word) : (s.accept w).cmd = some w := rfl
@[simp] theorem accept_done (w : Word) : (s.accept w).done = s.done := rfl
@[simp] theorem accept_errCmd (w : Word) : (s.accept w).errCmd = s.errCmd := rfl
@[simp] theorem accept_errIdx (w : Word) : (s.accept w).errIdx = s.errIdx := rfl
@[simp] theorem accept_inten (w : Word) : (s.accept w).inten = s.inten := rfl
@[simp] theorem accept_errinfo (w : Word) : (s.accept w).errinfo = s.errinfo := rfl
@[simp] theorem accept_enc (w : Word) : (s.accept w).enc = s.enc := rfl
@[simp] theorem accept_dec (w : Word) : (s.accept w).dec = s.dec := rfl
@[simp] theorem accept_mem (w : Word) : (s.accept w).mem = s.mem := rfl
@[simp] theorem accept_wait (w : Word) : (s.accept w).wait = Config.latency (opField w) s.accepted := rfl
@[simp] theorem accept_accepted (w : Word) : (s.accept w).accepted = s.accepted + 1 := rfl
@[simp] theorem accept_draws (w : Word) : (s.accept w).draws = s.draws := rfl
@[simp] theorem accept_inputs (w : Word) : (s.accept w).inputs = s.inputs := rfl
@[simp] theorem accept_answer (w : Word) : (s.accept w).answer = s.answer := rfl

@[simp] theorem rejectCmd_cmd (w : Word) : (s.rejectCmd w).cmd = s.cmd := rfl
@[simp] theorem rejectCmd_done (w : Word) : (s.rejectCmd w).done = s.done := rfl
@[simp] theorem rejectCmd_errCmd (w : Word) : (s.rejectCmd w).errCmd = true := rfl
@[simp] theorem rejectCmd_errIdx (w : Word) : (s.rejectCmd w).errIdx = s.errIdx := rfl
@[simp] theorem rejectCmd_inten (w : Word) : (s.rejectCmd w).inten = s.inten := rfl
@[simp] theorem rejectCmd_errinfo (w : Word) : (s.rejectCmd w).errinfo = errinfoWord s.busy 0 (opField w) := rfl
@[simp] theorem rejectCmd_enc (w : Word) : (s.rejectCmd w).enc = s.enc := rfl
@[simp] theorem rejectCmd_dec (w : Word) : (s.rejectCmd w).dec = s.dec := rfl
@[simp] theorem rejectCmd_mem (w : Word) : (s.rejectCmd w).mem = s.mem := rfl
@[simp] theorem rejectCmd_wait (w : Word) : (s.rejectCmd w).wait = s.wait := rfl
@[simp] theorem rejectCmd_accepted (w : Word) : (s.rejectCmd w).accepted = s.accepted := rfl
@[simp] theorem rejectCmd_draws (w : Word) : (s.rejectCmd w).draws = s.draws := rfl
@[simp] theorem rejectCmd_inputs (w : Word) : (s.rejectCmd w).inputs = s.inputs := rfl
@[simp] theorem rejectCmd_answer (w : Word) : (s.rejectCmd w).answer = s.answer := rfl

@[simp] theorem rejectIdx_cmd (k0 : Nat) : (s.rejectIdx k0).cmd = none := rfl
@[simp] theorem rejectIdx_done (k0 : Nat) : (s.rejectIdx k0).done = s.done := rfl
@[simp] theorem rejectIdx_errCmd (k0 : Nat) : (s.rejectIdx k0).errCmd = s.errCmd := rfl
@[simp] theorem rejectIdx_errIdx (k0 : Nat) : (s.rejectIdx k0).errIdx = true := rfl
@[simp] theorem rejectIdx_inten (k0 : Nat) : (s.rejectIdx k0).inten = s.inten := rfl
@[simp] theorem rejectIdx_errinfo (k0 : Nat) : (s.rejectIdx k0).errinfo =
    errinfoWord false (BitVec.ofNat 8 k0) 0x4 := rfl
@[simp] theorem rejectIdx_enc (k0 : Nat) : (s.rejectIdx k0).enc = s.enc := rfl
@[simp] theorem rejectIdx_dec (k0 : Nat) : (s.rejectIdx k0).dec = s.dec := rfl
@[simp] theorem rejectIdx_mem (k0 : Nat) : (s.rejectIdx k0).mem = s.mem := rfl
@[simp] theorem rejectIdx_wait (k0 : Nat) : (s.rejectIdx k0).wait = s.wait := rfl
@[simp] theorem rejectIdx_accepted (k0 : Nat) : (s.rejectIdx k0).accepted = s.accepted := rfl
@[simp] theorem rejectIdx_draws (k0 : Nat) : (s.rejectIdx k0).draws = s.draws := rfl
@[simp] theorem rejectIdx_inputs (k0 : Nat) : (s.rejectIdx k0).inputs = s.inputs := rfl
@[simp] theorem rejectIdx_answer (k0 : Nat) : (s.rejectIdx k0).answer = s.answer := rfl

@[simp] theorem writeStatus_cmd (w : Word) : (s.writeStatus w).cmd = s.cmd := rfl
@[simp] theorem writeStatus_done (w : Word) : (s.writeStatus w).done = (s.done && !w.getLsbD 1) := rfl
@[simp] theorem writeStatus_errCmd (w : Word) : (s.writeStatus w).errCmd = (s.errCmd && !w.getLsbD 2) := rfl
@[simp] theorem writeStatus_errIdx (w : Word) : (s.writeStatus w).errIdx = (s.errIdx && !w.getLsbD 3) := rfl
@[simp] theorem writeStatus_inten (w : Word) : (s.writeStatus w).inten = s.inten := rfl
@[simp] theorem writeStatus_errinfo (w : Word) : (s.writeStatus w).errinfo = s.errinfo := rfl
@[simp] theorem writeStatus_enc (w : Word) : (s.writeStatus w).enc = s.enc := rfl
@[simp] theorem writeStatus_dec (w : Word) : (s.writeStatus w).dec = s.dec := rfl
@[simp] theorem writeStatus_mem (w : Word) : (s.writeStatus w).mem = s.mem := rfl
@[simp] theorem writeStatus_wait (w : Word) : (s.writeStatus w).wait = s.wait := rfl
@[simp] theorem writeStatus_accepted (w : Word) : (s.writeStatus w).accepted = s.accepted := rfl
@[simp] theorem writeStatus_draws (w : Word) : (s.writeStatus w).draws = s.draws := rfl
@[simp] theorem writeStatus_inputs (w : Word) : (s.writeStatus w).inputs = s.inputs := rfl
@[simp] theorem writeStatus_answer (w : Word) : (s.writeStatus w).answer = s.answer := rfl

@[simp] theorem writeInten_cmd (w : Word) : (s.writeInten w).cmd = s.cmd := rfl
@[simp] theorem writeInten_done (w : Word) : (s.writeInten w).done = s.done := rfl
@[simp] theorem writeInten_errCmd (w : Word) : (s.writeInten w).errCmd = s.errCmd := rfl
@[simp] theorem writeInten_errIdx (w : Word) : (s.writeInten w).errIdx = s.errIdx := rfl
@[simp] theorem writeInten_inten (w : Word) : (s.writeInten w).inten = w.setWidth 2 := rfl
@[simp] theorem writeInten_errinfo (w : Word) : (s.writeInten w).errinfo = s.errinfo := rfl
@[simp] theorem writeInten_enc (w : Word) : (s.writeInten w).enc = s.enc := rfl
@[simp] theorem writeInten_dec (w : Word) : (s.writeInten w).dec = s.dec := rfl
@[simp] theorem writeInten_mem (w : Word) : (s.writeInten w).mem = s.mem := rfl
@[simp] theorem writeInten_wait (w : Word) : (s.writeInten w).wait = s.wait := rfl
@[simp] theorem writeInten_accepted (w : Word) : (s.writeInten w).accepted = s.accepted := rfl
@[simp] theorem writeInten_draws (w : Word) : (s.writeInten w).draws = s.draws := rfl
@[simp] theorem writeInten_inputs (w : Word) : (s.writeInten w).inputs = s.inputs := rfl
@[simp] theorem writeInten_answer (w : Word) : (s.writeInten w).answer = s.answer := rfl

@[simp] theorem answerWord_cmd (v : Word) : (s.answerWord v).cmd = s.cmd := rfl
@[simp] theorem answerWord_done (v : Word) : (s.answerWord v).done = s.done := rfl
@[simp] theorem answerWord_errCmd (v : Word) : (s.answerWord v).errCmd = s.errCmd := rfl
@[simp] theorem answerWord_errIdx (v : Word) : (s.answerWord v).errIdx = s.errIdx := rfl
@[simp] theorem answerWord_inten (v : Word) : (s.answerWord v).inten = s.inten := rfl
@[simp] theorem answerWord_errinfo (v : Word) : (s.answerWord v).errinfo = s.errinfo := rfl
@[simp] theorem answerWord_enc (v : Word) : (s.answerWord v).enc = s.enc := rfl
@[simp] theorem answerWord_dec (v : Word) : (s.answerWord v).dec = s.dec := rfl
@[simp] theorem answerWord_mem (v : Word) : (s.answerWord v).mem = s.mem := rfl
@[simp] theorem answerWord_wait (v : Word) : (s.answerWord v).wait = s.wait := rfl
@[simp] theorem answerWord_accepted (v : Word) : (s.answerWord v).accepted = s.accepted := rfl
@[simp] theorem answerWord_draws (v : Word) : (s.answerWord v).draws = s.draws := rfl
@[simp] theorem answerWord_inputs (v : Word) : (s.answerWord v).inputs = s.inputs := rfl
@[simp] theorem answerWord_answer (v : Word) : (s.answerWord v).answer = .data32 v := rfl

@[simp] theorem readUnspecified_cmd (width : Width) : (readUnspecified s width).cmd = s.cmd := rfl
@[simp] theorem readUnspecified_done (width : Width) : (readUnspecified s width).done = s.done := rfl
@[simp] theorem readUnspecified_errCmd (width : Width) : (readUnspecified s width).errCmd = s.errCmd := rfl
@[simp] theorem readUnspecified_errIdx (width : Width) : (readUnspecified s width).errIdx = s.errIdx := rfl
@[simp] theorem readUnspecified_inten (width : Width) : (readUnspecified s width).inten = s.inten := rfl
@[simp] theorem readUnspecified_errinfo (width : Width) : (readUnspecified s width).errinfo = s.errinfo := rfl
@[simp] theorem readUnspecified_enc (width : Width) : (readUnspecified s width).enc = s.enc := rfl
@[simp] theorem readUnspecified_dec (width : Width) : (readUnspecified s width).dec = s.dec := rfl
@[simp] theorem readUnspecified_mem (width : Width) : (readUnspecified s width).mem = s.mem := rfl
@[simp] theorem readUnspecified_wait (width : Width) : (readUnspecified s width).wait = s.wait := rfl
@[simp] theorem readUnspecified_accepted (width : Width) : (readUnspecified s width).accepted = s.accepted := rfl
@[simp] theorem readUnspecified_draws (width : Width) : (readUnspecified s width).draws = s.draws + 1 := rfl
@[simp] theorem readUnspecified_inputs (width : Width) : (readUnspecified s width).inputs = s.inputs := rfl

@[simp] theorem powerOn_cmd : (s.powerOn).cmd = none := rfl
@[simp] theorem powerOn_done : (s.powerOn).done = false := rfl
@[simp] theorem powerOn_errCmd : (s.powerOn).errCmd = false := rfl
@[simp] theorem powerOn_errIdx : (s.powerOn).errIdx = false := rfl
@[simp] theorem powerOn_inten : (s.powerOn).inten = 0 := rfl
@[simp] theorem powerOn_errinfo : (s.powerOn).errinfo = 0 := rfl
@[simp] theorem powerOn_enc : (s.powerOn).enc = Enc.reset Config.profile := rfl
@[simp] theorem powerOn_dec : (s.powerOn).dec = Dec.reset Config.profile := rfl
@[simp] theorem powerOn_mem : (s.powerOn).mem = [] := rfl
@[simp] theorem powerOn_wait : (s.powerOn).wait = 0 := rfl
@[simp] theorem powerOn_accepted : (s.powerOn).accepted = s.accepted := rfl
@[simp] theorem powerOn_draws : (s.powerOn).draws = s.draws := rfl
@[simp] theorem powerOn_inputs : (s.powerOn).inputs = s.inputs := rfl
@[simp] theorem powerOn_answer : (s.powerOn).answer = .idle := rfl

@[simp] theorem encodeWith_cmd (pcm : List Sample) : (s.encodeWith pcm).cmd = none := rfl
@[simp] theorem encodeWith_done (pcm : List Sample) : (s.encodeWith pcm).done = true := rfl
@[simp] theorem encodeWith_errCmd (pcm : List Sample) : (s.encodeWith pcm).errCmd = s.errCmd := rfl
@[simp] theorem encodeWith_errIdx (pcm : List Sample) : (s.encodeWith pcm).errIdx = s.errIdx := rfl
@[simp] theorem encodeWith_inten (pcm : List Sample) : (s.encodeWith pcm).inten = s.inten := rfl
@[simp] theorem encodeWith_errinfo (pcm : List Sample) : (s.encodeWith pcm).errinfo = s.errinfo := rfl
@[simp] theorem encodeWith_enc (pcm : List Sample) : (s.encodeWith pcm).enc =
    (encodeFrame Config.profile Config.num s.enc (pcm.map BitVec.toInt)).2 := rfl
@[simp] theorem encodeWith_dec (pcm : List Sample) : (s.encodeWith pcm).dec = s.dec := rfl
@[simp] theorem encodeWith_mem (pcm : List Sample) : (s.encodeWith pcm).mem =
    writeIdx s.mem (encodeFrame Config.profile Config.num s.enc (pcm.map BitVec.toInt)).1 := by
  simp only [State.encodeWith, complete_mem]
@[simp] theorem encodeWith_wait (pcm : List Sample) : (s.encodeWith pcm).wait = s.wait := rfl
@[simp] theorem encodeWith_accepted (pcm : List Sample) : (s.encodeWith pcm).accepted = s.accepted := rfl
@[simp] theorem encodeWith_draws (pcm : List Sample) : (s.encodeWith pcm).draws = s.draws := rfl
@[simp] theorem encodeWith_inputs (pcm : List Sample) : (s.encodeWith pcm).inputs = s.inputs := rfl
@[simp] theorem encodeWith_answer (pcm : List Sample) : (s.encodeWith pcm).answer = s.answer := rfl

@[simp] theorem decodeWith_cmd (ws : List Word) : (s.decodeWith ws).cmd = none := rfl
@[simp] theorem decodeWith_done (ws : List Word) : (s.decodeWith ws).done = true := rfl
@[simp] theorem decodeWith_errCmd (ws : List Word) : (s.decodeWith ws).errCmd = s.errCmd := rfl
@[simp] theorem decodeWith_errIdx (ws : List Word) : (s.decodeWith ws).errIdx = s.errIdx := rfl
@[simp] theorem decodeWith_inten (ws : List Word) : (s.decodeWith ws).inten = s.inten := rfl
@[simp] theorem decodeWith_errinfo (ws : List Word) : (s.decodeWith ws).errinfo = s.errinfo := rfl
@[simp] theorem decodeWith_enc (ws : List Word) : (s.decodeWith ws).enc = s.enc := rfl
@[simp] theorem decodeWith_dec (ws : List Word) : (s.decodeWith ws).dec =
    (decodeFrame Config.profile Config.num s.dec (ws.map BitVec.toNat)).2 := rfl
@[simp] theorem decodeWith_mem (ws : List Word) : (s.decodeWith ws).mem =
    writePcmOut s.mem (decodeFrame Config.profile Config.num s.dec (ws.map BitVec.toNat)).1 := by
  simp only [State.decodeWith, complete_mem]
@[simp] theorem decodeWith_wait (ws : List Word) : (s.decodeWith ws).wait = s.wait := rfl
@[simp] theorem decodeWith_accepted (ws : List Word) : (s.decodeWith ws).accepted = s.accepted := rfl
@[simp] theorem decodeWith_draws (ws : List Word) : (s.decodeWith ws).draws = s.draws := rfl
@[simp] theorem decodeWith_inputs (ws : List Word) : (s.decodeWith ws).inputs = s.inputs := rfl
@[simp] theorem decodeWith_answer (ws : List Word) : (s.decodeWith ws).answer = s.answer := rfl

@[simp] theorem complete_busy : (State.complete s).busy = false := rfl
@[simp] theorem accept_busy (w : Word) : (s.accept w).busy = true := rfl
@[simp] theorem rejectCmd_busy (w : Word) : (s.rejectCmd w).busy = s.busy := rfl
@[simp] theorem rejectIdx_busy (k0 : Nat) : (s.rejectIdx k0).busy = false := rfl
@[simp] theorem powerOn_busy : s.powerOn.busy = false := rfl

end Sys2Proof.Machine
end

