-- ==== Sys2Proof/Laws/Bus.lean ====
section
/-! SUPPORT. Laws of the port: what the address map answers at every accepted access, what a read and a write can
do, and what the profile's constraints say about the map. -/

namespace Sys2Proof.Machine

/-- The constraints of R81 and the rest of R9, for the machine's profile. -/
theorem profile_dims : Config.profile.DimsOk := Config.setup.profileOk.dims

theorem frsz_le : Config.profile.frsz ≤ 256 := profile_dims.frsz_le

theorem two_le_frsz : 2 ≤ Config.profile.frsz := profile_dims.two_le_frsz

theorem nidx_le : Config.profile.nidx ≤ 128 := profile_dims.nidx_le

theorem frsz_le_of_wf {P : Profile} (h : P.Wf) : P.frsz ≤ 256 := h.dims.frsz_le

theorem nidx_le_of_wf {P : Profile} (h : P.Wf) : P.nidx ≤ 128 := h.dims.nidx_le

/-- A 32-bit access below 0x024 reaches the register there. -/
theorem checkAccess_register (P : Profile) {a : Nat} (h : a < 0x024) (h4 : a % 4 = 0) :
    checkAccess P .w32 a = .ok (registerAt (a / 4)) := by
  have hl : locate P a 4 = some (registerAt (a / 4)) := by
    rw [locate, if_pos]; simp [within]; omega
  have ha : (registerAt (a / 4)).accepts .w32 = true := by
    cases registerAt (a / 4) <;> rfl
  simp [checkAccess, Width.bytes, h4, hl, ha]

theorem locate_pcmIn {P : Profile} {a n : Nat} (h1 : 0x100 ≤ a) (h2 : a + n ≤ 0x100 + 2 * P.frsz) :
    locate P a n = some .pcmIn := by
  rw [locate, if_neg, if_pos] <;> simp [within] <;> omega

theorem locate_pcmOut {P : Profile} (hP : P.frsz ≤ 256) {a n : Nat} (hn : 1 ≤ n) (h1 : 0x300 ≤ a)
    (h2 : a + n ≤ 0x300 + 2 * P.frsz) : locate P a n = some .pcmOut := by
  rw [locate, if_neg, if_neg, if_pos] <;> simp [within] <;> omega

theorem locate_idx {P : Profile} (hP : P.frsz ≤ 256) {a n : Nat} (hn : 1 ≤ n) (h1 : 0x500 ≤ a)
    (h2 : a + n ≤ 0x500 + 4 * P.nidx) : locate P a n = some .idx := by
  rw [locate, if_neg, if_neg, if_neg, if_pos] <;> simp [within] <;> omega

/-- What the map answers, read backwards: an accepted access lies in the range of the location it reaches, at a width
and an alignment that location takes (R81, R85, R86). -/
theorem checkAccess_ok {P : Profile} {width : Width} {a : Nat} {l : Location} (h : checkAccess P width a = .ok l) :
    width ≠ .w8 ∧ a % width.bytes = 0 ∧ l.accepts width = true ∧ locate P a width.bytes = some l := by
  simp only [checkAccess] at h
  split_ifs at h with h1 h2
  split at h
  · cases h
  · rename_i l' hl
    split_ifs at h with h3
    cases h
    exact ⟨h1, by simpa using h2, h3, hl⟩

theorem checkAccess_of {P : Profile} {width : Width} {a : Nat} {l : Location} (h1 : width ≠ .w8)
    (h2 : a % width.bytes = 0) (h3 : l.accepts width = true) (h4 : locate P a width.bytes = some l) :
    checkAccess P width a = .ok l := by
  simp [checkAccess, h1, h2, h3, h4]

/-- The range of each location (R81). -/
theorem locate_range {P : Profile} {a n : Nat} {l : Location} (h : locate P a n = some l) :
    (a + n ≤ 0x024 ∧ l = registerAt (a / 4))
      ∨ (0x100 ≤ a ∧ a + n ≤ 0x100 + 2 * P.frsz ∧ l = .pcmIn)
      ∨ (0x300 ≤ a ∧ a + n ≤ 0x300 + 2 * P.frsz ∧ l = .pcmOut)
      ∨ (0x500 ≤ a ∧ a + n ≤ 0x500 + 4 * P.nidx ∧ l = .idx) := by
  simp only [locate, within, decide_eq_true_eq] at h
  split_ifs at h with h1 h2 h3 h4 <;> cases h
  · exact .inl ⟨by omega, rfl⟩
  · exact .inr (.inl ⟨h2.1, h2.2, rfl⟩)
  · exact .inr (.inr (.inl ⟨h3.1, h3.2, rfl⟩))
  · exact .inr (.inr (.inr ⟨h4.1, h4.2, rfl⟩))

theorem checkAccess_pcmIn (P : Profile) {width : Width} {a : Nat} (hw : width ≠ .w8) (ha : a % width.bytes = 0)
    (h1 : 0x100 ≤ a) (h2 : a + width.bytes ≤ 0x100 + 2 * P.frsz) : checkAccess P width a = .ok .pcmIn :=
  checkAccess_of hw ha (by cases width <;> simp_all [Location.accepts]) (locate_pcmIn h1 h2)

theorem checkAccess_pcmOut {P : Profile} (hP : P.frsz ≤ 256) {width : Width} {a : Nat} (hw : width ≠ .w8)
    (ha : a % width.bytes = 0) (h1 : 0x300 ≤ a) (h2 : a + width.bytes ≤ 0x300 + 2 * P.frsz) :
    checkAccess P width a = .ok .pcmOut :=
  checkAccess_of hw ha (by cases width <;> simp_all [Location.accepts])
    (locate_pcmOut hP (by cases width <;> simp [Width.bytes]) h1 h2)

theorem checkAccess_idx {P : Profile} (hP : P.frsz ≤ 256) {a : Nat} (ha : a % 4 = 0) (h1 : 0x500 ≤ a)
    (h2 : a + 4 ≤ 0x500 + 4 * P.nidx) : checkAccess P .w32 a = .ok .idx :=
  checkAccess_of (by simp) ha rfl (locate_idx hP (by simp [Width.bytes]) h1 h2)

/-- Everything a host read can do: a bus error, a fault at an unwritten element, or an answer (R81 to R88). -/
theorem busRead_next {P : Profile} {s t : State} {width : Width} {a : Nat} (h : busRead P s width a = .next t) :
    (t = { s with answer := t.answer }) ∨ (s.busy = true ∧ t = readUnspecified s width) := by
  have hbuf : ∀ {t}, readBuffer s width a = .next t → t = { s with answer := t.answer } := by
    intro t ht
    simp only [readBuffer] at ht
    split at ht <;> split at ht <;> cases ht <;> rfl
  simp only [busRead] at h
  split at h
  · cases h
  · exact .inl (hbuf h)
  · split_ifs at h with hb
    · cases h; exact .inr ⟨hb, rfl⟩
    · exact .inl (hbuf h)
  · split_ifs at h with hb
    · cases h; exact .inr ⟨hb, rfl⟩
    · exact .inl (hbuf h)
  · cases h; exact .inl rfl

/-- Everything a host write that goes on can do (R82, R88): a `CMD`, `STATUS` or `INTEN` write, nothing, or one
buffer element of an idle block. -/
theorem busWrite_next {P : Profile} {s t : State} {width : Width} {a : Nat} {w : Word}
    (h : busWrite P s width a w = .next t) :
    (checkAccess P width a = .ok .cmd ∧ t = { s.writeCmd w with answer := .written })
      ∨ (checkAccess P width a = .ok .status ∧ t = { s.writeStatus w with answer := .written })
      ∨ (checkAccess P width a = .ok .inten ∧ t = { s.writeInten w with answer := .written })
      ∨ t = { s with answer := .written }
      ∨ (s.busy = false ∧ (checkAccess P width a = .ok .pcmIn ∨ checkAccess P width a = .ok .idx)
          ∧ t = { s with mem := s.mem.writeAt width a w, answer := .written }) := by
  have hbuf : ∀ {t}, writeBuffer s width a w = .next t →
      s.busy = false ∧ t = { s with mem := s.mem.writeAt width a w, answer := .written } := by
    intro t ht
    simp only [writeBuffer] at ht
    split_ifs at ht with hb
    cases ht
    exact ⟨by simpa using hb, rfl⟩
  simp only [busWrite] at h
  split at h
  · cases h
  · rename_i hc; cases h; exact .inl ⟨hc, rfl⟩
  · rename_i hc; cases h; exact .inr (.inl ⟨hc, rfl⟩)
  · rename_i hc; cases h; exact .inr (.inr (.inl ⟨hc, rfl⟩))
  · cases h; exact .inr (.inr (.inr (.inl rfl)))
  · cases h; exact .inr (.inr (.inr (.inl rfl)))
  · cases h; exact .inr (.inr (.inr (.inl rfl)))
  · cases h; exact .inr (.inr (.inr (.inl rfl)))
  · cases h
  · cases h
  · rename_i hc
    obtain ⟨h1, h2⟩ := hbuf h
    exact .inr (.inr (.inr (.inr ⟨h1, .inl hc, h2⟩)))
  · cases h
  · rename_i hc
    obtain ⟨h1, h2⟩ := hbuf h
    exact .inr (.inr (.inr (.inr ⟨h1, .inr hc, h2⟩)))

/-- A `CMD` access is the 32-bit one at offset 0, a `STATUS` access the one at offset 4, an `INTEN` access the one at 8. -/
theorem checkAccess_register_inv {P : Profile} {width : Width} {a : Nat} {l : Location}
    (h : checkAccess P width a = .ok l) (hl : l ≠ .pcmIn ∧ l ≠ .pcmOut ∧ l ≠ .idx) :
    width = .w32 ∧ a % 4 = 0 ∧ a < 0x024 ∧ l = registerAt (a / 4) := by
  obtain ⟨h1, h2, h3, h4⟩ := checkAccess_ok h
  have hw : width = .w32 := by
    cases width <;> first | rfl | (cases l <;> simp_all [Location.accepts])
  subst hw
  rcases locate_range h4 with ⟨h5, h6⟩ | ⟨-, -, h6⟩ | ⟨-, -, h6⟩ | ⟨-, -, h6⟩
  · exact ⟨rfl, h2, by simp [Width.bytes] at h5; omega, h6⟩
  · exact absurd h6 hl.1
  · exact absurd h6 hl.2.1
  · exact absurd h6 hl.2.2

/-- No register offset holds a buffer. -/
theorem registerAt_ne_buffer (n : Nat) : registerAt n ≠ .pcmIn ∧ registerAt n ≠ .pcmOut ∧ registerAt n ≠ .idx := by
  unfold registerAt
  split <;> decide

/-- The port takes an access exactly where `AccessMapped` says (R81, R85, R86). -/
theorem checkAccess_ok_iff {P : Profile} (hf : P.frsz ≤ 256) (width : Width) (a : Nat) :
    (∃ l, checkAccess P width a = .ok l) ↔ AccessMapped P width a := by
  constructor
  · rintro ⟨l, h⟩
    obtain ⟨h1, h2, h3, h4⟩ := checkAccess_ok h
    rcases locate_range h4 with ⟨-, h6⟩ | ⟨h5, h6, rfl⟩ | ⟨h5, h6, rfl⟩ | ⟨h5, h6, rfl⟩
    · have hr := checkAccess_register_inv h (h6 ▸ registerAt_ne_buffer _)
      exact .inl ⟨hr.1, hr.2.1, .inl hr.2.2.1⟩
    all_goals
      cases width <;>
        simp only [Width.bytes, Location.accepts, ne_eq, not_true_eq_false, Bool.false_eq_true] at h1 h2 h3 h6 <;>
        simp [AccessMapped, h2, h5, h6]
  · rintro (⟨rfl, h4, h | h | h | h⟩ | ⟨rfl, h4, h | h⟩)
    · exact ⟨_, checkAccess_register _ h h4⟩
    · exact ⟨_, checkAccess_pcmIn _ (by simp) h4 h.1 h.2⟩
    · exact ⟨_, checkAccess_pcmOut hf (by simp) h4 h.1 h.2⟩
    · exact ⟨_, checkAccess_idx hf h4 h.1 h.2⟩
    · exact ⟨_, checkAccess_pcmIn _ (by simp) h4 h.1 h.2⟩
    · exact ⟨_, checkAccess_pcmOut hf (by simp) h4 h.1 h.2⟩

/-- A buffer access is never answered with a bus error once the port has taken it. -/
theorem readBuffer_ne_busError (s : State) (width : Width) (a : Nat) (e : BusError) (b : Nat) :
    readBuffer s width a ≠ .fault (.busError e b) := by
  intro h
  simp only [readBuffer] at h
  split at h <;> split at h <;> cases h

theorem writeBuffer_ne_busError (s : State) (width : Width) (a : Nat) (w : Word) (e : BusError) (b : Nat) :
    writeBuffer s width a w ≠ .fault (.busError e b) := by
  intro h
  simp only [writeBuffer] at h
  split at h <;> cases h

theorem registerAt_eq_cmd {a : Nat} (h : registerAt (a / 4) = .cmd) (h4 : a % 4 = 0) : a = 0 := by
  have h9 : ∀ n, registerAt n = .cmd → n = 0 := by
    intro n hn
    unfold registerAt at hn
    split at hn <;> first | rfl | cases hn
  have := h9 _ h
  omega

theorem registerAt_eq_status {a : Nat} (h : registerAt (a / 4) = .status) (h4 : a % 4 = 0) : a = 4 := by
  have h9 : ∀ n, registerAt n = .status → n = 1 := by
    intro n hn
    unfold registerAt at hn
    split at hn <;> first | rfl | cases hn
  have := h9 _ h
  omega

/-- A 32-bit read below 0x024 answers the word of the register there (R81, R87). -/
theorem perform_read_register (s : State) {a : Nat} (h : a < 0x024) (h4 : a % 4 = 0) :
    perform s (.read .w32 a) = .next (s.answerWord (registerWord Config.profile s (registerAt (a / 4)))) := by
  simp only [perform, busRead, checkAccess_register _ h h4]
  have hb := registerAt_ne_buffer (a / 4)
  cases hl : registerAt (a / 4) <;> simp_all

/-- One bit of the words `STATUS` is put together from. -/
theorem bitAt_getLsbD (b : Bool) {n : Nat} (k : Nat) (hn : n < 32) : (bitAt b n).getLsbD k = (b && decide (k = n)) := by
  cases b
  · simp [bitAt]
  · simp only [bitAt, if_true, Bool.true_and]
    have h : BitVec.ofNat 32 (2 ^ n) = BitVec.twoPow 32 n := by
      apply BitVec.eq_of_toNat_eq; simp [BitVec.toNat_twoPow]
    rw [h, BitVec.getLsbD_twoPow]
    simp [hn, eq_comm]

/-- Every bit `STATUS` reads as (R34). -/
theorem statusWord_getLsbD (s : State) (k : Nat) :
    (statusWord s).getLsbD k = ((s.busy && decide (k = 0)) || (s.done && decide (k = 1))
      || (s.errCmd && decide (k = 2)) || (s.errIdx && decide (k = 3)) || (s.plcBit && decide (k = 5))
      || (s.substBit && decide (k = 6)) || (s.gtrapBit && decide (k = 7))) := by
  simp only [statusWord, BitVec.getLsbD_or, bitAt_getLsbD _ k (show 0 < 32 by omega),
    bitAt_getLsbD _ k (show 1 < 32 by omega), bitAt_getLsbD _ k (show 2 < 32 by omega),
    bitAt_getLsbD _ k (show 3 < 32 by omega), bitAt_getLsbD _ k (show 5 < 32 by omega),
    bitAt_getLsbD _ k (show 6 < 32 by omega), bitAt_getLsbD _ k (show 7 < 32 by omega)]

theorem plcBit_eq (s : State) : s.plcBit = decide (0 < s.dec.cfecount) := by
  simp only [State.plcBit, plcMode]
  split_ifs with h <;> simp [h]

/-- Everything a `CMD` write can do (R140, R141, R401). -/
theorem writeCmd_cases (s : State) (w : Word) :
    (s.busy = false ∧ (∃ i, decodeWord w = .ok i) ∧ s.writeCmd w = s.accept w) ∨ s.writeCmd w = s.rejectCmd w := by
  simp only [State.writeCmd]
  split_ifs with h
  · exact .inr rfl
  · split
    · exact .inr rfl
    · rename_i i hi
      exact .inl ⟨by simpa using h, ⟨i, hi⟩, rfl⟩

end Sys2Proof.Machine
end

