-- ==== Sys2Proof/Laws/Encoding.lean ====
section
/-! SUPPORT. Laws of the command word: its two fields as numbers, when it decodes, the bytes of a word. -/

namespace Sys2Proof

theorem opField_toNat (w : Word) : (opField w).toNat = w.toNat % 16 := by
  simp [opField, BitVec.extractLsb'_toNat]

theorem rsvField_eq_zero (w : Word) : rsvField w = 0 ↔ w.toNat / 16 = 0 := by
  rw [← BitVec.toNat_inj]
  have := w.isLt
  simp [rsvField, BitVec.extractLsb'_toNat, Nat.shiftRight_eq_div_pow]
  omega

@[simp] theorem opcodeOf_lt (i : Instr) : (opcodeOf i).toNat < 6 := by cases i <;> decide

theorem decodeOp_opcodeOf (i : Instr) : decodeOp (opcodeOf i) = .ok i := by cases i <;> rfl

theorem decodeOp_ok {op : BitVec 4} {i : Instr} (h : decodeOp op = .ok i) : op = opcodeOf i := by
  rw [← BitVec.toNat_inj]
  simp only [decodeOp] at h
  split at h <;> first | (cases h; done) | (cases h; rename_i hn; simp [opcodeOf, hn])

theorem decodeOp_isOk {op : BitVec 4} : (∃ i, decodeOp op = .ok i) ↔ op.toNat < 6 := by
  constructor
  · rintro ⟨i, h⟩
    rw [decodeOp_ok h]
    exact opcodeOf_lt i
  · intro h
    have : op.toNat = 0 ∨ op.toNat = 1 ∨ op.toNat = 2 ∨ op.toNat = 3 ∨ op.toNat = 4 ∨ op.toNat = 5 := by omega
    rcases this with h | h | h | h | h | h <;> simp [decodeOp, h]

/-- A word decodes exactly where its reserved bits are 0 and its opcode is in the map (R111, R114). -/
theorem decodeWord_isOk (w : Word) : (∃ i, decodeWord w = .ok i) ↔ wordWf w = true := by
  simp only [decodeWord, wordWf, Bool.and_eq_true, beq_iff_eq, decide_eq_true_eq, ← rsvField_eq_zero,
    ← opField_toNat, ← decodeOp_isOk]
  by_cases h : rsvField w = 0
  · simp [h]
  · rw [if_neg h]
    simpa using fun h' => absurd h' h

theorem encode_toNat (i : Instr) : (encode i).toNat = (opcodeOf i).toNat := by cases i <;> rfl

/-- What decodes to a command has its opcode and no reserved bit. -/
theorem decodeWord_ok {w : Word} {i : Instr} (h : decodeWord w = .ok i) :
    w.toNat / 16 = 0 ∧ opField w = opcodeOf i := by
  simp only [decodeWord] at h
  split_ifs at h with hr
  exact ⟨(rsvField_eq_zero w).1 hr, decodeOp_ok h⟩

/-- A word is put together again from its bytes (R84). -/
theorem wordOfBytes_bytesOfWord (w : Word) :
    wordOfBytes (w.extractLsb' 0 8) (w.extractLsb' 8 8) (w.extractLsb' 16 8) (w.extractLsb' 24 8) = w := by
  simp only [wordOfBytes]
  ext i hi
  simp only [BitVec.getElem_append, BitVec.getElem_extractLsb']
  split_ifs with h1 h2 h3
  · simp [BitVec.getLsbD_eq_getElem hi]
  · rw [show 8 + (i - 8) = i by omega, BitVec.getLsbD_eq_getElem hi]
  · rw [show 16 + (i - 8 - 8) = i by omega, BitVec.getLsbD_eq_getElem hi]
  · rw [show 24 + (i - 8 - 8 - 8) = i by omega, BitVec.getLsbD_eq_getElem hi]

/-- Each bit of a word put together from its bytes (R84). -/
theorem getLsbD_wordOfBytes (b0 b1 b2 b3 : Byte) (n : Nat) :
    (wordOfBytes b0 b1 b2 b3).getLsbD n =
      if n < 8 then b0.getLsbD n else if n - 8 < 8 then b1.getLsbD (n - 8)
      else if n - 8 - 8 < 8 then b2.getLsbD (n - 8 - 8) else b3.getLsbD (n - 8 - 8 - 8) := by
  have h0 := BitVec.getLsbD_append (x := (b3 ++ b2 ++ b1 : BitVec 24)) (y := b0) (i := n)
  have h1 := BitVec.getLsbD_append (x := (b3 ++ b2 : BitVec 16)) (y := b1) (i := n - 8)
  have h2 := BitVec.getLsbD_append (x := b3) (y := b2) (i := n - 8 - 8)
  exact h0.trans (by rw [← h2, ← h1])

/-- The bytes a word was put together from (R84). -/
theorem bytesOfWord_wordOfBytes (b0 b1 b2 b3 : Byte) : bytesOfWord (wordOfBytes b0 b1 b2 b3) = [b0, b1, b2, b3] := by
  simp only [bytesOfWord, List.cons.injEq, and_true]
  refine ⟨?_, ?_, ?_, ?_⟩ <;> ext k hk <;>
    simp only [BitVec.getElem_extractLsb', getLsbD_wordOfBytes] <;> split_ifs <;>
    first | omega | (rw [BitVec.getLsbD_eq_getElem (by omega)]; congr 1; omega)

end Sys2Proof
end

