-- ==== Sys2Proof/Laws/Fields.lean ====
section
/-! SUPPORT. Laws of the registers that are put together from fields (R37 to R39): each field of such a word reads back. -/

namespace Sys2Proof.Machine

theorem toNat_append' {m n : Nat} (a : BitVec m) (b : BitVec n) : (a ++ b).toNat = a.toNat * 2 ^ n + b.toNat := by
  rw [BitVec.toNat_append, Nat.shiftLeft_eq, Nat.mul_comm, ← Nat.two_pow_add_eq_or_of_lt b.isLt]

/-- The fields of `PROFILE0`'s shape. -/
theorem fields_4_4_8_16 {a b : BitVec 4} {c : BitVec 8} {d : BitVec 16} {v : Word}
    (h : v = (a ++ b ++ c ++ d : BitVec 32)) :
    v.extractLsb' 0 16 = d ∧ v.extractLsb' 16 8 = c ∧ v.extractLsb' 24 4 = b ∧ v.extractLsb' 28 4 = a := by
  have ht : v.toNat = a.toNat * 2 ^ 28 + b.toNat * 2 ^ 24 + c.toNat * 2 ^ 16 + d.toNat := by
    rw [h]
    refine (toNat_append' (a ++ b ++ c : BitVec 16) d).trans ?_
    rw [show (a ++ b ++ c : BitVec 16).toNat = _ from toNat_append' (a ++ b : BitVec 8) c,
      show (a ++ b : BitVec 8).toNat = _ from toNat_append' a b]
    ring
  have := a.isLt
  have := b.isLt
  have := c.isLt
  have := d.isLt
  refine ⟨?_, ?_, ?_, ?_⟩ <;> apply BitVec.eq_of_toNat_eq <;>
    simp only [BitVec.extractLsb'_toNat, ht, Nat.shiftRight_eq_div_pow] <;> omega

/-- The fields of `PROFILE2`'s and `DECINFO`'s shape. -/
theorem fields_8_8_16 {a b : BitVec 8} {d : BitVec 16} {v : Word} (h : v = (a ++ b ++ d : BitVec 32)) :
    v.extractLsb' 0 16 = d ∧ v.extractLsb' 16 8 = b ∧ v.extractLsb' 24 8 = a := by
  have ht : v.toNat = a.toNat * 2 ^ 24 + b.toNat * 2 ^ 16 + d.toNat := by
    rw [h]
    refine (toNat_append' (a ++ b : BitVec 16) d).trans ?_
    rw [show (a ++ b : BitVec 16).toNat = _ from toNat_append' a b]
    ring
  have := a.isLt
  have := b.isLt
  have := d.isLt
  refine ⟨?_, ?_, ?_⟩ <;> apply BitVec.eq_of_toNat_eq <;>
    simp only [BitVec.extractLsb'_toNat, ht, Nat.shiftRight_eq_div_pow] <;> omega

/-- The fields of `PROFILE1`'s shape. -/
theorem fields_16_16 {a d : BitVec 16} {v : Word} (h : v = (a ++ d : BitVec 32)) :
    v.extractLsb' 0 16 = d ∧ v.extractLsb' 16 16 = a := by
  have ht : v.toNat = a.toNat * 2 ^ 16 + d.toNat := by
    rw [h]
    exact toNat_append' a d
  have := a.isLt
  have := d.isLt
  refine ⟨?_, ?_⟩ <;> apply BitVec.eq_of_toNat_eq <;>
    simp only [BitVec.extractLsb'_toNat, ht, Nat.shiftRight_eq_div_pow] <;> omega

/-- The fields of `ERRINFO` (R38). -/
theorem errinfoWord_fields (busy : Bool) (slot : BitVec 8) (op : BitVec 4) :
    (errinfoWord busy slot op).toNat = busy.toNat * 2 ^ 16 + slot.toNat * 2 ^ 8 + op.toNat := by
  simp only [errinfoWord]
  refine (toNat_append' ((0 : BitVec 15) ++ BitVec.ofBool busy ++ slot ++ (0 : BitVec 4) : BitVec 28) op).trans ?_
  rw [show ((0 : BitVec 15) ++ BitVec.ofBool busy ++ slot ++ (0 : BitVec 4) : BitVec 28).toNat = _ from
      toNat_append' ((0 : BitVec 15) ++ BitVec.ofBool busy ++ slot : BitVec 24) (0 : BitVec 4),
    show ((0 : BitVec 15) ++ BitVec.ofBool busy ++ slot : BitVec 24).toNat = _ from
      toNat_append' ((0 : BitVec 15) ++ BitVec.ofBool busy : BitVec 16) slot,
    show ((0 : BitVec 15) ++ BitVec.ofBool busy : BitVec 16).toNat = _ from
      toNat_append' (0 : BitVec 15) (BitVec.ofBool busy)]
  simp
  ring

/-- R39's three fields fill `DECINFO`: a word that has them is `decinfoWord`, so no bit of the register is left to show
`D.nclglim`, which R411 has read through it (log entry 27). -/
theorem decinfoWord_unique (d : Dec) (w : Word) (h0 : w.extractLsb' 0 16 = BitVec.ofNat 16 (min d.cfecount 0xFFFF))
    (h1 : w.extractLsb' 16 8 = BitVec.ofInt 8 d.syn.sexp) (h2 : w.extractLsb' 24 8 = BitVec.ofNat 8 (min d.lctimer 0xFF)) :
    w = decinfoWord d := by
  obtain ⟨e0, e1, e2⟩ := fields_8_8_16 (v := decinfoWord d) rfl
  have g0 := congrArg BitVec.toNat (h0.trans e0.symm)
  have g1 := congrArg BitVec.toNat (h1.trans e1.symm)
  have g2 := congrArg BitVec.toNat (h2.trans e2.symm)
  have := w.isLt
  have := (decinfoWord d).isLt
  refine BitVec.eq_of_toNat_eq ?_
  simp only [BitVec.extractLsb'_toNat, Nat.shiftRight_eq_div_pow] at g0 g1 g2
  omega

end Sys2Proof.Machine
end

