-- ==== Sys2Proof/Laws/Numbers.lean ====
section
/-! SUPPORT. Laws of the shared arithmetic: arrays, the search and its tie-break, clamping and saturation, history
buffers; R181's example and a filter on which `NUM.lsproots` fails; and why `Num.Ok` asks one half of R18's monotone
square root. -/

namespace Sys2Proof.Machine

@[simp] theorem length_tab {α : Type} (n : Nat) (f : Nat → α) : (tab n f).length = n := by simp [tab]

theorem elt_tab {n i : Nat} (f : Nat → Rat) (h : i < n) : elt (tab n f) i = f i := by
  simp [elt, tab, List.getD, h]

theorem getD_tab {α : Type} {n i : Nat} (f : Nat → α) (d : α) (h : i < n) : (tab n f).getD i d = f i := by
  simp [tab, List.getD, h]

theorem mem_tab {α : Type} {n : Nat} {f : Nat → α} {x : α} : x ∈ tab n f ↔ ∃ i < n, f i = x := by
  simp [tab]

theorem tab_congr {α : Type} {n : Nat} {f g : Nat → α} (h : ∀ i < n, f i = g i) : tab n f = tab n g :=
  List.map_congr_left fun i hi => h i (List.mem_range.1 hi)

theorem sumTo_congr {n : Nat} {f g : Nat → Rat} (h : ∀ i < n, f i = g i) : sumTo n f = sumTo n g :=
  congrArg List.sum (tab_congr h)

theorem sumTo_succ (n : Nat) (f : Nat → Rat) : sumTo (n + 1) f = sumTo n f + f n := by
  simp [sumTo, tab, List.range_succ]

@[simp] theorem sumTo_zero (f : Nat → Rat) : sumTo 0 f = 0 := by simp [sumTo, tab]

theorem sumTo_nonneg {n : Nat} {f : Nat → Rat} (h : ∀ i < n, 0 ≤ f i) : 0 ≤ sumTo n f :=
  List.sum_nonneg fun x hx => by
    obtain ⟨i, hi, rfl⟩ := mem_tab.1 hx
    exact h i hi

theorem sq_nonneg' (x : Rat) : 0 ≤ sq x := mul_self_nonneg x

/-- The scan's result splits its list: everything before it scores more, nothing after it scores less (R15). -/
theorem argminFrom_split {α : Type} (f : α → Rat) (best : α) (xs : List α) :
    ∃ l₁ l₂, best :: xs = l₁ ++ argminFrom f best xs :: l₂ ∧
      (∀ y ∈ l₁, f (argminFrom f best xs) < f y) ∧ ∀ y ∈ l₂, f (argminFrom f best xs) ≤ f y := by
  induction xs generalizing best with
  | nil => exact ⟨[], [], rfl, by simp, by simp⟩
  | cons x xs ih =>
    rw [argminFrom]
    split_ifs with h
    · obtain ⟨l₁, l₂, heq, h₁, h₂⟩ := ih x
      refine ⟨best :: l₁, l₂, by simp [heq], fun y hy => ?_, h₂⟩
      rcases List.mem_cons.1 hy with rfl | hy
      · have hx : x ∈ l₁ ++ argminFrom f x xs :: l₂ := heq ▸ List.mem_cons_self
        have hle : f (argminFrom f x xs) ≤ f x := by
          rcases List.mem_append.1 hx with hx | hx
          · exact (h₁ x hx).le
          · rcases List.mem_cons.1 hx with hx | hx
            · exact le_of_eq (congrArg f hx.symm)
            · exact h₂ x hx
        exact hle.trans_lt h
      · exact h₁ y hy
    · obtain ⟨l₁, l₂, heq, h₁, h₂⟩ := ih best
      cases l₁ with
      | nil =>
        simp only [List.nil_append, List.cons.injEq] at heq
        refine ⟨[], x :: l₂, by rw [← heq.1]; simp [heq.2], by simp, fun y hy => ?_⟩
        rcases List.mem_cons.1 hy with rfl | hy
        · rw [← heq.1]; exact not_lt.1 h
        · exact h₂ y hy
      | cons b l₁ =>
        simp only [List.cons_append, List.cons.injEq] at heq
        refine ⟨best :: x :: l₁, l₂, by simp [← heq.2], fun y hy => ?_, h₂⟩
        have hb : f (argminFrom f best xs) < f best := h₁ best (heq.1 ▸ List.mem_cons_self)
        rcases List.mem_cons.1 hy with rfl | hy
        · exact hb
        · rcases List.mem_cons.1 hy with rfl | hy
          · exact hb.trans_le (not_lt.1 h)
          · exact h₁ y (List.mem_cons_of_mem _ hy)

theorem argminFrom_mem {α : Type} (f : α → Rat) (best : α) (xs : List α) : argminFrom f best xs ∈ best :: xs := by
  obtain ⟨l₁, l₂, h, -, -⟩ := argminFrom_split f best xs
  exact h ▸ List.mem_append_right _ List.mem_cons_self

theorem argminFrom_le {α : Type} (f : α → Rat) {best : α} {xs : List α} {y : α} (hy : y ∈ best :: xs) :
    f (argminFrom f best xs) ≤ f y := by
  obtain ⟨l₁, l₂, h, h₁, h₂⟩ := argminFrom_split f best xs
  rw [h] at hy
  rcases List.mem_append.1 hy with hy | hy
  · exact (h₁ y hy).le
  · rcases List.mem_cons.1 hy with rfl | hy
    · exact le_rfl
    · exact h₂ y hy

/-- A search over a non-empty index range answers an index of the range. -/
theorem argmin_lt {n : Nat} (hn : 0 < n) (f : Nat → Rat) : argmin n f < n := by
  rcases List.mem_cons.1 (argminFrom_mem f 0 (List.range n)) with h | h
  · rw [argmin, h]; exact hn
  · exact List.mem_range.1 h

theorem clamp_mem {α : Type} [LinearOrder α] {v lo hi : α} (h : lo ≤ hi) : lo ≤ clamp v lo hi ∧ clamp v lo hi ≤ hi :=
  ⟨le_min (le_max_right _ _) h, min_le_right _ _⟩

theorem clamp_of_mem {α : Type} [LinearOrder α] {v lo hi : α} (h₁ : lo ≤ v) (h₂ : v ≤ hi) : clamp v lo hi = v := by
  rw [clamp, max_eq_left h₁, min_eq_left h₂]

theorem sat16_mem (v : Int) : -32768 ≤ sat16 v ∧ sat16 v ≤ 32767 := clamp_mem (by norm_num)

/-- A saturated value survives the 16-bit form of the context. -/
@[simp] theorem toInt_ofInt_sat16 (v : Int) : (BitVec.ofInt 16 (sat16 v)).toInt = sat16 v := by
  have h := sat16_mem v
  rw [BitVec.toInt_ofInt]
  exact Int.bmod_eq_of_le (by norm_num; omega) (by norm_num; omega)

@[simp] theorem length_push {α : Type} (m : List α) (x : α) : (push m x).length = m.length := by simp [push]

theorem length_lastN {α : Type} {n : Nat} {l : List α} (h : n ≤ l.length) : (lastN n l).length = n := by
  simp [lastN]; omega

theorem elt_push {m : List Rat} {x : Rat} {i : Nat} (h : i < m.length) :
    elt (push m x) i = if i + 1 < m.length then elt m (i + 1) else x := by
  simp only [push, elt, List.getD, List.getElem?_drop]
  split_ifs with hi
  · rw [List.getElem?_append_left (by omega), Nat.add_comm]
  · rw [List.getElem?_append_right (by omega), show 1 + i - m.length = 0 by omega]
    rfl

/-- The lag lookup answers inside the buffer and nowhere else (R14). -/
theorem isSome_lag {α : Type} (m : List α) (t : Nat) : (lag m t).isSome = true ↔ 1 ≤ t ∧ t ≤ m.length := by
  unfold lag
  split_ifs with h₀ h₁ <;> simp <;> omega

/-- Inside the buffer a lag lookup is a read of the array. -/
theorem past_eq {m : List Rat} {t : Nat} (h0 : 1 ≤ t) (h : t ≤ m.length) : past m t = elt m (m.length - t) := by
  rw [past, lag, if_neg (by omega), if_neg (by omega), elt, List.getD, List.getElem?_eq_getElem (by omega)]
  rfl

/-- Outside it a lag lookup is the free value (R14, log entry 24). -/
theorem past_outside {m : List Rat} {t : Nat} (h : t = 0 ∨ m.length < t) : past m t = Config.outside m t := by
  have hn : lag m t = none := Option.not_isSome_iff_eq_none.1 fun hs => by
    have := (isSome_lag m t).1 hs
    omega
  rw [past, hn, Option.getD_none]

/-- What lies `t + 1` steps back after a push lay `t` steps back before it. -/
theorem past_push_succ {m : List Rat} {x : Rat} {t : Nat} (h0 : 1 ≤ t) (h : t < m.length) :
    past (push m x) (t + 1) = past m t := by
  rw [past_eq (by omega) (by rw [length_push]; omega), past_eq h0 h.le, length_push, elt_push (by omega), if_pos (by omega)]
  congr 1
  omega

/-- What was pushed last lies one step back. -/
theorem past_push_one {m : List Rat} {x : Rat} (h : 0 < m.length) : past (push m x) 1 = x := by
  rw [past_eq le_rfl (by rw [length_push]; omega), length_push, elt_push (by omega), if_neg (by omega)]

/-- R181's own example: every admissible `NUM.lsproots` gives `a = [1, -1/2, 1/2]` the vector `[1/3, 1/2]`. -/
theorem lsproots_example {N : Num} (h : N.Ok) : N.lsproots [1, -1 / 2, 1 / 2] = some [1 / 3, 1 / 2] := by
  have hl : IsLsp N.cospi [1, -1 / 2, 1 / 2] [1 / 3, 1 / 2] := by
    simp only [IsLsp, everyOther, List.tail, List.map, h.cospi_third, h.cospi_half]
    decide +kernel
  obtain ⟨l, hs, ⟨hlen, -⟩, -, hr, hP, hQ⟩ := h.lsproots_cospi _ ⟨_, hl⟩
  obtain ⟨x, y, rfl⟩ : ∃ x y, l = [x, y] := List.length_eq_two.1 (by simpa using hlen.symm)
  have inj : ∀ u v : Rat, (0 < u ∧ u < 1) → (0 < v ∧ v < 1) → N.cospi u = N.cospi v → u = v := fun u v hu hv he => by
    rcases lt_trichotomy u v with hlt | rfl | hlt
    · exact absurd he (h.cospi_strictAnti u v hu.1.le hlt hv.2.le).ne'
    · rfl
    · exact absurd he (h.cospi_strictAnti v u hv.1.le hlt hu.2.le).ne
  simp [sumPoly, diffPoly, everyOther, quadProduct, polyMul, polyAdd] at hP hQ
  have hx : x = 1 / 3 := inj x _ (hr x (by simp)) (by norm_num) (by rw [h.cospi_third]; linarith)
  have hy : y = 1 / 2 := inj y _ (hr y (by simp)) (by norm_num) (by rw [h.cospi_half]; linarith)
  rw [hs, hx, hy]

/-- R181's example at a filter whose cosines are ±1/4: every admissible choice gives `a = [1, 0, 1/2]` the LSPs with
those cosines. -/
theorem lsproots_quarter_example {N : Num} (h : N.Ok) :
    ∃ x y, N.lsproots [1, 0, 1 / 2] = some [x, y] ∧ N.cospi x = 1 / 4 ∧ N.cospi y = -(1 / 4) := by
  obtain ⟨x, y, hs, hx, hy⟩ := h.lsproots_two 0 (1 / 2) ((minPhase_two _ _).2 (by norm_num))
  exact ⟨x, y, hs, by rw [hx]; norm_num, by rw [hy]; norm_num⟩

/-- R181's example makes `NUM.cospi` take every rational value of the cosine. -/
theorem cospi_onto {N : Num} (h : N.Ok) {c : Rat} (hc : -1 < c ∧ c < 1) : ∃ x, (0 < x ∧ x < 1) ∧ N.cospi x = c := by
  obtain ⟨x, y, hs, hx, -⟩ := h.lsproots_two ((1 - 3 * c) / 2) ((1 - c) / 2)
    ((minPhase_two _ _).2 ⟨by linarith [hc.2], by linarith [hc.1], by linarith [hc.1]⟩)
  exact ⟨x, h.lsproots_range _ _ hs x (by simp), by rw [hx]; ring⟩

/-- A rational exact vector is answered though its cosines are not rational (R181): every admissible `NUM.lsproots` gives
`a = [1, 1/2, 0, 0, 1/2]` the vector `[1/4, 2/5, 3/4, 4/5]`. -/
theorem lsproots_exact_example {N : Num} (h : N.Ok) :
    N.lsproots [1, 1 / 2, 0, 0, 1 / 2] = some [1 / 4, 2 / 5, 3 / 4, 4 / 5] :=
  h.lsproots_exact _ _ rfl ((stable_iff _).1 (by decide +kernel)) ((exactTest_iff _ _).1 (by decide +kernel))

/-- The filter `1 - 19/10 z^-1 + 0 z^-2` is not minimum phase, and its `P` has no root with an angle in `(0, pi)`. -/
theorem not_interlaced_example : ¬Interlaced [1, -19 / 10, 0] := by
  rintro ⟨w, hl, -, hr, hv⟩
  have h0 : 0 < w.length := by simp at hl; omega
  have h := vanishesAt_iff.1 (hv 0 h0)
  obtain ⟨hw0, hw1⟩ := hr _ (List.getElem_mem h0)
  set t := w[0]
  have hq := quad_value t
  set u := Complex.exp (-(t * Complex.I)) with hu
  have hne : u ≠ 0 := Complex.exp_ne_zero _
  have hfac : (1 + u) * ((2 * Real.cos t - 29 / 10 : ℝ) * u) = 0 := by
    simp [sumPoly, polyAdd, polyValue_cons, polyValue_nil] at h
    rw [Complex.ofReal_sub, Complex.ofReal_mul, Complex.ofReal_div]
    push_cast [-Complex.ofReal_cos]
    linear_combination h - (1 + u) * hq
  have hcos : (2 * Real.cos t - 29 / 10 : ℝ) < 0 := by linarith [Real.cos_le_one t]
  rcases mul_eq_zero.1 hfac with h1 | h1
  · have := congrArg Complex.im h1
    simp [hu, Complex.exp_im] at this
    exact absurd this (Real.sin_pos_of_pos_of_lt_pi hw0 hw1).ne'
  · exact (mul_ne_zero (Complex.ofReal_ne_zero.2 hcos.ne) hne) h1

/-- Every admissible `NUM.lsproots` reports failure on it (R181). -/
theorem lsproots_fails_example {N : Num} (h : N.Ok) : N.lsproots [1, -19 / 10, 0] = none :=
  h.lsproots_fails _ rfl not_interlaced_example

/-- No rational-valued function is exact on the rational squares and non-decreasing, as R18 asks of `NUM.sqrt`: it
would have to answer the square root of 2. -/
theorem no_monotone_rational_sqrt (f : Rat → Rat) (hsq : ∀ x, 0 ≤ x → f (x * x) = x)
    (hmono : ∀ x y, 0 ≤ x → x ≤ y → f x ≤ f y) : False := by
  have hirr : ∀ q : Rat, q * q ≠ 2 := fun q hq => by
    have h := irrational_sqrt_two
    refine h ⟨|q|, ?_⟩
    have h2 : ((|q| : Rat) : Real) * ((|q| : Rat) : Real) = 2 := by
      rw [← Rat.cast_mul, abs_mul_abs_self, hq]; norm_num
    rw [← h2, Real.sqrt_mul_self (by positivity)]
  have h0 : 0 ≤ f 2 := by
    have h := hmono 0 2 le_rfl (by norm_num)
    have h' := hsq 0 le_rfl
    rw [mul_zero] at h'
    linarith
  rcases lt_or_gt_of_ne (hirr (f 2)) with h | h
  · have hs : ((f 2 : Rat) : Real) < Real.sqrt 2 := by
      rw [Real.lt_sqrt (by exact_mod_cast h0), pow_two]
      exact_mod_cast h
    obtain ⟨y, hy1, hy2⟩ := exists_rat_btwn hs
    have hy0 : 0 ≤ y := h0.trans (by exact_mod_cast hy1.le)
    have hyy : y * y ≤ 2 := by
      have := (Real.lt_sqrt (y := 2) (by exact_mod_cast hy0)).1 hy2
      rw [pow_two] at this
      exact_mod_cast this.le
    have := hmono (y * y) 2 (mul_self_nonneg y) hyy
    rw [hsq y hy0] at this
    exact absurd (by exact_mod_cast hy1 : f 2 < y) (not_lt.2 this)
  · have hs : Real.sqrt 2 < ((f 2 : Rat) : Real) := by
      rw [Real.sqrt_lt' (by
        rcases h0.lt_or_eq with h' | h'
        · exact_mod_cast h'
        · rw [← h'] at h; norm_num at h), pow_two]
      exact_mod_cast h
    obtain ⟨y, hy1, hy2⟩ := exists_rat_btwn hs
    have hy0 : 0 ≤ y := by exact_mod_cast ((Real.sqrt_nonneg 2).trans hy1.le)
    have hyy : 2 ≤ y * y := by
      have := (Real.sqrt_lt (by norm_num) (by exact_mod_cast hy0)).1 hy1
      rw [pow_two] at this
      exact_mod_cast this.le
    have := hmono 2 (y * y) (by norm_num) hyy
    rw [hsq y hy0] at this
    exact absurd (by exact_mod_cast hy2 : y < f 2) (not_lt.2 this)

/-- Every admissible `NUM.sqrt` is within one part in `2^32` of the root, as a comparison with the square of any `s`. -/
theorem sqrt_bounds {N : Num} (h : N.Ok) {s x : Rat} (hs : 0 ≤ s) (hx : 0 ≤ x) :
    (s * s + s * s / 2 ^ 32 ≤ x → s ≤ N.sqrt x) ∧ (x + x / 2 ^ 32 ≤ s * s → N.sqrt x ≤ s) := by
  have he := h.sqrt_sq s hs
  exact ⟨fun hle => he ▸ h.sqrt_mono_far _ _ (mul_self_nonneg s) hle, fun hle => he ▸ h.sqrt_mono_far _ _ hx hle⟩

/-- `NUM.sqrt` is non-decreasing on two squares and on two numbers that are none, whichever half of R18's clause it
meets. -/
theorem sqrt_mono_of_iff {N : Num} (h : N.Ok) {x y : Rat} (hx : 0 ≤ x) (hxy : x ≤ y) (hs : IsSquare x ↔ IsSquare y) :
    N.sqrt x ≤ N.sqrt y :=
  h.sqrt_mono.elim (fun hm => hm x y hx hxy hs.1) fun hm => hm x y hx hxy hs.2

/-- Both halves of `Num.Ok`'s `sqrt_mono` together contradict exactness, so it can ask for one of them only. -/
theorem sqrt_mono_not_both {N : Num} (h : N.Ok)
    (hd : ∀ x y, 0 ≤ x → x ≤ y → (IsSquare x → IsSquare y) → N.sqrt x ≤ N.sqrt y)
    (hu : ∀ x y, 0 ≤ x → x ≤ y → (IsSquare y → IsSquare x) → N.sqrt x ≤ N.sqrt y) : False :=
  no_monotone_rational_sqrt N.sqrt h.sqrt_sq fun x y hx hxy => by
    by_cases hs : IsSquare x → IsSquare y
    · exact hd x y hx hxy hs
    · exact hu x y hx hxy fun _ => Classical.byContradiction fun hn => hs fun h' => absurd h' hn

end Sys2Proof.Machine
end

