-- ==== Sys2Proof/Laws/Step.lean ====
section
/-! SUPPORT. Laws of the step and of the commands: what one step can do, said once, and a run as its steps. -/

namespace Sys2Proof.Machine

/-- A run goes on from the state its first step gives. -/
theorem core_run_next {s t : State} {n : Nat} (h : step s = .next t) :
    Sys2Proof.core.run (n + 1) s = Sys2Proof.core.run n t := by
  have aux : ∀ (M : Host.Core) (s t : M.State) (n : Nat), M.step s = .next t → M.run (n + 1) s = M.run n t := by
    intro M s t n h
    simp only [Host.Core.run, h]
  exact aux Sys2Proof.core s t n h

/-- A run of one step is that step. -/
theorem core_run_one (s : State) : Sys2Proof.core.run 1 s = step s := by
  have aux : ∀ (M : Host.Core) (s : M.State), M.run 1 s = M.step s := by
    intro M s
    simp only [Host.Core.run]
    cases M.step s <;> rfl
  exact aux Sys2Proof.core s

/-- Everything a step that goes on can do: the running command is executed, or one event is performed, or nothing
happens (R89, R140, R141). -/
theorem step_next {s t : State} (h : step s = .next t) :
    (∃ w i, s.cmd = some w ∧ s.wait = 0 ∧ decodeWord w = .ok i ∧ exec i s = .next t)
      ∨ ∃ n, (s.cmd = none ∧ n = s.wait ∨ s.wait = n + 1) ∧
          ((s.inputs = [] ∧ t = { s with wait := n })
            ∨ ∃ e rest, s.inputs = e :: rest ∧ perform { s with wait := n, inputs := rest } e = .next t) := by
  have hb : ∀ n, busCycle { s with wait := n } = .next t →
      (s.inputs = [] ∧ t = { s with wait := n })
        ∨ ∃ e rest, s.inputs = e :: rest ∧ perform { s with wait := n, inputs := rest } e = .next t := by
    intro n hn
    cases hi : s.inputs with
    | nil => simp [busCycle, hi] at hn; exact .inl ⟨rfl, hn ▸ rfl⟩
    | cons e rest => simp [busCycle, hi] at hn; exact .inr ⟨e, rest, rfl, hn⟩
  have hc : s.cmd = none ∨ ∃ w, s.cmd = some w := by cases s.cmd <;> simp
  rcases hc with hc | ⟨w, hc⟩
  · have hs : step s = busCycle { s with wait := s.wait } := by simp only [step, hc]
    exact .inr ⟨s.wait, .inl ⟨hc, rfl⟩, hb s.wait (hs ▸ h)⟩
  · have hw : s.wait = 0 ∨ ∃ n, s.wait = n + 1 := by cases s.wait <;> simp
    rcases hw with hw | ⟨n, hw⟩
    · simp only [step, hc, hw, runLatched] at h
      split at h
      · rename_i i hi; exact .inl ⟨w, i, hc, hw, hi, h⟩
      · cases h
    · have hs : step s = busCycle { s with wait := n } := by simp only [step, hc, hw]
      exact .inr ⟨n, .inr hw, hb n (hs ▸ h)⟩

/-- Everything a command that goes on can do to the block (R142 to R148). -/
theorem exec_next {i : Instr} {s t : State} (h : exec i s = .next t) :
    (i = .nop ∧ t = s.complete)
      ∨ (i = .resetEnc ∧ t = { s with enc := Enc.reset Config.profile }.complete)
      ∨ (i = .resetDec ∧ t = { s with dec := Dec.reset Config.profile }.complete)
      ∨ (i = .encode ∧ ∃ pcm, readPcmIn Config.profile s.mem = .ok pcm ∧ t = s.encodeWith pcm)
      ∨ (i = .decode ∧ ∃ ws, readIdx Config.profile s.mem = .ok ws ∧
          ((∃ k0, firstBadSlot Config.profile ws = some k0 ∧ t = s.rejectIdx k0)
            ∨ (firstBadSlot Config.profile ws = none ∧ t = s.decodeWith ws)))
      ∨ (i = .conceal ∧ t = { s with
          dec := (concealFrame Config.profile Config.num s.dec).2
          mem := writePcmOut s.mem (concealFrame Config.profile Config.num s.dec).1 }.complete) := by
  cases i
  · exact .inl ⟨rfl, by injection h with h; exact h.symm⟩
  · exact .inr (.inl ⟨rfl, by injection h with h; exact h.symm⟩)
  · exact .inr (.inr (.inl ⟨rfl, by injection h with h; exact h.symm⟩))
  · simp only [exec, execEncode] at h
    split at h
    · cases h
    · rename_i pcm hp
      exact .inr (.inr (.inr (.inl ⟨rfl, pcm, hp, by injection h with h; exact h.symm⟩)))
  · simp only [exec, execDecode] at h
    split at h
    · cases h
    · rename_i ws hws
      refine .inr (.inr (.inr (.inr (.inl ⟨rfl, ws, hws, ?_⟩))))
      split at h
      · rename_i k0 hk
        exact .inl ⟨k0, hk, by injection h with h; exact h.symm⟩
      · rename_i hk
        exact .inr ⟨hk, by injection h with h; exact h.symm⟩
  · simp only [exec, execConceal] at h
    injection h with h
    exact .inr (.inr (.inr (.inr (.inr ⟨rfl, h.symm⟩))))

end Sys2Proof.Machine
end

