-- ==== Sys2Proof/Laws/Frames.lean ====
section
/-! SUPPORT. Laws of the commands' operands: when a frame or an IndexSet is in the buffers, what the index check finds,
and what the buffers hold after a frame or an IndexSet is written. -/

namespace Sys2Proof.Machine

/-- The commands read `PCM_IN` exactly where it holds a frame (R40, R43). -/
theorem readPcmIn_ok {P : Profile} {m : Memory} {pcm : List Sample} :
    readPcmIn P m = .ok pcm ↔ HoldsPcm P m pcm := by
  rw [readPcmIn, readRun_ok_iff]
  exact ⟨fun h => ⟨h.1, h.2⟩, fun h => ⟨h.1, h.2⟩⟩

/-- The commands read `IDX` exactly where it holds an IndexSet (R42, R43). -/
theorem readIdx_ok {P : Profile} {m : Memory} {ws : List Word} :
    readIdx P m = .ok ws ↔ HoldsSlots P m ws := by
  rw [readIdx, readRun_ok_iff]
  exact ⟨fun h => ⟨h.1, h.2⟩, fun h => ⟨h.1, h.2⟩⟩

theorem HoldsSlots.unique {P : Profile} {m : Memory} {ws vs : List Word} (h : HoldsSlots P m ws)
    (h' : HoldsSlots P m vs) : ws = vs := by
  have := readIdx_ok.2 h
  rw [readIdx_ok.2 h'] at this
  injection this with this
  exact this.symm

theorem slotOk_iff (P : Profile) (k : Nat) (w : Word) : slotOk P k w = true ↔ SlotInRange P k w := by
  simp [slotOk, SlotInRange]

/-- The index check finds nothing exactly where every slot is in range (R147). -/
theorem firstBadSlot_none {P : Profile} {ws : List Word} (hl : ws.length = P.nidx) :
    firstBadSlot P ws = none ↔ ∀ k (h : k < ws.length), SlotInRange P k ws[k] := by
  simp only [firstBadSlot, List.find?_eq_none, List.mem_range, Bool.not_eq_true, Bool.not_eq_false',
    ← hl, slotOk_iff]
  refine forall_congr' fun k => forall_congr' fun hk => ?_
  rw [List.getD_eq_getElem _ _ hk]

/-- The index check finds the smallest slot out of range (R147). -/
theorem firstBadSlot_some {P : Profile} {ws : List Word} (hl : ws.length = P.nidx) {k0 : Nat} :
    firstBadSlot P ws = some k0 ↔ ∃ h : k0 < ws.length, ¬SlotInRange P k0 ws[k0]
      ∧ ∀ k (h : k < ws.length), k < k0 → SlotInRange P k ws[k] := by
  rw [firstBadSlot, List.find?_range_eq_some, ← hl]
  constructor
  · rintro ⟨h1, h2, h3⟩
    rw [List.mem_range] at h2
    refine ⟨h2, ?_, fun k hk hlt => ?_⟩
    · rw [← slotOk_iff, List.getD_eq_getElem _ _ h2] at *
      simpa using h1
    · have := h3 k hlt
      rw [List.getD_eq_getElem _ _ hk] at this
      rw [← slotOk_iff]
      simpa using this
  · rintro ⟨h1, h2, h3⟩
    refine ⟨?_, List.mem_range.2 h1, fun k hk => ?_⟩
    · rw [← slotOk_iff] at h2
      rw [List.getD_eq_getElem _ _ h1]
      simpa using h2
    · have := h3 k (by omega) hk
      rw [← slotOk_iff] at this
      rw [List.getD_eq_getElem _ _ (by omega)]
      simpa using this

/-- Every sample of `PCM_OUT` after a frame is written (R41, R347). -/
theorem read16_writePcmOut {m : Memory} {pcm : List Int} {n : Nat} (h : n < pcm.length) :
    (writePcmOut m pcm).read16 (pcmOutOff n) = some (BitVec.ofInt 16 (pcm.getD n 0)) := by
  have := Memory.read16_writeSamples (m := m) (a := pcmOutOff 0) (vs := pcm.map (BitVec.ofInt 16)) (n := n) (by simpa)
  rw [List.getD_eq_getElem _ _ h]
  simpa [writePcmOut, pcmOutOff] using this

/-- Every byte outside a frame written to `PCM_OUT` stays. -/
theorem read_writePcmOut {m : Memory} {pcm : List Int} {a : Nat}
    (h : a < pcmOutOff 0 ∨ pcmOutOff 0 + 2 * pcm.length ≤ a) : (writePcmOut m pcm).read a = m.read a :=
  Memory.read_writeSamples_of_ne (by simpa using h)

/-- Every slot of `IDX` after an IndexSet is written (R42). -/
theorem read32_writeIdx {m : Memory} {ix : List Nat} {k : Nat} (h : k < ix.length) :
    (writeIdx m ix).read32 (idxOff k) = some (BitVec.ofNat 32 (ix.getD k 0)) := by
  have := Memory.read32_writeWords (m := m) (a := idxOff 0) (vs := ix.map (BitVec.ofNat 32)) (n := k) (by simpa)
  rw [List.getD_eq_getElem _ _ h]
  simpa [writeIdx, idxOff] using this

/-- Every byte outside an IndexSet written to `IDX` stays. -/
theorem read_writeIdx {m : Memory} {ix : List Nat} {a : Nat} (h : a < idxOff 0 ∨ idxOff 0 + 4 * ix.length ≤ a) :
    (writeIdx m ix).read a = m.read a :=
  Memory.read_writeWords_of_ne (by simpa using h)

theorem writePcmOut_wf {m : Memory} (h : m.wf = true) (pcm : List Int) : (writePcmOut m pcm).wf = true :=
  Memory.writeSamples_wf h _ _

theorem writeIdx_wf {m : Memory} (h : m.wf = true) (ix : List Nat) : (writeIdx m ix).wf = true :=
  Memory.writeWords_wf h _ _

/-- Every offset a run of samples lists is its own or was listed before. -/
theorem Memory.mem_writeSamples {m : Memory} {a : Nat} {vs : List Sample} {c : Host.Cell}
    (h : c ∈ m.writeSamples a vs) : (a ≤ c.1 ∧ c.1 < a + 2 * vs.length) ∨ c ∈ m := by
  induction vs generalizing m a with
  | nil => exact .inr h
  | cons v vs ih =>
    simp only [List.length_cons]
    rcases ih h with h | h
    · exact .inl (by omega)
    · rcases Memory.mem_write h with h | h
      · exact .inl (by omega)
      · rcases Memory.mem_write h with h | h
        · exact .inl (by omega)
        · exact .inr h

theorem Memory.mem_write16 {m : Memory} {a : Nat} {v : Sample} {c : Host.Cell} (h : c ∈ m.write16 a v) :
    (a ≤ c.1 ∧ c.1 < a + 2) ∨ c ∈ m := by
  rcases Memory.mem_write h with h | h
  · exact .inl (by omega)
  · rcases Memory.mem_write h with h | h
    · exact .inl (by omega)
    · exact .inr h

theorem Memory.mem_write32 {m : Memory} {a : Nat} {v : Word} {c : Host.Cell} (h : c ∈ m.write32 a v) :
    (a ≤ c.1 ∧ c.1 < a + 4) ∨ c ∈ m := by
  rcases Memory.mem_write16 h with h | h
  · exact .inl (by omega)
  · rcases Memory.mem_write16 h with h | h
    · exact .inl (by omega)
    · exact .inr h

/-- Every offset a run of words lists is its own or was listed before. -/
theorem Memory.mem_writeWords {m : Memory} {a : Nat} {vs : List Word} {c : Host.Cell}
    (h : c ∈ m.writeWords a vs) : (a ≤ c.1 ∧ c.1 < a + 4 * vs.length) ∨ c ∈ m := by
  induction vs generalizing m a with
  | nil => exact .inr h
  | cons v vs ih =>
    simp only [List.length_cons]
    rcases ih h with h | h
    · exact .inl (by omega)
    · rcases Memory.mem_write32 h with h | h
      · exact .inl (by omega)
      · exact .inr h

end Sys2Proof.Machine
end

