-- ==== Sys2Proof/Laws/PerInstr.lean ====
section
/-! SUPPORT. The per-instruction family `RoundTrip`: each command, as syntax, is well formed, its word is legal and
decodes to it, alone and at the head of a run of bytes, and as an opcode-table word (R110 to R112, R84). -/

namespace Sys2Proof.Laws

/-- What the family says of one command. -/
def RoundTrip.Statement (i : Instr) : Prop :=
  i.wf = true ∧ wordWf (encode i) = true ∧ decodeWord (encode i) = .ok i
    ∧ (∀ rest, decodeBytes (encodeBytes i ++ rest) = .ok (i, rest))
    ∧ decodeTableWord 32 (encode i).toNat = some i

theorem RoundTrip.nop : RoundTrip.Statement .nop := ⟨rfl, rfl, rfl, fun _ => rfl, rfl⟩
theorem RoundTrip.resetEnc : RoundTrip.Statement .resetEnc := ⟨rfl, rfl, rfl, fun _ => rfl, rfl⟩
theorem RoundTrip.resetDec : RoundTrip.Statement .resetDec := ⟨rfl, rfl, rfl, fun _ => rfl, rfl⟩
theorem RoundTrip.encode : RoundTrip.Statement .encode := ⟨rfl, rfl, rfl, fun _ => rfl, rfl⟩
theorem RoundTrip.decode : RoundTrip.Statement .decode := ⟨rfl, rfl, rfl, fun _ => rfl, rfl⟩
theorem RoundTrip.conceal : RoundTrip.Statement .conceal := ⟨rfl, rfl, rfl, fun _ => rfl, rfl⟩

end Sys2Proof.Laws
end

