-- ==== Sys2Proof/Laws/Stages.lean ====
section
/-! SUPPORT. Laws of the stages: the sizes of what they give and the ranges of the indices they find. -/

namespace Sys2Proof.Machine

theorem length_highpass (P : Profile) (m : HpfMem) (s : List Rat) : (highpass P m s).1.length = s.length := by
  induction s generalizing m with
  | nil => rfl
  | cons x s ih => simp only [highpass, List.length_cons, ih]

theorem length_preemph (P : Profile) (h1 p1 : Rat) (h : List Rat) : (preemph P h1 p1 h).1.length = h.length := by
  induction h generalizing h1 p1 with
  | nil => rfl
  | cons x s ih => simp only [preemph, List.length_cons, ih]

@[simp] theorem length_residual (P : Profile) (a h x : List Rat) : (residual P a h x).length = x.length := by
  simp [residual]

theorem length_weightFrom (P : Profile) (a mem ru : List Rat) :
    (weightFrom P a mem ru).1.length = ru.length ∧ (weightFrom P a mem ru).2.length = mem.length := by
  induction ru generalizing mem with
  | nil => exact ⟨rfl, rfl⟩
  | cons r ru ih => simp only [weightFrom, List.length_cons, (ih _).1, (ih _).2, length_push, and_self]

@[simp] theorem length_decimate (P : Profile) (m pw : List Rat) : (decimate P m pw).length = P.frszd := by
  simp [decimate]

@[simp] theorem length_lsp2a (P : Profile) (N : Num) (l : List Rat) : (lsp2a P N l).length = P.lpco + 1 := by
  simp [lsp2a]

@[simp] theorem length_lspError (P : Profile) (i j k : Nat) : (lspError P i j k).length = P.lpco := by simp [lspError]

@[simp] theorem length_vecAdd (P : Profile) (u v : List Rat) : (vecAdd P u v).length = P.lpco := by simp [vecAdd]

@[simp] theorem length_vecSub (P : Profile) (u v : List Rat) : (vecSub P u v).length = P.lpco := by simp [vecSub]

@[simp] theorem length_lspPredict (P : Profile) (pm : List (List Rat)) : (lspPredict P pm).length = P.lpco := by
  simp [lspPredict]

/-- A shift of the LSP predictor memory keeps its size (R201). -/
theorem lspShift_sized {P : Profile} {pm : List (List Rat)} (h : LsppmSized P pm)
    (q : List Rat) : LsppmSized P (lspShift P pm q) := by
  refine ⟨by simp [lspShift], fun row hr => ?_⟩
  obtain ⟨i, hi, rfl⟩ := mem_tab.1 hr
  have hi' : i < pm.length := h.1 ▸ hi
  have hrow := h.2 _ (List.getElem_mem hi')
  rw [List.getD_eq_getElem _ _ hi']
  simp only [List.length_take, List.length_cons, hrow]
  omega

/-- What a shift leaves at each place of the memory (R201). -/
theorem elt2_lspShift {P : Profile} {pm : List (List Rat)} {q : List Rat} {i k : Nat} (hi : i < P.lpco)
    (hk : k < P.lspporder) : elt2 (lspShift P pm q) i k = if k = 0 then elt q i else elt2 pm i (k - 1) := by
  simp only [elt2, lspShift, getD_tab _ _ hi]
  cases k with
  | zero => simp [elt, List.getD, hk]
  | succ k => simp [elt, List.getD, hk]

/-- The first-stage row is in range (R202). -/
theorem lspSearch1_lt {P : Profile} (h : 1 ≤ P.lspcb1sz) (e : List Rat) : lspSearch1 P e < P.lspcb1sz := argmin_lt h _

/-- The high second-stage row is in range (R205). -/
theorem lspSearch22_lt {P : Profile} (h : 1 ≤ P.lspcb22sz) (e : List Rat) : lspSearch22 P e < P.lspcb22sz := argmin_lt h _

/-- The low second-stage row is eligible, or no row is and it is the fallback row (R203). -/
theorem lspSearch21_cases (P : Profile) (base e2 : List Rat) :
    (lspSearch21 P base e2 < P.lspcb21sz ∧ eligible (lowSplit P base (lspSearch21 P base e2)) = true)
      ∨ (lspSearch21 P base e2 = P.lsp21Fallback ∧ ∀ j < P.lspcb21sz, eligible (lowSplit P base j) = false) := by
  unfold lspSearch21
  split
  · rename_i h
    rw [List.filter_eq_nil_iff] at h
    exact .inr ⟨rfl, fun j hj => by simpa using h j (List.mem_range.2 hj)⟩
  · rename_i j js h
    have hm := argminFrom_mem (fun j => sumTo P.split1 fun i => sq (elt e2 i - elt2 P.lspcb21 j i)) j js
    rw [← h, List.mem_filter, List.mem_range] at hm
    exact .inl hm

/-- The refined pitch period is a lag (R245, R246). -/
theorem refine_lagOk {P : Profile} (h : P.minpp ≤ P.maxpp) (pwb : List Rat) (kc : Nat) : LagOk P (refine P pwb kc) := by
  have hc := clamp_mem (v := P.decf * kc) h
  unfold refine
  simp only
  split
  · exact hc
  · rename_i t ts hl
    split_ifs
    · exact hc
    · have hm : argmaxFrom (fineScore P pwb) t ts ∈ fineLags P kc := by
        rw [hl]; exact argminFrom_mem _ t ts
      rw [fineLags, List.mem_filter, List.mem_range'_1] at hm
      exact ⟨hm.1.1, by omega⟩

/-- The tap row is in range (R248). -/
theorem tapQuantize_lt {P : Profile} (h : 1 ≤ P.ppcbsz) (db : List Rat) (pp : Nat) : tapQuantize P db pp < P.ppcbsz :=
  argmin_lt h _

/-- The walk of the limiter goes down only (R273). -/
theorem limitWalk_le (P : Profile) (lgpe prev lim : Rat) (p : Nat) : limitWalk P lgpe prev lim p ≤ p := by
  induction p with
  | zero => exact le_rfl
  | succ p ih =>
    simp only [limitWalk]
    split_ifs
    · exact ih.trans (Nat.le_succ p)
    · exact le_rfl

/-- The walk ends at a compliant position or at position 0 (R273). -/
theorem limitWalk_compliant (P : Profile) (lgpe prev lim : Rat) (p : Nat) :
    limitWalk P lgpe prev lim p = 0 ∨ lgpe + lgAt P (limitWalk P lgpe prev lim p) - prev ≤ lim := by
  induction p with
  | zero => exact .inl rfl
  | succ p ih =>
    simp only [limitWalk]
    split_ifs with h
    · exact ih
    · exact .inr (not_lt.1 h)

/-- The walk does not leave a position it ended at (R286). -/
theorem limitWalk_idem (P : Profile) (lgpe prev lim : Rat) (p : Nat) :
    limitWalk P lgpe prev lim (limitWalk P lgpe prev lim p) = limitWalk P lgpe prev lim p := by
  rcases h : limitWalk P lgpe prev lim p with _ | n
  · rfl
  · rcases limitWalk_compliant P lgpe prev lim p with h0 | h0
    · omega
    · rw [h] at h0
      simp only [limitWalk, if_neg (not_lt.2 h0)]

/-- A row below `LGCBSZ` stands at every position of the monotone order (R11). -/
theorem lgord_getD_lt {P : Profile} (h : P.lgord.Perm (List.range P.lgcbsz)) {p : Nat} (hp : p < P.lgcbsz) :
    P.lgord.getD p 0 < P.lgcbsz := by
  have hl : p < P.lgord.length := by simpa [h.length_eq] using hp
  rw [List.getD_eq_getElem _ _ hl]
  exact List.mem_range.1 (h.mem_iff.1 (List.getElem_mem hl))

/-- `IORD` inverts `LGORD` (R119). -/
theorem iord_lgord {P : Profile} (h : P.lgord.Perm (List.range P.lgcbsz)) {p : Nat} (hp : p < P.lgcbsz) :
    iord P (P.lgord.getD p 0) = p := by
  have hl : p < P.lgord.length := by simpa [h.length_eq] using hp
  have hn : P.lgord.Nodup := h.nodup_iff.2 List.nodup_range
  rw [List.getD_eq_getElem _ _ hl, iord]
  exact hn.idxOf_getElem p hl

theorem length_gainShift {P : Profile} {g : GainState} (hg : g.lgpm.length = P.lgporder)
    (err lgq : Rat) : (gainShift P g err lgq).lgpm.length = P.lgporder := by
  simp only [gainShift, List.length_take, List.length_cons, hg]
  omega

@[simp] theorem levelUpdate_lgpm (P : Profile) (g : GainState) (lg : Rat) : (levelUpdate P g lg).lgpm = g.lgpm := rfl
@[simp] theorem levelUpdate_prevlg0 (P : Profile) (g : GainState) (lg : Rat) :
    (levelUpdate P g lg).prevlg0 = g.prevlg0 := rfl
@[simp] theorem levelUpdate_prevlg1 (P : Profile) (g : GainState) (lg : Rat) :
    (levelUpdate P g lg).prevlg1 = g.prevlg1 := rfl

/-- One sample of the noise-feedback filters keeps the sizes of the memories (R311). -/
theorem nfSample_lengths (P : Profile) (q : NfParams) (m : NfMem) (d c : Rat) :
    (nfSample P q m d c).2.stnfm.length = m.stnfm.length ∧ (nfSample P q m d c).2.ltsym.length = m.ltsym.length
      ∧ (nfSample P q m d c).2.ltnfm.length = m.ltnfm.length := by
  simp [nfSample]

theorem nfRun_lengths (P : Profile) (q : NfParams) (m : NfMem) (xs : List (Rat × Rat)) :
    (nfRun P q m xs).1.length = xs.length ∧ (nfRun P q m xs).2.stnfm.length = m.stnfm.length
      ∧ (nfRun P q m xs).2.ltsym.length = m.ltsym.length ∧ (nfRun P q m xs).2.ltnfm.length = m.ltnfm.length := by
  induction xs generalizing m with
  | nil => exact ⟨rfl, rfl, rfl, rfl⟩
  | cons x xs ih =>
    obtain ⟨h1, h2, h3, h4⟩ := ih (nfSample P q m x.1 x.2).2
    obtain ⟨g1, g2, g3⟩ := nfSample_lengths P q m x.1 x.2
    simp only [nfRun, List.length_cons, h1, h2, h3, h4, g1, g2, g3, and_self]

theorem mem_excCandidates {P : Profile} {c : Nat × Bool} : c ∈ excCandidates P ↔ c.1 < P.cbsz := by
  obtain ⟨j, b⟩ := c
  cases b <;> simp [excCandidates]

/-- The winner of the excitation search is a row (R314). -/
theorem excSearch_lt {P : Profile} (h : 0 < P.cbsz) (tz : List Rat) (zsr : List (List Rat)) (gq : Rat) :
    (excSearch P tz zsr gq).1 < P.cbsz := by
  rcases List.mem_cons.1 (argminFrom_mem (excScore P tz zsr gq) (0, false) (excCandidates P)) with h' | h'
  · rw [excSearch, h']; exact h
  · exact mem_excCandidates.1 h'

theorem excIndex_lt {P : Profile} {c : Nat × Bool} (h : c.1 < P.cbsz) : excIndex P c < 2 * P.cbsz := by
  obtain ⟨j, b⟩ := c
  cases b <;> simp only [excIndex] at * <;> simp <;> omega

@[simp] theorem length_contribution (P : Profile) (gq : Rat) (c : Nat × Bool) : (contribution P gq c).length = P.vdim := by
  simp [contribution]

theorem ltSynth_lengths (bq : List Rat) (pp : Nat) (m cs : List Rat) :
    (ltSynth bq pp m cs).1.length = cs.length ∧ (ltSynth bq pp m cs).2.length = m.length := by
  induction cs generalizing m with
  | nil => exact ⟨rfl, rfl⟩
  | cons c cs ih => simp only [ltSynth, List.length_cons, (ih _).1, (ih _).2, length_push, and_self]

theorem stFilter_lengths (q : Nat) (aqi M us : List Int) :
    (stFilter q aqi M us).y.length = us.length ∧ (stFilter q aqi M us).yraw.length = us.length
      ∧ (stFilter q aqi M us).mem.length = M.length := by
  induction us generalizing M with
  | nil => exact ⟨rfl, rfl, rfl⟩
  | cons u us ih =>
    obtain ⟨h1, h2, h3⟩ := ih (push M (sat16 (rndShr (stAcc q aqi M u) q)))
    simp only [stFilter, List.length_cons, h1, h2, h3, length_push, and_self]

theorem length_deemph (P : Profile) (y1 z1 : Int) (ys : List Int) : (deemph P y1 z1 ys).1.length = ys.length := by
  induction ys generalizing y1 z1 with
  | nil => rfl
  | cons y ys ih => simp only [deemph, List.length_cons, ih]

/-- The synthesis engine gives a sample for each sample of the excitation and keeps its memory's size (R348). -/
theorem synthesize_lengths (P : Profile) (s : SynState) (aq dq : List Rat) :
    (synthesize P s aq dq).1.length = dq.length ∧ (synthesize P s aq dq).2.stsym.length = s.stsym.length := by
  simp [synthesize, SynMem.toState, length_deemph, stFilter_lengths, excFixed, rescale, SynState.toMem]

/-- The retry loop ends at a shift between 0 and the one it starts with (R345). -/
theorem retryDelta_le (m : SynMem) (n : Nat) : retryDelta m n ≤ n := by
  induction n with
  | zero => exact le_rfl
  | succ n ih =>
    simp only [retryDelta]
    split_ifs
    · exact ih.trans (Nat.le_succ n)
    · exact le_rfl

theorem chooseDelta_mem {P : Profile} (h : P.sexpMin ≤ P.sexpMax) (sexp : Int) (peak : Nat) :
    P.sexpMin ≤ sexp + chooseDelta P sexp peak ∧ sexp + chooseDelta P sexp peak ≤ P.sexpMax := by
  have := clamp_mem (v := sexp + if peak = 0 then P.sexpMax - sexp else headroom peak) h
  simp only [chooseDelta]
  omega

/-- The exponent stays in its range (R341, R345). -/
theorem synthesize_sexp {P : Profile} (h : P.sexpMin ≤ P.sexpMax) {s : SynState} (hs : P.sexpMin ≤ s.sexp)
    (aq dq : List Rat) :
    P.sexpMin ≤ (synthesize P s aq dq).2.sexp ∧ (synthesize P s aq dq).2.sexp ≤ P.sexpMax := by
  simp only [synthesize, SynMem.toState, frameDelta]
  generalize peakOf _ = peak
  have hc := chooseDelta_mem h s.sexp peak
  simp only [validDelta]
  split_ifs with hd
  · have := retryDelta_le s.toMem (chooseDelta P s.sexp peak).toNat
    omega
  · exact hc

theorem length_lcgRun (P : Profile) (n : Nat) (x : Word) : (lcgRun P n x).1.length = n := by
  induction n generalizing x with
  | zero => rfl
  | succ n ih => simp only [lcgRun, List.length_cons, ih]

/-- A concealed frame is a whole frame (R148). -/
theorem length_concealFrame (P : Profile) (N : Num) (d : Dec) : (concealFrame P N d).1.length = P.frsz := by
  simp only [concealFrame, synthesize_lengths, ltSynth_lengths, scaledNoise, List.length_map, length_lcgRun]

theorem pairwise_append_one {l : List Rat} {x : Rat} : (l ++ [x]).Pairwise (· < ·) ↔ l.Pairwise (· < ·) ∧ ∀ y ∈ l, y < x := by
  simp [List.pairwise_append]

/-- A loop that appends one element a turn appends as many as it turns. -/
theorem foldl_append_length {σ α : Type} (f : σ → Nat → σ) (out : σ → List α) (c : Nat)
    (h : ∀ s k, (out (f s k)).length = (out s).length + c) (n : Nat) (s : σ) :
    (out ((List.range n).foldl f s)).length = (out s).length + n * c := by
  induction n with
  | zero => simp
  | succ n ih => rw [List.range_succ, List.foldl_append, List.foldl_cons, List.foldl_nil, h, ih]; ring

/-- What holds at the start of a loop and is kept by each turn holds at its end. -/
theorem foldl_range_induct {σ : Type} {f : σ → Nat → σ} {Q : σ → Prop} {n : Nat} {s : σ} (h0 : Q s)
    (h : ∀ s k, k < n → Q s → Q (f s k)) : Q ((List.range n).foldl f s) := by
  induction n with
  | zero => simpa using h0
  | succ n ih =>
    rw [List.range_succ, List.foldl_append, List.foldl_cons, List.foldl_nil]
    exact h _ n (Nat.lt_succ_self n) (ih fun s k hk => h s k (hk.trans (Nat.lt_succ_self n)))

/-! ## The LSP vector and its filter -/

theorem everyOther_eq_tab (l : List Rat) : everyOther l = tab ((l.length + 1) / 2) fun k => elt l (2 * k) := by
  induction l using everyOther.induct with
  | case1 => rfl
  | case2 x => simp [everyOther, tab, elt]
  | case3 x y rest ih =>
    rw [everyOther, ih, tab, tab, show (x :: y :: rest).length + 1 = rest.length + 1 + 2 by simp,
      show (rest.length + 1 + 2) / 2 = (rest.length + 1) / 2 + 1 by omega, List.range_succ_eq_map]
    simp [elt, List.getD, Function.comp_def, Nat.mul_succ]

theorem elt_polyAdd (p q : List Rat) (i : Nat) : elt (polyAdd p q) i = elt p i + elt q i := by
  induction p, q using polyAdd.induct generalizing i with
  | case1 q => simp [polyAdd, elt]
  | case2 p h => cases p <;> simp [polyAdd, elt]
  | case3 a p b q ih => cases i with
    | zero => rfl
    | succ i => exact ih i

theorem elt_map_mul (a : Rat) (q : List Rat) (i : Nat) : elt (q.map (a * ·)) i = a * elt q i := by
  simp only [elt, List.getD, List.getElem?_map]
  cases q[i]? <;> simp

/-- `LSP2A` inverts the definition of the LSP vector (R181, R182): the filter of an exact LSP vector of `a` is `a`. -/
theorem lsp2a_of_isLsp {P : Profile} {N : Num} {a l : List Rat} (hl : l.length = P.lpco) (h : IsLsp N.cospi a l) :
    lsp2a P N l = a := by
  obtain ⟨⟨ha, he⟩, -, -, hP, hQ⟩ := h
  have e0 : everySecond P 0 l = everyOther l := by
    rw [everyOther_eq_tab, everySecond, show (l.length + 1) / 2 = P.lpco / 2 by omega]
    rfl
  have e1 : everySecond P 1 l = everyOther l.tail := by
    rw [everyOther_eq_tab, everySecond, List.length_tail, show (l.length - 1 + 1) / 2 = P.lpco / 2 by omega]
    exact tab_congr fun k _ => by simp [elt, List.getD, List.getElem?_tail]
  refine List.ext_getElem (by simp [ha, hl]) fun i h1 h2 => ?_
  simp only [lsp2a, lspProduct, e0, e1, ← hP, ← hQ, sumPoly, diffPoly, elt_polyAdd, elt_map_mul, tab, List.getElem_map, List.getElem_range]
  simp only [elt, List.getD_eq_getElem _ _ h2]
  ring

/-- On a filter whose `P` and `Q` lack the interlaced roots, `A2LSP` keeps the previous LSP vector (R180, R181). -/
theorem a2lsp_of_not_interlaced {N : Num} (h : N.Ok) {a : List Rat} (ha : a.length % 2 = 1) (hi : ¬Interlaced a)
    (lsplast : List Rat) : a2lsp N a lsplast = lsplast := by
  rw [a2lsp, h.lsproots_fails a ha hi, Option.getD_none]

/-! ## What `DECINFO` tells of the limiter counter (R411) -/

/-- The two counters of the trap machine between subframes: the limiter counter is below its threshold, and 0 while the
convergence timer runs. -/
abbrev CountersShown (P : Profile) (t : TrapState) : Prop := t.nclglim < P.nclglimTrapped ∧ (t.lctimer ≠ 0 → t.nclglim = 0)

/-- The trap machine leaves its counters so, whatever they were (R287). -/
theorem countersShown_trapStep {P : Profile} (h : 1 ≤ P.nclglimTrapped) (t : TrapState) (g : GainState) (lgpe : Rat)
    (p : Nat) : CountersShown P (trapStep P t g lgpe p).2 := by
  unfold trapStep
  dsimp only
  split_ifs with ht hl hn hn
  · exact ⟨h, fun _ => rfl⟩
  · exact ⟨h, fun _ => rfl⟩
  · exact ⟨not_le.1 hn, fun h => absurd (Nat.pos_of_ne_zero h) ht⟩
  · exact ⟨h, fun _ => rfl⟩
  · exact ⟨not_le.1 hn, fun _ => rfl⟩

theorem trap_decSubframe (P : Profile) (N : Num) (bq : List Rat) (pp : Nat) (ix : List Nat) (l : DecLoop) (s : Nat) :
    ∃ g lgpe p, (decSubframe P N bq pp ix l s).trap = (trapStep P l.trap g lgpe p).2 := by
  have hv : ∀ (vs : List Nat) gq m, (vs.foldl (decVector P bq pp ix gq s) m).trap = m.trap := fun vs gq => by
    induction vs with
    | nil => exact fun _ => rfl
    | cons v vs ih => exact fun m => ih _
  exact ⟨_, _, _, hv _ _ _⟩

/-- A decoded frame keeps them so. -/
theorem countersShown_decodeFrame {P : Profile} (h : 1 ≤ P.nclglimTrapped) (N : Num) (d : Dec) (ix : List Nat)
    (hd : CountersShown P { nclglim := d.nclglim, lctimer := d.lctimer }) :
    CountersShown P { nclglim := (decodeFrame P N d ix).2.nclglim, lctimer := (decodeFrame P N d ix).2.lctimer } := by
  have hf : ∀ (ss : List Nat) bq pp (l : DecLoop), CountersShown P l.trap →
      CountersShown P (ss.foldl (decSubframe P N bq pp ix) l).trap := fun ss bq pp => by
    induction ss with
    | nil => exact fun _ hl => hl
    | cons s ss ih =>
      intro l _
      obtain ⟨g, lgpe, p, ht⟩ := trap_decSubframe P N bq pp ix l s
      exact ih _ (ht ▸ countersShown_trapStep h l.trap g lgpe p)
  exact hf _ _ _ _ hd

/-- What a host reads of `D.nclglim` through `DECINFO` (R411, R39): a timer field that is not 0 says that the counter
is 0, and one that is 0 says that the timer does not run and the counter is below its threshold. -/
theorem decinfo_limiter {P : Profile} {d : Dec} (hd : CountersShown P { nclglim := d.nclglim, lctimer := d.lctimer }) :
    ((decinfoWord d).extractLsb' 24 8 ≠ 0 → d.nclglim = 0)
      ∧ ((decinfoWord d).extractLsb' 24 8 = 0 → d.lctimer = 0 ∧ d.nclglim < P.nclglimTrapped) := by
  have h0 : (decinfoWord d).extractLsb' 24 8 = 0 ↔ d.lctimer = 0 := by
    rw [(fields_8_8_16 (v := decinfoWord d) rfl).2.2, ← BitVec.toNat_inj, BitVec.toNat_ofNat]
    simp
    omega
  exact ⟨fun h => hd.2 (mt h0.2 h), fun h => ⟨h0.1 h, hd.1⟩⟩

end Sys2Proof.Machine
end

