-- ==== Sys2Proof/Laws/Pipeline.lean ====
section
/-! SUPPORT. Laws of the two pipelines: the sizes of the frames and IndexSets they give, and the ranges of the indices
that ENCODE finds (R115, R116). -/

namespace Sys2Proof.Machine

theorem nidx_of_wf {P : Profile} (h : P.Wf) : P.nidx = 5 + P.nsf + P.nsf * P.nvpsf := by
  rw [Profile.nidx, h.dims.nvpf_eq]

/-- The vectors of a subframe append an index each and leave the gain part alone (R145). -/
theorem encVectors (P : Profile) (fr : EncFrame) (zsr : List (List Rat)) (gq : Rat) (s n : Nat) (l : EncLoop) :
    let r := (List.range n).foldl (encVector P fr zsr gq s) l
    r.ei.length = l.ei.length + n ∧ r.gi = l.gi ∧ r.gain = l.gain := by
  refine ⟨?_, ?_, ?_⟩
  · simpa using foldl_append_length (encVector P fr zsr gq s) EncLoop.ei 1 (by intro s k; simp [encVector]) n l
  · exact foldl_range_induct (Q := fun x : EncLoop => x.gi = l.gi) rfl fun x k _ h => h
  · exact foldl_range_induct (Q := fun x : EncLoop => x.gain = l.gain) rfl fun x k _ h => h

/-- The index of a gain is a row of the codebook (R116, R277). -/
theorem gainQuantize_lt {P : Profile} (h : P.Wf) (N : Num) (g : GainState) (es : Rat) :
    (gainQuantize P N g es).1 < P.lgcbsz := by
  have h1 : 1 ≤ P.lgcbsz := h.widths.lgcb.1
  exact lgord_getD_lt h.gain.lgord ((limitWalk_le _ _ _ _ _).trans_lt (argmin_lt h1 _))

theorem cbsz_pos {P : Profile} (h : P.Wf) : 0 < P.cbsz := by rw [h.widths.cbsz_eq]; positivity

/-- What the subframe loop of ENCODE gives: an index of each gain and of each vector, all in range (R116, R145). -/
theorem encLoop_range {P : Profile} (h : P.Wf) (N : Num) (fr : EncFrame) (l0 : EncLoop) (h0 : l0.gi = [] ∧ l0.ei = []) :
    let l := (List.range P.nsf).foldl (encSubframe P N fr) l0
    l.gi.length = P.nsf ∧ l.ei.length = P.nsf * P.nvpsf ∧ (∀ i ∈ l.gi, i < P.lgcbsz) ∧ ∀ i ∈ l.ei, i < 2 * P.cbsz := by
  refine ⟨?_, ?_, ?_, ?_⟩
  · simpa [h0.1] using foldl_append_length (encSubframe P N fr) EncLoop.gi 1
      (by intro s k; simp [encSubframe, encVectors]) P.nsf l0
  · simpa [h0.2] using foldl_append_length (encSubframe P N fr) EncLoop.ei P.nvpsf
      (by intro s k; simp [encSubframe, encVectors]) P.nsf l0
  · refine foldl_range_induct (Q := fun x : EncLoop => ∀ i ∈ x.gi, i < P.lgcbsz) (by simp [h0.1]) fun x k _ hx i hi => ?_
    simp only [encSubframe, encVectors, List.mem_append, List.mem_singleton] at hi
    rcases hi with hi | rfl
    · exact hx i hi
    · exact gainQuantize_lt h N _ _
  · refine foldl_range_induct (Q := fun x : EncLoop => ∀ i ∈ x.ei, i < 2 * P.cbsz) (by simp [h0.2]) fun x k _ hx => ?_
    refine foldl_range_induct (Q := fun x : EncLoop => ∀ i ∈ x.ei, i < 2 * P.cbsz) hx fun y j _ hy i hi => ?_
    simp only [encVector, List.mem_append, List.mem_singleton] at hi
    rcases hi with hi | rfl
    · exact hy i hi
    · exact excIndex_lt (excSearch_lt (cbsz_pos h) _ _ _)

/-- An IndexSet has a word for each slot (R115). -/
theorem length_encodeFrame {P : Profile} (h : P.Wf) (N : Num) (e : Enc) (pcm : List Int) :
    (encodeFrame P N e pcm).1.length = P.nidx := by
  obtain ⟨h1, h2, -⟩ := encLoop_range h N (encAnalyse P N e pcm).1
    { nf := e.nf, gain := e.gain, gi := [], ei := [] } ⟨rfl, rfl⟩
  simp only [encodeFrame, indexSet, List.length_append, List.length_cons, List.length_nil, h1, h2, nidx_of_wf h]

/-- Every index an ENCODE finds is one of its slot's values, and the slot's width holds them (R115, R116). -/
theorem encodeFrame_slot {P : Profile} (h : P.Wf) (N : Num) (e : Enc) (pcm : List Int) {k : Nat} (hk : k < P.nidx) :
    (encodeFrame P N e pcm).1.getD k 0 < (slotSpec P k).2 ∧ (slotSpec P k).2 ≤ 2 ^ (slotSpec P k).1
      ∧ (slotSpec P k).1 ≤ 32 := by
  obtain ⟨h1, h2, h3, h4⟩ := encLoop_range h N (encAnalyse P N e pcm).1
    { nf := e.nf, gain := e.gain, gi := [], ei := [] } ⟨rfl, rfl⟩
  rw [nidx_of_wf h] at hk
  have w := h.widths
  have hmp : P.minpp < P.maxpp := h.dims.minpp_lt_maxpp
  have hc2 : 2 * P.cbsz = 2 ^ P.ebits := by rw [w.cbsz_eq, w.ebits_eq]; ring
  simp only [encodeFrame, indexSet]
  rcases (by omega : k = 0 ∨ k = 1 ∨ k = 2 ∨ k = 3 ∨ k = 4 ∨ 5 ≤ k) with rfl | rfl | rfl | rfl | rfl | hk5
  · exact ⟨lspSearch1_lt w.lspcb1.1 _, w.lspcb1.2, w.lspbits_le.1⟩
  · refine ⟨?_, w.lspcb21.2, w.lspbits_le.2.1⟩
    show lspSearch21 P _ _ < P.lspcb21sz
    rcases lspSearch21_cases P _ _ with hh | hh
    · exact hh.1
    · exact lt_of_eq_of_lt hh.1 h.lsp.fallback
  · exact ⟨lspSearch22_lt w.lspcb22.1 _, w.lspcb22.2, w.lspbits_le.2.2⟩
  · obtain ⟨ha, hb⟩ : LagOk P (encAnalyse P N e pcm).1.pp := refine_lagOk hmp.le _ _
    refine ⟨?_, (Nat.succ_le_of_lt w.lags : P.maxpp - P.minpp + 1 ≤ 2 ^ P.ppbits), w.ppbits_le⟩
    show (encAnalyse P N e pcm).1.pp - P.minpp < P.maxpp - P.minpp + 1
    omega
  · exact ⟨tapQuantize_lt w.ppcb.1 _ _, w.ppcb.2, w.ptbits_le⟩
  · generalize (List.range P.nsf).foldl (encSubframe P N (encAnalyse P N e pcm).1)
      { nf := e.nf, gain := e.gain, gi := [], ei := [] } = L at *
    have hs : slotSpec P k = if k < 5 + P.nsf then (P.gbits, P.lgcbsz) else (P.ebits, 2 * P.cbsz) := by
      simp [slotSpec, show k ≠ 0 by omega, show k ≠ 1 by omega, show k ≠ 2 by omega, show k ≠ 3 by omega,
        show k ≠ 4 by omega]
    by_cases hg : k < 5 + P.nsf
    · rw [hs, if_pos hg]
      refine ⟨?_, w.lgcb.2, w.gbits_le⟩
      rw [List.getD_append _ _ _ _ (by simp; omega), List.getD_append_right _ _ _ _ (by simp; omega),
        List.getD_eq_getElem _ _ (by simp; omega)]
      exact h3 _ (List.getElem_mem _)
    · rw [hs, if_neg hg]
      refine ⟨?_, hc2.le, w.ebits_le⟩
      rw [List.getD_append_right _ _ _ _ (by simp; omega), List.getD_eq_getElem _ _ (by simp; omega)]
      exact h4 _ (List.getElem_mem _)

/-- The commit pass leaves in the encoder's synthesis memory what the decoder's synthesis leaves (R313, R320). -/
theorem nfRun_ltsym (P : Profile) (q : NfParams) (m : NfMem) (xs : List (Rat × Rat)) :
    (nfRun P q m xs).2.ltsym = (ltSynth q.bq q.pp m.ltsym (xs.map Prod.snd)).2 := by
  induction xs generalizing m with
  | nil => rfl
  | cons x xs ih => simp only [nfRun, ltSynth, List.map_cons, ih]; rfl

/-- A decoded frame is a whole frame (R146, R348). -/
theorem length_decodeFrame {P : Profile} (h : P.Wf) (N : Num) (d : Dec) (ix : List Nat) :
    (decodeFrame P N d ix).1.length = P.frsz := by
  have hv : ∀ bq pp gq s n (l : DecLoop),
      ((List.range n).foldl (decVector P bq pp ix gq s) l).dq.length = l.dq.length + n * P.vdim := fun bq pp gq s n l =>
    foldl_append_length _ DecLoop.dq P.vdim (by intro s k; simp [decVector, excDecode, ltSynth_lengths]) n l
  have hs := foldl_append_length (decSubframe P N (tapsOfIndex P (slot ix 4)) (pitchOfIndex P (slot ix 3)) ix)
    DecLoop.dq (P.nvpsf * P.vdim) (by intro s k; simp [decSubframe, hv]) P.nsf
    { gain := d.gain, trap := { nclglim := d.nclglim, lctimer := d.lctimer }, ltsym := d.ltsym, dq := [], eacc := 0 }
  simp only [decodeFrame, synthesize_lengths, hs, List.length_nil, Nat.zero_add]
  rw [h.dims.frsz_eq, h.dims.sfrsz_eq]

theorem lsppmReset_sized (P : Profile) : LsppmSized P (lsppmReset P) :=
  ⟨by simp [lsppmReset], fun row hr => by rw [lsppmReset, List.mem_replicate] at hr; simp [hr.2]⟩

theorem resetLsp_stable {P : Profile} (h : P.Wf) : LspStable P P.resetLsp := by
  obtain ⟨r1, r2, -⟩ := h.reset
  have hl : P.resetLsp.length = P.lpco := h.tables.resetLsp
  exact ⟨hl, r1, fun x hx => ⟨(r2 x hx).1.le, (r2 x hx).2.le⟩⟩

/-- What RESET_ENC sets is in its value domains (R44, R61). -/
theorem Enc.reset_ok {P : Profile} (h : P.Wf) : (Enc.reset P).Ok P := by
  constructor <;> simp [Enc.reset, GainState.reset]
  · exact resetLsp_stable h
  · exact lsppmReset_sized P
  · exact h.reset.cpp

/-- What RESET_DEC sets is in its value domains (R44, R62). -/
theorem Dec.reset_ok {P : Profile} (h : P.Wf) : (Dec.reset P).Ok P := by
  obtain ⟨-, -, -, h1, h2, h3⟩ := h.reset
  constructor <;> simp [Dec.reset, GainState.reset]
  · exact resetLsp_stable h
  · exact lsppmReset_sized P
  · exact h1
  · exact h3
  · exact h2

/-- An IndexSet in range, once written, is ready for a DECODE (R116, R147). -/
theorem decodeReady_writeIdx {P : Profile} {ix : List Nat} (hl : ix.length = P.nidx)
    (h : ∀ k < P.nidx, ix.getD k 0 < (slotSpec P k).2 ∧ (slotSpec P k).2 ≤ 2 ^ (slotSpec P k).1 ∧ (slotSpec P k).1 ≤ 32)
    (m : Memory) : DecodeReady P (writeIdx m ix) (ix.map (BitVec.ofNat 32)) := by
  refine ⟨⟨by simpa using hl, fun k hk => ?_⟩, fun k hk => ?_⟩
  · have hk' : k < ix.length := by simpa using hk
    have := read32_writeIdx (m := m) hk'
    rw [List.getD_eq_getElem _ _ hk', idxOff] at this
    simpa using this
  · have hk' : k < ix.length := by simpa using hk
    obtain ⟨h1, h2, h3⟩ := h k (hl ▸ hk')
    rw [List.getD_eq_getElem _ _ hk'] at h1
    have h5 : 2 ^ (slotSpec P k).1 ≤ 2 ^ 32 := Nat.pow_le_pow_right (by norm_num) h3
    simp only [SlotInRange, List.getElem_map, BitVec.toNat_ofNat]
    rw [Nat.mod_eq_of_lt (by omega), Nat.mod_eq_of_lt (by omega)]
    exact ⟨h1, Nat.div_eq_of_lt (by omega)⟩

/-- A DECODE of an IndexSet in range is not rejected (R147). -/
theorem exec_decode_ready {s : State} {ws : List Word} (h : DecodeReady Config.profile s.mem ws) :
    exec .decode s = .next (s.decodeWith ws) := by
  simp only [exec, execDecode, readIdx_ok.2 h.holds, (firstBadSlot_none h.holds.length).2 h.inRange]

/-- An ENCODE of a frame that was written completes (R145). -/
theorem exec_encode_ready {s : State} {pcm : List Sample} (h : HoldsPcm Config.profile s.mem pcm) :
    exec .encode s = .next (s.encodeWith pcm) := by
  simp only [exec, execEncode, readPcmIn_ok.2 h]

@[simp] theorem fade_cfecount (P : Profile) (d : Dec) : (fade P d).cfecount = d.cfecount := by
  simp only [fade]; split <;> rfl

/-- The erasure counter after a concealed frame (R371). -/
theorem concealFrame_cfecount (P : Profile) (N : Num) (d : Dec) :
    (concealFrame P N d).2.cfecount = min (d.cfecount + 1) P.cfeMax := by
  simp only [concealFrame, fade_cfecount, cfeNext]

end Sys2Proof.Machine
end

