-- ==== Sys2Proof/Laws/Stabilize.lean ====
section
/-! SUPPORT. Laws of the two passes of STABILIZE (R220): what each gives, as a chain with the minimum separation and as
bounds of its ends. -/

namespace Sys2Proof.Machine

@[simp] theorem length_sepUp (sep low : Rat) (l : List Rat) : (sepUp sep low l).length = l.length := by
  induction l generalizing low with
  | nil => rfl
  | cons x l ih => simp [sepUp, ih]

@[simp] theorem length_sepDown (sep top : Rat) (l : List Rat) : (sepDown sep top l).length = l.length := by
  induction l with
  | nil => rfl
  | cons x l ih =>
    cases l with
    | nil => rfl
    | cons y l => simpa [sepDown] using ih

@[simp] theorem length_stabilize (P : Profile) (l : List Rat) : (stabilize P l).length = l.length := by
  simp only [stabilize]
  split_ifs <;> simp

/-- The forward pass separates its components. -/
theorem sepUp_chain (sep low : Rat) (l : List Rat) : (sepUp sep low l).IsChain fun a b => a + sep ≤ b := by
  induction l generalizing low with
  | nil => simp [sepUp]
  | cons x l ih =>
    cases l with
    | nil => simp [sepUp]
    | cons y l =>
      have := ih (max x low + sep)
      simp only [sepUp, List.isChain_cons_cons] at this ⊢
      exact ⟨le_max_right _ _, this⟩

/-- The forward pass leaves component `i` at least `i` separations above its start. -/
theorem sepUp_ge {sep low : Rat} {l : List Rat} {i : Nat} (hi : i < l.length) :
    low + i * sep ≤ elt (sepUp sep low l) i := by
  induction l generalizing low i with
  | nil => simp at hi
  | cons x l ih =>
    cases i with
    | zero => simp [sepUp, elt]
    | succ i =>
      have := ih (low := max x low + sep) (i := i) (by simpa using hi)
      simp only [sepUp, elt, List.getD_cons_succ] at this ⊢
      have h2 := le_max_right x low
      push_cast
      linarith

/-- The forward pass leaves alone a vector that is separated and starts high enough. -/
theorem sepUp_eq_self {sep low : Rat} {l : List Rat} (h : l.IsChain fun a b => a + sep ≤ b)
    (h0 : ∀ x ∈ l.head?, low ≤ x) : sepUp sep low l = l := by
  induction l generalizing low with
  | nil => rfl
  | cons x l ih =>
    have hx : max x low = x := max_eq_left (h0 x (by simp))
    simp only [sepUp, hx]
    congr 1
    cases l with
    | nil => rfl
    | cons y l =>
      rw [List.isChain_cons_cons] at h
      exact ih h.2 (by simpa using h.1)

/-- The backward pass separates its components. -/
theorem sepDown_chain (sep top : Rat) (l : List Rat) : (sepDown sep top l).IsChain fun a b => a + sep ≤ b := by
  induction l with
  | nil => simp [sepDown]
  | cons x l ih =>
    cases l with
    | nil => simp [sepDown]
    | cons y l =>
      simp only [sepDown] at ih ⊢
      cases hs : sepDown sep top (y :: l) with
      | nil => simp
      | cons z zs =>
        rw [hs] at ih
        refine List.isChain_cons_cons.2 ⟨?_, ih⟩
        have h : min x (z - sep) ≤ z - sep := min_le_right x _
        change min x (z - sep) + sep ≤ z
        linarith

/-- The backward pass puts the last component at its start. -/
theorem sepDown_last {sep top : Rat} {l : List Rat} (h : l ≠ []) : elt (sepDown sep top l) (l.length - 1) = top := by
  induction l with
  | nil => simp at h
  | cons x l ih =>
    cases l with
    | nil => simp [sepDown, elt]
    | cons y l =>
      simp only [sepDown, elt, List.length_cons] at ih ⊢
      simpa using ih (by simp)

/-- The backward pass does not bring the first component below `low` where there is room for every separation. -/
theorem sepDown_ge {sep top low : Rat} {l : List Rat} (h : ∀ i < l.length, low + i * sep ≤ elt l i)
    (ht : l ≠ [] → low + (l.length - 1 : Nat) * sep ≤ top) : ∀ x ∈ (sepDown sep top l).head?, low ≤ x := by
  induction l generalizing low with
  | nil => simp [sepDown]
  | cons x l ih =>
    cases l with
    | nil => simpa [sepDown] using ht
    | cons y l =>
      have := ih (low := low + sep)
        (fun i hi => by have := h (i + 1) (by simpa using hi); simp [elt] at this ⊢; linarith)
        (fun _ => by have := ht (by simp); simp at this ⊢; linarith)
      simp only [sepDown, List.head?_cons, Option.mem_def, Option.some.injEq]
      rintro _ rfl
      refine le_min (by have := h 0 (by simp); simpa [elt] using this) ?_
      cases hs : sepDown sep top (y :: l) with
      | nil => have := congrArg List.length hs; simp at this
      | cons z zs =>
        rw [hs] at this
        have h1 : low + sep ≤ z := this z (by simp)
        change low ≤ z - sep
        linarith

/-- A chain, component by component. -/
theorem isChain_iff_elt {sep : Rat} {l : List Rat} :
    (l.IsChain fun a b => a + sep ≤ b) ↔ ∀ i, i + 1 < l.length → elt l i + sep ≤ elt l (i + 1) := by
  rw [List.isChain_iff_getElem]
  refine forall_congr' fun i => forall_congr' fun hi => ?_
  rw [elt, elt, List.getD_eq_getElem _ _ (by omega), List.getD_eq_getElem _ _ hi]

/-- A separated vector rises strictly and lies between its ends. -/
theorem between_ends {sep : Rat} (hs : 0 < sep) {l : List Rat} (h : l.IsChain fun a b => a + sep ≤ b) :
    l.Pairwise (· < ·) ∧ ∀ x ∈ l, elt l 0 ≤ x ∧ x ≤ elt l (l.length - 1) := by
  have hp : l.Pairwise (· < ·) := (h.imp fun a b h => by linarith : l.IsChain (· < ·)).pairwise
  refine ⟨hp, fun x hx => ?_⟩
  obtain ⟨i, hi, rfl⟩ := List.getElem_of_mem hx
  rw [List.pairwise_iff_getElem] at hp
  rw [elt, elt, List.getD_eq_getElem _ _ (by omega), List.getD_eq_getElem _ _ (by omega)]
  constructor
  · rcases Nat.eq_zero_or_pos i with h0 | h0
    · simp [h0]
    · exact (hp 0 i (by omega) hi h0).le
  · rcases Nat.lt_or_ge i (l.length - 1) with h0 | h0
    · exact (hp i (l.length - 1) hi (by omega) h0).le
    · simp [show i = l.length - 1 by omega]

end Sys2Proof.Machine
end

