-- ==== Sys2Proof/Tests/Slice0.lean ====
section
/-! SUPPORT. The package's own tests: the command words written out bit by bit from R111 and R112, an ill-formed term
for each check, one step of each command, the host-interface vectors of `95_test_vectors.md`. -/

namespace Sys2Proof.Tests

-- One theorem after the other: the kernel evaluates many of them, and each would hold a thread of its own meanwhile.
set_option Elab.async false

open Sys2Proof.Machine

/-! ## Decoding: bits 31 to 4 reserved, bits 3 to 0 the opcode -/

theorem test_decode_nop : decodeWord 0b00000000000000000000000000000000 = .ok .nop := by decide
theorem test_decode_reset_enc : decodeWord 0b00000000000000000000000000000001 = .ok .resetEnc := by decide
theorem test_decode_reset_dec : decodeWord 0b00000000000000000000000000000010 = .ok .resetDec := by decide
theorem test_decode_encode : decodeWord 0b00000000000000000000000000000011 = .ok .encode := by decide
theorem test_decode_decode : decodeWord 0b00000000000000000000000000000100 = .ok .decode := by decide
theorem test_decode_conceal : decodeWord 0b00000000000000000000000000000101 = .ok .conceal := by decide

/-- R84: the opcode lies in the byte at the lowest address. -/
theorem test_decode_bytes :
    decodeBytes [0x03, 0x00, 0x00, 0x00, 0xFF] = .ok (.encode, [0xFF])
      ∧ decodeBytes [0x00, 0x00, 0x00, 0x03] = .error .reservedBits ∧ decodeBytes [0x03, 0x00, 0x00] = .error .truncated
      ∧ decodeTableWord 32 0x05 = some .conceal ∧ decodeTableWord 32 0x06 = none := by
  decide

/-- R114: the first and the last reserved opcode, the lowest and the highest reserved bit. -/
theorem test_decode_refused :
    decodeWord 0x6 = .error (.reservedOpcode 6) ∧ decodeWord 0xF = .error (.reservedOpcode 15)
      ∧ decodeWord 0x10 = .error .reservedBits ∧ decodeWord 0x80000000 = .error .reservedBits := by
  decide

/-! ## Well-formedness: one ill-formed term for each check -/

theorem test_wf_word : wordWf 5 = true ∧ wordWf 6 = false ∧ wordWf 0x10 = false := by decide

theorem test_wf_access :
    (HostEvent.read .w32 0x008).wf = true ∧ (HostEvent.read .w8 0x008).wf = false
      ∧ (HostEvent.read .w32 0x102).wf = false ∧ (HostEvent.write .w16 0x101 0).wf = false
      ∧ (HostEvent.write .w16 0x102 0).wf = true := by
  decide

theorem test_wf_dims : ¬Profile.DimsOk { Profile.sample with frsz := 7 } := fun h => absurd h.frsz_eq (by decide)
theorem test_wf_widths :
    ¬Profile.WidthsOk { Profile.sample with cbsz := 3 } ∧ ¬Profile.WidthsOk { Profile.sample with maxpp := 65536 } :=
  ⟨fun h => absurd h.cbsz_eq (by decide), fun h => absurd h.maxpp_lt (by decide)⟩
theorem test_wf_tables : ¬Profile.TablesOk { Profile.sample with cb := [[1, 0]] } := fun h => absurd h.cb (by decide)
theorem test_wf_filters : ¬Profile.FiltersOk { Profile.sample with gammaNf := 1 } := fun h => absurd h.gammaNf (by decide +kernel)
theorem test_wf_lsp : ¬Profile.LspOk { Profile.sample with lspmax := 1 } := fun h => absurd h.lspmax_lt (by decide +kernel)
theorem test_wf_pitch : ¬Profile.PitchOk { Profile.sample with multMax := 1 } := fun h => absurd h.multMax (by decide)
theorem test_wf_gain : ¬Profile.GainOk { Profile.sample with lgord := [0, 1, 2, 3] } := fun h => absurd h.monotone (by decide +kernel)
theorem test_wf_plc : ¬Profile.PlcOk { Profile.sample with attnE := 1 } := fun h => absurd h.attnE (by decide +kernel)
theorem test_wf_synth : ¬Profile.SynthOk { Profile.sample with peQ := 15 } := fun h => absurd h.peQ_le (by decide)
theorem test_wf_reset : ¬Profile.ResetOk { Profile.sample with resetLsp := [2 / 3, 1 / 3] } :=
  fun h => absurd h.lsp_increasing (by decide +kernel)

/-! ## Small states -/

/-- The state after power-on reset with a command latched and its busy period over. -/
def running (i : Instr) : State := State.withFetchWord State.reset 32 (Sys2Proof.encode i).toNat

/-- The state after power-on reset with one event to arrive. -/
def facing (e : HostEvent) : State := { State.reset with inputs := [e] }

/-- A frame of fives in `PCM_IN` and an IndexSet in `IDX`. -/
def bufferOf (ix : List Nat) : Memory :=
  writeIdx (Memory.writeSamples [] 0x100 (List.replicate Config.profile.frsz 5)) ix

/-- The IndexSet of zeros. -/
def zeros : List Nat := List.replicate Config.profile.nidx 0

/-- The state after power-on reset with both input buffers written. -/
def ready : State := { State.reset with mem := bufferOf zeros }

/-- The same with slot 3 out of range. -/
def spoiled : State := { State.reset with mem := bufferOf (zeros.set 3 0xFFFFFFFF) }

theorem profile_wf : Config.profile.Wf := Config.setup.profileOk

theorem five_le_nidx : 5 ≤ Config.profile.nidx := by simp only [Profile.nidx]; omega

theorem ready_pcm : HoldsPcm Config.profile ready.mem (List.replicate Config.profile.frsz 5) := by
  refine ⟨by simp, fun n hn => ?_⟩
  have hf := frsz_le
  have hn' : n < Config.profile.frsz := by simpa using hn
  have h : ready.mem.read16 (0x100 + 2 * n)
      = (Memory.writeSamples [] 0x100 (List.replicate Config.profile.frsz 5)).read16 (0x100 + 2 * n) :=
    Memory.read16_congr (read_writeIdx (.inl (by simp only [idxOff]; omega)))
      (read_writeIdx (.inl (by simp only [idxOff]; omega)))
  rw [h, Memory.read16_writeSamples (by simpa using hn')]

theorem ready_slots : DecodeReady Config.profile ready.mem (zeros.map (BitVec.ofNat 32)) := by
  refine decodeReady_writeIdx (by simp [zeros]) (fun k hk => ?_) _
  obtain ⟨h1, h2⟩ := encodeFrame_slot profile_wf Config.num ready.enc [] hk
  refine ⟨?_, h2⟩
  rw [zeros, List.getD_eq_getElem _ _ (by simpa using hk), List.getElem_replicate]
  omega

theorem spoiled_slots :
    HoldsSlots Config.profile spoiled.mem ((zeros.set 3 0xFFFFFFFF).map (BitVec.ofNat 32)) := by
  refine ⟨by simp [zeros], fun k hk => ?_⟩
  have hk' : k < (zeros.set 3 0xFFFFFFFF).length := by simpa using hk
  have := read32_writeIdx (m := Memory.writeSamples [] 0x100 (List.replicate Config.profile.frsz 5)) hk'
  rw [List.getD_eq_getElem _ _ hk', idxOff] at this
  rw [List.getElem_map]
  exact this

theorem three_lt : 3 < ((zeros.set 3 0xFFFFFFFF).map (BitVec.ofNat 32)).length := by
  have := five_le_nidx
  simp only [zeros, List.length_map, List.length_set, List.length_replicate]
  omega

theorem spoiled_slot (k : Nat) (h : k < ((zeros.set 3 0xFFFFFFFF).map (BitVec.ofNat 32)).length) :
    SlotInRange Config.profile k ((zeros.set 3 0xFFFFFFFF).map (BitVec.ofNat 32))[k] ↔ k ≠ 3 := by
  have hk : k < Config.profile.nidx := by simpa [zeros] using h
  by_cases h3 : k = 3
  · subst h3
    have hm : Config.profile.maxpp < 65536 := profile_wf.widths.maxpp_lt
    simp only [SlotInRange, slotSpec, List.getElem_map, List.getElem_set_self, ne_eq, not_true_eq_false, iff_false]
    rintro ⟨h1, h2⟩
    have e : ∀ x q d : Nat, x / d = 0 → x % d < q → 0 < d → x < q := fun x q d hd hq h0 => by
      rcases (Nat.div_eq_zero_iff.1 hd) with hd | hd
      · omega
      · rwa [Nat.mod_eq_of_lt hd] at hq
    have := e _ _ _ h2 h1 (by simp)
    simp at this
    clear hk h h1 h2
    omega
  · simp only [ne_eq, h3, not_false_eq_true, iff_true, SlotInRange, List.getElem_map]
    rw [List.getElem_set_ne (by omega)]
    obtain ⟨h1, -⟩ := encodeFrame_slot profile_wf Config.num ready.enc [] hk
    simp only [zeros, List.getElem_replicate, BitVec.toNat_ofNat, Nat.zero_mod, Nat.zero_div, and_true]
    omega

theorem ready_inv : ready.Inv where
  memWf := writeIdx_wf (Memory.writeSamples_wf rfl _ _) _
  memMapped c hc := by
    rcases Memory.mem_writeWords hc with h | h
    · rw [List.length_map, zeros, List.length_replicate] at h
      exact .inr (.inr (by simpa [idxOff] using h))
    · rcases Memory.mem_writeSamples h with h | h
      · rw [List.length_replicate] at h
        exact .inl h
      · cases h
  cmdLegal w hw := by cases hw
  errinfo := ⟨false, 0, 0, rfl⟩
  enc := Enc.reset_ok profile_wf
  dec := Dec.reset_ok profile_wf

/-! ## One step of each command -/

/-- V40.1: NOP after power-on reset leaves `STATUS = 0x00000002`. -/
theorem test_nop : ∃ t, step (running .nop) = .next t ∧ statusWord t = 0x00000002 := ⟨_, rfl, rfl⟩

/-- V40.3: RESET_ENC sets `E.lsplast`, clears the synthesis memory, sets `DONE`. -/
theorem test_reset_enc :
    ∃ t, step (running .resetEnc) = .next t ∧ t.enc.lsplast = Config.profile.resetLsp
      ∧ t.enc.nf.ltsym = List.replicate (Config.profile.maxpp + 1) 0 ∧ t.done = true := ⟨_, rfl, rfl, rfl, rfl⟩

/-- V40.5: RESET_DEC: the erasure counter, the timer and the exponent that `DECINFO` shows. -/
theorem test_reset_dec :
    ∃ t, step (running .resetDec) = .next t ∧ t.dec.cfecount = 0 ∧ t.dec.lctimer = 0
      ∧ t.dec.syn.sexp = Config.profile.resetSexp := ⟨_, rfl, rfl, rfl, rfl⟩

/-- ENCODE of the frame in `ready` completes (R145). -/
theorem test_encode : ∃ t, exec .encode ready = .next t ∧ t.done = true ∧ t.cmd = none :=
  ⟨_, exec_encode_ready ready_pcm, rfl, rfl⟩

/-- DECODE of the IndexSet in `ready` completes (R146). -/
theorem test_decode : ∃ t, exec .decode ready = .next t ∧ t.done = true ∧ t.dec.cfecount = 0 :=
  ⟨_, exec_decode_ready ready_slots, rfl, rfl⟩

/-- V60.3, V40.11: slot 3 out of range: `STATUS.ERR_IDX = 1`, `ERRINFO = 0x00000304`, `D` unchanged, no `DONE`. -/
theorem test_decode_rejected :
    ∃ t, exec .decode spoiled = .next t ∧ t.errIdx = true ∧ t.errinfo = 0x00000304 ∧ t.dec = spoiled.dec
      ∧ t.done = false := by
  have hb : firstBadSlot Config.profile ((zeros.set 3 0xFFFFFFFF).map (BitVec.ofNat 32)) = some 3 :=
    (firstBadSlot_some spoiled_slots.length).2
      ⟨three_lt,
        fun h => (spoiled_slot 3 three_lt).1 h rfl,
        fun k h hk => (spoiled_slot k h).2 (by omega)⟩
  exact ⟨spoiled.rejectIdx 3, by simp only [exec, execDecode, readIdx_ok.2 spoiled_slots, hb], rfl, rfl, rfl, rfl⟩

/-- R371: CONCEAL of the first lost frame counts 1. -/
theorem test_conceal : ∃ t, exec .conceal State.reset = .next t ∧ t.done = true ∧ t.dec.cfecount = min 1 Config.profile.cfeMax :=
  ⟨_, rfl, rfl, concealFrame_cfecount _ _ _⟩

/-! ## The host interface -/

/-- V40.2: `ID`. -/
theorem test_id : perform State.reset (.read .w32 0x00C) = .next { State.reset with answer := .data32 0x4C504301 } := rfl

/-- V40.10, V60.1, V60.2: illegal command words of an idle block. -/
theorem test_rejected_words :
    (State.reset.writeCmd 0x10).errinfo = 0 ∧ statusWord (State.reset.writeCmd 0x10) = 4
      ∧ (State.reset.writeCmd 0x07).errinfo = 7 ∧ statusWord (State.reset.writeCmd 0x07) = 4
      ∧ (State.reset.writeCmd 0x13).errinfo = 3 ∧ statusWord (State.reset.writeCmd 0x13) = 4 :=
  ⟨rfl, rfl, rfl, rfl, rfl, rfl⟩

/-- V60.4, V60.5: a word written to a busy block, legal or not. -/
theorem test_rejected_busy :
    ((running .encode).writeCmd 0x04).errinfo = 0x00010004 ∧ ((running .encode).writeCmd 0x07).errinfo = 0x00010007
      ∧ ((running .encode).writeCmd 0x04).cmd = some 3 :=
  ⟨rfl, rfl, rfl⟩

/-- V40.12: one W1C bit. -/
theorem test_w1c :
    statusWord ({ State.reset with done := true, errCmd := true, errIdx := true }.writeStatus 0x4) = 0x0000000A := rfl

/-- V60.6, V60.7: bus errors. -/
theorem test_bus_errors :
    perform State.reset (.write .w8 0x000 0) = .fault (.busError .width 0x000)
      ∧ perform State.reset (.write .w32 0x102 0) = .fault (.busError .misaligned 0x102) :=
  ⟨rfl, rfl⟩

/-- V60.8, V60.9: the interrupt line. -/
theorem test_irq :
    irq { State.reset with inten := 1 }.complete = true
      ∧ irq ({ State.reset with inten := 1 }.complete.writeStatus 0x2) = false
      ∧ irq ({ State.reset with inten := 2, done := true }.writeCmd 0x9) = true
      ∧ ({ State.reset with inten := 2, done := true }.writeCmd 0x9).done = true :=
  ⟨rfl, rfl, rfl, rfl⟩

/-- R43: after power-on reset ENCODE and DECODE find the first element of their input unwritten. -/
theorem test_unwritten :
    exec .encode State.reset = .fault (.unwritten 0x100) ∧ exec .decode State.reset = .fault (.unwritten 0x500) := by
  have h1 := two_le_frsz
  have h2 := five_le_nidx
  have a : readPcmIn Config.profile State.reset.mem = .error 0x100 :=
    readRun_error_iff.2 ⟨0, by omega, rfl, rfl, fun j hj => absurd hj (Nat.not_lt_zero j)⟩
  have b : readIdx Config.profile State.reset.mem = .error 0x500 :=
    readRun_error_iff.2 ⟨0, by omega, rfl, rfl, fun j hj => absurd hj (Nat.not_lt_zero j)⟩
  exact ⟨by simp only [exec, execEncode, a], by simp only [exec, execDecode, b]⟩

end Sys2Proof.Tests
end

