-- ==== Sys2Proof/Tests/Vectors.lean ====
section
/-! SUPPORT. The worked vectors of `95_test_vectors.md` on the stage functions: every expected value is the spec's,
and a theorem's docstring names the vectors it checks. A profile is `Profile.sample` with the values a vector names. -/

namespace Sys2Proof.Tests

-- One theorem after the other: the kernel evaluates many of them, and each would hold a thread of its own meanwhile.
set_option Elab.async false

open Sys2Proof.Machine

/-- The base of the vectors' profiles. -/
def base : Profile := Profile.sample

/-- The functions the vectors use where they need `log2`, `pow2` or `cospi`. -/
def fns : Num := Num.sample

/-- A gain state with the log-gains and the memory a vector names. -/
def gainOf (lgpm : List Rat) (p0 p1 level : Rat) : GainState :=
  { lgpm := lgpm, prevlg0 := p0, prevlg1 := p1, level := level, lmax := 0, lmin := 0, lmean := 0, x1 := 0 }

/-- V41.1, V41.2: high-pass and pre-emphasis. -/
theorem test_preprocessor :
    (highpass base { x1 := 0, x2 := 0, y1 := 0, y2 := 0 } [5, 5, 5]).1 = [5, 0, 0]
      ∧ (preemph { base with peB := 1 / 2, peA := 0 } 0 0 [4, 4, 4]).1 = [4, 2, 2] := by
  decide +kernel

/-- V41.3 to V41.5: autocorrelation and smoothing. -/
theorem test_autocorr :
    autocorr { base with winsz := 3, win := [1, 1, 1] } (windowed { base with winsz := 3, win := [1, 1, 1] } [9, 1, 2, 3])
        = [14, 8, 3]
      ∧ smooth { base with lagwin := [1, 1 / 2, 1 / 4] } [14, 8, 3] = [14, 4, 3 / 4]
      ∧ smooth { base with lagwin := [1, 1, 1] } [14, 8, 3] = [14, 8, 3] := by
  decide +kernel

/-- V41.6 to V41.8: the Levinson-Durbin recursion, its silent case, bandwidth expansion. -/
theorem test_levinson :
    levinson 2 [14, 4, 3 / 4] = [1, -53 / 180, 11 / 360] ∧ levinson 2 [0, 0, 0] = [1, 0, 0]
      ∧ bwExpand { base with bwexp := [1 / 2, 1 / 4] } [1, -53 / 180, 11 / 360] = [1, -53 / 360, 11 / 1440] := by
  decide +kernel

/-- V41.9, V41.11, V41.12 and R181's closed form of the LSPs at `LPCO = 2`; and its failure (R180) on a filter with the
zero 2. -/
theorem test_residual_lsp :
    residual { base with lpco := 1 } [1, -1 / 2] [2] [4, 4] = [3, 2]
      ∧ a2lsp fns [1, 0, 0] [] = [1 / 3, 2 / 3] ∧ lsp2a base fns [1 / 3, 2 / 3] = [1, 0, 0]
      ∧ lsp2a base fns [1 / 3, 1 / 2] = [1, -1 / 2, 1 / 2] ∧ a2lsp fns [1, -2, 0] [1 / 4, 3 / 4] = [1 / 4, 3 / 4] := by
  decide +kernel

/-- V42.1 to V42.3, V42.6: prediction, the memory shift, the two nearest-neighbour searches with the tie-break. -/
theorem test_lsp_search :
    lspPredict base [[1 / 10], [-1 / 10]] = [23 / 60, 37 / 60]
      ∧ lspShift { base with lspporder := 3 } [[1, 2, 3], [4, 5, 6]] [7, 8] = [[7, 1, 2], [8, 4, 5]]
      ∧ lspSearch1 base [1 / 10, 0] = 0
      ∧ lspSearch22 { base with lspcb22 := [[1 / 10], [-1 / 20]] } [0, 0] = 1 := by
  decide +kernel

/-- V42.4, V42.5, V42.7: the stability filter, the fallback, eligibility. -/
theorem test_lsp_eligible :
    lspSearch21 { base with split1 := 2, lspcb21sz := 3, lspcb21 := [[-2 / 10, 0], [0, -2 / 10], [1 / 100, 1 / 100]] }
        [1 / 10, 2 / 10] [-2 / 10, 0] = 2
      ∧ lspSearch21 { base with split1 := 2, lspcb21sz := 1, lspcb21 := [[-2 / 10, 0]], lsp21Fallback := 7 }
        [1 / 10, 2 / 10] [-2 / 10, 0] = 7
      ∧ eligible [0, 1 / 10, 1 / 10] = true ∧ eligible [-1 / 100, 1 / 10, 2 / 10] = false
      ∧ eligible [1 / 10, 1 / 20, 2 / 10] = false := by
  decide +kernel

/-- V42.8 to V42.11: stabilisation; the decoder's substitution and its memory update, and a frame that passes. -/
theorem test_lsp_decode :
    stabilize base [2 / 10, 1 / 10] = [1 / 10, 2 / 10]
      ∧ stabilize base [3 / 10, 2 / 10, 21 / 100, 1] = [2 / 10, 22 / 100, 3 / 10, 99 / 100]
      ∧ lspDequantize { base with lspcb1 := [[-1, 0], [0, 0], [0, 0]] } [[1 / 10], [-1 / 10]] [1 / 3, 2 / 3] 0 0 0
        = { lspq := [1 / 3, 2 / 3], lsppm := [[-1 / 20], [1 / 20]], subst := true }
      ∧ (lspDequantize base [[1 / 10], [-1 / 10]] [1 / 3, 2 / 3] 0 0 0).subst = false := by
  decide +kernel

/-- V43.1 to V43.3: weighting, decimation, the coarse score. -/
theorem test_pitch_signal :
    (weighted base [1, 0, 0] [0, 0] [0, 0] [1, 2]).1 = [1, 2]
      ∧ decimate { base with frsz := 4, decf := 2, declpf := [1 / 2, 1 / 2] } [0] [2, 4, 6, 8] = [3, 7]
      ∧ corrAt [0, 1, 2] 1 2 1 = 2 ∧ energyAt [0, 1, 2] 1 2 1 = 1 ∧ corrScore 2 1 = 4 := by
  decide +kernel

/-- V43.4: the coarse selection, step by step, and its result; V43.6: the candidates clipped at `MINPP`. -/
theorem test_pitch_select :
    (let P := { base with minpp := 4, maxpp := 12, decf := 2, npeakMax := 2, improve := 3 / 2, devNear := 1, thNear := 1 / 2 }
     let sc := scoreOf P [0, 5, 1, 9, 0]
     peaks P sc = [3, 5] ∧ bestPeaks P sc [3, 5] = [3, 5] ∧ marginScan P sc 3 [5] = 5
       ∧ coarseSelect P [0, 5, 1, 9, 0] 6 = 3)
      ∧ fineLags { base with minpp := 10, maxpp := 40, decf := 8 } 2 = List.range' 10 14 := by
  decide +kernel

/-- V43.5, V43.8, V43.9: a periodic window has gain 1; the long-term noise-feedback coefficient. -/
theorem test_pitch_gain :
    singleTap { base with maxpp := 2, pwsz := 4 } [1, 2, 1, 2, 1, 2] 2 = 1
      ∧ ltnfCoef { base with ltnfScale := 1 / 2, betaMax := 3 / 10 } (4 / 5) = 3 / 10
      ∧ ltnfCoef { base with ltnfScale := 1 / 2, betaMax := 3 / 10 } (-1) = 0 := by
  decide +kernel

/-- V43.7: a residual of period `pp` has error 0 with the row `[0, 1, 0]`, which is chosen. -/
theorem test_tap_quantize :
    tapQuantize { base with frsz := 4, maxpp := 4, ppcbsz := 2, ppcb := [[0, 0, 0], [0, 1, 0]] }
      [3, 1, 2, 3, 1, 2, 3, 1, 2] 3 = 1 := by
  decide +kernel

/-- V44.1, V44.2, V44.9 to V44.12: level estimator, prediction, linear gain, log energy. -/
theorem test_level :
    levelUpdate base { lgpm := [], prevlg0 := 0, prevlg1 := 0, level := 6, lmax := 10, lmin := 0, lmean := 5, x1 := 6 } 12
        = { lgpm := [], prevlg0 := 0, prevlg1 := 0, level := 15 / 2, lmax := 12, lmin := 5 / 2, lmean := 49 / 8, x1 := 9 }
      ∧ gainPredict base (gainOf [4, -4] 0 0 0) = 9
      ∧ linearGain fns 14 = 128 ∧ linearGain fns (-2) = 1 / 2
      ∧ logEnergy base fns 16 = 4 ∧ logEnergy { base with lgFloor := -3 } fns 0 = -3 := by
  decide +kernel

/-- V44.3 to V44.6, V44.13 to V44.16: the limiter, the commit, the searches and the two orders of the codebook. -/
theorem test_gain_limit :
    gainLimit base (gainOf [4, -4] 12 12 0) 10 3 = (2, true) ∧ gainLimit base (gainOf [4, -4] 12 12 0) 10 2 = (2, false)
      ∧ gainLimit base (gainOf [4, -4] 12 12 0) 20 3 = (0, true)
      ∧ gainCommit base (gainOf [4, -4] 12 12 0) 10 2 = (14, gainOf [4, 4] 14 12 0)
      ∧ gainSearch base 10 = 3 ∧ gainSearch base 2 = 1 ∧ base.lgord.getD 2 0 = 2 ∧ iord base 0 = 1 := by
  decide +kernel

/-- V44.7, V44.8: the trap/escape machine through arming, the unlimited subframes, and a subframe that does not bind. -/
theorem test_trap :
    (let g := gainOf [4, -4] 12 12 0
     let t1 := trapStep base { nclglim := 0, lctimer := 0 } g 10 3
     let t2 := trapStep base t1.2 g 10 3
     let t3 := trapStep base t2.2 g 10 3
     t1 = (2, { nclglim := 1, lctimer := 0 }) ∧ t2 = (2, { nclglim := 0, lctimer := 3 })
       ∧ t3 = (3, { nclglim := 0, lctimer := 2 })
       ∧ trapStep base { nclglim := 1, lctimer := 0 } g 10 2 = (2, { nclglim := 0, lctimer := 0 })) := by
  decide +kernel

/-- V45.1 to V45.3, V45.5: coefficients, a zero-state response, the search and its tie-break. -/
theorem test_excitation_search :
    stnfCoef base [1, -1 / 2, 0] = [1 / 4, 0] ∧ zsrFrom base [1 / 2, 0] [] [1, 0] = [1, 1 / 2]
      ∧ excSearch base [2, 1] [[1, 1 / 2], [0, 1]] 2 = (0, false)
      ∧ excSearch base [0, 0] [[1, 1 / 2], [0, 1]] 2 = (1, false)
      ∧ excScore base [2, 1] [[1, 1 / 2], [0, 1]] 2 (0, true) = 20
      ∧ excScore base [2, 1] [[1, 1 / 2], [0, 1]] 2 (1, true) = 13 := by
  decide +kernel

/-- V45.4: one vector coded from zero memories: its index, and the memories the commit pass leaves. -/
theorem test_excitation_vector :
    nfcVector base { bq := [0, 0, 0], pp := 3, beta := 0, f := [0, 0] } [[1, 0], [0, 1]] 2
        { stnfm := [0, 0], ltsym := [0, 0, 0, 0], ltnfm := [0, 0, 0] } [3, 1]
      = (0, { stnfm := [1, 1], ltsym := [0, 0, 2, 0], ltnfm := [0, 1, 1] }) := by
  decide +kernel

/-- V45.6, V45.7: the index of a candidate; a decoded vector and its innovation energy. -/
theorem test_excitation_decode :
    excIndex base (0, true) = 2
      ∧ excDecode base [0, 0, 0] [0, 0, 0] 2 2 3 = ([0, -2], 4, [0, 0, -2]) := by
  decide +kernel

/-- V46.1 to V46.3: coefficients and the short-term filter, with its saturation. -/
theorem test_synthesis_filter :
    tofix (-1 / 2) 12 16 = -2048
      ∧ stFilter 12 [-2048] [0] [100, 0] = { y := [100, 50], yraw := [100, 50], mem := [50] }
      ∧ stFilter 12 [-4096] [0] [20000, 20000] = { y := [20000, 32767], yraw := [20000, 40000], mem := [32767] } := by
  decide +kernel

/-- V46.4 to V46.7: the exponent choice and the retry loop. -/
theorem test_synthesis_exponent :
    chooseDelta base 0 3000 = 2 ∧ chooseDelta base 0 20000 = -1 ∧ chooseDelta base 3 0 = 7
      ∧ validDelta { st := [9000], y1 := 0, z1 := 0 } 2 = 1
      ∧ (rescale { st := [9000], y1 := 0, z1 := 0 } 1).st = [18000] := by
  decide +kernel

/-- V46.8 to V46.10: de-emphasis and the output shift. -/
theorem test_synthesis_output :
    deemph { base with peA := 0, peB := 1 / 2, peQ := 14 } 0 0 [100, 50] = ([100, 100], 50, 100)
      ∧ [201, -3].map (fun z => sat16 (rndShr z 1)) = [101, -1] ∧ sat16 (rndShr 20000 (-1)) = 32767 := by
  decide +kernel

/-- V40.6 to V40.9: the decoder's pitch period and the periodicity. -/
theorem test_pitch_params :
    pitchOfIndex { base with minpp := 10 } 30 = 40
      ∧ periodicity base 0 [0, 1 / 2, 0] = 1 / 8 ∧ periodicity base (1 / 8) [0, 0, 0] = 1 / 16
      ∧ periodicity { base with perSmooth := 0 } 0 [1, 1, 1] = 1 := by
  decide +kernel

/-- V47.4 to V47.7: the generator over three samples and over a frame of 80, the noise gain. -/
theorem test_plc_noise :
    lcgRun base 3 0 = ([15470, 18256, -11828], 0xD1CCF6E9) ∧ (lcgRun base 80 0).2 = 0xEB42CD90
      ∧ plcGain base fns 8 (1 / 2) 2 = 3 / 2 ∧ plcGain base fns 0 (1 / 2) 2 = 0 := by
  decide +kernel

/-- V47.2, V47.9, V47.10, V47.12: the counter's bound, the two memory updates, the fade. -/
theorem test_plc_updates :
    cfeNext base 65535 = 65535
      ∧ lspHold base [[1 / 10], [-1 / 10]] [1 / 3, 2 / 3] = [[-1 / 20], [1 / 20]]
      ∧ (gainConceal base fns (gainOf [4, -4] 12 12 0) 16).lgpm.head? = some (-5)
      ∧ (gainConceal base fns (gainOf [4, -4] 12 12 0) 16).prevlg0 = 4
      ∧ (fade base { Dec.reset base with eLast := 8, bqLast := [0, 1 / 2, 0], cfecount := 3 }).eLast = 4
      ∧ (fade base { Dec.reset base with eLast := 8, bqLast := [0, 1 / 2, 0], cfecount := 3 }).bqLast = [0, 1 / 4, 0]
      ∧ (fade base { Dec.reset base with eLast := 8, bqLast := [0, 1 / 2, 0], cfecount := 2 }).eLast = 8 := by
  decide +kernel

end Sys2Proof.Tests
end

