-- ==== Sys2Proof/Tests/Witnesses.lean ====
section
/-! SUPPORT. For each statement with hypotheses, a concrete state and operands that meet all of them together, clause
by clause, at a boundary of each range. `witness_X` is the witness of `Obligations.X`. -/

namespace Sys2Proof.Tests

-- One theorem after the other: the kernel evaluates many of them, and each would hold a thread of its own meanwhile.
set_option Elab.async false

open Sys2Proof.Machine

/-! ## The machine -/

theorem witness_IllegalWordsRefused :
    (∃ e, decodeWord 0x6 = .error e) ∧ (∃ e, decodeWord 0x10 = .error e) ∧ ¬∃ e, decodeWord 0x5 = .error e :=
  ⟨⟨_, rfl⟩, ⟨_, rfl⟩, by rintro ⟨e, h⟩; cases h⟩

theorem witness_CommandEncodingUnique : ∃ bytes i rest, decodeBytes bytes = .ok (i, rest) :=
  ⟨[5, 0, 0, 0], .conceal, [], by decide⟩

theorem witness_StepRunsDecodedCommand :
    (running .nop).cmd = some 0 ∧ (running .nop).wait = 0 ∧ decodeWord 0 = .ok .nop := ⟨rfl, rfl, rfl⟩

theorem witness_BusCyclePassesToPort :
    State.reset.cmd = none ∧ State.reset.inputs = []
      ∧ ({ running .nop with wait := 1 } : State).cmd = some 0 ∧ ({ running .nop with wait := 1 } : State).wait = 0 + 1
      ∧ (facing .powerOn).inputs = .powerOn :: [] := ⟨rfl, rfl, rfl, rfl, rfl⟩

theorem witness_AcceptedCommandCompletes :
    ({ running .nop with wait := 2 } : State).cmd = some 0 ∧ decodeWord 0 = .ok .nop
      ∧ ({ running .nop with wait := 2 } : State).inputs = [] := ⟨rfl, rfl, rfl⟩

theorem witness_LegalCommandAccepted : State.reset.cmd = none ∧ decodeWord 5 = .ok .conceal := ⟨rfl, rfl⟩

theorem witness_CommandRejected :
    (running .nop).busy = true ∧ 6 ≤ ((6 : Word).extractLsb' 0 4).toNat ∧ (0x10 : Word).extractLsb' 4 28 ≠ 0 :=
  ⟨rfl, by decide, by decide⟩

theorem witness_InterruptDrops :
    (∃ t, perform State.reset .clrst = .next t) ∧ (∃ t, perform State.reset (.write .w32 0x008 0) = .next t)
      ∧ ∃ t, perform State.reset (.read .w32 0x004) = .next t := ⟨⟨_, rfl⟩, ⟨_, rfl⟩, ⟨_, rfl⟩⟩

theorem witness_ReadsChangeNothing :
    (∃ t, perform State.reset (.read .w32 0x020) = .next t) ∧ State.reset.busy = false := ⟨⟨_, rfl⟩, rfl⟩

theorem witness_BusErrorsExactly :
    AccessMapped Config.profile .w32 0x020 ∧ ¬AccessMapped Config.profile .w32 0x024
      ∧ ¬AccessMapped Config.profile .w8 0x000 := by
  refine ⟨.inl ⟨rfl, rfl, .inl (by norm_num)⟩, ?_, ?_⟩ <;> simp [AccessMapped]

theorem witness_PcmReadBack :
    ready.busy = false ∧ Config.profile.frsz - 1 < Config.profile.frsz ∧ 2 * 0 + 1 < Config.profile.frsz := by
  have := two_le_frsz
  exact ⟨rfl, by omega, by omega⟩

theorem witness_SlotReadBack : ready.busy = false ∧ Config.profile.nidx - 1 < Config.profile.nidx := by
  have := five_le_nidx
  exact ⟨rfl, by omega⟩

/-- The last sample of `PCM_OUT`, the first slot of `IDX`, the first sample and the first pair of `PCM_IN`, unwritten
and written; a reserved offset, a register at 8 bits, a read-only register and the first pair of `PCM_OUT`. -/
theorem witness_AccessWhileBusy :
    (running .encode).cmd = some 3
      ∧ AccessMapped Config.profile .w16 (0x300 + 2 * (Config.profile.frsz - 1))
      ∧ AccessMapped Config.profile .w32 0x500
      ∧ (AccessMapped Config.profile .w16 0x100 ∧ AccessMapped Config.profile .w32 0x100)
      ∧ ((running .encode).mem.read16 0x100 = none ∧ (running .encode).mem.read32 0x100 = none)
      ∧ (∃ s : State, s.cmd = some 3 ∧ s.mem.read16 0x100 = some 0xBBAA ∧ s.mem.read32 0x100 = some 0xDDCCBBAA)
      ∧ (¬AccessMapped Config.profile .w32 0x024 ∧ ¬AccessMapped Config.profile .w8 0x000)
      ∧ AccessMapped Config.profile .w32 0x01C ∧ AccessMapped Config.profile .w32 0x300 := by
  have := two_le_frsz
  have := five_le_nidx
  refine ⟨rfl, .inr ⟨rfl, by omega, .inr (by omega)⟩, .inl ⟨rfl, rfl, ?_⟩, ⟨.inr ⟨rfl, rfl, .inl ?_⟩, .inl ⟨rfl, rfl, ?_⟩⟩,
    ⟨rfl, rfl⟩, ⟨{ running .encode with mem := [(0x100, 0xAA), (0x101, 0xBB), (0x102, 0xCC), (0x103, 0xDD)] }, rfl, rfl, rfl⟩,
    ?_, .inl ⟨rfl, rfl, ?_⟩, .inl ⟨rfl, rfl, ?_⟩⟩
  all_goals first | omega | (constructor <;> simp [AccessMapped])

/-- Each error bit cleared, and `ERRINFO` changed, by a step. -/
theorem witness_ErrorBitsSticky :
    (∃ t, step { facing .clrst with errCmd := true, errIdx := true } = .next t ∧ t.errCmd = false ∧ t.errIdx = false)
      ∧ ∃ t, step (facing (.cmdWrite 0x7)) = .next t ∧ t.errinfo ≠ (facing (.cmdWrite 0x7)).errinfo :=
  ⟨⟨_, rfl, rfl, rfl⟩, ⟨_, rfl, by decide⟩⟩

theorem witness_EncodeCompletes : ∃ pcm, HoldsPcm Config.profile ready.mem pcm := ⟨_, ready_pcm⟩

theorem witness_EncodeWritesInRange : ∃ t, exec .encode ready = .next t := ⟨_, exec_encode_ready ready_pcm⟩

theorem witness_UnwrittenElementsFault :
    (∃ t, perform ready .powerOn = .next t)
      ∧ (State.reset.busy = false ∧ AccessMapped Config.profile .w16 0x100 ∧ AccessMapped Config.profile .w32 0x500
        ∧ State.reset.mem.read 0x101 = none ∧ State.reset.mem.read 0x503 = none)
      ∧ 0 < Config.profile.frsz ∧ State.reset.mem.read16 (pcmInOff 0) = none
      ∧ 0 < Config.profile.nidx ∧ State.reset.mem.read32 (idxOff 0) = none := by
  have := two_le_frsz
  have := five_le_nidx
  refine ⟨⟨_, rfl⟩, ⟨rfl, .inr ⟨rfl, by omega, .inl (by omega)⟩, .inl ⟨rfl, rfl, ?_⟩, rfl, rfl⟩, by omega, rfl, by omega, rfl⟩
  omega

theorem witness_DecodeCompletes :
    (∃ ws, DecodeReady Config.profile ready.mem ws) ∧ 0 < Config.profile.frsz ∧ 2 * 0 + 1 < Config.profile.frsz := by
  have := two_le_frsz
  exact ⟨⟨_, ready_slots⟩, by omega, by omega⟩

theorem witness_ConcealCompletes : 0 < Config.profile.frsz ∧ 2 * 0 + 1 < Config.profile.frsz := by
  have := two_le_frsz
  omega

theorem witness_DecodeRejected :
    ∃ ws, ∃ h0 : 3 < ws.length, HoldsSlots Config.profile spoiled.mem ws ∧ ¬SlotInRange Config.profile 3 ws[3]
      ∧ ∀ k (h : k < ws.length), k < 3 → SlotInRange Config.profile k ws[k] :=
  ⟨_, three_lt, spoiled_slots, fun h => (spoiled_slot 3 three_lt).1 h rfl, fun k h hk => (spoiled_slot k h).2 (by omega)⟩

/-- Two states with equal contexts and input buffers that differ elsewhere. -/
theorem witness_ContextIndependence :
    let s' := { ready with done := true, errinfo := 7 }
    (∃ t t', exec .encode ready = .next t ∧ exec .encode s' = .next t') ∧ ready.enc = s'.enc ∧ ready.dec = s'.dec
      ∧ (∀ n < Config.profile.frsz, ready.mem.read16 (pcmInOff n) = s'.mem.read16 (pcmInOff n))
      ∧ (∃ ws t t', DecodeReady Config.profile ready.mem ws ∧ DecodeReady Config.profile s'.mem ws
          ∧ exec .decode ready = .next t ∧ exec .decode s' = .next t')
      ∧ ∃ t t', exec .conceal ready = .next t ∧ exec .conceal s' = .next t' :=
  ⟨⟨_, _, exec_encode_ready ready_pcm, exec_encode_ready ready_pcm⟩, rfl, rfl, fun _ _ => rfl,
    ⟨_, _, _, ready_slots, ready_slots, exec_decode_ready ready_slots, exec_decode_ready ready_slots⟩, ⟨_, _, rfl, rfl⟩⟩

theorem witness_PlcTransitions :
    (∃ t, exec .conceal ready = .next t) ∧ (∃ ws t, DecodeReady Config.profile ready.mem ws ∧ exec .decode ready = .next t)
      ∧ (∃ ws t, HoldsSlots Config.profile spoiled.mem ws ∧ (∃ k, ∃ h : k < ws.length, ¬SlotInRange Config.profile k ws[k])
          ∧ exec .decode spoiled = .next t)
      ∧ (∃ t, exec .resetDec ready = .next t) ∧ ∃ t, perform ready .powerOn = .next t := by
  obtain ⟨t, h, -⟩ := test_decode_rejected
  exact ⟨⟨_, rfl⟩, ⟨_, _, ready_slots, exec_decode_ready ready_slots⟩,
    ⟨_, t, spoiled_slots, ⟨3, three_lt, fun h => (spoiled_slot 3 three_lt).1 h rfl⟩, h⟩, ⟨_, rfl⟩, ⟨_, rfl⟩⟩

theorem cfeMax_bounds : Config.profile.holdPlc + 1 ≤ Config.profile.cfeMax := profile_wf.plc.hold_lt

/-- A concealed frame at the hold threshold and one past it. -/
theorem witness_ConcealFade :
    (∃ t, exec .conceal ready = .next t ∧ (0 < Config.profile.holdPlc → t.dec.cfecount ≤ Config.profile.holdPlc))
      ∧ ∃ t, exec .conceal { ready with dec := { ready.dec with cfecount := Config.profile.holdPlc } } = .next t
          ∧ Config.profile.holdPlc < t.dec.cfecount := by
  have hb := cfeMax_bounds
  refine ⟨⟨_, rfl, fun h => ?_⟩, ⟨_, rfl, ?_⟩⟩
  · have := concealFrame_cfecount Config.profile Config.num ready.dec
    have h0 : ready.dec.cfecount = 0 := rfl
    show (concealFrame Config.profile Config.num ready.dec).2.cfecount ≤ _
    omega
  · have := concealFrame_cfecount Config.profile Config.num { ready.dec with cfecount := Config.profile.holdPlc }
    refine lt_of_lt_of_eq ?_ this.symm
    show Config.profile.holdPlc < min (Config.profile.holdPlc + 1) Config.profile.cfeMax
    omega

/-- Every row of the LSP memory, the last subframe, the last sample, a long-term memory and a lag in their domains. -/
theorem witness_ConcealLspMemory :
    (∃ t, exec .conceal ready = .next t) ∧ Config.profile.lpco - 1 < Config.profile.lpco
      ∧ Config.profile.nsf - 1 < Config.profile.nsf ∧ Config.profile.frsz - 1 < Config.profile.frsz
      ∧ ready.dec.ltsym.length = Config.profile.maxpp + 1 ∧ LagOk Config.profile ready.dec.ppLast := by
  have h1 : 2 ≤ Config.profile.lpco := profile_wf.dims.two_le_lpco
  have h2 : 1 ≤ Config.profile.nsf := profile_wf.dims.nsf_pos
  have h3 := two_le_frsz
  exact ⟨⟨_, rfl⟩, by omega, by omega, by omega, ready_inv.dec.ltsym, ready_inv.dec.ppLast⟩

theorem witness_DecodePitchParams :
    ∃ ws t, DecodeReady Config.profile ready.mem ws ∧ exec .decode ready = .next t :=
  ⟨_, _, ready_slots, exec_decode_ready ready_slots⟩

theorem witness_DecodedLspStable :
    ∃ ws t, DecodeReady Config.profile ready.mem ws ∧ ready.dec.lsplast.length = Config.profile.lpco
      ∧ exec .decode ready = .next t :=
  ⟨_, _, ready_slots, (resetLsp_stable profile_wf).1, exec_decode_ready ready_slots⟩

/-- The premises, and the two cases of the check (V42.10, V42.11), of which every DECODE meets one. -/
theorem witness_BitErrorSubstitution :
    (∃ ws t, DecodeReady Config.profile ready.mem ws ∧ exec .decode ready = .next t)
      ∧ (lspDequantize { base with lspcb1 := [[-1, 0], [0, 0], [0, 0]] } [[1 / 10], [-1 / 10]] [1 / 3, 2 / 3] 0 0 0).subst
        = true
      ∧ (lspDequantize base [[1 / 10], [-1 / 10]] [1 / 3, 2 / 3] 0 0 0).subst = false :=
  ⟨⟨_, _, ready_slots, exec_decode_ready ready_slots⟩, by decide +kernel, by decide +kernel⟩

theorem witness_PitchInRange : base.Wf ∧ ∃ t, exec .encode ready = .next t :=
  ⟨Profile.sample_wf, _, exec_encode_ready ready_pcm⟩

theorem ready_mirrored : Mirrored ready.enc ready.dec := ⟨rfl, rfl, rfl, rfl⟩

theorem witness_EncoderDecoderStayMirrored :
    ∃ t u, Mirrored ready.enc ready.dec ∧ ready.dec.nclglim = 0 ∧ ready.dec.lctimer = 0
      ∧ exec .encode ready = .next t ∧ exec .decode t = .next u := by
  obtain ⟨ws, hr⟩ : ∃ ws, DecodeReady Config.profile (ready.encodeWith (List.replicate Config.profile.frsz 5)).mem ws := by
    rw [encodeWith_mem]
    exact ⟨_, decodeReady_writeIdx (length_encodeFrame profile_wf _ _ _)
      (fun k hk => encodeFrame_slot profile_wf _ _ _ hk) ready.mem⟩
  exact ⟨_, _, ready_mirrored, rfl, rfl, exec_encode_ready ready_pcm, exec_decode_ready hr⟩

theorem witness_InvariantKept : ∃ t, ready.Inv ∧ step ready = .next t := ⟨_, ready_inv, rfl⟩

theorem ready_running_inv : ({ ready with cmd := some 4 } : State).Inv :=
  { ready_inv with cmdLegal := fun w hw => by injection hw with hw; subst hw; decide }

/-- A DECODE about to end, and a host read about to be performed. -/
theorem witness_CompliantStepProceeds :
    (({ ready with cmd := some 4 } : State).Inv ∧ Complies { ready with cmd := some 4 })
      ∧ ({ ready with inputs := [.read .w32 0x004] } : State).Inv ∧ Complies { ready with inputs := [.read .w32 0x004] } := by
  refine ⟨⟨ready_running_inv, fun w i hw _ hd => ?_, fun e rest h hi => ?_⟩,
    { ready_inv with }, fun w i hw => ?_, fun e rest _ hi => ?_⟩
  · injection hw with hw
    subst hw
    have h4 : decodeWord 4 = .ok .decode := rfl
    rw [h4] at hd
    injection hd with hd
    subst hd
    intro k hk
    have hl := ready_slots.holds.length
    have := ready_slots.holds.slot k (hl ▸ hk)
    rw [idxOff]
    show (ready.mem.read32 (0x500 + 4 * k)).isSome = true
    rw [this]
    rfl
  · cases hi
  · cases hw
  · injection hi with h1 h2
    subst h1
    rfl

/-! ## The stages -/

theorem witness_NoiseEnergyScaling :
    base.Wf ∧ fns.Ok ∧ 0 < noiseEnergy [1, 1] ∧ (8 : Rat) = 2 ^ 2 * noiseEnergy [1, 1] ∧ noiseEnergy [0, 0] = 0 :=
  ⟨Profile.sample_wf, Num.sample_ok, by decide +kernel, by decide +kernel, by decide +kernel⟩

/-- The root is exact at an innovation energy of 0, which the sample profile has at reset. -/
theorem witness_InnovationDecay :
    base.Wf ∧ fns.Ok ∧ (Dec.reset base).cfecount = 0
      ∧ 0 < noiseEnergy (lcgRun base base.frsz (Dec.reset base).idum).1
      ∧ fns.sqrt ((Dec.reset base).eLast / noiseEnergy (lcgRun base base.frsz (Dec.reset base).idum).1) ^ 2
        = (Dec.reset base).eLast / noiseEnergy (lcgRun base base.frsz (Dec.reset base).idum).1 :=
  ⟨Profile.sample_wf, Num.sample_ok, rfl, by decide +kernel, by decide +kernel⟩

theorem witness_NoiseGenerator : (2 : Nat) < 3 := by norm_num

theorem witness_StabilizeSeparates :
    base.Wf ∧ [1 / 3, (2 : Rat) / 3].length = base.lpco
      ∧ elt [1 / 3, 2 / 3] 0 + base.lspminsep ≤ elt [1 / 3, 2 / 3] 1 ∧ base.lspmin ≤ elt [1 / 3, 2 / 3] 0
      ∧ elt [1 / 3, 2 / 3] 1 ≤ base.lspmax :=
  ⟨Profile.sample_wf, rfl, by decide +kernel, by decide +kernel, by decide +kernel⟩

theorem witness_LspFilterMonic : base.Wf ∧ [1 / 3, (2 : Rat) / 3].length = base.lpco := ⟨Profile.sample_wf, rfl⟩

/-- The three clauses at a log-gain of 12, of -1, and of 5. -/
theorem witness_LevelEstimatorOrdered :
    let g : GainState := { gainOf [] 0 0 6 with lmax := 10, lmin := 0, lmean := 5, x1 := 6 }
    base.Wf ∧ g.lmin ≤ g.lmean ∧ g.lmean ≤ g.lmax ∧ g.lmax < 12 ∧ -1 < g.lmin
      ∧ 5 ≤ (levelUpdate base g 5).lmean + base.estlTh * ((levelUpdate base g 5).lmax - (levelUpdate base g 5).lmean) :=
  ⟨Profile.sample_wf, by decide +kernel, by decide +kernel, by decide +kernel, by decide +kernel, by decide +kernel⟩

theorem witness_GainStepLimited :
    base.Wf ∧ ({ nclglim := 1, lctimer := 0 } : TrapState).lctimer = 0 ∧ base.lgcbsz - 1 < base.lgcbsz :=
  ⟨Profile.sample_wf, rfl, by decide⟩

theorem witness_MirroredGainNeverWalks : base.Wf := Profile.sample_wf

/-- The timer at 3 over two subframes; the counter below the threshold with a subframe that does not bind, one that
binds below it, and one that binds at it (V44.7, V44.8). -/
theorem witness_TrapEscape :
    let g := gainOf [4, -4] 12 12 0
    base.Wf ∧ [(g, (0 : Rat), 0), (g, 0, 0)].length < ({ nclglim := 0, lctimer := 3 } : TrapState).lctimer
      ∧ (gainLimit base g 10 2).2 = false ∧ (gainLimit base g 10 3).2 = true ∧ 0 + 1 < base.nclglimTrapped
      ∧ 1 + 1 = base.nclglimTrapped :=
  ⟨Profile.sample_wf, by decide, by decide +kernel, by decide +kernel, by decide, rfl⟩

theorem witness_SearchTieBreak : (0 < 1) ∧ [3, 5].Pairwise (· < ·) ∧ 0 < base.cbsz := ⟨by decide, by decide, by decide⟩

theorem witness_HighpassEquation : 2 ≤ ([5, 5] : List Rat).length := le_rfl

theorem witness_PreemphEquation : 1 ≤ ([5] : List Rat).length := le_rfl

/-- A silent window, a recursion that runs to its full order, and one that stops at order 1. -/
theorem witness_LevinsonNormalEquations :
    elt [0, 0, 0] 0 ≤ 0 ∧ 0 < elt [14, 4, 3 / 4] 0 ∧ levinson 2 [14, 4, 3 / 4] = [1, -53 / 180, 11 / 360]
      ∧ levinson 3 [1, 1 / 2, 2, 1] = [1, -1 / 2, 0, 0] := by
  decide +kernel

theorem witness_ExcitationSearchExhaustive :
    let q : NfParams := { bq := [0, 1, 0], pp := base.maxpp, beta := 1 / 4, f := [1 / 4, 0] }
    let m : NfMem := { stnfm := [0, 1], ltsym := List.replicate (base.maxpp + 1) 2, ltnfm := List.replicate base.maxpp 1 }
    base.Wf ∧ ([3, 1] : List Rat).length = base.vdim ∧ base.minpp ≤ q.pp ∧ q.pp ≤ base.maxpp
      ∧ m.stnfm.length = base.lpco ∧ m.ltsym.length = base.maxpp + 1 ∧ m.ltnfm.length = base.maxpp :=
  ⟨Profile.sample_wf, rfl, by decide, by decide, rfl, rfl, rfl⟩

theorem witness_ExcitationIndexRoundTrip : base.Wf ∧ (1, true).1 < base.cbsz ∧ 3 < 2 * base.cbsz :=
  ⟨Profile.sample_wf, by decide, by decide⟩

theorem witness_ExponentChoice : base.Wf ∧ (0 : Nat) = 0 ∧ 0 < 3000 := ⟨Profile.sample_wf, rfl, by norm_num⟩

/-- Memories at both ends of 16 bits, with a shift up and a shift down. -/
theorem witness_RetryLoop :
    let m : SynMem := { st := [32767, -32768], y1 := 32767, z1 := -32768 }
    (-32768 ≤ m.y1 ∧ m.y1 ≤ 32767) ∧ (-32768 ≤ m.z1 ∧ m.z1 ≤ 32767) ∧ (∀ v ∈ m.st, -32768 ≤ v ∧ v ≤ 32767)
      ∧ (0 : Int) < 2 ∧ (-1 : Int) ≤ 0 ∧ validDelta m 2 = 0 ∧ validDelta m (-1) = -1 := by
  decide

theorem witness_SilenceStaysSilent : base.Wf := Profile.sample_wf

/-- Both ends of the range of 16 bits at exponent 0. -/
theorem witness_FixedPointRounding :
    1 ≤ 16 ∧ (-(2 : Rat) ^ (16 - 1) ≤ -32768 * (2 : Rat) ^ (0 : Int) ∧ -32768 * (2 : Rat) ^ (0 : Int) + 1 / 2 < 2 ^ (16 - 1))
      ∧ (32767 * (2 : Rat) ^ (0 : Int) + 1 / 2 < 2 ^ (16 - 1)) := by
  norm_num

end Sys2Proof.Tests
end

section
/-! PROOFS, part 1. Scanning for a least element (R15) and rounding (R16, R19): the searches' tie-break along the order
of the list they scan, `round` as the nearest integer with halves upward, and the two fixed-point roundings through it. -/

namespace Sys2Proof.Machine

/-! ### The scan's tie-break -/

/-- On a list sorted by `R`, what stands before the scan's result by `R` scores strictly more (R15). -/
theorem argminFrom_lt_of_before {α : Type} {R : α → α → Prop} [Std.Asymm R] (f : α → Rat) {best y : α} {xs : List α}
    (hs : (best :: xs).Pairwise R) (hy : y ∈ best :: xs) (hR : R y (argminFrom f best xs)) :
    f (argminFrom f best xs) < f y := by
  obtain ⟨l₁, l₂, hsplit, hbefore, -⟩ := argminFrom_split f best xs
  rw [hsplit] at hs hy
  rcases List.mem_append.1 hy with hy | hy
  · exact hbefore y hy
  · rcases List.mem_cons.1 hy with rfl | hy
    · exact absurd hR (Std.Asymm.asymm _ _ hR)
    · have hafter : R (argminFrom f best xs) y := List.rel_of_pairwise_cons (List.pairwise_append.1 hs).2.1 hy
      exact absurd hR (Std.Asymm.asymm _ _ hafter)

/-- A scan that starts with the list's own head does not count it twice. -/
theorem argminFrom_cons_self {α : Type} (f : α → Rat) (x : α) (xs : List α) :
    argminFrom f x (x :: xs) = argminFrom f x xs := by
  rw [argminFrom, if_neg (lt_irrefl _)]

/-- What the index search scans: the range, once, in ascending order. -/
theorem argmin_succ (n : Nat) (f : Nat → Rat) :
    argmin (n + 1) f = argminFrom f 0 ((List.range n).map Nat.succ) := by
  rw [argmin, List.range_succ_eq_map, argminFrom_cons_self]

theorem argmin_le {n j : Nat} (f : Nat → Rat) (hj : j < n) : f (argmin n f) ≤ f j :=
  argminFrom_le f (List.mem_cons_of_mem _ (List.mem_range.2 hj))

/-- Every index before the search's result scores strictly more (R15). -/
theorem argmin_lt_of_lt {n j : Nat} (f : Nat → Rat) (hj : j < argmin n f) : f (argmin n f) < f j := by
  cases n with
  | zero => exact absurd hj (Nat.not_lt_zero j)
  | succ n =>
    have hmem : j ∈ List.range (n + 1) := List.mem_range.2 (hj.trans (argmin_lt n.succ_pos f))
    rw [argmin_succ] at hj ⊢
    rw [List.range_succ_eq_map] at hmem
    exact argminFrom_lt_of_before f (List.range_succ_eq_map ▸ List.pairwise_lt_range) hmem hj

theorem argmaxFrom_mem {α : Type} (f : α → Rat) (x : α) (xs : List α) : argmaxFrom f x xs ∈ x :: xs :=
  argminFrom_mem _ x xs

theorem le_argmaxFrom {α : Type} (f : α → Rat) {x y : α} {xs : List α} (hy : y ∈ x :: xs) :
    f y ≤ f (argmaxFrom f x xs) :=
  neg_le_neg_iff.1 (argminFrom_le (fun z => -f z) hy)

/-- On a list sorted by `R`, what stands before the maximum found scores strictly less (R15). -/
theorem lt_argmaxFrom_of_before {α : Type} {R : α → α → Prop} [Std.Asymm R] (f : α → Rat) {x y : α} {xs : List α}
    (hs : (x :: xs).Pairwise R) (hy : y ∈ x :: xs) (hR : R y (argmaxFrom f x xs)) :
    f y < f (argmaxFrom f x xs) :=
  neg_lt_neg_iff.1 (argminFrom_lt_of_before (fun z => -f z) hs hy hR)

/-! ### The order of the (index, sign) pairs -/

/-- R15's order of the candidates: by row, and for one row `+1` before `-1`. -/
def CandidateBefore (c d : Nat × Bool) : Prop := c.1 < d.1 ∨ (c.1 = d.1 ∧ c.2 = false ∧ d.2 = true)

theorem candidateBefore_asymm : Std.Asymm CandidateBefore where
  asymm c d hcd hdc := by
    rcases hcd with h | ⟨h, hc, -⟩ <;> rcases hdc with h' | ⟨h', -, hc'⟩
    · omega
    · omega
    · omega
    · exact Bool.false_ne_true (hc.symm.trans hc')

/-- The candidates are listed in R15's order. -/
theorem excCandidates_pairwise (P : Profile) : (excCandidates P).Pairwise CandidateBefore := by
  refine List.pairwise_flatMap.2 ⟨fun j _ => ?_, List.pairwise_lt_range.imp fun {j k} hjk c hc d hd => ?_⟩
  · simp [CandidateBefore]
  · have hcj : c.1 = j := by rcases List.mem_pair.1 hc with rfl | rfl <;> rfl
    have hdk : d.1 = k := by rcases List.mem_pair.1 hd with rfl | rfl <;> rfl
    exact .inl (by omega)

/-- With a row to try, the scan's start is the first candidate. -/
theorem excCandidates_eq_cons {P : Profile} (h : 0 < P.cbsz) :
    ∃ cs, excCandidates P = (0, false) :: cs := by
  obtain ⟨n, hn⟩ := Nat.exists_eq_add_one_of_ne_zero h.ne'
  exact ⟨_, by rw [excCandidates, hn, List.range_succ_eq_map, List.flatMap_cons]; rfl⟩

theorem excSearch_le {P : Profile} (tz : List Rat) (zsr : List (List Rat)) (gq : Rat) {c : Nat × Bool}
    (hc : c.1 < P.cbsz) : excScore P tz zsr gq (excSearch P tz zsr gq) ≤ excScore P tz zsr gq c :=
  argminFrom_le _ (List.mem_cons_of_mem _ (mem_excCandidates.2 hc))

/-- Every candidate before the winner scores strictly more (R15, R314). -/
theorem excSearch_lt_of_before {P : Profile} (tz : List Rat) (zsr : List (List Rat)) (gq : Rat) {c : Nat × Bool}
    (hc : c.1 < P.cbsz) (hb : CandidateBefore c (excSearch P tz zsr gq)) :
    excScore P tz zsr gq (excSearch P tz zsr gq) < excScore P tz zsr gq c := by
  have := candidateBefore_asymm
  obtain ⟨cs, hcs⟩ := excCandidates_eq_cons (Nat.zero_lt_of_lt hc)
  have hmem := mem_excCandidates.2 hc
  have hsorted := excCandidates_pairwise P
  rw [excSearch, hcs, argminFrom_cons_self] at hb ⊢
  rw [hcs] at hmem hsorted
  exact argminFrom_lt_of_before _ hsorted hmem hb

/-- Settles O46: each search is a scan of a list sorted in its set's order, so the scan's tie-break is R15's. -/
theorem searchTieBreak : Obligations.SearchTieBreak := by
  refine ⟨fun f n hn => ?indices, fun f x xs hs => ?lags, fun P tz zsr gq hP => ?pairs⟩
  case indices => exact ⟨argmin_lt hn f, fun j hj => argmin_le f hj, fun j hj => argmin_lt_of_lt f hj⟩
  case lags =>
    exact ⟨argmaxFrom_mem f x xs, fun y hy => le_argmaxFrom f hy, fun y hy hlt => lt_argmaxFrom_of_before f hs hy hlt⟩
  case pairs =>
    exact ⟨excSearch_lt hP tz zsr gq, fun j hj neg =>
      ⟨excSearch_le tz zsr gq hj, fun hb => excSearch_lt_of_before tz zsr gq hj hb⟩⟩

/-! ### Rounding -/

/-- `round` is the nearest integer, halves upward (R16). -/
theorem round_spec (v : Rat) : (round v : Rat) - 1 / 2 ≤ v ∧ v < (round v : Rat) + 1 / 2 := by
  have hle : (round v : Rat) ≤ v + 1 / 2 := Int.floor_le _
  have hlt : v + 1 / 2 < (round v : Rat) + 1 := Int.lt_floor_add_one _
  constructor <;> linarith

theorem abs_round_sub_le (v : Rat) : |(round v : Rat) - v| ≤ 1 / 2 := by
  obtain ⟨hle, hlt⟩ := round_spec v
  exact abs_le.2 ⟨by linarith, by linarith⟩

theorem le_round {v : Rat} {n : Int} (h : (n : Rat) ≤ v + 1 / 2) : n ≤ round v := Int.le_floor.2 h

theorem round_lt {v : Rat} {n : Int} (h : v + 1 / 2 < n) : round v < n := Int.floor_lt.2 h

/-! ### The fixed-point primitives -/

theorem satW_mem (W : Nat) (v : Int) : -(2 : Int) ^ (W - 1) ≤ satW W v ∧ satW W v ≤ 2 ^ (W - 1) - 1 :=
  clamp_mem (by have : (0 : Int) < 2 ^ (W - 1) := by positivity
                omega)

theorem satW_of_mem {W : Nat} {v : Int} (h₁ : -(2 : Int) ^ (W - 1) ≤ v) (h₂ : v < 2 ^ (W - 1)) : satW W v = v :=
  clamp_of_mem h₁ (by omega)

/-- `tofix` only rounds where the scaled value rounds into the `W`-bit range (R19). -/
theorem tofix_of_mem {v : Rat} {q : Int} {W : Nat} (h₁ : -(2 : Rat) ^ (W - 1) ≤ v * (2 : Rat) ^ q + 1 / 2)
    (h₂ : v * (2 : Rat) ^ q + 1 / 2 < 2 ^ (W - 1)) : tofix v q W = round (v * (2 : Rat) ^ q) :=
  satW_of_mem (le_round (by exact_mod_cast h₁)) (round_lt (by exact_mod_cast h₂))

/-- `tofix` is within half a unit of every scaled value that rounds into the `W`-bit range, the half unit below the
least integer of the range included (R19). -/
theorem abs_tofix_sub_le {v : Rat} {q : Int} {W : Nat} (h₁ : -(2 : Rat) ^ (W - 1) ≤ v * (2 : Rat) ^ q + 1 / 2)
    (h₂ : v * (2 : Rat) ^ q + 1 / 2 < 2 ^ (W - 1)) : |(tofix v q W : Rat) - v * (2 : Rat) ^ q| ≤ 1 / 2 :=
  tofix_of_mem h₁ h₂ ▸ abs_round_sub_le _

/-- A right shift with rounding is `round` of the exact quotient (R19). -/
theorem rndShr_eq_round (a : Int) {k : Nat} (hk : 1 ≤ k) : rndShr a k = round ((a : Rat) / 2 ^ k) := by
  obtain ⟨m, rfl⟩ := Nat.exists_eq_add_of_le' hk
  have hnum : (a : Rat) / 2 ^ (m + 1) + 1 / 2 = ((a + 2 ^ m : Int) : Rat) / ((2 ^ (m + 1) : Nat) : Rat) := by
    push_cast
    field_simp
    ring
  have hm : (((m + 1 : Nat) : Int) - 1).toNat = m := by omega
  rw [round, hnum, Rat.floor_intCast_div_natCast, rndShr, if_pos (by omega), hm, Int.toNat_natCast]
  norm_cast

/-- Settles O57: both primitives are `round` of the exact value, which is the nearest integer with halves upward. -/
theorem fixedPointRounding : Obligations.FixedPointRounding := by
  refine ⟨fun v q W _ => ⟨satW_mem W _, fun hlo hhi => ?fixed⟩, fun a k hk => ?shift⟩
  case fixed => exact abs_tofix_sub_le (by linarith) hhi
  case shift =>
    rw [rndShr_eq_round a hk]
    exact round_spec _

end Sys2Proof.Machine
end

section
/-! PROOFS, part 2. The invariant of the block (R38, R44 to R48, R81, R140): every stage keeps the value domains of the
context it works on, every operation keeps the buffers in their windows, and so every step keeps the invariant. -/

namespace Sys2Proof.Machine

/-! ### The LSP vector -/

/-- What STABILIZE gives (R220): every component at least the minimum separation above the one before it, and all of them
in `[LSPMIN, LSPMAX]`. -/
theorem stabilize_spec {P : Profile} (h : P.LspOk) {l : List Rat} (hl : l.length = P.lpco) :
    ((stabilize P l).IsChain fun a b => a + P.lspminsep ≤ b) ∧ ∀ x ∈ stabilize P l, P.lspmin ≤ x ∧ x ≤ P.lspmax := by
  set up := sepUp P.lspminsep P.lspmin (l.insertionSort (· ≤ ·)) with hup
  have hlen : up.length = P.lpco := by simp [hup, hl]
  have hchain : up.IsChain fun a b => a + P.lspminsep ≤ b := sepUp_chain _ _ _
  have hge : ∀ i < up.length, P.lspmin + i * P.lspminsep ≤ elt up i := fun i hi =>
    sepUp_ge (by simpa [hup] using hi)
  have hst : stabilize P l =
      if P.lspmax < elt up (up.length - 1) then sepDown P.lspminsep P.lspmax up else up := rfl
  rw [hst]
  split_ifs with hlast
  case pos =>
    refine ⟨sepDown_chain _ _ _, fun x hx => ?_⟩
    have hne : up ≠ [] := by rintro he; simp [he, sepDown] at hx
    have hhead := sepDown_ge hge fun _ => hlen ▸ h.room.le
    obtain ⟨hlo, hhi⟩ := (between_ends h.lspminsep_pos (sepDown_chain P.lspminsep P.lspmax up)).2 x hx
    rw [length_sepDown, sepDown_last hne] at hhi
    refine ⟨(hhead _ ?_).trans hlo, hhi⟩
    cases hd : sepDown P.lspminsep P.lspmax up with
    | nil => simp [hd] at hx
    | cons y ys => simp [elt]
  case neg =>
    refine ⟨hchain, fun x hx => ?_⟩
    obtain ⟨hlo, hhi⟩ := (between_ends h.lspminsep_pos hchain).2 x hx
    have h0 : P.lspmin ≤ elt up 0 := by simpa using hge 0 (List.length_pos_of_mem hx)
    exact ⟨h0.trans hlo, hhi.trans (not_lt.1 hlast)⟩

/-- A stabilized vector may cross frames (R183, R216). -/
theorem stabilize_stable {P : Profile} (h : P.LspOk) {l : List Rat} (hl : l.length = P.lpco) :
    LspStable P (stabilize P l) := by
  obtain ⟨hchain, hrange⟩ := stabilize_spec h hl
  exact ⟨(length_stabilize P l).trans hl, (between_ends h.lspminsep_pos hchain).1, hrange⟩

theorem lspDequantize_stable {P : Profile} (h : P.LspOk) {lsplast : List Rat} (hl : lsplast.length = P.lpco)
    (pm : List (List Rat)) (i1 i21 i22 : Nat) : LspStable P (lspDequantize P pm lsplast i1 i21 i22).lspq := by
  simp only [lspDequantize]
  split
  · exact stabilize_stable h (length_vecAdd P _ _)
  · exact stabilize_stable h hl

theorem lspDequantize_sized {P : Profile} {pm : List (List Rat)} (h : LsppmSized P pm) (lsplast : List Rat)
    (i1 i21 i22 : Nat) : LsppmSized P (lspDequantize P pm lsplast i1 i21 i22).lsppm := by
  simp only [lspDequantize]
  split <;> exact lspShift_sized h _

/-! ### The gain coder and its counters -/

theorem length_lgpm_gainQuantize {P : Profile} {g : GainState} (hg : g.lgpm.length = P.lgporder) (N : Num) (es : Rat) :
    (gainQuantize P N g es).2.2.lgpm.length = P.lgporder :=
  length_gainShift hg _ _

theorem length_lgpm_gainDequantize {P : Profile} {g : GainState} (hg : g.lgpm.length = P.lgporder) (N : Num)
    (t : TrapState) (gi : Nat) : (gainDequantize P N t g gi).2.1.lgpm.length = P.lgporder :=
  length_gainShift hg _ _

theorem length_lgpm_gainConceal {P : Profile} {g : GainState} (hg : g.lgpm.length = P.lgporder) (N : Num) (es : Rat) :
    (gainConceal P N g es).lgpm.length = P.lgporder :=
  length_gainShift (g := levelUpdate P g g.prevlg0) hg _ _

/-- The convergence timer starts from its full time and counts down (R287). -/
theorem lctimer_trapStep_le {P : Profile} {t : TrapState} (ht : t.lctimer ≤ P.levelConvergenceTime) (g : GainState)
    (lgpe : Rat) (p : Nat) : (trapStep P t g lgpe p).2.lctimer ≤ P.levelConvergenceTime := by
  unfold trapStep
  dsimp only
  split_ifs
  · exact (Nat.sub_le _ _).trans ht
  · exact le_rfl
  · exact ht
  · exact le_rfl
  · exact ht

/-! ### The encoder context -/

/-- What the subframe loop of ENCODE keeps: the sizes of the memories it carries (R46, R311). -/
structure EncLoop.Sized (P : Profile) (l : EncLoop) : Prop where
  stnfm : l.nf.stnfm.length = P.lpco
  ltsym : l.nf.ltsym.length = P.maxpp + 1
  ltnfm : l.nf.ltnfm.length = P.maxpp
  lgpm : l.gain.lgpm.length = P.lgporder

theorem nfcVector_lengths (P : Profile) (q : NfParams) (zsr : List (List Rat)) (gq : Rat) (m : NfMem) (dv : List Rat) :
    (nfcVector P q zsr gq m dv).2.stnfm.length = m.stnfm.length
      ∧ (nfcVector P q zsr gq m dv).2.ltsym.length = m.ltsym.length
      ∧ (nfcVector P q zsr gq m dv).2.ltnfm.length = m.ltnfm.length :=
  (nfRun_lengths P q m _).2

theorem encVector_sized {P : Profile} {l : EncLoop} (h : l.Sized P) (fr : EncFrame) (zsr : List (List Rat)) (gq : Rat)
    (s v : Nat) : (encVector P fr zsr gq s l v).Sized P := by
  obtain ⟨hst, hlt, hnf⟩ := nfcVector_lengths P fr.nfq zsr gq l.nf (vectorOf P fr.db s v)
  exact ⟨hst.trans h.stnfm, hlt.trans h.ltsym, hnf.trans h.ltnfm, h.lgpm⟩

theorem encSubframe_sized {P : Profile} {l : EncLoop} (h : l.Sized P) (N : Num) (fr : EncFrame) (s : Nat) :
    (encSubframe P N fr l s).Sized P := by
  have hlevel : (levelUpdate P l.gain l.gain.prevlg0).lgpm.length = P.lgporder := h.lgpm
  simp only [encSubframe]
  refine foldl_range_induct (Q := EncLoop.Sized P) ?_ fun _ v _ hl => encVector_sized hl _ _ _ s v
  exact ⟨h.stnfm, h.ltsym, h.ltnfm, length_lgpm_gainQuantize hlevel N _⟩

/-- A history takes a frame's samples and keeps its length (R46). -/
theorem length_lastN_append {α : Type} {n : Nat} {hist : List α} (h : hist.length = n) (new : List α) :
    (lastN n (hist ++ new)).length = n :=
  length_lastN (by rw [List.length_append]; omega)

/-- ENCODE keeps the encoder context in its value domains (R44, R145). -/
theorem encodeFrame_ok {P : Profile} (hP : P.Wf) {e : Enc} (h : e.Ok P) (N : Num) (pcm : List Int) :
    (encodeFrame P N e pcm).2.Ok P := by
  have hloop : ((List.range P.nsf).foldl (encSubframe P N (encAnalyse P N e pcm).1)
      { nf := e.nf, gain := e.gain, gi := [], ei := [] }).Sized P :=
    foldl_range_induct (Q := EncLoop.Sized P) ⟨h.stnfm, h.ltsym, h.ltnfm, h.lgpm⟩
      fun _ s _ hl => encSubframe_sized hl N _ s
  exact
    { xhist := length_lastN_append h.xhist _
      lsplast := stabilize_stable hP.lsp (length_vecAdd P _ _)
      lsppm := lspShift_sized h.lsppm _
      pwmem := (length_weightFrom P _ e.pwmem _).2.trans h.pwmem
      declpfMem := length_lastN_append h.declpfMem _
      xdhist := length_lastN_append h.xdhist _
      pwhist := length_lastN_append h.pwhist _
      cpplast := refine_lagOk hP.dims.minpp_lt_maxpp.le _ _
      dhist := length_lastN_append h.dhist _
      stnfm := hloop.stnfm
      ltsym := hloop.ltsym
      ltnfm := hloop.ltnfm
      lgpm := hloop.lgpm }

/-! ### The decoder context -/

/-- What the subframe loop of DECODE keeps of the parts it carries (R48, R287). -/
structure DecLoop.Ok (P : Profile) (l : DecLoop) : Prop where
  lgpm : l.gain.lgpm.length = P.lgporder
  nclglim : l.trap.nclglim ≤ P.nclglimTrapped
  lctimer : l.trap.lctimer ≤ P.levelConvergenceTime
  ltsym : l.ltsym.length = P.maxpp + 1
  eacc : 0 ≤ l.eacc

theorem decVector_ok {P : Profile} {l : DecLoop} (h : l.Ok P) (bq : List Rat) (pp : Nat) (ix : List Nat) (gq : Rat)
    (s v : Nat) : (decVector P bq pp ix gq s l v).Ok P :=
  { h with
    ltsym := (ltSynth_lengths bq pp l.ltsym _).2.trans h.ltsym
    eacc := add_nonneg h.eacc (List.sum_nonneg fun x hx => by
      obtain ⟨c, -, rfl⟩ := List.mem_map.1 hx
      exact sq_nonneg' c) }

theorem decSubframe_ok {P : Profile} (hP : P.GainOk) {l : DecLoop} (h : l.Ok P) (N : Num) (bq : List Rat) (pp : Nat)
    (ix : List Nat) (s : Nat) : (decSubframe P N bq pp ix l s).Ok P := by
  have hlevel : (levelUpdate P l.gain l.gain.prevlg0).lgpm.length = P.lgporder := h.lgpm
  simp only [decSubframe]
  refine foldl_range_induct (Q := DecLoop.Ok P) ?_ fun _ v _ hl => decVector_ok hl bq pp ix _ s v
  exact
    { lgpm := length_lgpm_gainDequantize hlevel N _ _
      nclglim := (countersShown_trapStep hP.trapped l.trap _ _ _).1.le
      lctimer := lctimer_trapStep_le h.lctimer _ _ _
      ltsym := h.ltsym
      eacc := h.eacc }

/-- The periodicity stays a mean of values in `[0, 1]` (R151). -/
theorem periodicity_mem {P : Profile} (hP : P.PlcOk) {per : Rat} (h : 0 ≤ per ∧ per ≤ 1) (bq : List Rat) :
    0 ≤ periodicity P per bq ∧ periodicity P per bq ≤ 1 := by
  obtain ⟨ha, ha1⟩ := hP.perSmooth
  set e := min 1 (sumTo 3 fun k => sq (elt bq k)) with he
  have he0 : 0 ≤ e := le_min zero_le_one (sumTo_nonneg fun _ _ => sq_nonneg' _)
  have he1 : e ≤ 1 := min_le_left _ _
  have hb : 0 ≤ 1 - P.perSmooth := by linarith
  show 0 ≤ P.perSmooth * per + (1 - P.perSmooth) * e ∧ P.perSmooth * per + (1 - P.perSmooth) * e ≤ 1
  have hper : P.perSmooth * per ≤ P.perSmooth * 1 := mul_le_mul_of_nonneg_left h.2 ha
  have hmean : (1 - P.perSmooth) * e ≤ (1 - P.perSmooth) * 1 := mul_le_mul_of_nonneg_left he1 hb
  exact ⟨add_nonneg (mul_nonneg ha h.1) (mul_nonneg hb he0), by linarith⟩

/-- The decoder's synthesis keeps its memory's size and its exponent's range, whatever it synthesizes (R341, R348). -/
theorem synthesize_ok {P : Profile} (hP : P.SynthOk) {d : Dec} (h : d.Ok P) (aq dq : List Rat) :
    (synthesize P d.syn aq dq).2.stsym.length = P.lpco
      ∧ P.sexpMin ≤ (synthesize P d.syn aq dq).2.sexp ∧ (synthesize P d.syn aq dq).2.sexp ≤ P.sexpMax :=
  ⟨(synthesize_lengths P d.syn aq dq).2.trans h.stsym,
    synthesize_sexp (hP.sexpMin_le.trans hP.le_sexpMax) h.sexp.1 aq dq⟩

/-- DECODE keeps the decoder context in its value domains where slot 3 holds the index of a lag (R44, R146). -/
theorem decodeFrame_ok {P : Profile} (hP : P.Wf) {d : Dec} (h : d.Ok P) (N : Num) {ix : List Nat}
    (hpp : LagOk P (pitchOfIndex P (slot ix 3))) : (decodeFrame P N d ix).2.Ok P := by
  have hloop : ((List.range P.nsf).foldl
      (decSubframe P N (tapsOfIndex P (slot ix 4)) (pitchOfIndex P (slot ix 3)) ix)
      { gain := d.gain, trap := { nclglim := d.nclglim, lctimer := d.lctimer }, ltsym := d.ltsym, dq := [],
        eacc := 0 }).Ok P :=
    foldl_range_induct (Q := DecLoop.Ok P) ⟨h.lgpm, h.nclglim, h.lctimer, h.ltsym, le_rfl⟩
      fun _ s _ hl => decSubframe_ok hP.gain hl N _ _ ix s
  exact
    { lsplast := lspDequantize_stable hP.lsp h.lsplast.1 _ _ _ _
      lsppm := lspDequantize_sized h.lsppm _ _ _ _
      ppLast := hpp
      bqLast := length_tab 3 _
      lgpm := hloop.lgpm
      nclglim := hloop.nclglim
      lctimer := hloop.lctimer
      ltsym := hloop.ltsym
      stsym := (synthesize_ok hP.synth h _ _).1
      sexp := (synthesize_ok hP.synth h _ _).2
      eLast := hloop.eacc
      per := periodicity_mem hP.plc h.per _
      cfecount := Nat.zero_le _ }

theorem fade_ok {P : Profile} (hP : P.PlcOk) {d : Dec} (h : d.Ok P) : (fade P d).Ok P := by
  unfold fade
  split
  · exact { h with bqLast := by simpa using h.bqLast, eLast := mul_nonneg hP.attnE.1.le h.eLast }
  · exact h

/-- CONCEAL keeps the decoder context in its value domains (R44, R148). -/
theorem concealFrame_ok {P : Profile} (hP : P.Wf) {d : Dec} (h : d.Ok P) (N : Num) : (concealFrame P N d).2.Ok P :=
  fade_ok hP.plc
    { h with
      cfecount := min_le_right _ _
      ltsym := (ltSynth_lengths d.bqLast d.ppLast d.ltsym _).2.trans h.ltsym
      stsym := (synthesize_ok hP.synth h _ _).1
      sexp := (synthesize_ok hP.synth h _ _).2
      lsppm := lspShift_sized h.lsppm _
      lgpm := foldl_range_induct (Q := fun g : GainState => g.lgpm.length = P.lgporder) h.lgpm
        fun _ _ _ hg => length_lgpm_gainConceal hg N _ }

/-! ### The buffers in their windows -/

/-- A write inside the windows keeps every listed offset in them (R81). -/
theorem mapped_of_written {P : Profile} {m m' : Memory} {lo hi : Nat} (h : ∀ c ∈ m, InBuffer P c.1)
    (hw : ∀ c ∈ m', (lo ≤ c.1 ∧ c.1 < hi) ∨ c ∈ m) (hr : ∀ a, lo ≤ a → a < hi → InBuffer P a) :
    ∀ c ∈ m', InBuffer P c.1 := fun c hc => (hw c hc).elim (fun ⟨h1, h2⟩ => hr _ h1 h2) (h c)

theorem Memory.writeAt_wf {m : Memory} (h : m.wf = true) (width : Width) (a : Nat) (w : Word) :
    (m.writeAt width a w).wf = true := by
  cases width
  · exact Memory.write16_wf h _ _
  · exact Memory.write16_wf h _ _
  · exact Memory.write32_wf h _ _

/-- A buffer element written by a host access at a width the port takes lists the element's own offsets only. -/
theorem Memory.mem_writeAt {m : Memory} {width : Width} (hw : width ≠ .w8) {a : Nat} {w : Word} {c : Host.Cell}
    (h : c ∈ m.writeAt width a w) : (a ≤ c.1 ∧ c.1 < a + width.bytes) ∨ c ∈ m := by
  cases width
  · exact absurd rfl hw
  · exact Memory.mem_write16 h
  · exact Memory.mem_write32 h

/-- A host write to `PCM_IN` or `IDX` stays in that buffer's window (R81). -/
theorem writeAt_mapped {P : Profile} {m : Memory} (h : ∀ c ∈ m, InBuffer P c.1) {width : Width} {a : Nat}
    (hc : checkAccess P width a = .ok .pcmIn ∨ checkAccess P width a = .ok .idx) (w : Word) :
    ∀ c ∈ m.writeAt width a w, InBuffer P c.1 := by
  obtain ⟨l, hl, hbuf⟩ : ∃ l, checkAccess P width a = .ok l ∧ (l = .pcmIn ∨ l = .idx) :=
    hc.elim (fun h => ⟨_, h, .inl rfl⟩) fun h => ⟨_, h, .inr rfl⟩
  obtain ⟨hw, -, -, hloc⟩ := checkAccess_ok hl
  refine mapped_of_written h (fun c => Memory.mem_writeAt hw) fun b h1 h2 => ?_
  rcases locate_range hloc with ⟨-, hreg⟩ | ⟨h3, h4, -⟩ | ⟨-, -, rfl⟩ | ⟨h3, h4, -⟩
  · obtain ⟨hin, -, hix⟩ := registerAt_ne_buffer (a / 4)
    rcases hbuf with rfl | rfl
    · exact absurd hreg.symm hin
    · exact absurd hreg.symm hix
  · exact .inl (by omega)
  · simp at hbuf
  · exact .inr (.inr (by omega))

theorem writeIdx_mapped {P : Profile} {m : Memory} (h : ∀ c ∈ m, InBuffer P c.1) {ix : List Nat}
    (hl : ix.length = P.nidx) : ∀ c ∈ writeIdx m ix, InBuffer P c.1 :=
  mapped_of_written h (fun _ => Memory.mem_writeWords) fun a h1 h2 =>
    .inr (.inr ⟨h1, by simpa [hl, idxOff] using h2⟩)

theorem writePcmOut_mapped {P : Profile} {m : Memory} (h : ∀ c ∈ m, InBuffer P c.1) {pcm : List Int}
    (hl : pcm.length = P.frsz) : ∀ c ∈ writePcmOut m pcm, InBuffer P c.1 :=
  mapped_of_written h (fun _ => Memory.mem_writeSamples) fun a h1 h2 =>
    .inr (.inl ⟨h1, by simpa [hl, pcmOutOff] using h2⟩)

/-! ### Operations on the state -/

theorem State.Inv.complete {s : State} (h : s.Inv) : s.complete.Inv := { h with cmdLegal := by simp }

/-- Raising `ERR_CMD` or `ERR_IDX` leaves `ERRINFO` of its form (R38, R401, R402). -/
theorem State.Inv.rejectCmd {s : State} (h : s.Inv) (w : Word) : (s.rejectCmd w).Inv :=
  { h with errinfo := ⟨s.busy, 0, opField w, rfl⟩ }

theorem State.Inv.rejectIdx {s : State} (h : s.Inv) (k0 : Nat) : (s.rejectIdx k0).Inv :=
  { h with cmdLegal := by simp, errinfo := ⟨false, BitVec.ofNat 8 k0, 0x4, rfl⟩ }

/-- A `CMD` write latches a word that decodes, or none (R140). -/
theorem State.Inv.writeCmd {s : State} (h : s.Inv) (w : Word) : (s.writeCmd w).Inv := by
  rcases writeCmd_cases s w with ⟨-, hdec, heq⟩ | heq <;> rw [heq]
  · refine { h with cmdLegal := fun v hv => ?_ }
    obtain rfl : w = v := by simpa using hv
    exact (decodeWord_isOk w).1 hdec
  · exact h.rejectCmd w

theorem State.powerOn_inv (s : State) : s.powerOn.Inv where
  memWf := rfl
  memMapped := by simp
  cmdLegal := by simp
  errinfo := ⟨false, 0, 0, rfl⟩
  enc := Enc.reset_ok Config.setup.profileOk
  dec := Dec.reset_ok Config.setup.profileOk

/-! ### The port and the commands -/

theorem busRead_inv {s t : State} (h : s.Inv) {width : Width} {a : Nat}
    (hs : busRead Config.profile s width a = .next t) : t.Inv := by
  rcases busRead_next hs with ht | ⟨-, rfl⟩
  · rw [ht]
    exact { h with }
  · exact { h with }

theorem busWrite_inv {s t : State} (h : s.Inv) {width : Width} {a : Nat} {w : Word}
    (hs : busWrite Config.profile s width a w = .next t) : t.Inv := by
  rcases busWrite_next hs with ⟨-, rfl⟩ | ⟨-, rfl⟩ | ⟨-, rfl⟩ | rfl | ⟨-, hc, rfl⟩
  · exact { h.writeCmd w with }
  · exact { h with }
  · exact { h with }
  · exact { h with }
  · exact { h with memWf := Memory.writeAt_wf h.memWf width a w, memMapped := writeAt_mapped h.memMapped hc w }

theorem perform_inv {s t : State} (h : s.Inv) {e : HostEvent} (hs : perform s e = .next t) : t.Inv := by
  cases e with
  | read width a => exact busRead_inv h hs
  | write width a w => exact busWrite_inv h hs
  | powerOn =>
    cases hs
    exact s.powerOn_inv

/-- The index in a slot in range is one of the slot's values (R116). -/
theorem SlotInRange.toNat_lt {P : Profile} {k : Nat} {w : Word} (h : SlotInRange P k w) :
    w.toNat < (slotSpec P k).2 := by
  obtain ⟨hlow, hhigh⟩ := h
  rwa [Nat.mod_eq_of_lt ((Nat.div_eq_zero_iff_lt (by positivity)).1 hhigh)] at hlow

/-- An IndexSet that passes the check names a lag in `MINPP..MAXPP` (R115, R147). -/
theorem DecodeReady.lagOk {P : Profile} (hP : P.minpp ≤ P.maxpp) {m : Memory} {ws : List Word}
    (h : DecodeReady P m ws) : LagOk P (pitchOfIndex P (slot (ws.map BitVec.toNat) 3)) := by
  have h3 : 3 < ws.length := by rw [h.holds.length, Profile.nidx]; omega
  have hslot : slot (ws.map BitVec.toNat) 3 = ws[3].toNat := by
    rw [slot, List.getD_eq_getElem _ _ (by simpa using h3), List.getElem_map]
  have hlt : ws[3].toNat < P.maxpp - P.minpp + 1 := (h.inRange 3 h3).toNat_lt
  rw [hslot]
  constructor <;> simp only [pitchOfIndex] <;> omega

theorem encodeWith_inv {s : State} (h : s.Inv) (pcm : List Sample) : (s.encodeWith pcm).Inv where
  memWf := by rw [encodeWith_mem]; exact writeIdx_wf h.memWf _
  memMapped := by
    rw [encodeWith_mem]
    exact writeIdx_mapped h.memMapped (length_encodeFrame Config.setup.profileOk _ _ _)
  cmdLegal := by simp
  errinfo := h.errinfo
  enc := by rw [encodeWith_enc]; exact encodeFrame_ok Config.setup.profileOk h.enc _ _
  dec := h.dec

theorem decodeWith_inv {s : State} (h : s.Inv) {ws : List Word} (hr : DecodeReady Config.profile s.mem ws) :
    (s.decodeWith ws).Inv where
  memWf := by rw [decodeWith_mem]; exact writePcmOut_wf h.memWf _
  memMapped := by
    rw [decodeWith_mem]
    exact writePcmOut_mapped h.memMapped (length_decodeFrame Config.setup.profileOk _ _ _)
  cmdLegal := by simp
  errinfo := h.errinfo
  enc := h.enc
  dec := by
    rw [decodeWith_dec]
    exact decodeFrame_ok Config.setup.profileOk h.dec _ (hr.lagOk profile_dims.minpp_lt_maxpp.le)

theorem exec_inv {i : Instr} {s t : State} (h : s.Inv) (hs : exec i s = .next t) : t.Inv := by
  rcases exec_next hs with ⟨-, rfl⟩ | ⟨-, rfl⟩ | ⟨-, rfl⟩ | ⟨-, pcm, -, rfl⟩ | ⟨-, ws, hws, hcheck⟩ | ⟨-, rfl⟩
  · exact h.complete
  · exact State.Inv.complete { h with enc := Enc.reset_ok Config.setup.profileOk }
  · exact State.Inv.complete { h with dec := Dec.reset_ok Config.setup.profileOk }
  · exact encodeWith_inv h pcm
  · have hholds := readIdx_ok.1 hws
    rcases hcheck with ⟨k0, -, rfl⟩ | ⟨hnone, rfl⟩
    · exact h.rejectIdx k0
    · exact decodeWith_inv h ⟨hholds, (firstBadSlot_none hholds.length).1 hnone⟩
  · exact State.Inv.complete
      { h with
        dec := concealFrame_ok Config.setup.profileOk h.dec _
        memWf := writePcmOut_wf h.memWf _
        memMapped := writePcmOut_mapped h.memMapped (length_concealFrame _ _ _) }

/-- Settles O59: a step executes the latched command, performs one event, or passes an idle cycle, and each of the three
keeps the invariant. -/
theorem invariantKept : Obligations.InvariantKept := by
  intro s t h hs
  rcases step_next hs with ⟨w, i, -, -, -, hexec⟩ | ⟨n, -, ⟨-, rfl⟩ | ⟨e, rest, -, hperf⟩⟩
  · exact exec_inv h hexec
  · exact { h with }
  · exact perform_inv (s := { s with wait := n, inputs := rest }) { h with } hperf

end Sys2Proof.Machine
end

section
/-! PROOFS, part 3. The registers and the buffers at the port: what a read answers and what a write leaves (R33 to R43),
power-on reset (R63), RESET_ENC and RESET_DEC (R61, R62). -/

namespace Sys2Proof.Machine

/-! ### Register writes -/

section
variable (s : State) (w : Word)

theorem perform_write_status :
    perform s (.write .w32 0x004 w) = .next { s.writeStatus w with answer := .written } := by
  have hc : checkAccess Config.profile .w32 0x004 = .ok .status := checkAccess_register _ (by norm_num) rfl
  simp only [perform, busWrite, hc]

theorem perform_write_inten :
    perform s (.write .w32 0x008 w) = .next { s.writeInten w with answer := .written } := by
  have hc : checkAccess Config.profile .w32 0x008 = .ok .inten := checkAccess_register _ (by norm_num) rfl
  simp only [perform, busWrite, hc]

/-- The hardwired registers take a write and ignore it (R82). -/
theorem perform_write_hardwired {a : Nat} (ha : a ∈ [0x00C, 0x010, 0x014, 0x018]) :
    perform s (.write .w32 a w) = .next { s with answer := .written } := by
  have hreg : a < 0x024 ∧ a % 4 = 0 ∧ registerAt (a / 4) ∈ [.ident, .profile0, .profile1, .profile2] := by
    simp only [List.mem_cons, List.not_mem_nil, or_false] at ha
    rcases ha with rfl | rfl | rfl | rfl <;> decide
  obtain ⟨hlt, h4, hmem⟩ := hreg
  simp only [perform, busWrite, checkAccess_register _ hlt h4]
  simp only [List.mem_cons, List.not_mem_nil, or_false] at hmem
  rcases hmem with h | h | h | h <;> rw [h]

/-- `ERRINFO` and `DECINFO` refuse a write (R82). -/
theorem perform_write_info {a : Nat} (ha : a = 0x01C ∨ a = 0x020) :
    perform s (.write .w32 a w) = .fault (.busError .readOnly a) := by
  rcases ha with rfl | rfl
  · have hc : checkAccess Config.profile .w32 0x01C = .ok .errinfo := checkAccess_register _ (by norm_num) rfl
    simp only [perform, busWrite, hc]
  · have hc : checkAccess Config.profile .w32 0x020 = .ok .decinfo := checkAccess_register _ (by norm_num) rfl
    simp only [perform, busWrite, hc]

end

/-! ### `STATUS`, `INTEN` and the interrupt line -/

/-- Where no flag is set and none is mirrored, `STATUS` reads 0 (R34). -/
theorem statusWord_eq_zero {s : State} (hb : s.busy = false) (hd : s.done = false) (hc : s.errCmd = false)
    (hi : s.errIdx = false) (hp : s.dec.cfecount = 0) (hs : s.dec.lspSubst = false) (hg : s.dec.lctimer = 0) :
    statusWord s = 0 :=
  BitVec.eq_of_getLsbD_eq fun k _ => by
    simp [statusWord_getLsbD, plcBit_eq, State.substBit, State.gtrapBit, hb, hd, hc, hi, hp, hs, hg]

/-- Settles O9: the bits are read off the word they are put together from. -/
theorem statusRegister : Obligations.StatusRegister := by
  refine ⟨fun s => perform_read_register s (by norm_num) rfl, fun s => ?bits, fun s w => perform_write_status s w,
    statusWord_eq_zero rfl rfl rfl rfl rfl rfl rfl⟩
  case bits =>
    simp only [statusWord_getLsbD, plcBit_eq]
    refine ⟨?_, ?_, ?_, ?_, ?_, ?_, ?_, ?_, fun n hn => ?above⟩
    case above =>
      have hne : ∀ k < 8, n ≠ k := fun k hk => by omega
      simp [hne]
    all_goals simp [State.busy, State.substBit, State.gtrapBit]

/-- A write to `INTEN` keeps the two bits that exist (R35). -/
theorem intenWord_writeInten (s : State) (w : Word) : intenWord (s.writeInten w) = w &&& 3 := by
  refine BitVec.eq_of_toNat_eq ?_
  have hmask : w.toNat &&& (3 : Word).toNat = w.toNat % 4 := Nat.and_two_pow_sub_one_eq_mod w.toNat 2
  simp only [intenWord, writeInten_inten, BitVec.toNat_setWidth, BitVec.toNat_and, hmask]
  omega

/-- The line, from `INTEN` and `STATUS` as they read (R35). -/
theorem irq_eq_words (s : State) : irq s = (((intenWord s).getLsbD 0 && (statusWord s).getLsbD 1)
    || ((intenWord s).getLsbD 1 && ((statusWord s).getLsbD 2 || (statusWord s).getLsbD 3))) := by
  simp only [statusWord_getLsbD]
  simp [irq, intenWord]

/-- Settles O10: `INTEN` keeps two bits, and the line is read off it and `STATUS`. -/
theorem interruptEnableRegister : Obligations.InterruptEnableRegister :=
  ⟨fun s => perform_read_register s (by norm_num) rfl,
    fun s w => ⟨_, perform_write_inten s w, intenWord_writeInten s w, rfl⟩, rfl, irq_eq_words⟩

/-! ### The hardwired and the information registers -/

/-- A field that holds a number it has room for reads as that number (R37, R39). -/
theorem toNat_ofNat_of_lt {w n v : Nat} {x : BitVec w} (hx : x = BitVec.ofNat w n) (hn : n < v) (hv : v ≤ 2 ^ w) :
    x.toNat = n := by
  rw [hx, BitVec.toNat_ofNat, Nat.mod_eq_of_lt (hn.trans_le hv)]

/-- Settles O12: each dimension fits the field that reports it, so the field reads as the dimension. -/
theorem hardwiredRegisters : Obligations.HardwiredRegisters := by
  refine ⟨fun s => perform_read_register s (by norm_num) rfl, fun s => ?fields,
    fun s w a ha => perform_write_hardwired s w ha⟩
  case fields =>
    have hw := Config.setup.profileOk.widths
    obtain ⟨hfrsz, hlpco, hnsf, hzero0⟩ := fields_4_4_8_16 (v := profile0Word Config.profile) rfl
    obtain ⟨hminpp, hmaxpp⟩ := fields_16_16 (v := profile1Word Config.profile) rfl
    obtain ⟨hnidx, hvdim, hzero2⟩ := fields_8_8_16 (v := profile2Word Config.profile) rfl
    exact ⟨profile0Word Config.profile, profile1Word Config.profile, profile2Word Config.profile,
      perform_read_register s (by norm_num) rfl, perform_read_register s (by norm_num) rfl,
      perform_read_register s (by norm_num) rfl,
      toNat_ofNat_of_lt hfrsz (Nat.lt_succ_of_le frsz_le) (by norm_num),
      toNat_ofNat_of_lt hlpco hw.lpco_lt (by norm_num), toNat_ofNat_of_lt hnsf hw.nsf_lt (by norm_num), hzero0,
      toNat_ofNat_of_lt hminpp hw.minpp_lt (by norm_num), toNat_ofNat_of_lt hmaxpp hw.maxpp_lt (by norm_num),
      toNat_ofNat_of_lt hnidx (Nat.lt_succ_of_le nidx_le) (by norm_num),
      toNat_ofNat_of_lt hvdim hw.vdim_lt (by norm_num), hzero2⟩

/-- Settles O13: the fields of `DECINFO`, each saturated to the width it has. -/
theorem infoRegisters : Obligations.InfoRegisters := by
  refine ⟨fun s => ?read, fun s => perform_read_register s (by norm_num) rfl,
    fun s w => ⟨perform_write_info s w (.inl rfl), perform_write_info s w (.inr rfl)⟩, ?reset⟩
  case read =>
    obtain ⟨hcfe, hsexp, htimer⟩ := fields_8_8_16 (v := decinfoWord s.dec) rfl
    exact ⟨decinfoWord s.dec, perform_read_register s (by norm_num) rfl,
      toNat_ofNat_of_lt hcfe (Nat.lt_succ_of_le (min_le_right _ _)) (by norm_num), hsexp,
      toNat_ofNat_of_lt htimer (Nat.lt_succ_of_le (min_le_right _ _)) (by norm_num)⟩
  case reset => exact fields_8_8_16 (v := decinfoWord State.reset.dec) rfl

/-! ### The buffers at the port -/

/-- The three buffers, among the locations (R81). -/
def Location.IsBuffer (l : Location) : Prop := l = .pcmIn ∨ l = .pcmOut ∨ l = .idx

/-- An idle block answers a buffer read with what is stored (R40 to R43). -/
theorem perform_read_buffer {s : State} (hs : s.busy = false) {width : Width} {a : Nat} {l : Location}
    (hc : checkAccess Config.profile width a = .ok l) (hl : l.IsBuffer) :
    perform s (.read width a) = readBuffer s width a := by
  rcases hl with rfl | rfl | rfl <;> simp [perform, busRead, hc, hs]

/-- An idle block stores what is written to `PCM_IN` or `IDX` (R40, R42). -/
theorem perform_write_buffer {s : State} (hs : s.busy = false) {width : Width} {a : Nat} {l : Location}
    (hc : checkAccess Config.profile width a = .ok l) (hl : l = .pcmIn ∨ l = .idx) (w : Word) :
    perform s (.write width a w) = .next { s with mem := s.mem.writeAt width a w, answer := .written } := by
  rcases hl with rfl | rfl <;> simp [perform, busWrite, hc, writeBuffer, hs]

theorem perform_read_w16 {s : State} {a : Nat} {v : Sample} {l : Location}
    (hc : checkAccess Config.profile .w16 a = .ok l) (hl : l.IsBuffer) (hs : s.busy = false)
    (hv : s.mem.read16 a = some v) : perform s (.read .w16 a) = .next { s with answer := .data16 v } := by
  simp only [perform_read_buffer hs hc hl, readBuffer, hv]

theorem perform_read_w32 {s : State} {a : Nat} {w : Word} {l : Location}
    (hc : checkAccess Config.profile .w32 a = .ok l) (hl : l.IsBuffer) (hs : s.busy = false)
    (hw : s.mem.read32 a = some w) : perform s (.read .w32 a) = .next { s with answer := .data32 w } := by
  simp only [perform_read_buffer hs hc hl, readBuffer, hw, State.answerWord]

theorem Memory.read16_eq_none {m : Memory} {a b : Nat} (h₁ : a ≤ b) (h₂ : b < a + 2) (hb : m.read b = none) :
    m.read16 a = none := by
  rcases (by omega : b = a ∨ b = a + 1) with rfl | rfl
  · simp only [Memory.read16, hb]
  · simp only [Memory.read16, hb]
    cases m.read a <;> rfl

theorem Memory.read32_eq_none {m : Memory} {a b : Nat} (h₁ : a ≤ b) (h₂ : b < a + 4) (hb : m.read b = none) :
    m.read32 a = none := by
  rcases Nat.lt_or_ge b (a + 2) with h | h
  · simp only [Memory.read32, Memory.read16_eq_none h₁ h hb]
  · simp only [Memory.read32, Memory.read16_eq_none h (by omega) hb]
    cases m.read16 a <;> rfl

/-- A buffer read that needs an unwritten byte is a fault (R43). -/
theorem readBuffer_unwritten {s : State} {width : Width} (hw : width ≠ .w8) {a b : Nat} (h₁ : a ≤ b)
    (h₂ : b < a + width.bytes) (hb : s.mem.read b = none) : readBuffer s width a = .fault (.unwritten a) := by
  cases width
  · exact absurd rfl hw
  · simp only [readBuffer, Memory.read16_eq_none h₁ h₂ hb]
  · simp only [readBuffer, Memory.read32_eq_none h₁ h₂ hb]

/-- A field of a field is a field. -/
theorem extractLsb'_of_extractLsb' {n : Nat} (w : BitVec n) {a m b k : Nat} (h : b + k ≤ m) :
    (w.extractLsb' a m).extractLsb' b k = w.extractLsb' (a + b) k := by
  refine BitVec.eq_of_getLsbD_eq fun i hi => ?_
  have hlt : b + i < m := by omega
  simp [hi, hlt, Nat.add_assoc]

theorem Memory.read_write16_low (m : Memory) (a : Nat) (v : Sample) :
    (m.write16 a v).read a = some (v.extractLsb' 0 8) := by
  rw [Memory.write16, Memory.read_write_of_ne (by omega), Memory.read_write_self]

theorem Memory.read_write16_high (m : Memory) (a : Nat) (v : Sample) :
    (m.write16 a v).read (a + 1) = some (v.extractLsb' 8 8) := by
  rw [Memory.write16, Memory.read_write_self]

theorem Memory.read16_write32_low (m : Memory) (a : Nat) (w : Word) :
    (m.write32 a w).read16 a = some (w.extractLsb' 0 16) := by
  rw [Memory.write32, Memory.read16_write16_of_ne (by omega), Memory.read16_write16]

theorem Memory.read16_write32_high (m : Memory) (a : Nat) (w : Word) :
    (m.write32 a w).read16 (a + 2) = some (w.extractLsb' 16 16) := by
  rw [Memory.write32, Memory.read16_write16]

/-- The four bytes of a word lie little-endian (R84). -/
theorem Memory.read_write32_byte (m : Memory) (a : Nat) (w : Word) {j : Nat} (hj : j < 4) :
    (m.write32 a w).read (a + j) = some (w.extractLsb' (8 * j) 8) := by
  have hlow : ∀ b < a + 2, (m.write32 a w).read b = (m.write16 a (w.extractLsb' 0 16)).read b := fun b hb =>
    Memory.read_write16_of_ne (by omega)
  rcases (by omega : j = 0 ∨ j = 1 ∨ j = 2 ∨ j = 3) with rfl | rfl | rfl | rfl
  · rw [hlow _ (by omega), Nat.add_zero, Memory.read_write16_low, extractLsb'_of_extractLsb' _ (by norm_num)]
  · rw [hlow _ (by omega), Memory.read_write16_high, extractLsb'_of_extractLsb' _ (by norm_num)]
  · rw [Memory.write32, Memory.read_write16_low, extractLsb'_of_extractLsb' _ (by norm_num)]
  · rw [Memory.write32, Memory.read_write16_high, extractLsb'_of_extractLsb' _ (by norm_num)]

/-- Settles O16: a write of one element, and the element's bytes and halves read back. -/
theorem pcmReadBack : Obligations.PcmReadBack := by
  refine ⟨fun s n v hs hn => ?sample, fun s m w hs hm => ?pair⟩
  case sample =>
    have hc : checkAccess Config.profile .w16 (0x100 + 2 * n) = .ok .pcmIn :=
      checkAccess_pcmIn _ (by simp) (by simp only [Width.bytes]; omega) (by omega) (by simp only [Width.bytes]; omega)
    have hv : (v.setWidth 32).setWidth 16 = v := by simp
    refine ⟨_, perform_write_buffer hs hc (.inl rfl) _, rfl, ?_⟩
    simp only [Memory.writeAt, hv]
    exact ⟨Memory.read_write16_low _ _ v, Memory.read_write16_high _ _ v,
      fun a h0 h1 => Memory.read_write16_of_ne (by omega),
      perform_read_w16 hc (.inl rfl) hs (Memory.read16_write16 _ _ v)⟩
  case pair =>
    have hc : ∀ {width a}, width ≠ .w8 → a % width.bytes = 0 → 0x100 + 4 * m ≤ a →
        a + width.bytes ≤ 0x100 + 4 * m + 4 → checkAccess Config.profile width a = .ok .pcmIn :=
      fun hw ha h₁ h₂ => checkAccess_pcmIn _ hw ha (by omega) (by omega)
    have hword : checkAccess Config.profile .w32 (0x100 + 4 * m) = .ok .pcmIn :=
      hc (by simp) (by simp only [Width.bytes]; omega) le_rfl le_rfl
    have heven : checkAccess Config.profile .w16 (0x100 + 4 * m) = .ok .pcmIn :=
      hc (by simp) (by simp only [Width.bytes]; omega) le_rfl (by simp only [Width.bytes]; omega)
    have hodd : checkAccess Config.profile .w16 (0x100 + 4 * m + 2) = .ok .pcmIn :=
      hc (by simp) (by simp only [Width.bytes]; omega) (by omega) le_rfl
    refine ⟨_, perform_write_buffer hs hword (.inl rfl) w, rfl, ?_⟩
    rw [show 0x100 + 2 * (2 * m) = 0x100 + 4 * m by omega, show 0x100 + 2 * (2 * m + 1) = 0x100 + 4 * m + 2 by omega]
    exact ⟨perform_read_w16 heven (.inl rfl) hs (Memory.read16_write32_low _ _ w),
      perform_read_w16 hodd (.inl rfl) hs (Memory.read16_write32_high _ _ w),
      perform_read_w32 hword (.inl rfl) hs (Memory.read32_write32 _ _ w),
      fun a ha => Memory.read_write32_of_ne ha⟩

/-- Settles O17: a slot is one element of `IDX`, written and read as its four bytes. -/
theorem slotReadBack : Obligations.SlotReadBack := by
  intro s k w hs hk
  have hc : checkAccess Config.profile .w32 (0x500 + 4 * k) = .ok .idx :=
    checkAccess_idx frsz_le (by omega) (by omega) (by omega)
  exact ⟨_, perform_write_buffer hs hc (.inr rfl) w, rfl, fun j hj => Memory.read_write32_byte _ _ w hj,
    fun a ha => Memory.read_write32_of_ne ha,
    perform_read_w32 hc (.inr (.inr rfl)) hs (Memory.read32_write32 _ _ w)⟩

/-- An access the port takes at or above 0x100 reaches a buffer (R81). -/
theorem checkAccess_buffer {P : Profile} (hf : P.frsz ≤ 256) {width : Width} {a : Nat} (hm : AccessMapped P width a)
    (ha : 0x100 ≤ a) : width ≠ .w8 ∧ ∃ l, checkAccess P width a = .ok l ∧ l.IsBuffer := by
  obtain ⟨l, hl⟩ := (checkAccess_ok_iff hf width a).2 hm
  obtain ⟨hw, -, -, hloc⟩ := checkAccess_ok hl
  refine ⟨hw, l, hl, ?_⟩
  rcases locate_range hloc with ⟨hlt, -⟩ | ⟨-, -, rfl⟩ | ⟨-, -, rfl⟩ | ⟨-, -, rfl⟩
  · omega
  · exact .inl rfl
  · exact .inr (.inl rfl)
  · exact .inr (.inr rfl)

/-- An ENCODE faults at the first unwritten sample of `PCM_IN` (R43). -/
theorem exec_encode_unwritten {s : State} {n : Nat} (hn : n < Config.profile.frsz)
    (hnone : s.mem.read16 (pcmInOff n) = none) (hbefore : ∀ j < n, (s.mem.read16 (pcmInOff j)).isSome = true) :
    exec .encode s = .fault (.unwritten (pcmInOff n)) := by
  have hrun : readPcmIn Config.profile s.mem = .error (pcmInOff n) :=
    readRun_error_iff.2 ⟨n, hn, rfl, hnone, hbefore⟩
  simp only [exec, execEncode, hrun]

/-- A DECODE faults at the first unwritten slot of `IDX` (R43). -/
theorem exec_decode_unwritten {s : State} {k : Nat} (hk : k < Config.profile.nidx)
    (hnone : s.mem.read32 (idxOff k) = none) (hbefore : ∀ j < k, (s.mem.read32 (idxOff j)).isSome = true) :
    exec .decode s = .fault (.unwritten (idxOff k)) := by
  have hrun : readIdx Config.profile s.mem = .error (idxOff k) :=
    readRun_error_iff.2 ⟨k, hk, rfl, hnone, hbefore⟩
  simp only [exec, execDecode, hrun]

/-- Power-on reset goes on, to the state R63 gives. -/
theorem perform_powerOn {s t : State} : perform s .powerOn = .next t ↔ t = s.powerOn := by
  simp only [perform, Host.Outcome.next.injEq, eq_comm]

/-- Settles O26: a missing byte leaves its element unwritten, and a run of elements stops at the first such one. -/
theorem unwrittenElementsFault : Obligations.UnwrittenElementsFault := by
  refine ⟨fun s t ht a => ?reset, fun s width a hs hm ha ⟨b, h₁, h₂, hb⟩ => ?read,
    fun s n hn hnone hbefore => exec_encode_unwritten hn hnone hbefore,
    fun s k hk hnone hbefore => exec_decode_unwritten hk hnone hbefore⟩
  case reset =>
    rw [perform_powerOn.1 ht, powerOn_mem]
    rfl
  case read =>
    obtain ⟨hw, l, hl, hbuf⟩ := checkAccess_buffer frsz_le hm ha
    exact (perform_read_buffer hs hl hbuf).trans (readBuffer_unwritten hw h₁ h₂ hb)

/-! ### Resets -/

/-- A `PROFILE` register reads the same word in every state (R37). -/
theorem exists_profile_word {a : Nat} (ha : a ∈ [0x010, 0x014, 0x018]) :
    ∃ v : Word, ∀ s, perform s (.read .w32 a) = .next { s with answer := .data32 v } := by
  simp only [List.mem_cons, List.not_mem_nil, or_false] at ha
  rcases ha with rfl | rfl | rfl
  · exact ⟨profile0Word Config.profile, fun s => perform_read_register s (by norm_num) rfl⟩
  · exact ⟨profile1Word Config.profile, fun s => perform_read_register s (by norm_num) rfl⟩
  · exact ⟨profile2Word Config.profile, fun s => perform_read_register s (by norm_num) rfl⟩

/-- Settles O19: `State.powerOn` field by field; what the hardwired registers read as depends on no state. -/
theorem powerOnReset : Obligations.PowerOnReset := by
  intro s
  refine ⟨s.powerOn, rfl, statusWord_eq_zero rfl rfl rfl rfl rfl rfl rfl, rfl, rfl, by simp [irq], rfl, rfl, fun _ => rfl,
    ⟨_, _, rfl, rfl, rfl, rfl⟩, perform_read_register _ (by norm_num) rfl, fun a ha => ?_⟩
  obtain ⟨v, hv⟩ := exists_profile_word ha
  exact ⟨v, hv s, hv s.powerOn⟩

/-- Settles O22: R61 names every field, and `Enc.reset` depends on no state, so it is idempotent. -/
theorem resetEncEffect : Obligations.ResetEncEffect :=
  ⟨rfl, fun _ => ⟨_, rfl, rfl, ⟨rfl, rfl, rfl, rfl, rfl, rfl⟩, ⟨rfl, rfl, rfl, rfl, rfl, rfl, rfl, rfl, rfl⟩, rfl, rfl,
    rfl, rfl, ⟨rfl, rfl, rfl, rfl, rfl, rfl, rfl⟩, rfl⟩⟩

/-- The mirrored bits of `STATUS` show a decoder that neither conceals nor substitutes nor runs its timer (R34). -/
theorem statusWord_mirrored_bits {s : State} (hp : s.dec.cfecount = 0) (hs : s.dec.lspSubst = false)
    (hg : s.dec.lctimer = 0) : (statusWord s).getLsbD 5 = false ∧ (statusWord s).getLsbD 6 = false
      ∧ (statusWord s).getLsbD 7 = false := by
  simp only [statusWord_getLsbD, plcBit_eq, State.substBit, State.gtrapBit, hp, hs, hg]
  simp

/-- Both contexts after both resets hold the same mirrored fields (R61, R62, R154). -/
theorem reset_mirrored (P : Profile) : Mirrored (Enc.reset P) (Dec.reset P) := ⟨rfl, rfl, rfl, rfl⟩

/-- Settles O23: R62 names every field, and the status bits and `DECINFO` are read off them. -/
theorem resetDecEffect : Obligations.ResetDecEffect := by
  refine ⟨rfl, fun s => ⟨{ s with dec := Dec.reset Config.profile }.complete, rfl, rfl, rfl, rfl, rfl, rfl, rfl,
    ⟨rfl, rfl, rfl, rfl, rfl, rfl, rfl⟩, rfl, rfl, rfl, rfl, rfl, rfl, rfl, rfl, rfl,
    statusWord_mirrored_bits rfl rfl rfl, ?cfe, ?sexp, ?mirror⟩⟩
  case cfe => exact (fields_8_8_16 (v := decinfoWord (Dec.reset Config.profile)) rfl).1
  case sexp => exact (fields_8_8_16 (v := decinfoWord (Dec.reset Config.profile)) rfl).2.1
  case mirror => exact ⟨_, rfl, reset_mirrored Config.profile⟩

end Sys2Proof.Machine
end

section
/-! PROOFS, part 4. Decoding a run of bytes (R84, R110 to R112), the bus cycle (R89), and the port as the map, the
widths and the alignment make it (R81 to R88), idle and while a command runs. -/

/-! ### Decoding bytes -/

namespace Sys2Proof

/-- The encoder's words are the only ones that decode (R111, R112). -/
theorem decodeWord_ok_iff {w : Word} {i : Instr} : decodeWord w = .ok i ↔ w = encode i := by
  constructor
  · intro h
    obtain ⟨hhigh, hop⟩ := decodeWord_ok h
    have hlow := opField_toNat w
    refine BitVec.eq_of_toNat_eq ?_
    rw [encode_toNat, ← hop]
    omega
  · rintro rfl
    cases i <;> rfl

/-- What decodes from a run of bytes is the word of its first four, and the rest is left (R84, R110). -/
theorem decodeBytes_ok_iff {bytes rest : List Byte} {i : Instr} :
    decodeBytes bytes = .ok (i, rest) ↔ ∃ w, decodeWord w = .ok i ∧ bytes = bytesOfWord w ++ rest := by
  constructor
  · intro h
    match bytes with
    | [] | [_] | [_, _] | [_, _, _] => cases h
    | b0 :: b1 :: b2 :: b3 :: tail =>
      refine ⟨wordOfBytes b0 b1 b2 b3, ?_⟩
      rw [bytesOfWord_wordOfBytes]
      rw [decodeBytes] at h
      split at h
      case h_1 j hj => cases h; exact ⟨hj, rfl⟩
      case h_2 => cases h
  · rintro ⟨w, hw, rfl⟩
    simp only [bytesOfWord, List.cons_append, List.nil_append, decodeBytes, wordOfBytes_bytesOfWord, hw]

end Sys2Proof

namespace Sys2Proof.Machine

/-- Settles O3: bytes decode through their word, and the encoder's words are the only ones that decode. -/
theorem commandEncodingUnique : Obligations.CommandEncodingUnique := by
  refine ⟨fun i rest => decodeBytes_ok_iff.2 ⟨encode i, decodeWord_ok_iff.2 rfl, rfl⟩, fun bytes i rest h => ?_⟩
  obtain ⟨w, hw, rfl⟩ := decodeBytes_ok_iff.1 h
  rw [decodeWord_ok_iff.1 hw, encodeBytes]

/-! ### The bus cycle -/

/-- Settles O5: the branches of `step` and of `busCycle`. -/
theorem busCyclePassesToPort : Obligations.BusCyclePassesToPort := by
  intro s
  refine ⟨fun hidle => ?idle, fun w n hcmd hwait => ?running, fun hempty => ?empty, fun e rest hevent => ?event⟩
  case idle => simp only [step, hidle]
  case running => simp only [step, hcmd, hwait]
  case empty => simp only [busCycle, hempty]
  case event => simp only [busCycle, hevent]

/-! ### Reads -/

/-- Settles O14: a read answers, or draws a free value of a busy block. -/
theorem readsChangeNothing : Obligations.ReadsChangeNothing := by
  intro s t width offset h
  rcases busRead_next h with ht | ⟨hbusy, rfl⟩
  · have hdraws : t.draws = s.draws := by rw [ht]
    exact ⟨by rw [hdraws]; exact ht, fun _ => hdraws⟩
  · exact ⟨rfl, fun hidle => absurd hbusy (by simp [hidle])⟩

/-! ### Where a mapped access goes -/

/-- The location of an offset the port takes an access at (R81). -/
def locationAt (a : Nat) : Location :=
  if a < 0x100 then registerAt (a / 4) else if a < 0x300 then .pcmIn else if a < 0x500 then .pcmOut else .idx

theorem locationAt_register {a : Nat} (h : a < 0x100) : locationAt a = registerAt (a / 4) := if_pos h

theorem locationAt_pcmIn {a : Nat} (h₁ : 0x100 ≤ a) (h₂ : a < 0x300) : locationAt a = .pcmIn := by
  rw [locationAt, if_neg (by omega), if_pos h₂]

theorem locationAt_pcmOut {a : Nat} (h₁ : 0x300 ≤ a) (h₂ : a < 0x500) : locationAt a = .pcmOut := by
  rw [locationAt, if_neg (by omega), if_neg (by omega), if_pos h₂]

theorem locationAt_idx {a : Nat} (h : 0x500 ≤ a) : locationAt a = .idx := by
  rw [locationAt, if_neg (by omega), if_neg (by omega), if_neg (by omega)]

/-- A mapped access reaches the location of its offset (R81). -/
theorem checkAccess_of_mapped {width : Width} {a : Nat} (hm : AccessMapped Config.profile width a) :
    checkAccess Config.profile width a = .ok (locationAt a) := by
  obtain ⟨l, hl⟩ := (checkAccess_ok_iff frsz_le width a).2 hm
  obtain ⟨hw, -, -, hloc⟩ := checkAccess_ok hl
  have hbytes : 0 < width.bytes := by cases width <;> decide
  have hfrsz := frsz_le
  rw [hl]
  rcases locate_range hloc with ⟨hlt, rfl⟩ | ⟨hlo, hhi, rfl⟩ | ⟨hlo, hhi, rfl⟩ | ⟨hlo, hhi, rfl⟩
  · rw [locationAt_register (by omega)]
  · rw [locationAt_pcmIn hlo (by omega)]
  · rw [locationAt_pcmOut hlo (by omega)]
  · rw [locationAt_idx hlo]

/-- An access that is not mapped gets a bus error, whatever it is (R82, R85, R86). -/
theorem perform_unmapped {width : Width} {a : Nat} (hm : ¬AccessMapped Config.profile width a) (s : State) :
    ∃ why, perform s (.read width a) = .fault (.busError why a)
      ∧ ∀ w, perform s (.write width a w) = .fault (.busError why a) := by
  cases hc : checkAccess Config.profile width a with
  | ok l => exact absurd ((checkAccess_ok_iff frsz_le width a).1 ⟨l, hc⟩) hm
  | error why => exact ⟨why, by simp only [perform, busRead, hc], fun w => by simp only [perform, busWrite, hc]⟩

/-! ### Bus errors -/

/-- The locations a write of which is a bus error (R82). -/
def Location.ReadOnly (l : Location) : Prop := l = .errinfo ∨ l = .decinfo ∨ l = .pcmOut

/-- The registers that refuse a write are the last two (R81, R82). -/
theorem readOnly_registerAt_iff {k : Nat} (hk : k < 9) : (registerAt k).ReadOnly ↔ k = 7 ∨ k = 8 := by
  unfold Location.ReadOnly
  revert k
  decide

/-- The offsets of the read-only locations (R81, R82). -/
theorem readOnly_locationAt_iff {P : Profile} {width : Width} {a : Nat} (hm : AccessMapped P width a) :
    (locationAt a).ReadOnly ↔ a = 0x01C ∨ a = 0x020 ∨ (0x300 ≤ a ∧ a < 0x500) := by
  rcases (by omega : a < 0x100 ∨ (0x100 ≤ a ∧ a < 0x300) ∨ (0x300 ≤ a ∧ a < 0x500) ∨ 0x500 ≤ a)
    with h | ⟨hlo, hhi⟩ | ⟨hlo, hhi⟩ | h
  · have hreg : a % 4 = 0 ∧ a < 0x024 := by
      rcases hm with ⟨-, h4, hrange⟩ | ⟨-, -, hrange⟩ <;> omega
    rw [locationAt_register h, readOnly_registerAt_iff (by omega)]
    omega
  · rw [locationAt_pcmIn hlo hhi]
    exact iff_of_false (by simp [Location.ReadOnly]) (by omega)
  · rw [locationAt_pcmOut hlo hhi]
    exact iff_of_true (.inr (.inr rfl)) (.inr (.inr ⟨hlo, hhi⟩))
  · rw [locationAt_idx h]
    exact iff_of_false (by simp [Location.ReadOnly]) (by omega)

section
variable {s : State} {width : Width} {a : Nat} {l : Location}

/-- A read the port takes gets no bus error. -/
theorem perform_read_ne_busError (hc : checkAccess Config.profile width a = .ok l) (why : BusError) (b : Nat) :
    perform s (.read width a) ≠ .fault (.busError why b) := by
  intro h
  cases l <;> simp only [perform, busRead, hc, reduceCtorEq] at h
  case pcmIn => exact readBuffer_ne_busError _ _ _ _ _ h
  case pcmOut | idx =>
    split_ifs at h
    exact readBuffer_ne_busError _ _ _ _ _ h

/-- A write the port takes gets no bus error but at a read-only location (R82). -/
theorem perform_write_ne_busError (hc : checkAccess Config.profile width a = .ok l) (hl : ¬l.ReadOnly) (w : Word)
    (why : BusError) (b : Nat) : perform s (.write width a w) ≠ .fault (.busError why b) := by
  intro h
  cases l <;> simp only [perform, busWrite, hc, reduceCtorEq] at h
  case pcmIn | idx => exact writeBuffer_ne_busError _ _ _ _ _ _ h
  case errinfo | decinfo | pcmOut => simp [Location.ReadOnly] at hl

/-- `ERRINFO`, `DECINFO` and `PCM_OUT` refuse a write (R82). -/
theorem perform_write_readOnly (hc : checkAccess Config.profile width a = .ok l) (hl : l.ReadOnly) (w : Word) :
    perform s (.write width a w) = .fault (.busError .readOnly a) := by
  rcases hl with rfl | rfl | rfl <;> simp only [perform, busWrite, hc]

end

/-- A read gets a bus error exactly where it is not mapped (R82, R85, R86). -/
theorem perform_read_busError_iff (s : State) (width : Width) (a : Nat) :
    (∃ why, perform s (.read width a) = .fault (.busError why a)) ↔ ¬AccessMapped Config.profile width a := by
  constructor
  · rintro ⟨why, h⟩ hm
    exact perform_read_ne_busError (checkAccess_of_mapped hm) why a h
  · intro hm
    obtain ⟨why, hread, -⟩ := perform_unmapped hm s
    exact ⟨why, hread⟩

/-- A write gets a bus error exactly where it is not mapped or goes to a read-only location (R82, R85, R86). -/
theorem perform_write_busError_iff (s : State) (width : Width) (a : Nat) (w : Word) :
    (∃ why, perform s (.write width a w) = .fault (.busError why a))
      ↔ (¬AccessMapped Config.profile width a ∨ (locationAt a).ReadOnly) := by
  by_cases hm : AccessMapped Config.profile width a
  · have hc := checkAccess_of_mapped hm
    rw [or_iff_right (not_not_intro hm)]
    constructor
    · rintro ⟨why, h⟩
      by_contra hl
      exact perform_write_ne_busError hc hl w why a h
    · exact fun hl => ⟨.readOnly, perform_write_readOnly hc hl w⟩
  · obtain ⟨why, -, hwrite⟩ := perform_unmapped hm s
    exact iff_of_true ⟨why, hwrite w⟩ (.inl hm)

/-- Settles O15: the bus errors by location, and the offsets of the read-only locations. -/
theorem busErrorsExactly : Obligations.BusErrorsExactly := by
  refine ⟨perform_read_busError_iff, fun s width a w => ?write, fun s => perform_read_register s (by norm_num) rfl⟩
  case write =>
    rw [perform_write_busError_iff]
    exact or_congr_right' fun hm => readOnly_locationAt_iff (not_not.1 hm)

/-! ### The port of a busy block -/

theorem busy_of_cmd {s : State} {w : Word} (h : s.cmd = some w) : s.busy = true := by simp [State.busy, h]

section
variable {s : State} {width : Width} {a : Nat}

/-- `PCM_IN` reads as stored, busy or not (R40). -/
theorem perform_read_pcmIn (hc : checkAccess Config.profile width a = .ok .pcmIn) :
    perform s (.read width a) = readBuffer s width a := by
  simp only [perform, busRead, hc]

/-- A busy block answers a read of `PCM_OUT` or `IDX` with a free value (R88). -/
theorem perform_read_busy (hb : s.busy = true) (hm : AccessMapped Config.profile width a) (ha : 0x300 ≤ a) :
    perform s (.read width a) = .next (readUnspecified s width) := by
  have hc := checkAccess_of_mapped hm
  rcases Nat.lt_or_ge a 0x500 with hlt | hge
  · rw [locationAt_pcmOut ha hlt] at hc
    simp only [perform, busRead, hc, hb, if_true]
  · rw [locationAt_idx hge] at hc
    simp only [perform, busRead, hc, hb, if_true]

/-- A write to `PCM_IN` or `IDX` of a busy block is refused (R88). -/
theorem perform_write_busy (hb : s.busy = true) (hm : AccessMapped Config.profile width a)
    (ha : (0x100 ≤ a ∧ a < 0x300) ∨ 0x500 ≤ a) (w : Word) :
    perform s (.write width a w) = .refused (.bufferWriteWhileBusy a) := by
  have hc := checkAccess_of_mapped hm
  rcases ha with ⟨hlo, hhi⟩ | hge
  · rw [locationAt_pcmIn hlo hhi] at hc
    simp only [perform, busWrite, hc, writeBuffer, hb, if_true]
  · rw [locationAt_idx hge] at hc
    simp only [perform, busWrite, hc, writeBuffer, hb, if_true]

/-- A busy block rejects a `CMD` write (R141). -/
theorem perform_write_cmd_busy (hb : s.busy = true) (w : Word) :
    perform s (.write .w32 0x000 w) = .next { s.rejectCmd w with answer := .written } := by
  have hc : checkAccess Config.profile .w32 0x000 = .ok .cmd := checkAccess_register _ (by norm_num) rfl
  simp only [perform, busWrite, hc, State.writeCmd, hb, if_true]

end

/-- A mapped 16-bit access is to a PCM buffer (R85). -/
theorem AccessMapped.le_of_w16 {P : Profile} {a : Nat} (hm : AccessMapped P .w16 a) : 0x100 ≤ a := by
  rcases hm with ⟨hw, -⟩ | ⟨-, -, hpcm⟩
  · cases hw
  · omega

theorem readBuffer_w16 (s : State) (a : Nat) :
    (∀ v, s.mem.read16 a = some v → readBuffer s .w16 a = .next { s with answer := .data16 v })
      ∧ (s.mem.read16 a = none → readBuffer s .w16 a = .fault (.unwritten a)) :=
  ⟨fun v hv => by simp only [readBuffer, hv], fun hnone => by simp only [readBuffer, hnone]⟩

theorem readBuffer_w32 (s : State) (a : Nat) :
    (∀ v, s.mem.read32 a = some v → readBuffer s .w32 a = .next { s with answer := .data32 v })
      ∧ (s.mem.read32 a = none → readBuffer s .w32 a = .fault (.unwritten a)) :=
  ⟨fun v hv => by simp only [readBuffer, hv, State.answerWord], fun hnone => by simp only [readBuffer, hnone]⟩

/-- `ERRINFO[16]` (R38). -/
theorem errinfoWord_getLsbD_busy (busy : Bool) (slot : BitVec 8) (op : BitVec 4) :
    (errinfoWord busy slot op).getLsbD 16 = busy := by
  have hslot := slot.isLt
  have hop := op.isLt
  have hquot : (busy.toNat * 2 ^ 16 + slot.toNat * 2 ^ 8 + op.toNat) / 2 ^ 16 = busy.toNat := by omega
  rw [BitVec.getLsbD, errinfoWord_fields, Nat.testBit_eq_decide_div_mod_eq, hquot]
  cases busy <;> rfl

/-- `ERRINFO[3:0]` (R38). -/
theorem errinfoWord_opcode (busy : Bool) (slot : BitVec 8) (op : BitVec 4) :
    (errinfoWord busy slot op).extractLsb' 0 4 = op := by
  refine BitVec.eq_of_toNat_eq ?_
  have hop := op.isLt
  rw [BitVec.extractLsb'_toNat, errinfoWord_fields, Nat.shiftRight_zero]
  omega

/-- Settles O18: the location each access reaches, and what a busy block does there. -/
theorem accessWhileBusy : Obligations.AccessWhileBusy := by
  intro s w0 hcmd
  have hb := busy_of_cmd hcmd
  have hreg : ∀ a, a < 0x024 → a % 4 = 0 → perform s (.read .w32 a) = .next
      { s with answer := .data32 (registerWord Config.profile s (registerAt (a / 4))) } := fun a =>
    perform_read_register s
  have hpcmIn : ∀ width a, AccessMapped Config.profile width a → 0x100 ≤ a → a < 0x300 →
      perform s (.read width a) = readBuffer s width a := fun width a hm hlo hhi =>
    perform_read_pcmIn (locationAt_pcmIn hlo hhi ▸ checkAccess_of_mapped hm)
  refine ⟨?registers, fun a hm ha => ?pcmIn16, fun a hm hlo hhi => ?pcmIn32,
    fun a hm ha => perform_read_busy hb hm ha, fun a hm ha => perform_read_busy hb hm ha,
    fun width a v hm ha => perform_write_busy hb hm ha v, perform_write_status s,
    fun w => ⟨_, perform_write_inten s w, intenWord_writeInten s w, rfl⟩,
    fun w a ha => perform_write_hardwired s w ha, fun width a hm => ?unmapped,
    fun width a w hm ha => perform_write_readOnly (checkAccess_of_mapped hm) ((readOnly_locationAt_iff hm).2 ha) w,
    fun w => ⟨_, perform_write_cmd_busy hb w, rfl, ?busyBit, errinfoWord_opcode _ _ _, rfl⟩⟩
  case registers =>
    exact ⟨hreg 0x004 (by norm_num) rfl, hreg 0x008 (by norm_num) rfl, hreg 0x01C (by norm_num) rfl,
      hreg 0x020 (by norm_num) rfl, hreg 0x000 (by norm_num) rfl, hreg 0x00C (by norm_num) rfl,
      hreg 0x010 (by norm_num) rfl, hreg 0x014 (by norm_num) rfl, hreg 0x018 (by norm_num) rfl⟩
  case pcmIn16 =>
    rw [hpcmIn .w16 a hm hm.le_of_w16 ha]
    exact readBuffer_w16 s a
  case pcmIn32 =>
    rw [hpcmIn .w32 a hm hlo hhi]
    exact readBuffer_w32 s a
  case unmapped =>
    obtain ⟨why, hread, hwrite⟩ := perform_unmapped hm s
    exact ⟨⟨why, hread⟩, fun w => ⟨why, hwrite w⟩⟩
  case busyBit => exact (errinfoWord_getLsbD_busy _ _ _).trans hb

end Sys2Proof.Machine
end

section
/-! PROOFS, part 5. The command word refused exactly off the opcode map (R111, R112, R114), the excitation index as a
row and a sign (R118), and the IndexSet an ENCODE leaves (R116, R145). -/

/-! ### Words that do not decode -/

namespace Sys2Proof

/-- An opcode above the map is refused by name (R114). -/
theorem decodeOp_of_ge {op : BitVec 4} (h : 6 ≤ op.toNat) : decodeOp op = .error (.reservedOpcode op) := by
  simp only [decodeOp]
  split
  case h_7 => rfl
  all_goals omega

/-- A reserved bit is refused whatever the opcode (R111, R114). -/
theorem decodeWord_of_rsvField_ne {w : Word} (hr : rsvField w ≠ 0) : decodeWord w = .error .reservedBits := by
  rw [decodeWord, if_neg hr]

theorem decodeWord_of_rsvField_eq {w : Word} (hr : rsvField w = 0) : decodeWord w = decodeOp (opField w) := by
  rw [decodeWord, if_pos hr]

/-- With no reserved bit set, an opcode above the map is refused by name (R114). -/
theorem decodeWord_of_opField_ge {w : Word} (hr : rsvField w = 0) (hop : 6 ≤ (opField w).toNat) :
    decodeWord w = .error (.reservedOpcode (opField w)) := by
  rw [decodeWord_of_rsvField_eq hr, decodeOp_of_ge hop]

/-- Settles O1: the six words are the encoder's, the four beside them are refused for their opcode or a reserved bit. -/
theorem commandWordsDecode : Obligations.CommandWordsDecode :=
  ⟨decodeWord_ok_iff.2 rfl, decodeWord_ok_iff.2 rfl, decodeWord_ok_iff.2 rfl, decodeWord_ok_iff.2 rfl,
    decodeWord_ok_iff.2 rfl, decodeWord_ok_iff.2 rfl, decodeWord_of_opField_ge rfl (by decide),
    decodeWord_of_opField_ge rfl (by decide), decodeWord_of_rsvField_ne (by decide),
    decodeWord_of_rsvField_ne (by decide)⟩

/-- Settles O2: a reserved bit refuses, an opcode above the map refuses, and what is left is in the map. -/
theorem illegalWordsRefused : Obligations.IllegalWordsRefused := by
  intro w
  change (∃ e, decodeWord w = .error e) ↔ (rsvField w ≠ 0 ∨ 6 ≤ (opField w).toNat)
  by_cases hr : rsvField w = 0
  · rcases Nat.lt_or_ge (opField w).toNat 6 with hlt | hge
    · obtain ⟨i, hi⟩ := decodeOp_isOk.2 hlt
      have hok : decodeWord w = .ok i := (decodeWord_of_rsvField_eq hr).trans hi
      simp [hok, hr, hlt]
    · exact iff_of_true ⟨_, decodeWord_of_opField_ge hr hge⟩ (.inr hge)
  · exact iff_of_true ⟨_, decodeWord_of_rsvField_ne hr⟩ (.inl hr)

end Sys2Proof

namespace Sys2Proof.Machine

/-! ### The excitation index -/

theorem excIndex_plus (P : Profile) (j : Nat) : excIndex P (j, false) = j := by simp [excIndex]

theorem excIndex_minus (P : Profile) (j : Nat) : excIndex P (j, true) = j + P.cbsz := by simp [excIndex]

section
variable {P : Profile} {j : Nat}

/-- The indices below `CBSZ` are the rows with sign `+1` (R118). -/
theorem excOfIndex_of_lt (hj : j < P.cbsz) : excOfIndex P j = (j, false) := by
  simp [excOfIndex, Nat.mod_eq_of_lt hj, hj]

/-- The indices from `CBSZ` on are the rows with sign `-1` (R118). -/
theorem excOfIndex_add_cbsz (hj : j < P.cbsz) : excOfIndex P (j + P.cbsz) = (j, true) := by
  simp [excOfIndex, Nat.mod_eq_of_lt hj]

end

/-- Settles O52: the indices below `CBSZ` and those from it on, one half for each sign. -/
theorem excitationIndexRoundTrip : Obligations.ExcitationIndexRoundTrip := by
  refine fun P _ => ⟨fun (j, neg) hj => ⟨excIndex_lt hj, ?_⟩, fun ei hei => ?_⟩
  · cases neg with
    | false => rw [excIndex_plus, excOfIndex_of_lt hj]
    | true => rw [excIndex_minus, excOfIndex_add_cbsz hj]
  · rcases Nat.lt_or_ge ei P.cbsz with hlt | hge
    · rw [excOfIndex_of_lt hlt]
      exact ⟨hlt, excIndex_plus P ei⟩
    · obtain ⟨j, rfl⟩ := Nat.exists_eq_add_of_le' hge
      have hj : j < P.cbsz := by omega
      rw [excOfIndex_add_cbsz hj]
      exact ⟨hj, excIndex_minus P j⟩

/-! ### What an ENCODE leaves in `IDX` -/

/-- An ENCODE that goes on has read a frame (R43, R145). -/
theorem exec_encode_next {s t : State} (h : exec .encode s = .next t) :
    ∃ pcm, HoldsPcm Config.profile s.mem pcm ∧ t = s.encodeWith pcm := by
  rcases exec_next h with ⟨⟨⟩, -⟩ | ⟨⟨⟩, -⟩ | ⟨⟨⟩, -⟩ | ⟨-, pcm, hpcm, ht⟩ | ⟨⟨⟩, -⟩ | ⟨⟨⟩, -⟩
  exact ⟨pcm, readPcmIn_ok.1 hpcm, ht⟩

/-- The IndexSet of an ENCODE passes the check of a DECODE (R116, R147). -/
theorem encodeWith_decodeReady (s : State) (pcm : List Sample) :
    DecodeReady Config.profile (s.encodeWith pcm).mem
      ((encodeFrame Config.profile Config.num s.enc (pcm.map BitVec.toInt)).1.map (BitVec.ofNat 32)) := by
  rw [encodeWith_mem]
  exact decodeReady_writeIdx (length_encodeFrame Config.setup.profileOk _ _ _)
    (fun _ hk => encodeFrame_slot Config.setup.profileOk _ _ _ hk) s.mem

/-- Settles O25: every index ENCODE finds is a value of its slot, and its slot's width holds it. -/
theorem encodeWritesInRange : Obligations.EncodeWritesInRange := by
  intro s t h
  obtain ⟨pcm, -, rfl⟩ := exec_encode_next h
  exact ⟨_, encodeWith_decodeReady s pcm⟩

end Sys2Proof.Machine
end

section
/-! PROOFS, part 6. The step at a latched word (R140), an accepted command and its busy period (R141, R442), and NOP
(R142). -/

namespace Sys2Proof.Machine

/-! ### The latched word -/

/-- With no cycle of its busy period left, the latched command is executed (R140). -/
theorem step_of_wait_eq_zero {s : State} {w : Word} {i : Instr} (hcmd : s.cmd = some w) (hwait : s.wait = 0)
    (hi : decodeWord w = .ok i) : step s = exec i s := by
  simp only [step, hcmd, hwait, runLatched, hi]

/-- `withFetchWord` latches a command's word as it is (log entry 7). -/
theorem withFetchWord_encode (s : State) (i : Instr) :
    s.withFetchWord 32 (encode i).toNat = { s with cmd := some (encode i), wait := 0 } := by
  rw [State.withFetchWord, Nat.mod_eq_of_lt (encode i).isLt, BitVec.ofNat_toNat, BitVec.setWidth_eq]

/-- Settles O4: the latched word decodes, and a command's own word is one that does. -/
theorem stepRunsDecodedCommand : Obligations.StepRunsDecodedCommand := by
  refine ⟨fun s w i hcmd hwait hi => step_of_wait_eq_zero hcmd hwait hi, fun s i => ?_⟩
  rw [withFetchWord_encode]
  exact step_of_wait_eq_zero rfl rfl (decodeWord_ok_iff.2 rfl)

/-! ### The busy period -/

/-- With no event waiting, a busy cycle only counts (R141). -/
theorem step_of_wait_succ {s : State} {w : Word} {n : Nat} (hcmd : s.cmd = some w) (hwait : s.wait = n + 1)
    (hquiet : s.inputs = []) : step s = .next { s with wait := n } := by
  obtain ⟨-, hbusy, -⟩ := busCyclePassesToPort s
  obtain ⟨-, -, hempty, -⟩ := busCyclePassesToPort { s with wait := n }
  rw [hbusy w n hcmd hwait, hempty hquiet]

/-- Settles O6, by induction on the cycles left. -/
theorem acceptedCommandCompletes : Obligations.AcceptedCommandCompletes := by
  intro s w i hcmd hi hquiet
  induction hn : s.wait generalizing s with
  | zero =>
    have hs : { s with wait := 0 } = s := by rw [← hn]
    rw [Nat.zero_add, core_run_one, step_of_wait_eq_zero hcmd hn hi, hs]
  | succ n ih =>
    rw [core_run_next (step_of_wait_succ hcmd hn hquiet)]
    exact ih { s with wait := n } hcmd hquiet rfl

/-- An idle block accepts a legal word (R140). -/
theorem perform_write_cmd_idle {s : State} {w : Word} {i : Instr} (hidle : s.cmd = none) (hi : decodeWord w = .ok i) :
    perform s (.write .w32 0x000 w) = .next { s.accept w with answer := .written } := by
  have hc : checkAccess Config.profile .w32 0x000 = .ok .cmd := checkAccess_register _ (by norm_num) rfl
  have hb : s.busy = false := by simp [State.busy, hidle]
  simp [perform, busWrite, hc, State.writeCmd, hb, hi]

/-- Settles O7: the acceptance, field by field. -/
theorem legalCommandAccepted : Obligations.LegalCommandAccepted :=
  fun _ _ _ hidle hi => perform_write_cmd_idle hidle hi

/-! ### NOP -/

/-- Settles O21: NOP only completes, and a busy block rejects word 0 as it rejects every other. -/
theorem nopEffect : Obligations.NopEffect := by
  refine ⟨decodeWord_ok_iff.2 rfl, fun _ => rfl, fun s hb => ?_⟩
  have herr : errinfoWord true 0 (opField 0) = 0x00010000 := rfl
  rw [perform_write_cmd_busy hb, State.rejectCmd, hb, herr]
  rfl

end Sys2Proof.Machine
end

section
/-! PROOFS, part 7. The frame commands to their completion: what ENCODE leaves in `IDX`, what DECODE and CONCEAL leave in
`PCM_OUT`, and how the host reads it at the port (R145, R146, R148). -/

namespace Sys2Proof.Machine

/-! ### Elements read at the port -/

/-- A 32-bit element is its two halves, the low one first (R84). -/
theorem Memory.read32_of_halves {m : Memory} {a : Nat} {lo hi : Sample} (hlo : m.read16 a = some lo)
    (hhi : m.read16 (a + 2) = some hi) : m.read32 a = some (hi ++ lo) := by
  simp only [Memory.read32, hlo, hhi]

/-- An idle host reads a written slot (R42). -/
theorem perform_getIdx {s : State} (hs : s.busy = false) {k : Nat} (hk : k < Config.profile.nidx) {w : Word}
    (hw : s.mem.read32 (idxOff k) = some w) : perform s (.getIdx k) = .next { s with answer := .data32 w } :=
  perform_read_w32 (checkAccess_idx frsz_le (by omega) (by omega) (by omega)) (.inr (.inr rfl)) hs hw

section
variable {s : State} (hs : s.busy = false)
include hs

/-- An idle host reads a written sample of `PCM_OUT` (R41). -/
theorem perform_getPcm {n : Nat} (hn : n < Config.profile.frsz) {v : Sample}
    (hv : s.mem.read16 (pcmOutOff n) = some v) : perform s (.getPcm n) = .next { s with answer := .data16 v } :=
  perform_read_w16 (checkAccess_pcmOut frsz_le (by simp) (by simp only [Width.bytes]; omega) (by omega)
    (by simp only [Width.bytes]; omega)) (.inr (.inl rfl)) hs hv

/-- A 32-bit read of `PCM_OUT` gives an aligned pair of samples, the even one in the low half (R85). -/
theorem perform_read_pcmOut_pair {m : Nat} (hm : 2 * m + 1 < Config.profile.frsz) {lo hi : Sample}
    (hlo : s.mem.read16 (pcmOutOff (2 * m)) = some lo) (hhi : s.mem.read16 (pcmOutOff (2 * m + 1)) = some hi) :
    perform s (.read .w32 (0x300 + 4 * m)) = .next { s with answer := .data32 (hi ++ lo) } := by
  have heven : pcmOutOff (2 * m) = 0x300 + 4 * m := by simp only [pcmOutOff]; omega
  have hodd : pcmOutOff (2 * m + 1) = 0x300 + 4 * m + 2 := by simp only [pcmOutOff]; omega
  rw [heven] at hlo
  rw [hodd] at hhi
  exact perform_read_w32 (checkAccess_pcmOut frsz_le (by simp) (by simp only [Width.bytes]; omega) (by omega)
    (by simp only [Width.bytes]; omega)) (.inr (.inl rfl)) hs (Memory.read32_of_halves hlo hhi)

/-- What an idle host reads once a whole frame was written to `PCM_OUT`: each sample, each aligned pair, and every other
byte as before (R41, R85). -/
theorem writePcmOut_at_port {m : Memory} {pcm : List Int} (hmem : s.mem = writePcmOut m pcm)
    (hl : pcm.length = Config.profile.frsz) :
    let v : Nat → Sample := fun n => BitVec.ofInt 16 (pcm.getD n 0)
    (∀ n < Config.profile.frsz, s.mem.read16 (pcmOutOff n) = some (v n)
        ∧ perform s (.getPcm n) = .next { s with answer := .data16 (v n) })
      ∧ (∀ k, 2 * k + 1 < Config.profile.frsz → perform s (.read .w32 (0x300 + 4 * k)) = .next
          { s with answer := .data32 (v (2 * k + 1) ++ v (2 * k)) })
      ∧ ∀ a, (a < pcmOutOff 0 ∨ pcmOutOff 0 + 2 * Config.profile.frsz ≤ a) → s.mem.read a = m.read a := by
  intro v
  have hread : ∀ n < Config.profile.frsz, s.mem.read16 (pcmOutOff n) = some (v n) := fun n hn =>
    hmem ▸ read16_writePcmOut (hl ▸ hn)
  exact ⟨fun n hn => ⟨hread n hn, perform_getPcm hs hn (hread n hn)⟩,
    fun k hk => perform_read_pcmOut_pair hs hk (hread _ (by omega)) (hread _ hk),
    fun a ha => hmem ▸ read_writePcmOut (hl ▸ ha)⟩

end

/-! ### Completion -/

/-- Every slot of `IDX` after an ENCODE (R42, R145). -/
theorem read32_encodeWith (s : State) (pcm : List Sample) {k : Nat} (hk : k < Config.profile.nidx) :
    (s.encodeWith pcm).mem.read32 (idxOff k) = some (BitVec.ofNat 32
      ((encodeFrame Config.profile Config.num s.enc (pcm.map BitVec.toInt)).1.getD k 0)) := by
  rw [encodeWith_mem]
  exact read32_writeIdx (by rw [length_encodeFrame Config.setup.profileOk]; exact hk)

/-- Settles O24: a whole IndexSet is written to `IDX`, and each slot reads back. -/
theorem encodeCompletes : Obligations.EncodeCompletes := by
  intro s pcm hpcm
  refine ⟨s.encodeWith pcm, exec_encode_ready hpcm, ?frame, fun k hk => ?slots, fun a ha => ?bytes⟩
  case frame => simp only [State.encodeWith, State.complete]
  case slots => exact ⟨read32_encodeWith s pcm hk, perform_getIdx rfl hk (read32_encodeWith s pcm hk)⟩
  case bytes =>
    rw [encodeWith_mem]
    exact read_writeIdx (by rw [length_encodeFrame Config.setup.profileOk]; exact ha)

/-- Settles O27: an IndexSet in range passes the check, and a whole frame is written to `PCM_OUT`. -/
theorem decodeCompletes : Obligations.DecodeCompletes := fun s ws hready =>
  ⟨s.decodeWith ws, exec_decode_ready hready, rfl,
    writePcmOut_at_port rfl (decodeWith_mem s ws) (length_decodeFrame Config.setup.profileOk _ _ _)⟩

/-- After a concealed frame the machine conceals (R370, R371). -/
theorem concealFrame_cfecount_pos {P : Profile} (hP : P.PlcOk) (N : Num) (d : Dec) :
    0 < (concealFrame P N d).2.cfecount := by
  have hmax := hP.hold_lt
  rw [concealFrame_cfecount]
  omega

/-- `STATUS.PLC` (R34). -/
theorem statusWord_plc (s : State) : (statusWord s).getLsbD 5 = decide (0 < s.dec.cfecount) := by
  rw [statusWord_getLsbD, plcBit_eq]
  simp

/-- Settles O29: CONCEAL reads no buffer, writes a whole frame to `PCM_OUT` and counts an erasure. -/
theorem concealCompletes : Obligations.ConcealCompletes := fun s =>
  ⟨_, rfl, rfl, (statusWord_plc _).trans (decide_eq_true (concealFrame_cfecount_pos Config.setup.profileOk.plc _ s.dec)),
    writePcmOut_at_port rfl (complete_mem _) (length_concealFrame _ _ _)⟩

end Sys2Proof.Machine
end

section
/-! PROOFS, part 8. What a DECODE leaves in `D` (R146, R150, R151, R271, R283, R321): its subframe loop turn by turn, the
gain part and the innovation energy each turn leaves, and the pitch parameters. -/

namespace Sys2Proof.Machine

/-! ### The subframe loop of DECODE -/

/-- The index in a slot of an IndexSet read as words. -/
theorem slot_map_toNat (ws : List Word) (k : Nat) : slot (ws.map BitVec.toNat) k = (ws.getD k 0).toNat := by
  simp only [slot, List.getD_eq_getElem?_getD, List.getElem?_map]
  cases ws[k]? <;> rfl

theorem foldl_range_succ {σ : Type} (f : σ → Nat → σ) (s : σ) (n : Nat) :
    (List.range (n + 1)).foldl f s = f ((List.range n).foldl f s) n := by
  rw [List.range_succ, List.foldl_append, List.foldl_cons, List.foldl_nil]

/-- What the subframe loop of DECODE carries after `k` subframes (R146). -/
def decLoopAt (P : Profile) (N : Num) (d : Dec) (ix : List Nat) (k : Nat) : DecLoop :=
  (List.range k).foldl (decSubframe P N (tapsOfIndex P (slot ix 4)) (pitchOfIndex P (slot ix 3)) ix)
    { gain := d.gain, trap := { nclglim := d.nclglim, lctimer := d.lctimer }, ltsym := d.ltsym, dq := [], eacc := 0 }

theorem decLoopAt_succ (P : Profile) (N : Num) (d : Dec) (ix : List Nat) (k : Nat) :
    decLoopAt P N d ix (k + 1)
      = decSubframe P N (tapsOfIndex P (slot ix 4)) (pitchOfIndex P (slot ix 3)) ix (decLoopAt P N d ix k) k :=
  foldl_range_succ _ _ k

/-- `D` takes the gain part, the memory and the energy of the whole loop (R146). -/
theorem decodeFrame_loop (P : Profile) (N : Num) (d : Dec) (ix : List Nat) :
    (decodeFrame P N d ix).2.gain = (decLoopAt P N d ix P.nsf).gain
      ∧ (decodeFrame P N d ix).2.nclglim = (decLoopAt P N d ix P.nsf).trap.nclglim
      ∧ (decodeFrame P N d ix).2.lctimer = (decLoopAt P N d ix P.nsf).trap.lctimer
      ∧ (decodeFrame P N d ix).2.ltsym = (decLoopAt P N d ix P.nsf).ltsym
      ∧ (decodeFrame P N d ix).2.eLast = (decLoopAt P N d ix P.nsf).eacc := ⟨rfl, rfl, rfl, rfl, rfl⟩

/-- The gain dequantizer of a subframe, on the state its level estimator leaves (R271, R283). -/
def subframeGain (P : Profile) (N : Num) (ix : List Nat) (l : DecLoop) (k : Nat) : Rat × GainState × TrapState :=
  gainDequantize P N l.trap (levelUpdate P l.gain l.gain.prevlg0) (slot ix (5 + k))

/-! ### The innovation energy -/

/-- The innovation energy of a vector with gain `gq` and index `ei` (R320, R321). -/
def innovationEnergy (P : Profile) (gq : Rat) (ei : Nat) : Rat :=
  ((contribution P gq (excOfIndex P ei)).map sq).sum

theorem innovationEnergy_eq (P : Profile) (gq : Rat) (ei : Nat) :
    innovationEnergy P gq ei
      = sumTo P.vdim fun m => (gq * (if P.cbsz ≤ ei then -1 else 1) * elt2 P.cb (ei % P.cbsz) m) ^ 2 := by
  rw [innovationEnergy, contribution, sumTo, tab, tab, List.map_map]
  refine congrArg List.sum (List.map_congr_left fun m _ => ?_)
  simp only [Function.comp_apply, excOfIndex, signOf, sq, decide_eq_true_eq]
  ring

section
variable (P : Profile) (N : Num) (bq : List Rat) (pp : Nat) (ix : List Nat) (gq : Rat) (s : Nat) (l : DecLoop)

/-- The vectors of a subframe leave the gain part alone and add their energies (R146, R321). -/
theorem decVectors (n : Nat) :
    let r := (List.range n).foldl (decVector P bq pp ix gq s) l
    r.gain = l.gain ∧ r.trap = l.trap
      ∧ r.eacc = l.eacc + sumTo n fun v => innovationEnergy P gq (slot ix (5 + P.nsf + s * P.nvpsf + v)) := by
  induction n with
  | zero => simp
  | succ n ih =>
    obtain ⟨hgain, htrap, heacc⟩ := ih
    rw [foldl_range_succ, sumTo_succ, ← add_assoc, ← heacc]
    exact ⟨hgain, htrap, rfl⟩

theorem decSubframe_gain : (decSubframe P N bq pp ix l s).gain = (subframeGain P N ix l s).2.1 :=
  (decVectors P bq pp ix _ s _ P.nvpsf).1

theorem decSubframe_trap : (decSubframe P N bq pp ix l s).trap = (subframeGain P N ix l s).2.2 :=
  (decVectors P bq pp ix _ s _ P.nvpsf).2.1

theorem decSubframe_eacc : (decSubframe P N bq pp ix l s).eacc = l.eacc + sumTo P.nvpsf fun v =>
    innovationEnergy P (subframeGain P N ix l s).1 (slot ix (5 + P.nsf + s * P.nvpsf + v)) :=
  (decVectors P bq pp ix _ s _ P.nvpsf).2.2

end

/-- The energy after `k` subframes is that of all their vectors (R321). -/
theorem eacc_decLoopAt (P : Profile) (N : Num) (d : Dec) (ix : List Nat) (k : Nat) :
    (decLoopAt P N d ix k).eacc = sumTo k fun j => sumTo P.nvpsf fun v =>
      innovationEnergy P (subframeGain P N ix (decLoopAt P N d ix j) j).1
        (slot ix (5 + P.nsf + j * P.nvpsf + v)) := by
  induction k with
  | zero => rw [sumTo_zero]; rfl
  | succ k ih => rw [sumTo_succ, ← ih, decLoopAt_succ, decSubframe_eacc]

/-! ### The pitch parameters -/

theorem tapsOfIndex_eq (P : Profile) (pti : Nat) :
    tapsOfIndex P pti = [elt2 P.ppcb pti 0, elt2 P.ppcb pti 1, elt2 P.ppcb pti 2] := rfl

theorem periodicity_eq (P : Profile) (per : Rat) (bq : List Rat) :
    periodicity P per bq
      = P.perSmooth * per + (1 - P.perSmooth) * min 1 (elt bq 0 ^ 2 + elt bq 1 ^ 2 + elt bq 2 ^ 2) := by
  simp only [periodicity, sumTo_succ, sumTo_zero, zero_add, sq, pow_two]

/-- A DECODE of an IndexSet in range goes on in one way only (R147). -/
theorem decodeWith_of_exec {s t : State} {ws : List Word} (hready : DecodeReady Config.profile s.mem ws)
    (h : exec .decode s = .next t) : t = s.decodeWith ws := by
  rw [exec_decode_ready hready] at h
  exact (Host.Outcome.next.inj h).symm

/-- Settles O37: the gain states, the counters and the energy are those of the subframe loop, turn by turn. -/
theorem decodePitchParams : Obligations.DecodePitchParams := by
  intro s ws t hready hexec ix
  obtain rfl := decodeWith_of_exec hready hexec
  set ks := ws.map BitVec.toNat with hks
  have hix : ∀ k, ix k = slot ks k := fun k => (slot_map_toNat ws k).symm
  obtain ⟨hgain, hnclglim, hlctimer, -, heLast⟩ := decodeFrame_loop Config.profile Config.num s.dec ks
  have hpp : ix 3 + Config.profile.minpp ≤ Config.profile.maxpp := by
    rw [hix]
    exact (hready.lagOk profile_dims.minpp_lt_maxpp.le).2
  simp only [decodeWith_dec, ← hks, hix] at hpp ⊢
  let L : Nat → DecLoop := decLoopAt Config.profile Config.num s.dec ks
  refine ⟨rfl, hpp, tapsOfIndex_eq _ _, periodicity_eq _ _ _,
    ⟨fun k => (subframeGain Config.profile Config.num ks (L k) k).1, fun k => (L k).gain, fun k => (L k).trap, rfl, rfl,
      fun k _ => ?turn, hgain, by rw [hnclglim], by rw [hlctimer], ?energy⟩, rfl⟩
  case turn =>
    simp only [L, decLoopAt_succ, decSubframe_gain, decSubframe_trap]
    rfl
  case energy => simp only [heLast, eacc_decLoopAt, innovationEnergy_eq, L]

end Sys2Proof.Machine
end

section
/-! PROOFS, part 9. The mirrored fields over an ENCODE and the DECODE of its IndexSet (R154): the LSP quantizer and
dequantizer (R203, R212), the gain coder (R286) and the excitation coder (R320), each on equal states, then the two
subframe loops side by side. -/

namespace Sys2Proof.Machine

/-! ### The LSP quantizer and dequantizer -/

theorem take_tab {α : Type} {k n : Nat} (h : k ≤ n) (f : Nat → α) : (tab n f).take k = tab k f := by
  rw [tab, ← List.map_take, List.take_range, min_eq_left h, tab]

/-- What the decoder's self-check looks at is the low split the encoder's search looked at (R203, R212). -/
theorem take_split1_eq_lowSplit {P : Profile} (h : P.split1 ≤ P.lpco) (pred : List Rat) (i1 i21 i22 : Nat) :
    (vecAdd P pred (lspError P i1 i21 i22)).take P.split1
      = lowSplit P (vecAdd P pred (P.lspcb1.getD i1 [])) i21 := by
  rw [vecAdd, take_tab h, lowSplit]
  refine tab_congr fun i hi => ?_
  rw [lspError, vecAdd, elt_tab _ (hi.trans_le h), elt_tab _ (hi.trans_le h), if_pos hi, elt2, ← add_assoc]

/-- On the quantizer's rows and an equal memory the dequantizer finds the quantizer's vector and memory, unless no row of
the low split was eligible and it substituted (R203, R212). -/
theorem lspDequantize_lspQuantize {P : Profile} (h : P.split1 ≤ P.lpco) (pm : List (List Rat)) (lsp lsplast : List Rat) :
    let c := lspQuantize P pm lsp
    let r := lspDequantize P pm lsplast c.i1 c.i21 c.i22
    (c.lspq = r.lspq ∧ c.lsppm = r.lsppm)
      ∨ (r.subst = true ∧ c.i21 = P.lsp21Fallback ∧ ∀ j < P.lspcb21sz,
          eligible (lowSplit P (vecAdd P (lspPredict P pm) (P.lspcb1.getD c.i1 [])) j) = false) := by
  intro c r
  have hcheck := take_split1_eq_lowSplit h (lspPredict P pm) c.i1 c.i21 c.i22
  by_cases hok : eligible ((vecAdd P (lspPredict P pm) (lspError P c.i1 c.i21 c.i22)).take P.split1) = true
  · have hr : r = { lspq := c.lspq, lsppm := c.lsppm, subst := false } := if_pos hok
    exact .inl (by rw [hr]; exact ⟨rfl, rfl⟩)
  · have hr : r.subst = true := congrArg LspResult.subst (if_neg hok)
    rcases lspSearch21_cases P (vecAdd P (lspPredict P pm) (P.lspcb1.getD c.i1 []))
      (vecSub P (vecSub P lsp (lspPredict P pm)) (P.lspcb1.getD c.i1 [])) with ⟨-, helig⟩ | hnone
    · exact absurd (hcheck ▸ helig) hok
    · exact .inr ⟨hr, hnone⟩

/-! ### The gain coder -/

/-- The position the encoder's limiter ends at is a row (R277, R278). -/
theorem gainLimit_lt {P : Profile} (h : 1 ≤ P.lgcbsz) (g : GainState) (lgpe elg : Rat) :
    (gainLimit P g lgpe (gainSearch P elg)).1 < P.lgcbsz :=
  (limitWalk_le _ _ _ _ _).trans_lt (argmin_lt h _)

/-- The limiter does not walk from a position it ended at (R286). -/
theorem gainLimit_idem (P : Profile) (g : GainState) (lgpe : Rat) (p : Nat) :
    gainLimit P g lgpe (gainLimit P g lgpe p).1 = ((gainLimit P g lgpe p).1, false) := by
  simp only [gainLimit, limitWalk_idem, ne_eq, not_true_eq_false, decide_false]

/-- Where the limiter does not walk, an unarmed trap machine stays so (R287). -/
theorem trapStep_unarmed {P : Profile} (h : 1 ≤ P.nclglimTrapped) {g : GainState} {lgpe : Rat} {p : Nat}
    (hp : gainLimit P g lgpe p = (p, false)) :
    trapStep P { nclglim := 0, lctimer := 0 } g lgpe p = (p, { nclglim := 0, lctimer := 0 }) := by
  have hn : ¬P.nclglimTrapped ≤ 0 := by omega
  simp [trapStep, hp, hn]

/-- On the encoder's gain index, from an equal state and an unarmed machine, the decoder takes the encoder's gain and
state (R285, R286). -/
theorem gainDequantize_gainQuantize {P : Profile} (hP : P.Wf) (N : Num) (g : GainState) (es : Rat) :
    gainDequantize P N { nclglim := 0, lctimer := 0 } g (gainQuantize P N g es).1
      = ((gainQuantize P N g es).2.1, (gainQuantize P N g es).2.2, { nclglim := 0, lctimer := 0 }) := by
  have hlt := gainLimit_lt hP.widths.lgcb.1 g (gainPredict P g) (logEnergy P N es - gainPredict P g)
  simp only [gainDequantize, gainQuantize, iord_lgord hP.gain.lgord hlt,
    trapStep_unarmed hP.gain.trapped (gainLimit_idem P g _ _)]

/-! ### The excitation coder -/

/-- The commit pass of a whole vector leaves in the encoder's synthesis memory what the decoder's synthesis of the
candidate leaves in its own (R316, R320). -/
theorem nfCommit_ltsym {P : Profile} (q : NfParams) (m : NfMem) {dv : List Rat} (hdv : dv.length = P.vdim) (gq : Rat)
    (c : Nat × Bool) :
    (nfCommit P q m dv gq c).2.ltsym = (ltSynth q.bq q.pp m.ltsym (contribution P gq c)).2 := by
  rw [nfCommit, nfRun_ltsym, List.map_snd_zip (by rw [length_contribution, hdv])]

/-- On the encoder's excitation index and an equal memory the decoder's synthesis leaves the encoder's memory (R320). -/
theorem excDecode_nfcVector {P : Profile} (hP : P.Wf) (q : NfParams) (zsr : List (List Rat)) (gq : Rat) (m : NfMem)
    {dv : List Rat} (hdv : dv.length = P.vdim) :
    (nfcVector P q zsr gq m dv).2.ltsym
      = (excDecode P m.ltsym q.bq q.pp gq (nfcVector P q zsr gq m dv).1).2.2 := by
  obtain ⟨hround, -⟩ := excitationIndexRoundTrip P hP
  obtain ⟨-, hc⟩ := hround (excSearch P (zeroInputResponse P q m dv) zsr gq) (excSearch_lt (cbsz_pos hP) _ _ _)
  simp only [nfcVector, excDecode, hc, nfCommit_ltsym q m hdv]

/-! ### The two subframe loops -/

/-- The gain and excitation slots of the IndexSet `ix` hold the indices found so far (R115). -/
structure HoldsIndices (P : Profile) (ix : List Nat) (l : EncLoop) : Prop where
  gi : ∀ k < l.gi.length, slot ix (5 + k) = l.gi.getD k 0
  ei : ∀ k < l.ei.length, slot ix (5 + P.nsf + k) = l.ei.getD k 0

theorem getD_of_prefix {α : Type} {l₁ l₂ : List α} (h : l₁ <+: l₂) {k : Nat} (hk : k < l₁.length) (d : α) :
    l₂.getD k d = l₁.getD k d := by
  obtain ⟨l, rfl⟩ := h
  exact List.getD_append _ _ _ _ hk

/-- An IndexSet that holds the indices found later holds those found before. -/
theorem HoldsIndices.of_prefix {P : Profile} {ix : List Nat} {l l' : EncLoop} (h : HoldsIndices P ix l')
    (hgi : l.gi <+: l'.gi) (hei : l.ei <+: l'.ei) : HoldsIndices P ix l :=
  ⟨fun k hk => (h.gi k (hk.trans_le hgi.length_le)).trans (getD_of_prefix hgi hk 0),
    fun k hk => (h.ei k (hk.trans_le hei.length_le)).trans (getD_of_prefix hei hk 0)⟩

/-- The IndexSet of an ENCODE holds the indices of its loop in their slots (R115, R145). -/
theorem holdsIndices_indexSet {P : Profile} (fr : EncFrame) {l : EncLoop} (hl : l.gi.length = P.nsf) :
    HoldsIndices P (indexSet P fr l) l where
  gi k hk := by
    rw [slot, indexSet, List.getD_append _ _ _ _ (by simp; omega), List.getD_append_right _ _ _ _ (by simp)]
    simp
  ei k hk := by
    have hoff : 5 + P.nsf + k - (P.nsf + 5) = k := by omega
    rw [slot, indexSet, List.getD_append_right _ _ _ _ (by simp; omega)]
    simp [hl, hoff]

/-- The encoder's loop after `ng` gain indices and `nv` excitation indices, and the decoder's, hold equal values in every
mirrored field they carry, and the decoder's trap machine is unarmed (R154, R286). -/
structure LoopsMirrored (ng nv : Nat) (l : EncLoop) (m : DecLoop) : Prop where
  gi : l.gi.length = ng
  ei : l.ei.length = nv
  gain : l.gain = m.gain
  trap : m.trap = { nclglim := 0, lctimer := 0 }
  ltsym : l.nf.ltsym = m.ltsym

section
variable (P : Profile) (N : Num) (fr : EncFrame) (l : EncLoop)

theorem ei_prefix_encVector (zsr : List (List Rat)) (gq : Rat) (s v : Nat) :
    l.ei <+: (encVector P fr zsr gq s l v).ei := List.prefix_append _ _

theorem ei_prefix_encSubframe (s : Nat) : l.ei <+: (encSubframe P N fr l s).ei :=
  foldl_range_induct (Q := fun x : EncLoop => l.ei <+: x.ei) List.prefix_rfl
    fun x v _ hx => hx.trans (ei_prefix_encVector P fr x _ _ s v)

/-- The gain quantizer of a subframe, on the state its level estimator leaves (R271, R276). -/
def subframeQuant (s : Nat) : Nat × Rat × GainState :=
  gainQuantize P N (levelUpdate P l.gain l.gain.prevlg0) (targetEnergy P fr.db fr.nfq.bq fr.pp s)

theorem encSubframe_gi (s : Nat) : (encSubframe P N fr l s).gi = l.gi ++ [(subframeQuant P N fr l s).1] :=
  (encVectors P fr _ _ s P.nvpsf _).2.1

end

section
variable {P : Profile} (hP : P.Wf) {fr : EncFrame} {ix : List Nat} {l : EncLoop} {m : DecLoop} {k : Nat}
include hP

/-- One vector keeps the loops mirrored. -/
theorem encVector_mirrored {v : Nat} (h : LoopsMirrored (k + 1) (k * P.nvpsf + v) l m) (zsr : List (List Rat))
    (gq : Rat) (hix : HoldsIndices P ix (encVector P fr zsr gq k l v)) :
    LoopsMirrored (k + 1) (k * P.nvpsf + (v + 1)) (encVector P fr zsr gq k l v)
      (decVector P fr.nfq.bq fr.nfq.pp ix gq k m v) := by
  set r := nfcVector P fr.nfq zsr gq l.nf (vectorOf P fr.db k v) with hr
  have hei : (encVector P fr zsr gq k l v).ei = l.ei ++ [r.1] := rfl
  have hslot : slot ix (5 + P.nsf + k * P.nvpsf + v) = r.1 := by
    have hlast := hix.ei l.ei.length (by simp [hei])
    rw [hei, List.getD_append_right _ _ _ _ le_rfl, h.ei] at hlast
    simpa [add_assoc] using hlast
  refine ⟨h.gi, by rw [hei, List.length_append, h.ei]; rfl, h.gain, h.trap, ?_⟩
  have hsynth := excDecode_nfcVector hP fr.nfq zsr gq l.nf (dv := vectorOf P fr.db k v) (length_tab _ _)
  rw [← hr, h.ltsym] at hsynth
  simp only [encVector, decVector, ← hr, hslot]
  exact hsynth

/-- The vectors of a subframe keep the loops mirrored. -/
theorem encVectors_mirrored (h : LoopsMirrored (k + 1) (k * P.nvpsf) l m) (zsr : List (List Rat)) (gq : Rat) {n : Nat}
    (hix : HoldsIndices P ix ((List.range n).foldl (encVector P fr zsr gq k) l)) :
    LoopsMirrored (k + 1) (k * P.nvpsf + n) ((List.range n).foldl (encVector P fr zsr gq k) l)
      ((List.range n).foldl (decVector P fr.nfq.bq fr.nfq.pp ix gq k) m) := by
  induction n with
  | zero => exact h
  | succ n ih =>
    rw [foldl_range_succ] at hix
    rw [foldl_range_succ, foldl_range_succ]
    exact encVector_mirrored hP (ih (hix.of_prefix List.prefix_rfl (ei_prefix_encVector P fr _ zsr gq k n))) zsr gq hix

/-- One subframe keeps the loops mirrored. -/
theorem encSubframe_mirrored (h : LoopsMirrored k (k * P.nvpsf) l m) (N : Num)
    (hix : HoldsIndices P ix (encSubframe P N fr l k)) :
    LoopsMirrored (k + 1) ((k + 1) * P.nvpsf) (encSubframe P N fr l k)
      (decSubframe P N fr.nfq.bq fr.nfq.pp ix m k) := by
  set q := subframeQuant P N fr l k with hq
  have hslot : slot ix (5 + k) = q.1 := by
    have hlast := hix.gi l.gi.length (by simp [encSubframe_gi])
    rwa [encSubframe_gi, List.getD_append_right _ _ _ _ le_rfl, h.gi, Nat.sub_self] at hlast
  have hgain : gainDequantize P N m.trap (levelUpdate P m.gain m.gain.prevlg0) (slot ix (5 + k))
      = (q.2.1, q.2.2, { nclglim := 0, lctimer := 0 }) := by
    rw [h.trap, ← h.gain, hslot]
    exact gainDequantize_gainQuantize hP N _ _
  have hstart : LoopsMirrored (k + 1) (k * P.nvpsf) { l with gain := q.2.2, gi := l.gi ++ [q.1] }
      { m with gain := q.2.2, trap := { nclglim := 0, lctimer := 0 } } :=
    ⟨by simp [h.gi], h.ei, rfl, rfl, h.ltsym⟩
  rw [Nat.succ_mul, decSubframe, hgain]
  exact encVectors_mirrored hP hstart _ _ hix

end

/-- What the subframe loop of ENCODE carries after `k` subframes (R145). -/
def encLoopAt (P : Profile) (N : Num) (e : Enc) (pcm : List Int) (k : Nat) : EncLoop :=
  (List.range k).foldl (encSubframe P N (encAnalyse P N e pcm).1) { nf := e.nf, gain := e.gain, gi := [], ei := [] }

/-- `E` takes the gain part and the memories of the whole loop, and `IDX` its indices (R145). -/
theorem encodeFrame_loop (P : Profile) (N : Num) (e : Enc) (pcm : List Int) :
    (encodeFrame P N e pcm).1 = indexSet P (encAnalyse P N e pcm).1 (encLoopAt P N e pcm P.nsf)
      ∧ (encodeFrame P N e pcm).2.gain = (encLoopAt P N e pcm P.nsf).gain
      ∧ (encodeFrame P N e pcm).2.nf = (encLoopAt P N e pcm P.nsf).nf := ⟨rfl, rfl, rfl⟩

/-- `E` takes the LSP vector and memory of the quantizer, and `IDX` its rows (R145, R207). -/
theorem lsp_of_encodeFrame (P : Profile) (N : Num) (e : Enc) (pcm : List Int) :
    ∃ lsp, let c := lspQuantize P e.lsppm lsp
    (encodeFrame P N e pcm).1.getD 0 0 = c.i1 ∧ (encodeFrame P N e pcm).1.getD 1 0 = c.i21
      ∧ (encodeFrame P N e pcm).1.getD 2 0 = c.i22 ∧ (encodeFrame P N e pcm).2.lsplast = c.lspq
      ∧ (encodeFrame P N e pcm).2.lsppm = c.lsppm := ⟨_, rfl, rfl, rfl, rfl, rfl⟩

section
variable {P : Profile} (hP : P.Wf) (N : Num) (e : Enc) (pcm : List Int)
include hP

/-- The whole IndexSet of an ENCODE holds the indices its loop found (R115). -/
theorem holdsIndices_encodeFrame :
    HoldsIndices P (encodeFrame P N e pcm).1 (encLoopAt P N e pcm P.nsf) :=
  holdsIndices_indexSet _ (encLoop_range hP N _ _ ⟨rfl, rfl⟩).1

/-- The decoder reads the encoder's lag and taps off the IndexSet (R117, R150). -/
theorem pitch_of_encodeFrame :
    pitchOfIndex P (slot (encodeFrame P N e pcm).1 3) = (encAnalyse P N e pcm).1.nfq.pp
      ∧ tapsOfIndex P (slot (encodeFrame P N e pcm).1 4) = (encAnalyse P N e pcm).1.nfq.bq := by
  have hlag : LagOk P (encAnalyse P N e pcm).1.pp := refine_lagOk hP.dims.minpp_lt_maxpp.le _ _
  exact ⟨Nat.sub_add_cancel hlag.1, rfl⟩

/-- From mirrored contexts the two loops stay mirrored, subframe by subframe (R154). -/
theorem loops_mirrored {d : Dec} (h : Mirrored e d) (hn : d.nclglim = 0) (ht : d.lctimer = 0) {k : Nat}
    (hix : HoldsIndices P (encodeFrame P N e pcm).1 (encLoopAt P N e pcm k)) :
    LoopsMirrored k (k * P.nvpsf) (encLoopAt P N e pcm k) (decLoopAt P N d (encodeFrame P N e pcm).1 k) := by
  obtain ⟨hpp, hbq⟩ := pitch_of_encodeFrame hP N e pcm
  induction k with
  | zero => exact ⟨rfl, (Nat.zero_mul _).symm, h.gain, congrArg₂ TrapState.mk hn ht, h.ltsym⟩
  | succ k ih =>
    rw [encLoopAt, foldl_range_succ] at hix
    rw [decLoopAt_succ, hpp, hbq, encLoopAt, foldl_range_succ]
    refine encSubframe_mirrored hP (ih (hix.of_prefix ?gi (ei_prefix_encSubframe P N _ _ k))) N hix
    case gi => rw [encSubframe_gi]; exact List.prefix_append _ _

/-- An index an ENCODE finds survives its slot (R42, R116). -/
theorem toNat_ofNat_encodeFrame {k : Nat} (hk : k < P.nidx) :
    (BitVec.ofNat 32 ((encodeFrame P N e pcm).1.getD k 0)).toNat = (encodeFrame P N e pcm).1.getD k 0 := by
  obtain ⟨hlt, hle, hw⟩ := encodeFrame_slot hP N e pcm hk
  have hpow : 2 ^ (slotSpec P k).1 ≤ 2 ^ 32 := Nat.pow_le_pow_right (by norm_num) hw
  exact toNat_ofNat_of_lt rfl (hlt.trans_le hle) hpow

/-- The DECODE reads the IndexSet the ENCODE wrote (R42, R116). -/
theorem map_toNat_map_ofNat_encodeFrame :
    ((encodeFrame P N e pcm).1.map (BitVec.ofNat 32)).map BitVec.toNat = (encodeFrame P N e pcm).1 := by
  refine List.ext_getElem (by simp) fun k _ hk => ?_
  have h := toNat_ofNat_encodeFrame hP N e pcm (length_encodeFrame hP N e pcm ▸ hk)
  rw [List.getD_eq_getElem _ _ hk] at h
  simpa using h

/-- What the two contexts hold after an ENCODE and the DECODE of its IndexSet (R154). -/
theorem decodeFrame_encodeFrame {d : Dec} (h : Mirrored e d) (hn : d.nclglim = 0) (ht : d.lctimer = 0) :
    let r := encodeFrame P N e pcm
    let u := (decodeFrame P N d r.1).2
    (Mirrored r.2 u ∧ u.nclglim = 0 ∧ u.lctimer = 0)
      ∨ (u.lspSubst = true ∧ r.1.getD 1 0 = P.lsp21Fallback ∧ ∀ j < P.lspcb21sz, eligible
          (lowSplit P (vecAdd P (lspPredict P e.lsppm) (P.lspcb1.getD (r.1.getD 0 0) [])) j) = false) := by
  intro r u
  have hloop := loops_mirrored hP N e pcm h hn ht (holdsIndices_encodeFrame hP N e pcm)
  obtain ⟨hgain, hnclglim, hlctimer, hltsym, -⟩ := decodeFrame_loop P N d r.1
  obtain ⟨lsp, h0, h1, h2, hlast, hpm⟩ := lsp_of_encodeFrame P N e pcm
  have hdeq := lspDequantize_lspQuantize hP.dims.split1_lt_lpco.le e.lsppm lsp d.lsplast
  dsimp only at h0 h1 h2 hlast hpm hdeq
  rw [← h0, ← h1, ← h2, ← hlast, ← hpm] at hdeq
  rcases hdeq with ⟨hq, hm⟩ | hsubst
  · rw [h.lsppm] at hq hm
    refine .inl ⟨⟨hq, hm, hloop.gain.trans hgain.symm, hloop.ltsym.trans hltsym.symm⟩, ?_, ?_⟩
    · rw [hnclglim, hloop.trap]
    · rw [hlctimer, hloop.trap]
  · rw [h.lsppm] at hsubst ⊢
    exact .inr hsubst

end

/-- Settles O53: the DECODE reads back the ENCODE's IndexSet, on which the quantizers of the two contexts agree but for
the decoder's self-check of an ineligible low split. -/
theorem encoderDecoderStayMirrored : Obligations.EncoderDecoderStayMirrored := by
  intro s t u h hn ht henc hdec
  obtain ⟨pcm, -, rfl⟩ := exec_encode_next henc
  have hP := Config.setup.profileOk
  obtain rfl := decodeWith_of_exec (encodeWith_decodeReady s pcm) hdec
  have hnidx : 1 < Config.profile.nidx := by rw [Profile.nidx]; omega
  rw [decodeWith_enc, encodeWith_enc, decodeWith_dec, encodeWith_dec, map_toNat_map_ofNat_encodeFrame hP]
  rcases decodeFrame_encodeFrame hP Config.num s.enc (pcm.map BitVec.toInt) h hn ht with
    ⟨hm, hn', ht'⟩ | ⟨hsubst, hfallback, hnone⟩
  · exact .inl ⟨hm, hn', ht', rfl⟩
  · have hrow := read32_encodeWith s pcm (Nat.zero_lt_of_lt hnidx)
    refine .inr ⟨hsubst, _, hrow, hfallback ▸ read32_encodeWith s pcm hnidx, ?_⟩
    rw [toNat_ofNat_encodeFrame hP _ _ _ (Nat.zero_lt_of_lt hnidx)]
    exact hnone

end Sys2Proof.Machine
end

section
/-! PROOFS, part 10. The preprocessor's filters and the filter of an LSP vector: the difference equations of the
high-pass and the pre-emphasis with the memories they leave (R170, R171), and the end coefficients of the products of
R182. -/

namespace Sys2Proof.Machine

theorem elt_cons_zero (x : Rat) (v : List Rat) : elt (x :: v) 0 = x := rfl

theorem elt_cons_succ (x : Rat) (v : List Rat) (i : Nat) : elt (x :: v) (i + 1) = elt v i := rfl

/-! ### The preprocessor -/

/-- R170's sum at every sample, the memory's samples put before the frame: a later sample is one of the frame's rest
under the memory that its first sample leaves. -/
theorem elt_highpass (P : Profile) (m : HpfMem) {s : List Rat} {n : Nat} (hn : n < s.length) :
    let S := m.x2 :: m.x1 :: s
    let H := m.y2 :: m.y1 :: (highpass P m s).1
    elt H (n + 2) = elt P.hpfB 0 * elt S (n + 2) + elt P.hpfB 1 * elt S (n + 1)
        + elt P.hpfB 2 * elt S n - elt P.hpfA 0 * elt H (n + 1) - elt P.hpfA 1 * elt H n := by
  induction s generalizing m n with
  | nil => exact absurd hn (Nat.not_lt_zero n)
  | cons x s ih =>
    cases n with
    | zero => rfl
    | succ n => exact ih _ (Nat.lt_of_succ_lt_succ hn)

/-- The memory left is the last two samples of each signal, the memory's own put before the frame (R170). -/
theorem highpass_mem (P : Profile) (m : HpfMem) (s : List Rat) :
    let S := m.x2 :: m.x1 :: s
    let H := m.y2 :: m.y1 :: (highpass P m s).1
    (highpass P m s).2 = { x1 := elt S (s.length + 1), x2 := elt S s.length,
                           y1 := elt H (s.length + 1), y2 := elt H s.length } := by
  induction s generalizing m with
  | nil => rfl
  | cons x s ih => exact ih _

/-- R171's sum at every sample, the memory's samples put before the frame: as for the high-pass. -/
theorem elt_preemph (P : Profile) (h1 p1 : Rat) {h : List Rat} {n : Nat} (hn : n < h.length) :
    elt (p1 :: (preemph P h1 p1 h).1) (n + 1)
      = elt (h1 :: h) (n + 1) - P.peB * elt (h1 :: h) n + P.peA * elt (p1 :: (preemph P h1 p1 h).1) n := by
  induction h generalizing h1 p1 n with
  | nil => exact absurd hn (Nat.not_lt_zero n)
  | cons x h ih =>
    cases n with
    | zero => rfl
    | succ n => exact ih _ _ (Nat.lt_of_succ_lt_succ hn)

/-- The memory left is the last sample of each signal, the memory's own put before the frame (R171). -/
theorem preemph_mem (P : Profile) (h1 p1 : Rat) (h : List Rat) :
    (preemph P h1 p1 h).2 = (elt (h1 :: h) h.length, elt (p1 :: (preemph P h1 p1 h).1) h.length) := by
  induction h generalizing h1 p1 with
  | nil => rfl
  | cons x h ih => exact ih _ _

/-- Settles O47: the sums along the frame, and the memory, which a frame of two samples fills. -/
theorem highpassEquation : Obligations.HighpassEquation := by
  refine fun P m s hs => ⟨length_highpass P m s, fun n hn => elt_highpass P m hn, ?_⟩
  obtain ⟨k, hk⟩ := Nat.exists_eq_add_of_le' hs
  have hmem := highpass_mem P m s
  rw [hk] at hmem ⊢
  exact hmem

/-- Settles O48: the sums along the frame, and the memory, which a frame of one sample fills. -/
theorem preemphEquation : Obligations.PreemphEquation := by
  refine fun P h1 p1 h hh => ⟨length_preemph P h1 p1 h, fun n hn => elt_preemph P h1 p1 hn, ?_⟩
  obtain ⟨k, hk⟩ := Nat.exists_eq_add_of_le' hh
  have hmem := preemph_mem P h1 p1 h
  rw [hk] at hmem ⊢
  exact hmem

/-! ### The polynomials of an LSP vector -/

theorem elt_nil (i : Nat) : elt [] i = 0 := rfl

theorem elt_polyMul_zero (a : Rat) (p q : List Rat) : elt (polyMul (a :: p) q) 0 = a * elt q 0 := by
  rw [polyMul, elt_polyAdd, elt_map_mul, elt_cons_zero, add_zero]

theorem elt_polyMul_succ (a : Rat) (p q : List Rat) (i : Nat) :
    elt (polyMul (a :: p) q) (i + 1) = a * elt q (i + 1) + elt (polyMul p q) i := by
  rw [polyMul, elt_polyAdd, elt_map_mul, elt_cons_succ]

theorem elt_polyMul_const (a : Rat) (q : List Rat) (i : Nat) : elt (polyMul [a] q) i = a * elt q i := by
  cases i with
  | zero => exact elt_polyMul_zero a [] q
  | succ i => rw [elt_polyMul_succ, polyMul, elt_nil, add_zero]

/-- The coefficients of a product by `1 + b z^-1` (R182). -/
theorem elt_polyMul_linear (b : Rat) (q : List Rat) (i : Nat) :
    elt (polyMul [1, b] q) (i + 1) = elt q (i + 1) + b * elt q i := by
  rw [elt_polyMul_succ, elt_polyMul_const, one_mul]

theorem elt_quadProduct_cons (c : Rat) (cs : List Rat) (i : Nat) :
    elt (quadProduct (c :: cs)) (i + 2)
      = elt (quadProduct cs) (i + 2) + -2 * c * elt (quadProduct cs) (i + 1) + elt (quadProduct cs) i := by
  rw [quadProduct, elt_polyMul_succ, elt_polyMul_succ, elt_polyMul_const, one_mul, one_mul]
  exact (add_assoc _ _ _).symm

theorem elt_quadProduct_zero (cs : List Rat) : elt (quadProduct cs) 0 = 1 := by
  induction cs with
  | nil => rfl
  | cons c cs ih => rw [quadProduct, elt_polyMul_zero, ih, one_mul]

/-- Each factor of the product adds two to its degree. -/
theorem elt_quadProduct_above (cs : List Rat) {i : Nat} (h : 2 * cs.length < i) : elt (quadProduct cs) i = 0 := by
  induction cs generalizing i with
  | nil =>
    obtain ⟨i, rfl⟩ := Nat.exists_eq_succ_of_ne_zero h.ne'
    rfl
  | cons c cs ih =>
    rw [List.length_cons] at h
    obtain ⟨i, rfl⟩ := Nat.exists_eq_add_of_le' (show 2 ≤ i by omega)
    rw [elt_quadProduct_cons, ih (by omega), ih (by omega), ih (by omega), mul_zero, add_zero, add_zero]

theorem elt_quadProduct_top (cs : List Rat) : elt (quadProduct cs) (2 * cs.length) = 1 := by
  induction cs with
  | nil => rfl
  | cons c cs ih =>
    rw [List.length_cons, Nat.mul_succ, elt_quadProduct_cons, ih, elt_quadProduct_above cs (by omega),
      elt_quadProduct_above cs (by omega), mul_zero, add_zero, zero_add]

/-- The highest coefficient of `(1 + b z^-1) * prod_k (1 - 2 c_k z^-1 + z^-2)` (R182). -/
theorem elt_linear_quadProduct_top (b : Rat) (cs : List Rat) :
    elt (polyMul [1, b] (quadProduct cs)) (2 * cs.length + 1) = b := by
  rw [elt_polyMul_linear, elt_quadProduct_top, elt_quadProduct_above cs (Nat.lt_succ_self _), zero_add, mul_one]

/-- The same over every second LSP of a vector of even order. -/
theorem elt_linear_lspProduct_top {P : Profile} (h : P.lpco % 2 = 0) (N : Num) (b : Rat) (first : Nat) (l : List Rat) :
    elt (polyMul [1, b] (lspProduct N (everySecond P first l))) (P.lpco + 1) = b := by
  have htop := elt_linear_quadProduct_top b ((everySecond P first l).map N.cospi)
  rwa [List.length_map, everySecond, length_tab, show 2 * (P.lpco / 2) = P.lpco by omega] at htop

theorem elt_lsp2a_zero (P : Profile) (N : Num) (l : List Rat) : elt (lsp2a P N l) 0 = 1 := by
  rw [lsp2a, elt_tab _ (Nat.succ_pos _), elt_polyMul_zero, elt_polyMul_zero, lspProduct, lspProduct,
    elt_quadProduct_zero, elt_quadProduct_zero]
  norm_num

/-- Settles O41: the two products of R182 start at 1 and end at `1` and `-1`. -/
theorem lspFilterMonic : Obligations.LspFilterMonic := by
  refine fun P N l hP _ => ⟨length_lsp2a P N l, elt_lsp2a_zero P N l, ?_⟩
  rw [elt_linear_lspProduct_top hP.dims.lpco_even, elt_linear_lspProduct_top hP.dims.lpco_even, add_neg_cancel]

end Sys2Proof.Machine
end

section
/-! PROOFS, part 11. The Levinson-Durbin recursion (R174): the normal equations as the invariant of its orders. -/

namespace Sys2Proof.Machine

theorem elt_of_length_le {v : List Rat} {i : Nat} (h : v.length ≤ i) : elt v i = 0 := List.getD_eq_default _ _ h

/-! ### The sums of the normal equations -/

theorem sumTo_eq_sum (n : Nat) (f : Nat → Rat) : sumTo n f = ∑ i ∈ Finset.range n, f i := by
  induction n with
  | zero => rfl
  | succ n ih => rw [sumTo_succ, Finset.sum_range_succ, ih]

theorem sumTo_succ_shift (n : Nat) (f : Nat → Rat) : sumTo (n + 1) f = f 0 + sumTo n fun j => f (j + 1) := by
  rw [sumTo_eq_sum, sumTo_eq_sum, Finset.sum_range_succ', add_comm]

/-- Equation `i` of the normal equations of order `m` (R174): `sum_{j=0}^{m} a[j] * r[|i - j|]`. -/
def normalSum (r a : List Rat) (m i : Nat) : Rat :=
  sumTo (m + 1) fun j => elt a j * elt r (if j ≤ i then i - j else j - i)

theorem normalSum_zero_right (r a : List Rat) (m : Nat) :
    normalSum r a m 0 = sumTo (m + 1) fun j => elt a j * elt r j :=
  sumTo_congr fun j _ => by
    split_ifs with hj
    · rw [Nat.le_zero.1 hj]
    · rfl

theorem normalSum_next (r a : List Rat) (m : Nat) :
    normalSum r a m (m + 1) = sumTo (m + 1) fun j => elt a j * elt r (m + 1 - j) :=
  sumTo_congr fun j hj => by rw [if_pos hj.le]

/-- A coefficient that is 0 adds nothing: the sum of the next order. -/
theorem normalSum_succ {r a : List Rat} {m : Nat} (ha : elt a (m + 1) = 0) (i : Nat) :
    normalSum r a (m + 1) i = normalSum r a m i := by
  rw [normalSum, sumTo_succ, ha, zero_mul, add_zero, normalSum]

/-- The matrix of the equations is symmetric about both diagonals: reversing the coefficients reverses the equations. -/
theorem normalSum_reversed (r a : List Rat) {m i : Nat} (hi : i ≤ m) :
    (sumTo (m + 1) fun j => elt a (m - j) * elt r (if j ≤ i then i - j else j - i)) = normalSum r a m (m - i) := by
  rw [normalSum, sumTo_eq_sum, sumTo_eq_sum, ← Finset.sum_range_reflect]
  refine Finset.sum_congr rfl fun j hj => ?_
  have hj : j < m + 1 := Finset.mem_range.1 hj
  have hback : m - (m + 1 - 1 - j) = j := by omega
  have hdist : (if m + 1 - 1 - j ≤ i then i - (m + 1 - 1 - j) else m + 1 - 1 - j - i)
      = if j ≤ m - i then m - i - j else j - (m - i) := by split_ifs <;> omega
  rw [hback, hdist]

/-! ### One order of the recursion -/

/-- The reflection coefficient of order `m + 1`: the residue of the next equation over the prediction error (R174). -/
def reflection (r a : List Rat) (m : Nat) (err : Rat) : Rat := -normalSum r a m (m + 1) / err

theorem reflection_mul {err : Rat} (h : 0 < err) (r a : List Rat) (m : Nat) :
    reflection r a m err * err = -normalSum r a m (m + 1) := div_mul_cancel₀ _ h.ne'

theorem one_le_abs_reflection {err : Rat} (h : 0 < err) (r a : List Rat) (m : Nat) :
    1 ≤ |reflection r a m err| ↔ err ≤ |normalSum r a m (m + 1)| := by
  rw [reflection, abs_div, abs_neg, abs_of_pos h, one_le_div h]

/-- The coefficients of order `i` from those of the order before and the reflection coefficient `k` (R174). -/
def levinsonStep (p i : Nat) (k : Rat) (a : List Rat) : List Rat :=
  tab (p + 1) fun j => if j = 0 ∨ i < j then elt a j else if j = i then k else elt a j + k * elt a (i - j)

/-- One turn of the recursion on a monic filter. -/
theorem levinsonFrom_succ {a : List Rat} (h0 : elt a 0 = 1) (p : Nat) (r : List Rat) (n m : Nat) (err : Rat) :
    levinsonFrom p r (n + 1) (m + 1) a err
      = if 1 ≤ |reflection r a m err| then a
        else levinsonFrom p r n (m + 2) (levinsonStep p (m + 1) (reflection r a m err) a)
          (err * (1 - reflection r a m err * reflection r a m err)) := by
  have hacc : elt r (m + 1) + (sumTo (m + 1 - 1) fun j => elt a (j + 1) * elt r (m + 1 - (j + 1)))
      = normalSum r a m (m + 1) := by
    rw [normalSum_next, sumTo_succ_shift, h0, one_mul, Nat.add_sub_cancel, Nat.sub_zero]
  rw [reflection, ← hacc]
  rfl

theorem length_levinsonStep (p i : Nat) (k : Rat) (a : List Rat) : (levinsonStep p i k a).length = p + 1 :=
  length_tab _ _

/-- Above its order a step leaves the coefficients alone. -/
theorem elt_levinsonStep_above {p i j : Nat} {a : List Rat} (ha : a.length = p + 1) (hij : i < j) (k : Rat) :
    elt (levinsonStep p i k a) j = elt a j := by
  by_cases hj : j < p + 1
  · rw [levinsonStep, elt_tab _ hj, if_pos (.inr hij)]
  · rw [elt_of_length_le (length_levinsonStep p i k a ▸ not_lt.1 hj), elt_of_length_le (ha ▸ not_lt.1 hj)]

/-- Up to its order a step adds `k` times the reversed coefficients, the ends included: the filter is monic and its
coefficient of that order still 0. -/
theorem elt_levinsonStep {p i j : Nat} {a : List Rat} (h0 : elt a 0 = 1) (hi : elt a i = 0) (hip : i ≤ p)
    (hji : j ≤ i) (k : Rat) : elt (levinsonStep p i k a) j = elt a j + k * elt a (i - j) := by
  rw [levinsonStep, elt_tab _ (by omega)]
  split_ifs with hout heq
  · obtain rfl : j = 0 := by omega
    rw [Nat.sub_zero, hi, mul_zero, add_zero]
  · rw [heq, hi, Nat.sub_self, h0, mul_one, zero_add]
  · rfl

/-- The equations after a step: each is the old one plus `k` times its mirror image. -/
theorem normalSum_levinsonStep {p m i : Nat} {a : List Rat} (h0 : elt a 0 = 1) (ha : elt a (m + 1) = 0)
    (hm : m + 1 ≤ p) (hi : i ≤ m + 1) (r : List Rat) (k : Rat) :
    normalSum r (levinsonStep p (m + 1) k a) (m + 1) i
      = normalSum r a m i + k * normalSum r a m (m + 1 - i) := by
  rw [← normalSum_succ ha i, ← normalSum_succ ha (m + 1 - i), ← normalSum_reversed r a hi, normalSum, normalSum,
    sumTo_eq_sum, sumTo_eq_sum, sumTo_eq_sum, Finset.mul_sum, ← Finset.sum_add_distrib]
  refine Finset.sum_congr rfl fun j hj => ?_
  rw [elt_levinsonStep h0 ha hm (Nat.lt_succ_iff.1 (Finset.mem_range.1 hj)), add_mul, mul_assoc]

/-! ### The invariant of the orders -/

/-- `a` solves the normal equations of order `m` with the prediction error `err`, which is positive (R174). -/
structure SolvesOrder (p : Nat) (r : List Rat) (m : Nat) (a : List Rat) (err : Rat) : Prop where
  length : a.length = p + 1
  monic : elt a 0 = 1
  above : ∀ j, m < j → elt a j = 0
  normal : ∀ i, 1 ≤ i → i ≤ m → normalSum r a m i = 0
  error : normalSum r a m 0 = err
  pos : 0 < err

theorem solvesOrder_flat (p : Nat) {r : List Rat} (h : 0 < elt r 0) : SolvesOrder p r 0 (flat p) (elt r 0) where
  length := by simp [flat]
  monic := rfl
  above j hj := by
    obtain ⟨j, rfl⟩ := Nat.exists_eq_succ_of_ne_zero hj.ne'
    simp [flat, elt, List.getD]
  normal i h1 h0 := absurd h1 (by omega)
  error := by
    rw [normalSum_zero_right, sumTo_succ, sumTo_zero, zero_add]
    exact one_mul _
  pos := h

/-- A step with a reflection coefficient of magnitude below 1 solves the next order: the coefficient cancels the new
equation, and the old ones pair off. -/
theorem SolvesOrder.step {p m : Nat} {r a : List Rat} {err : Rat} (h : SolvesOrder p r m a err) (hm : m + 1 ≤ p)
    (hlt : |reflection r a m err| < 1) :
    SolvesOrder p r (m + 1) (levinsonStep p (m + 1) (reflection r a m err) a)
      (err * (1 - reflection r a m err * reflection r a m err)) := by
  have hcancel := reflection_mul h.pos r a m
  generalize reflection r a m err = k at hlt hcancel ⊢
  have hnext := h.above (m + 1) (Nat.lt_succ_self m)
  have hsum {i : Nat} (hi : i ≤ m + 1) := normalSum_levinsonStep h.monic hnext hm hi r k
  refine ⟨length_levinsonStep .., ?_, fun j hj => ?_, fun i h1 hi => ?_, ?_, ?_⟩
  · rw [elt_levinsonStep h.monic hnext hm (Nat.zero_le _), Nat.sub_zero, hnext, mul_zero, add_zero, h.monic]
  · rw [elt_levinsonStep_above h.length hj, h.above j (by omega)]
  · rw [hsum hi]
    rcases hi.lt_or_eq with hlt | rfl
    · rw [h.normal i h1 (by omega), h.normal (m + 1 - i) (by omega) (by omega), mul_zero, add_zero]
    · rw [Nat.sub_self, h.error, hcancel, add_neg_cancel]
  · rw [hsum (Nat.zero_le _), Nat.sub_zero, h.error, ← neg_eq_iff_eq_neg.2 hcancel]
    ring
  · rw [← pow_two]
    exact mul_pos h.pos (sub_pos.2 (sq_lt_one_iff_abs_lt_one k |>.2 hlt))

/-- The recursion ends with the solution of some order, the full one unless a reflection coefficient of magnitude 1 or
more stopped it there (R174). -/
theorem levinsonFrom_solves {p n m : Nat} {r a : List Rat} {err : Rat} (h : SolvesOrder p r m a err) (hp : m + n = p) :
    ∃ l e, l ≤ p ∧ SolvesOrder p r l (levinsonFrom p r n (m + 1) a err) e
      ∧ (l < p → e ≤ |normalSum r (levinsonFrom p r n (m + 1) a err) l (l + 1)|) := by
  induction n generalizing m a err with
  | zero => exact ⟨m, err, hp.le, h, fun hlt => absurd hp hlt.ne⟩
  | succ n ih =>
    rw [levinsonFrom_succ h.monic]
    split_ifs with hstop
    · exact ⟨m, err, by omega, h, fun _ => (one_le_abs_reflection h.pos r a m).1 hstop⟩
    · exact ih (h.step (by omega) (not_le.1 hstop)) (by omega)

/-- Settles O49: the normal equations of the order reached are the invariant of the recursion's orders. -/
theorem levinsonNormalEquations : Obligations.LevinsonNormalEquations := by
  refine fun p r => ⟨fun hsilent => if_pos hsilent, fun hr => ?_⟩
  rw [levinson, if_neg (not_le.2 hr)]
  obtain ⟨m, err, hm, h, hstop⟩ := levinsonFrom_solves (solvesOrder_flat p hr) (Nat.zero_add p)
  obtain rfl := h.error
  simp only [← normalSum_next, ← normalSum_zero_right]
  exact ⟨h.length, h.monic, m, hm, h.above, h.normal, h.pos, hstop⟩

end Sys2Proof.Machine
end

section
/-! PROOFS, part 12. The LSP dequantizer and its stabilizer (`42_lsp_quantizer.md`): the self-check of R212 component by
component, what the dequantizer takes on either side of it, and the vectors STABILIZE leaves alone (R220). -/

namespace Sys2Proof.Machine

/-! ### STABILIZE -/

theorem elt_mem {l : List Rat} {i : Nat} (hi : i < l.length) : elt l i ∈ l := by
  rw [elt, List.getD_eq_getElem _ _ hi]
  exact List.getElem_mem hi

/-- What STABILIZE gives, component by component (R220). -/
theorem stabilize_spec_elt {P : Profile} (h : P.LspOk) {l : List Rat} (hl : l.length = P.lpco) :
    (stabilize P l).length = P.lpco
      ∧ (∀ i, i + 1 < P.lpco → elt (stabilize P l) i + P.lspminsep ≤ elt (stabilize P l) (i + 1))
      ∧ ∀ i < P.lpco, P.lspmin ≤ elt (stabilize P l) i ∧ elt (stabilize P l) i ≤ P.lspmax := by
  have hlen : (stabilize P l).length = P.lpco := (length_stabilize P l).trans hl
  obtain ⟨hchain, hrange⟩ := stabilize_spec h hl
  exact ⟨hlen, hlen ▸ isChain_iff_elt.1 hchain, fun i hi => hrange _ (elt_mem (hlen ▸ hi))⟩

/-- STABILIZE leaves alone a vector that is separated and within the bounds: the sort finds it sorted, the forward pass
raises nothing, and the backward pass is not entered (R220). -/
theorem stabilize_eq_self {P : Profile} (hsep : 0 < P.lspminsep) {l : List Rat}
    (hchain : l.IsChain fun a b => a + P.lspminsep ≤ b) (hmin : P.lspmin ≤ elt l 0)
    (hmax : elt l (l.length - 1) ≤ P.lspmax) : stabilize P l = l := by
  have hsort : l.insertionSort (· ≤ ·) = l :=
    List.Pairwise.insertionSort_eq ((between_ends hsep hchain).1.imp le_of_lt)
  have hhead : ∀ x ∈ l.head?, P.lspmin ≤ x := by
    cases l with
    | nil => simp
    | cons y l => simpa [elt] using hmin
  rw [stabilize, hsort, sepUp_eq_self hchain hhead]
  exact if_neg (not_lt.2 hmax)

/-- Settles O40: what the two passes give, read component by component, and the vectors both passes keep. -/
theorem stabilizeSeparates : Obligations.StabilizeSeparates := by
  intro P l hP hl
  have hpos : 0 < P.lpco := Nat.zero_lt_of_lt hP.dims.two_le_lpco
  obtain ⟨hlen, hchain, hrange⟩ := stabilize_spec_elt hP.lsp hl
  exact ⟨⟨hlen, hchain, (hrange _ hpos).1, (hrange _ (Nat.sub_one_lt_of_lt hpos)).2⟩, fun hsep hmin hmax =>
    stabilize_eq_self hP.lsp.lspminsep_pos (isChain_iff_elt.2 (hl ▸ hsep)) hmin (hl ▸ hmax)⟩

/-! ### The self-check of the low split -/

theorem nonDecreasing_iff {u : List Rat} : nonDecreasing u = true ↔ u.IsChain (· ≤ ·) := by
  induction u with
  | nil => simp [nonDecreasing]
  | cons x u ih =>
    cases u with
    | nil => simp [nonDecreasing]
    | cons y u => rw [nonDecreasing, Bool.and_eq_true, ih, decide_eq_true_iff, List.isChain_cons_cons]

/-- `ELIGIBLE`, component by component (R204). -/
theorem eligible_tab_iff {n : Nat} (hn : 0 < n) (f : Nat → Rat) :
    eligible (tab n f) = true ↔ 0 ≤ f 0 ∧ ∀ i, i + 1 < n → f i ≤ f (i + 1) := by
  rw [eligible, Bool.and_eq_true, decide_eq_true_iff, elt_tab f hn, nonDecreasing_iff, List.isChain_iff_getElem]
  simp [tab]

/-- The self-check of R212 on a prediction and a decoded error: their sum is not negative at 0 and does not decrease
within the low split. -/
def LowSplitOk (P : Profile) (pred eq : List Rat) : Prop :=
  0 ≤ elt pred 0 + elt eq 0 ∧ ∀ i, i + 1 < P.split1 → elt pred i + elt eq i ≤ elt pred (i + 1) + elt eq (i + 1)

theorem eligible_take_vecAdd {P : Profile} (h : P.DimsOk) (pred eq : List Rat) :
    eligible ((vecAdd P pred eq).take P.split1) = true ↔ LowSplitOk P pred eq := by
  rw [vecAdd, take_tab h.split1_lt_lpco.le, eligible_tab_iff h.split1_pos]
  rfl

/-! ### The dequantizer on either side of the self-check -/

section
variable {P : Profile} (h : P.DimsOk) (pm : List (List Rat)) (lsplast : List Rat) {i1 i21 i22 : Nat}
include h

/-- Where the self-check holds, the dequantizer takes the reconstructed vector and the decoded error (R213, R215). -/
theorem lspDequantize_of_ok (hok : LowSplitOk P (lspPredict P pm) (lspError P i1 i21 i22)) :
    lspDequantize P pm lsplast i1 i21 i22 =
      { lspq := stabilize P (vecAdd P (lspPredict P pm) (lspError P i1 i21 i22))
        lsppm := lspShift P pm (lspError P i1 i21 i22)
        subst := false } :=
  if_pos ((eligible_take_vecAdd h _ _).2 hok)

/-- Where it fails, the previous vector and the error that reproduces it (R213 to R215). -/
theorem lspDequantize_of_not_ok (hok : ¬LowSplitOk P (lspPredict P pm) (lspError P i1 i21 i22)) :
    lspDequantize P pm lsplast i1 i21 i22 =
      { lspq := stabilize P lsplast, lsppm := lspHold P pm lsplast, subst := true } :=
  if_neg (mt (eligible_take_vecAdd h _ _).1 hok)

end

/-- Whatever the rows, the dequantizer's vector comes out of STABILIZE (R215). -/
theorem lspDequantize_lspq (P : Profile) (pm : List (List Rat)) {lsplast : List Rat} (hl : lsplast.length = P.lpco)
    (i1 i21 i22 : Nat) :
    ∃ l : List Rat, l.length = P.lpco ∧ (lspDequantize P pm lsplast i1 i21 i22).lspq = stabilize P l := by
  rw [lspDequantize]
  split
  · exact ⟨_, length_vecAdd P _ _, rfl⟩
  · exact ⟨_, hl, rfl⟩

/-! ### The memory after a shift -/

/-- The newest errors after a shift (R201). -/
theorem lspShift_newest {P : Profile} (h : P.DimsOk) (pm : List (List Rat)) (q : List Rat) :
    ∀ i < P.lpco, elt2 (lspShift P pm q) i 0 = elt q i := fun _ hi =>
  (elt2_lspShift hi h.lspporder_pos).trans (if_pos rfl)

/-- The older errors after a shift (R201). -/
theorem lspShift_older (P : Profile) (pm : List (List Rat)) (q : List Rat) :
    ∀ i < P.lpco, ∀ k, 1 ≤ k → k < P.lspporder → elt2 (lspShift P pm q) i k = elt2 pm i (k - 1) :=
  fun _ hi _ h0 hk => (elt2_lspShift hi hk).trans (if_neg (Nat.one_le_iff_ne_zero.1 h0))

/-! ### The LSP vector a DECODE leaves -/

/-- The LSP fields a DECODE leaves are the dequantizer's, on the first three slots (R146). -/
theorem decodeWith_lsp (s : State) (ws : List Word) :
    let r := lspDequantize Config.profile s.dec.lsppm s.dec.lsplast (ws.getD 0 0).toNat (ws.getD 1 0).toNat
      (ws.getD 2 0).toNat
    (s.decodeWith ws).dec.lsplast = r.lspq ∧ (s.decodeWith ws).dec.lsppm = r.lsppm
      ∧ (s.decodeWith ws).dec.lspSubst = r.subst := by
  simp only [decodeWith_dec, ← slot_map_toNat]
  exact ⟨rfl, rfl, rfl⟩

/-- `STATUS.LSP_SUBST` (R34). -/
theorem statusWord_lspSubst (s : State) : (statusWord s).getLsbD 6 = s.dec.lspSubst := by
  rw [statusWord_getLsbD, State.substBit]
  simp

/-- Settles O38: the vector left comes out of STABILIZE. -/
theorem decodedLspStable : Obligations.DecodedLspStable := by
  intro s ws t hready hl hexec
  obtain rfl := decodeWith_of_exec hready hexec
  obtain ⟨l, hlen, hlspq⟩ := lspDequantize_lspq Config.profile s.dec.lsppm hl (ws.getD 0 0).toNat
    (ws.getD 1 0).toNat (ws.getD 2 0).toNat
  rw [(decodeWith_lsp s ws).1, hlspq]
  exact stabilize_spec_elt Config.setup.profileOk.lsp hlen

/-- Settles O39: the dequantizer on either side of the self-check, and what its shift leaves in the memory. -/
theorem bitErrorSubstitution : Obligations.BitErrorSubstitution := by
  intro s ws t hready hexec pred eq ok
  obtain rfl := decodeWith_of_exec hready hexec
  obtain ⟨hlspq, hlsppm, hsubst⟩ := decodeWith_lsp s ws
  have hnewest := lspShift_newest profile_dims s.dec.lsppm
  have holder := lspShift_older Config.profile s.dec.lsppm
  rw [statusWord_lspSubst, hlspq, hlsppm, hsubst]
  by_cases hok : ok
  case pos =>
    rw [lspDequantize_of_ok profile_dims _ _ hok]
    exact ⟨by simp [hok], fun _ => rfl, absurd hok, fun _ => hnewest eq, absurd hok, holder eq⟩
  case neg =>
    rw [lspDequantize_of_not_ok profile_dims _ _ hok]
    exact ⟨by simp [hok], fun h => absurd h hok, fun _ => rfl, fun h => absurd h hok,
      fun _ i hi => (hnewest _ i hi).trans (elt_tab _ hi), holder _⟩

end Sys2Proof.Machine
end

section
/-! PROOFS, part 13. The pitch estimator (`43_pitch_estimator.md`): the lag it gives, and what an ENCODE keeps and
transmits of it (R246). -/

namespace Sys2Proof.Machine

/-- Whatever the histories hold, the search gives a lag (R246, R247). -/
theorem pitchSearch_lagOk {P : Profile} (h : P.minpp ≤ P.maxpp) (e : Enc) (a x : List Rat) :
    LagOk P (pitchSearch P e a x).pp := refine_lagOk h _ _

/-- `E` takes the lag of a pitch search on it, and slot 3 its distance from `MINPP` (R117, R145, R246). -/
theorem cpplast_of_encodeFrame (P : Profile) (N : Num) (e : Enc) (pcm : List Int) :
    ∃ a x, (encodeFrame P N e pcm).2.cpplast = (pitchSearch P e a x).pp
      ∧ (encodeFrame P N e pcm).1.getD 3 0 = (encodeFrame P N e pcm).2.cpplast - P.minpp := ⟨_, _, rfl, rfl⟩

/-- Settles O50: the lag an ENCODE keeps is a pitch search's, and its index survives the slot. -/
theorem pitchInRange : Obligations.PitchInRange := by
  refine ⟨fun P e a x hP => pitchSearch_lagOk hP.dims.minpp_lt_maxpp.le e a x, fun s t hexec => ?_⟩
  obtain ⟨pcm, -, rfl⟩ := exec_encode_next hexec
  have hP := Config.setup.profileOk
  have hslot : 3 < Config.profile.nidx := by rw [Profile.nidx]; omega
  obtain ⟨a, x, hlag, hidx⟩ := cpplast_of_encodeFrame Config.profile Config.num s.enc (pcm.map BitVec.toInt)
  rw [encodeWith_enc]
  refine ⟨hlag ▸ pitchSearch_lagOk hP.dims.minpp_lt_maxpp.le s.enc a x, _, read32_encodeWith s pcm hslot, ?_⟩
  rw [toNat_ofNat_encodeFrame hP _ _ _ hslot, hidx]

end Sys2Proof.Machine
end

section
/-! PROOFS, part 14. The gain coder (`44_gain_coder.md`): the order the level estimator keeps (R270), the limit on a
committed log-gain step (R273, R281, R288), and the trap/escape machine on either side of its timer (R287). -/

namespace Sys2Proof.Machine

/-! ### The level estimator -/

/-- The old mean is not above the new maximum: the maximum either jumps to a greater log-gain or decays towards that
mean (R270). -/
theorem lmean_le_levelUpdate_lmax {P : Profile} (hP : P.GainOk) {g : GainState} (h : g.lmean ≤ g.lmax) (lg : Rat) :
    g.lmean ≤ (levelUpdate P g lg).lmax := by
  simp only [levelUpdate]
  split_ifs with hlg
  · exact h.trans hlg.le
  · exact le_add_of_nonneg_right (mul_nonneg hP.estlAlpha.1 (sub_nonneg.2 h))

/-- The old mean is not below the new minimum (R270). -/
theorem levelUpdate_lmin_le_lmean {P : Profile} (hP : P.GainOk) {g : GainState} (h : g.lmin ≤ g.lmean) (lg : Rat) :
    (levelUpdate P g lg).lmin ≤ g.lmean := by
  simp only [levelUpdate]
  split_ifs with hlg
  · exact hlg.le.trans h
  · exact add_le_of_nonpos_right (mul_nonpos_of_nonneg_of_nonpos hP.estlAlpha.1 (sub_nonpos.2 h))

/-- The new mean blends the old mean with the midpoint of the new extremes (R270). -/
theorem levelUpdate_lmean (P : Profile) (g : GainState) (lg : Rat) :
    (levelUpdate P g lg).lmean = P.estlBeta * g.lmean
      + (1 - P.estlBeta) * midpoint Rat (levelUpdate P g lg).lmin (levelUpdate P g lg).lmax := by
  rw [midpoint_eq_smul_add, invOf_eq_inv, smul_eq_mul]
  simp only [levelUpdate]
  ring

/-- Both ends of the blend lie between the new extremes, so the new mean does (R270). -/
theorem levelUpdate_lmean_mem {P : Profile} (hP : P.GainOk) {g : GainState} (hmin : g.lmin ≤ g.lmean)
    (hmax : g.lmean ≤ g.lmax) (lg : Rat) :
    (levelUpdate P g lg).lmean ∈ Set.Icc (levelUpdate P g lg).lmin (levelUpdate P g lg).lmax := by
  have hold : g.lmean ∈ Set.Icc (levelUpdate P g lg).lmin (levelUpdate P g lg).lmax :=
    ⟨levelUpdate_lmin_le_lmean hP hmin lg, lmean_le_levelUpdate_lmax hP hmax lg⟩
  have hle := hold.1.trans hold.2
  have hmid : midpoint Rat (levelUpdate P g lg).lmin (levelUpdate P g lg).lmax ∈ Set.Icc _ _ :=
    ⟨left_le_midpoint.2 hle, midpoint_le_right.2 hle⟩
  rw [levelUpdate_lmean]
  exact convex_Icc _ _ hold hmid hP.estlBeta.1 (sub_nonneg.2 hP.estlBeta.2.le) (add_sub_cancel _ _)

theorem levelUpdate_lmax_of_lt (P : Profile) {g : GainState} {lg : Rat} (h : g.lmax < lg) :
    (levelUpdate P g lg).lmax = lg := if_pos h

theorem levelUpdate_lmin_of_lt (P : Profile) {g : GainState} {lg : Rat} (h : lg < g.lmin) :
    (levelUpdate P g lg).lmin = lg := if_pos h

/-- Only a log-gain above the threshold between mean and maximum moves the level statistic (R270). -/
theorem levelUpdate_level_of_le {P : Profile} {g : GainState} {lg : Rat}
    (h : lg ≤ (levelUpdate P g lg).lmean
      + P.estlTh * ((levelUpdate P g lg).lmax - (levelUpdate P g lg).lmean)) :
    (levelUpdate P g lg).level = g.level ∧ (levelUpdate P g lg).x1 = g.x1 :=
  ⟨if_neg (not_lt.2 h), if_neg (not_lt.2 h)⟩

/-- Settles O42: the new mean is a blend of values between the new extremes. -/
theorem levelEstimatorOrdered : Obligations.LevelEstimatorOrdered := fun P _ lg hP hmin hmax =>
  have hmean := levelUpdate_lmean_mem hP.gain hmin hmax lg
  ⟨hmean.1, hmean.2, levelUpdate_lmax_of_lt P, levelUpdate_lmin_of_lt P, levelUpdate_level_of_le⟩

/-! ### The committed log-gain step -/

/-- A commit puts the codebook value of its position at the head of the predictor's memory (R274). -/
theorem elt_lgpm_gainCommit {P : Profile} (h : 1 ≤ P.lgporder) (g : GainState) (lgpe : Rat) (p : Nat) :
    elt (gainCommit P g lgpe p).2.lgpm 0 = lgAt P p := by
  obtain ⟨n, hn⟩ := Nat.exists_eq_add_of_le' h
  simp only [gainCommit, gainShift, hn, List.take_succ_cons, elt_cons_zero]

/-- A step committed where the limiter ended is within the limit, unless the limiter ended at position 0 (R273,
R281). -/
theorem gainCommit_gainLimit_step (P : Profile) (g : GainState) (lgpe : Rat) (p : Nat) :
    let c := (gainCommit P g lgpe (gainLimit P g lgpe p).1).2
    c.prevlg0 - c.prevlg1 ≤ gainLim P g ∨ (gainLimit P g lgpe p).1 = 0 :=
  (limitWalk_compliant P lgpe g.prevlg0 (gainLim P g) p).symm

/-! ### The trap/escape machine -/

/-- While the timer runs the machine takes the position as it is and counts down (R287). -/
theorem trapStep_of_timer_pos (P : Profile) {t : TrapState} (h : 0 < t.lctimer) (g : GainState) (lgpe : Rat) (p : Nat) :
    trapStep P t g lgpe p = (p, { nclglim := 0, lctimer := t.lctimer - 1 }) := if_pos h

section
variable (P : Profile) {t : TrapState} (ht : t.lctimer = 0) {g : GainState} {lgpe : Rat} {p : Nat}
include ht

/-- With the timer at 0 the machine takes the limiter's position (R287). -/
theorem trapStep_fst_of_timer_zero : (trapStep P t g lgpe p).1 = (gainLimit P g lgpe p).1 := by
  simp only [trapStep, ht, lt_irrefl, if_false]

theorem trapStep_snd_of_not_binding (hP : 1 ≤ P.nclglimTrapped) (hl : (gainLimit P g lgpe p).2 = false) :
    (trapStep P t g lgpe p).2 = { nclglim := 0, lctimer := 0 } := by
  simp [trapStep, ht, hl, Nat.ne_of_gt hP]

theorem trapStep_snd_of_binding (hl : (gainLimit P g lgpe p).2 = true) :
    (trapStep P t g lgpe p).2 =
      if P.nclglimTrapped ≤ t.nclglim + 1 then { nclglim := 0, lctimer := P.levelConvergenceTime }
      else { nclglim := t.nclglim + 1, lctimer := 0 } := by
  simp only [trapStep, ht, hl, lt_irrefl, if_false, if_true]

end

/-- Over subframes that do not exhaust it the timer loses one in each (R287). -/
theorem lctimer_foldl_trapStep (P : Profile) (xs : List (GainState × Rat × Nat)) {t : TrapState}
    (h : xs.length < t.lctimer) :
    (xs.foldl (fun r x => (trapStep P r x.1 x.2.1 x.2.2).2) t).lctimer = t.lctimer - xs.length := by
  induction xs generalizing t with
  | nil => rfl
  | cons x xs ih =>
    rw [List.length_cons] at h ⊢
    rw [List.foldl_cons, trapStep_of_timer_pos P (by omega), ih (by dsimp only; omega)]
    dsimp only
    omega

/-- Settles O45: the countdown by induction over the subframes; with the timer at 0, by whether the limiter binds and
whether the counter reaches its threshold. -/
theorem trapEscape : Obligations.TrapEscape := by
  refine fun P hP => ⟨fun tr xs h => ?countdown, fun tr g lgpe p ht _ => ?limited⟩
  case countdown =>
    have hafter := lctimer_foldl_trapStep P xs h
    exact ⟨hafter, trapStep_of_timer_pos P (by omega)⟩
  case limited =>
    refine ⟨trapStep_fst_of_timer_zero P ht, trapStep_snd_of_not_binding P ht hP.gain.trapped,
      fun hl hlt => ?_, fun hl heq => ?_⟩
    · rw [trapStep_snd_of_binding P ht hl, if_neg (not_le.2 hlt)]
    · rw [trapStep_snd_of_binding P ht hl, if_pos heq.ge]

/-! ### The encoder's and the decoder's gain coder -/

/-- Settles O43: both coders commit where the limiter ended, the decoder because its timer is 0. -/
theorem gainStepLimited : Obligations.GainStepLimited := by
  refine fun P N g hP => ⟨fun es => ?encoder, fun tr gi ht _ => ?decoder⟩
  case encoder =>
    exact (gainCommit_gainLimit_step P g (gainPredict P g) _).imp_right (congrArg (P.lgord.getD · 0))
  case decoder =>
    simp only [gainDequantize, trapStep_fst_of_timer_zero P ht, elt_lgpm_gainCommit hP.dims.lgporder_pos]
    exact (gainCommit_gainLimit_step P g (gainPredict P g) (iord P gi)).imp_right (congrArg (lgAt P))

/-- Settles O44: the index is the row at the position the encoder's limiter ended at, from which it does not walk. -/
theorem mirroredGainNeverWalks : Obligations.MirroredGainNeverWalks := by
  intro P N g es hP q
  have hlt := gainLimit_lt hP.widths.lgcb.1 g (gainPredict P g) (logEnergy P N es - gainPredict P g)
  have hq : q.1 = P.lgord.getD
      (gainLimit P g (gainPredict P g) (gainSearch P (logEnergy P N es - gainPredict P g))).1 0 := rfl
  refine ⟨lgord_getD_lt hP.gain.lgord hlt, ?_, gainDequantize_gainQuantize hP N g es⟩
  rw [hq, iord_lgord hP.gain.lgord hlt, gainLimit_idem]

end Sys2Proof.Machine
end

section
/-! PROOFS, part 15. The excitation search (R317): the noise of a candidate's commit pass is the zero-input response
less the scaled zero-state response (R314), so the search's score is the energy that the commit pass leaves. -/

namespace Sys2Proof.Machine

/-! ### The zero-state response -/

/-- The next sample of the zero-state response after the samples `h`, for the codevector entry `c` (R312): `h` is read
from its newest sample back, and is zero before its first. -/
def zsrNext (P : Profile) (f h : List Rat) (c : Rat) : Rat := c + sumTo P.lpco fun i => elt f i * elt h.reverse i

/-- Terms that are 0 from `n` on add nothing. -/
theorem sumTo_min {n k : Nat} {f : Nat → Rat} (h : ∀ i, n ≤ i → f i = 0) : sumTo (min n k) f = sumTo k f := by
  rw [sumTo_eq_sum, sumTo_eq_sum]
  refine Finset.sum_subset (Finset.range_subset_range.2 (min_le_right n k)) fun i hi hni => h i ?_
  rw [Finset.mem_range] at hi hni
  omega

theorem elt_reverse {h : List Rat} {i : Nat} (hi : i < h.length) : elt h.reverse i = elt h (h.length - (i + 1)) := by
  rw [elt, elt, List.getD_reverse _ hi]
  congr 1
  omega

theorem zsrFrom_cons (P : Profile) (f h : List Rat) (c : Rat) (cs : List Rat) :
    zsrFrom P f h (c :: cs) = zsrFrom P f (h ++ [zsrNext P f h c]) cs := by
  have hbefore : ∀ i, h.length ≤ i → elt f i * elt h.reverse i = 0 := fun i hi => by
    rw [elt_of_length_le (h.length_reverse.trans_le hi), mul_zero]
  have hsum : (sumTo (min h.length P.lpco) fun i => elt f i * elt h (h.length - (i + 1)))
      = sumTo P.lpco fun i => elt f i * elt h.reverse i := by
    rw [← sumTo_min hbefore]
    exact sumTo_congr fun i hi => by rw [elt_reverse (lt_of_lt_of_le hi (min_le_left _ _))]
  rw [zsrFrom, hsum, zsrNext]

/-- The samples found stay. -/
theorem zsrFrom_eq_append (P : Profile) (f h cs : List Rat) : ∃ l, zsrFrom P f h cs = h ++ l := by
  induction cs generalizing h with
  | nil => exact ⟨[], h.append_nil.symm⟩
  | cons c cs ih =>
    obtain ⟨l, hl⟩ := ih (h ++ [zsrNext P f h c])
    exact ⟨zsrNext P f h c :: l, by rw [zsrFrom_cons, hl, List.append_assoc, List.singleton_append]⟩

theorem elt_zsrFrom_cons (P : Profile) (f h : List Rat) (c : Rat) (cs : List Rat) :
    elt (zsrFrom P f h (c :: cs)) h.length = zsrNext P f h c := by
  obtain ⟨l, hl⟩ := zsrFrom_eq_append P f (h ++ [zsrNext P f h c]) cs
  rw [zsrFrom_cons, hl]
  simp [elt]

/-! ### Two passes over the same residual -/

/-- Two buffers of one size hold the same samples from `k + 1` steps back on. -/
structure AgreeBeyond (k : Nat) (m m' : List Rat) : Prop where
  length_eq : m'.length = m.length
  past_eq : ∀ t, k < t → t ≤ m.length → past m' t = past m t

theorem AgreeBeyond.push {k : Nat} {m m' : List Rat} (h : AgreeBeyond k m m') (x x' : Rat) :
    AgreeBeyond (k + 1) (push m x) (push m' x') where
  length_eq := by rw [length_push, length_push, h.length_eq]
  past_eq t hk ht := by
    obtain ⟨u, rfl⟩ := Nat.exists_eq_add_of_le' (Nat.one_le_of_lt hk)
    have hm : u < m.length := by rwa [length_push] at ht
    rw [past_push_succ (by omega) (h.length_eq ▸ hm), past_push_succ (by omega) hm, h.past_eq u (by omega) hm.le]

/-- The newest samples of `m'` are those of `m` less `g` times those of `h`, and the older ones are equal. -/
structure LessScaled (g : Rat) (h m m' : List Rat) : Prop where
  length_eq : m'.length = m.length
  past_eq : ∀ i < m.length, past m' (i + 1) = past m (i + 1) - g * elt h.reverse i

theorem LessScaled.push {g : Rat} {h m m' : List Rat} (hm : LessScaled g h m m') {x x' r : Rat}
    (hx : x' = x - g * r) : LessScaled g (h ++ [r]) (push m x) (push m' x') where
  length_eq := by rw [length_push, length_push, hm.length_eq]
  past_eq i hi := by
    rw [length_push] at hi
    rw [List.reverse_append, List.reverse_singleton, List.singleton_append]
    cases i with
    | zero => rw [past_push_one (hm.length_eq ▸ hi), past_push_one hi, elt_cons_zero, hx]
    | succ i =>
      rw [past_push_succ (by omega) (hm.length_eq ▸ hi), past_push_succ (by omega) hi, elt_cons_succ,
        hm.past_eq i (by omega)]

/-- How the memories `m'` of a pass with codebook contributions stand to the memories `m` of the pass without, when the
contributions were `g` times a codevector whose zero-state response so far is `h` (R314). -/
structure PassesDiffer (g : Rat) (h : List Rat) (m m' : NfMem) : Prop where
  stnfm : LessScaled g h m.stnfm m'.stnfm
  ltsym : AgreeBeyond h.length m.ltsym m'.ltsym
  ltnfm : AgreeBeyond h.length m.ltnfm m'.ltnfm

theorem passesDiffer_refl (g : Rat) (m : NfMem) : PassesDiffer g [] m m where
  stnfm := ⟨rfl, fun i _ => by rw [List.reverse_nil, elt_nil, mul_zero, sub_zero]⟩
  ltsym := ⟨rfl, fun _ _ _ => rfl⟩
  ltnfm := ⟨rfl, fun _ _ _ => rfl⟩

/-- Every lag that R313 looks up lies inside its memory (R311). -/
structure LagsInside (P : Profile) (q : NfParams) (m : NfMem) : Prop where
  stnfm : P.lpco ≤ m.stnfm.length
  ltsym : q.pp + 1 ≤ m.ltsym.length
  ltnfm : q.pp ≤ m.ltnfm.length

theorem LagsInside.nfSample {P : Profile} {q : NfParams} {m : NfMem} (h : LagsInside P q m) (d c : Rat) :
    LagsInside P q (nfSample P q m d c).2 := by
  obtain ⟨hst, hlt, hnf⟩ := nfSample_lengths P q m d c
  exact ⟨hst ▸ h.stnfm, hlt ▸ h.ltsym, hnf ▸ h.ltnfm⟩

section
variable {P : Profile} {q : NfParams} {g : Rat} {h : List Rat} {m m' : NfMem}

/-- The short-term feedback falls by `g` times the feedback part of the zero-state response (R312, R313). -/
theorem PassesDiffer.feedback (hd : PassesDiffer g h m m') (hst : P.lpco ≤ m.stnfm.length) (f : List Rat) :
    (sumTo P.lpco fun i => elt f i * past m'.stnfm (i + 1))
      = (sumTo P.lpco fun i => elt f i * past m.stnfm (i + 1))
        - g * sumTo P.lpco fun i => elt f i * elt h.reverse i := by
  simp only [sumTo_eq_sum, Finset.mul_sum, ← Finset.sum_sub_distrib]
  refine Finset.sum_congr rfl fun i hi => ?_
  rw [hd.stnfm.past_eq i ((Finset.mem_range.1 hi).trans_le hst)]
  ring

/-- A lag beyond the vector's samples so far reads only what stood before the vector, so the long-term prediction does
not see the contributions (R311). -/
theorem PassesDiffer.ltPredict_eq (hd : PassesDiffer g h m m') (hpp : h.length + 1 < q.pp)
    (hlt : q.pp + 1 ≤ m.ltsym.length) : ltPredict m'.ltsym q.bq q.pp = ltPredict m.ltsym q.bq q.pp :=
  sumTo_congr fun k hk => by rw [hd.ltsym.past_eq _ (by omega) (by omega)]

/-- One sample of R313 in both passes: the noises differ by `g` times the next sample of the zero-state response, and
so do the short-term memories after it. -/
theorem PassesDiffer.step (hd : PassesDiffer g h m m') (hin : LagsInside P q m) (hpp : h.length + 1 < q.pp)
    (d c : Rat) :
    (nfSample P q m' d (g * c)).1 = (nfSample P q m d 0).1 - g * zsrNext P q.f h c
      ∧ PassesDiffer g (h ++ [zsrNext P q.f h c]) (nfSample P q m d 0).2 (nfSample P q m' d (g * c)).2 := by
  have hfeedback := hd.feedback hin.stnfm q.f
  have hpredict := hd.ltPredict_eq hpp hin.ltsym
  have hnoise := hd.ltnfm.past_eq q.pp (by omega) hin.ltnfm
  have hlen : (h ++ [zsrNext P q.f h c]).length = h.length + 1 := List.length_append
  refine ⟨?ql, hd.stnfm.push ?qs, hlen ▸ hd.ltsym.push _ _, hlen ▸ hd.ltnfm.push _ _⟩
  case ql =>
    simp only [nfSample, hfeedback, hpredict, hnoise, zsrNext]
    ring
  case qs =>
    rw [hfeedback, hpredict, zsrNext]
    ring

/-- R314's exactness, over the rest of a vector: a pass with `g` times the codevector entries `cs` as contributions
leaves the noise of the pass without, less `g` times the zero-state response. -/
theorem PassesDiffer.elt_nfRun (hd : PassesDiffer g h m m') (hin : LagsInside P q m) {dv cs : List Rat}
    (hlen : dv.length = cs.length) (hpp : h.length + cs.length < q.pp) {n : Nat} (hn : n < cs.length) :
    elt (nfRun P q m' (dv.zip (cs.map (g * ·)))).1 n
      = elt (nfRun P q m (dv.map fun d => (d, 0))).1 n - g * elt (zsrFrom P q.f h cs) (h.length + n) := by
  induction cs generalizing h m m' dv n with
  | nil => exact absurd hn (Nat.not_lt_zero n)
  | cons c cs ih =>
    obtain ⟨d, dv, rfl⟩ := List.exists_cons_of_length_eq_add_one hlen
    rw [List.length_cons] at hpp hn
    obtain ⟨hql, hnext⟩ := hd.step hin (by omega) d c
    cases n with
    | zero => exact (elt_zsrFrom_cons P q.f h c cs).symm ▸ hql
    | succ n =>
      have hlater := ih hnext (hin.nfSample d 0) (Nat.succ.inj hlen)
        (by rw [List.length_append, List.length_singleton]; omega) (Nat.lt_of_succ_lt_succ hn)
      rw [← zsrFrom_cons, List.length_append, List.length_singleton, Nat.add_assoc, Nat.add_comm 1 n] at hlater
      exact hlater

end

/-! ### The search -/

theorem eq_tab_elt (l : List Rat) : l = tab l.length (elt l) :=
  List.ext_getElem (length_tab _ _).symm fun i hi _ => by simp [tab, elt, List.getElem?_eq_getElem hi]

theorem sum_map_sq (l : List Rat) : (l.map fun x => x ^ 2).sum = sumTo l.length fun n => sq (elt l n) := by
  conv_lhs => rw [eq_tab_elt l, tab, List.map_map]
  exact congrArg List.sum (List.map_congr_left fun n _ => pow_two _)

section
variable {P : Profile} (hP : P.Wf) {c : Nat × Bool} (hc : c.1 < P.cbsz)
include hP hc

theorem length_cb_row : (P.cb.getD c.1 []).length = P.vdim := by
  obtain ⟨hlen, hrows⟩ := hP.tables.cb
  have hlt : c.1 < P.cb.length := hlen ▸ hc
  rw [List.getD_eq_getElem _ _ hlt]
  exact hrows _ (List.getElem_mem hlt)

/-- A candidate's contribution is its row times its sign and the gain (R316). -/
theorem contribution_eq_map (gq : Rat) :
    contribution P gq c = (P.cb.getD c.1 []).map (signOf c.2 * gq * ·) := by
  conv_rhs => rw [eq_tab_elt (P.cb.getD c.1 []), length_cb_row hP hc, tab, List.map_map]
  rfl

theorem elt2_zeroStateResponses (f : List Rat) (n : Nat) :
    elt2 (zeroStateResponses P f) c.1 n = elt (zsrFrom P f [] (P.cb.getD c.1 [])) n := by
  have hlt : c.1 < P.cb.length := hP.tables.cb.1 ▸ hc
  simp [elt2, zeroStateResponses, hlt]

/-- The search's score of a candidate is the energy of the noise that its commit pass leaves (R314, R317). -/
theorem nfCommit_energy {q : NfParams} {m : NfMem} (hin : LagsInside P q m) (hpp : P.minpp ≤ q.pp) {dv : List Rat}
    (hdv : dv.length = P.vdim) (gq : Rat) :
    ((nfCommit P q m dv gq c).1.map fun x => x ^ 2).sum
      = excScore P (zeroInputResponse P q m dv) (zeroStateResponses P q.f) gq c := by
  have hrow := length_cb_row hP hc
  have hlag : P.vdim < q.pp := hP.dims.vdim_lt_minpp.trans hpp
  have hlen : (nfCommit P q m dv gq c).1.length = P.vdim := by
    rw [nfCommit, (nfRun_lengths P q m _).1, List.length_zip, length_contribution, hdv, min_self]
  rw [sum_map_sq, hlen]
  refine sumTo_congr fun n hn => congrArg sq ?_
  have hexact := (passesDiffer_refl (signOf c.2 * gq) m).elt_nfRun hin (hdv.trans hrow.symm)
    (by rw [List.length_nil, hrow]; omega) (hn.trans_eq hrow.symm)
  rw [List.length_nil, Nat.zero_add, ← contribution_eq_map hP hc, ← elt2_zeroStateResponses hP hc] at hexact
  exact hexact

end

theorem excIndex_eq_toNat (P : Profile) (c : Nat × Bool) : excIndex P c = c.1 + P.cbsz * c.2.toNat := by
  obtain ⟨j, neg⟩ := c
  cases neg <;> rfl

/-- Settles O51: the search minimises its score in R15's order, and the score is the commit pass's energy. -/
theorem excitationSearchExhaustive : Obligations.ExcitationSearchExhaustive := by
  intro P q m dv gq hP hdv hmin hmax hst hlt hnf energy
  have hin : LagsInside P q m := ⟨hst.ge, by omega, by omega⟩
  have henergy : ∀ c : Nat × Bool, c.1 < P.cbsz →
      energy c = excScore P (zeroInputResponse P q m dv) (zeroStateResponses P q.f) gq c :=
    fun c hc => nfCommit_energy hP hc hin hmin hdv gq
  obtain ⟨-, -, hsearch⟩ := searchTieBreak
  obtain ⟨hrow, hleast⟩ := hsearch P (zeroInputResponse P q m dv) (zeroStateResponses P q.f) gq (cbsz_pos hP)
  refine ⟨_, hrow, congrArg (·, _) (excIndex_eq_toNat P _), fun j hj neg => ?_⟩
  rw [henergy _ hrow, henergy (j, neg) hj]
  exact hleast j hj neg

end Sys2Proof.Machine
end

section
/-! PROOFS, part 16. The synthesis engine (`46_synthesis.md`): the exponent choice through the integer logarithm of the
peak, the retry loop as a downward search (R345), and the silent frame stage by stage. -/

namespace Sys2Proof.Machine

/-! ### The exponent choice -/

/-- `headroom` is R344's largest `k`: the shifts at which the peak stays below `2^14` are those up to it. -/
theorem mul_zpow_lt_iff_le_headroom {peak : Nat} (h : 0 < peak) (k : Int) :
    (peak : Rat) * (2 : Rat) ^ k < 2 ^ 14 ↔ k ≤ headroom peak := by
  have hpeak : (0 : Rat) < peak := by exact_mod_cast h
  have hbound : (2 : Rat) ^ 14 / 2 ^ k = ((2 : Nat) : Rat) ^ (14 - k) := by
    rw [Nat.cast_ofNat, zpow_sub₀ two_ne_zero]
    norm_cast
  rw [← lt_div_iff₀ (by positivity), hbound, Int.lt_zpow_iff_log_lt one_lt_two hpeak, Int.log_natCast, headroom,
    Nat.log2_eq_log_two]
  omega

/-- The exponent of the frame before the retry loop (R344). -/
theorem add_chooseDelta (P : Profile) (sexp : Int) (peak : Nat) :
    sexp + chooseDelta P sexp peak
      = clamp (if peak = 0 then P.sexpMax else sexp + headroom peak) P.sexpMin P.sexpMax := by
  rw [chooseDelta, add_sub_cancel, add_ite, add_sub_cancel]

theorem sexpMin_le_sexpMax_of_wf {P : Profile} (hP : P.Wf) : P.sexpMin ≤ P.sexpMax :=
  hP.synth.sexpMin_le.trans hP.synth.le_sexpMax

/-- A trial pass of peak 0 moves the exponent to `SEXP_MAX` (R344). -/
theorem add_chooseDelta_zero {P : Profile} (hP : P.Wf) (sexp : Int) : sexp + chooseDelta P sexp 0 = P.sexpMax := by
  rw [add_chooseDelta, if_pos rfl, clamp_of_mem (sexpMin_le_sexpMax_of_wf hP) le_rfl]

/-- Settles O54: the largest `k` is the headroom of the peak. -/
theorem exponentChoice : Obligations.ExponentChoice := by
  intro P sexp peak hP e
  refine ⟨chooseDelta_mem (sexpMin_le_sexpMax_of_wf hP) sexp peak, ?silent,
    fun hpos => ⟨headroom peak, ?below, ?largest, ?clamped⟩⟩
  case silent =>
    rintro rfl
    exact add_chooseDelta_zero hP sexp
  case below => exact (mul_zpow_lt_iff_le_headroom hpos _).2 le_rfl
  case largest => exact fun j => (mul_zpow_lt_iff_le_headroom hpos j).1
  case clamped => exact (add_chooseDelta P sexp peak).trans (by rw [if_neg hpos.ne', clamp])

/-! ### The 16-bit shift -/

/-- A left shift without overflow is exact (R19). -/
theorem shl16_of_not_overflow {v k : Int} (hk : 0 ≤ k) (h : (shl16 v k).2 = false) :
    (shl16 v k).1 = v * 2 ^ k.toNat := by
  rw [shl16, if_pos hk] at h ⊢
  exact (not_not.1 (of_decide_eq_false h)).symm

theorem shl16_overflow_of_neg (v : Int) {k : Int} (hk : k < 0) : (shl16 v k).2 = false := by
  rw [shl16, if_neg (by omega)]

/-- A 16-bit value stays in range at shift 0. -/
theorem shl16_overflow_zero {v : Int} (h : -32768 ≤ v ∧ v ≤ 32767) : (shl16 v 0).2 = false := by
  simp [shl16, sat16, clamp_of_mem h.1 h.2]

/-- Zero stays zero at every shift. -/
@[simp] theorem shl16_zero (k : Int) : shl16 0 k = (0, false) := by
  rw [shl16]
  split_ifs
  · rw [zero_mul]
    rfl
  · rw [Int.zero_ediv]

/-! ### The retry loop -/

theorem shiftOverflows_eq_false_iff {m : SynMem} {k : Int} :
    shiftOverflows m k = false
      ↔ (∀ v ∈ m.st, (shl16 v k).2 = false) ∧ (shl16 m.y1 k).2 = false ∧ (shl16 m.z1 k).2 = false := by
  simp only [shiftOverflows, Bool.or_eq_false_iff, List.any_eq_false, Bool.not_eq_true, and_assoc]

/-- A shift to the right floors and never overflows (R19). -/
theorem shiftOverflows_of_neg (m : SynMem) {k : Int} (hk : k < 0) : shiftOverflows m k = false :=
  shiftOverflows_eq_false_iff.2
    ⟨fun v _ => shl16_overflow_of_neg v hk, shl16_overflow_of_neg _ hk, shl16_overflow_of_neg _ hk⟩

/-- Where nothing overflows, the memories are rescaled exactly. -/
theorem rescale_of_not_overflow {m : SynMem} {k : Int} (hk : 0 ≤ k) (h : shiftOverflows m k = false) :
    rescale m k = { st := m.st.map (· * 2 ^ k.toNat), y1 := m.y1 * 2 ^ k.toNat, z1 := m.z1 * 2 ^ k.toNat } := by
  obtain ⟨hst, hy, hz⟩ := shiftOverflows_eq_false_iff.1 h
  rw [rescale, shl16_of_not_overflow hk hy, shl16_of_not_overflow hk hz,
    List.map_congr_left fun v hv => shl16_of_not_overflow hk (hst v hv)]

/-- The loop ends at a shift without overflow, at the latest at 0. -/
theorem shiftOverflows_retryDelta {m : SynMem} (h0 : shiftOverflows m 0 = false) (n : Nat) :
    shiftOverflows m (retryDelta m n : Int) = false := by
  induction n with
  | zero => exact h0
  | succ n ih =>
    rw [retryDelta]
    split_ifs with hover
    · exact ih
    · exact Bool.eq_false_of_not_eq_true hover

/-- The loop passes over a shift only when it overflows. -/
theorem shiftOverflows_of_retryDelta_lt {m : SynMem} {n j : Nat} (hj : retryDelta m n < j) (hjn : j ≤ n) :
    shiftOverflows m (j : Int) = true := by
  induction n with
  | zero => exact absurd (hj.trans_le hjn) (Nat.not_lt_zero _)
  | succ n ih =>
    rw [retryDelta] at hj
    split_ifs at hj with hover
    · rcases Nat.le_succ_iff.1 hjn with hle | rfl
      · exact ih hj hle
      · exact hover
    · omega

theorem validDelta_of_pos (m : SynMem) {delta : Int} (h : 0 < delta) :
    validDelta m delta = (retryDelta m delta.toNat : Int) :=
  if_pos h

theorem validDelta_of_nonpos (m : SynMem) {delta : Int} (h : delta ≤ 0) : validDelta m delta = delta :=
  if_neg h.not_gt

theorem validDelta_le (m : SynMem) (delta : Int) : validDelta m delta ≤ delta := by
  rcases lt_or_ge 0 delta with hpos | hneg
  · have := retryDelta_le m delta.toNat
    rw [validDelta_of_pos m hpos]
    omega
  · exact (validDelta_of_nonpos m hneg).le

/-- A shift that the loop passes over overflows (R345). -/
theorem shiftOverflows_of_validDelta_lt {m : SynMem} {delta j : Int} (hj : validDelta m delta < j) (hjd : j ≤ delta) :
    shiftOverflows m j = true := by
  rcases lt_or_ge 0 delta with hpos | hneg
  · rw [validDelta_of_pos m hpos] at hj
    obtain ⟨i, rfl⟩ := Int.eq_ofNat_of_zero_le (show 0 ≤ j by omega)
    exact shiftOverflows_of_retryDelta_lt (n := delta.toNat) (by omega) (by omega)
  · rw [validDelta_of_nonpos m hneg] at hj
    omega

/-- At the end of the loop no memory overflows, if none does as it stands. -/
theorem shiftOverflows_validDelta {m : SynMem} (h0 : shiftOverflows m 0 = false) (delta : Int) :
    shiftOverflows m (validDelta m delta) = false := by
  rcases lt_trichotomy 0 delta with hpos | rfl | hneg
  · rw [validDelta_of_pos m hpos]
    exact shiftOverflows_retryDelta h0 _
  · exact h0
  · rw [validDelta_of_nonpos m hneg.le]
    exact shiftOverflows_of_neg m hneg

/-- Settles O55: the loop starts from memories that do not overflow at shift 0, and passes over a shift only when one
does. -/
theorem retryLoop : Obligations.RetryLoop := by
  intro m delta hy hz hst k
  have h0 : shiftOverflows m 0 = false :=
    shiftOverflows_eq_false_iff.2
      ⟨fun v hv => shl16_overflow_zero (hst v hv), shl16_overflow_zero hy, shl16_overflow_zero hz⟩
  have hend : shiftOverflows m k = false := shiftOverflows_validDelta h0 delta
  refine ⟨validDelta_le m delta, hend, validDelta_of_nonpos m, fun hpos => ?_,
    fun j => shiftOverflows_of_validDelta_lt, fun hk => ?_⟩
  · exact (Int.natCast_nonneg _).trans_eq (validDelta_of_pos m hpos).symm
  · rw [rescale_of_not_overflow hk hend]
    exact ⟨rfl, rfl, rfl⟩

/-! ### The silent frame -/

@[simp] theorem rndShr_zero (k : Int) : rndShr 0 k = 0 := by
  rw [rndShr]
  split_ifs with hpos hzero
  · have hlt : (2 : Int) ^ (k - 1).toNat < 2 ^ k.toNat := pow_lt_pow_right₀ one_lt_two (by omega)
    rw [zero_add, Int.ediv_eq_zero_of_lt (by positivity) hlt]
  · rfl
  · rw [shl32, if_pos (by omega), zero_mul]
    rfl

@[simp] theorem tofix_zero (q : Int) : tofix 0 q 16 = 0 := by
  rw [tofix, zero_mul, round, show ⌊(0 : Rat) + 1 / 2⌋ = 0 by norm_num]
  rfl

@[simp] theorem sat16_zero : sat16 0 = 0 := rfl

@[simp] theorem sub32_zero_zero : (sub32 0 0).1 = 0 := rfl

@[simp] theorem add32_zero_zero : (add32 0 0).1 = 0 := rfl

@[simp] theorem mul16_zero (a : Int) : mul16 a 0 = 0 := mul_zero a

theorem push_replicate {α : Type} (n : Nat) (x : α) : push (List.replicate n x) x = List.replicate n x := by
  rw [push, ← List.replicate_succ', List.drop_replicate, Nat.add_sub_cancel]

theorem pastInt_replicate_zero {n t : Nat} (h0 : 1 ≤ t) (h : t ≤ n) : pastInt (List.replicate n 0) t = 0 := by
  rw [pastInt, lag, if_neg (by omega), List.length_replicate, if_neg (by omega),
    List.getElem?_replicate_of_lt (by omega), Option.getD_some]

/-- The accumulator over a memory of zeros, all of whose lags lie inside it, stays 0. -/
theorem stAcc_zero (q : Nat) (aqi : List Int) : stAcc q aqi (List.replicate aqi.length 0) 0 = 0 := by
  rw [stAcc, zero_mul]
  refine foldl_range_induct (Q := (· = 0)) rfl fun acc i hi hacc => ?_
  rw [hacc, pastInt_replicate_zero (by omega) hi, mul16_zero, sub32_zero_zero]

/-- The short-term filter of zeros on a memory of zeros (R342). -/
theorem stFilter_zeros (q : Nat) (aqi : List Int) (n : Nat) :
    stFilter q aqi (List.replicate aqi.length 0) (List.replicate n 0)
      = { y := List.replicate n 0, yraw := List.replicate n 0, mem := List.replicate aqi.length 0 } := by
  induction n with
  | zero => rfl
  | succ n ih =>
    rw [List.replicate_succ, stFilter, stAcc_zero, rndShr_zero, sat16_zero, push_replicate, ih]

/-- The de-emphasis of zeros on memories of zero (R346). -/
theorem deemph_zeros (P : Profile) (n : Nat) : deemph P 0 0 (List.replicate n 0) = (List.replicate n 0, 0, 0) := by
  induction n with
  | zero => rfl
  | succ n ih =>
    simp only [List.replicate_succ, deemph, zero_mul, mul16_zero, sub32_zero_zero, add32_zero_zero, rndShr_zero,
      sat16_zero, ih]

theorem excFixed_zeros (n : Nat) (sexp : Int) : excFixed (List.replicate n 0) sexp = List.replicate n 0 := by
  rw [excFixed, List.map_replicate, tofix_zero]

theorem peakOf_zeros (n : Nat) : peakOf (List.replicate n 0) = 0 := by
  induction n with
  | zero => rfl
  | succ n ih => exact ih

/-- The engine's memories at zero. -/
def silentMem (n : Nat) : SynMem := { st := List.replicate n 0, y1 := 0, z1 := 0 }

/-- The context of zero memories holds `silentMem`. -/
theorem toMem_zeros (n : Nat) (sexp : Int) :
    SynState.toMem { stsym := List.replicate n 0, deY1 := 0, deZ1 := 0, sexp := sexp } = silentMem n := by
  rw [SynState.toMem, List.map_replicate]
  rfl

theorem toState_silentMem (n : Nat) (sexp : Int) :
    (silentMem n).toState sexp = { stsym := List.replicate n 0, deY1 := 0, deZ1 := 0, sexp := sexp } := by
  rw [SynMem.toState, silentMem, List.map_replicate]
  rfl

theorem shiftOverflows_silentMem (n : Nat) (k : Int) : shiftOverflows (silentMem n) k = false := by
  rw [shiftOverflows_eq_false_iff]
  exact ⟨fun v hv => by rw [List.eq_of_mem_replicate hv, shl16_zero], by rw [silentMem, shl16_zero],
    by rw [silentMem, shl16_zero]⟩

theorem rescale_silentMem (n : Nat) (k : Int) : rescale (silentMem n) k = silentMem n := by
  simp only [rescale, silentMem, List.map_replicate, shl16_zero]

/-- Memories that overflow at no shift are shifted by all of `delta`: the loop passes over no shift. -/
theorem validDelta_eq_of_never_overflows {m : SynMem} (h : ∀ k, shiftOverflows m k = false) (delta : Int) :
    validDelta m delta = delta := by
  refine (validDelta_le m delta).antisymm (not_lt.1 fun hlt => ?_)
  exact Bool.false_ne_true ((h delta).symm.trans (shiftOverflows_of_validDelta_lt hlt le_rfl))

/-- The shift of a silent frame takes the exponent to `SEXP_MAX` (R343 to R345). -/
theorem add_frameDelta_silent {P : Profile} (hP : P.Wf) {s : SynState} {aqi : List Int} (n : Nat)
    (hs : s.toMem = silentMem aqi.length) :
    s.sexp + frameDelta P s aqi (List.replicate n 0) = P.sexpMax := by
  rw [frameDelta, hs, silentMem, excFixed_zeros, stFilter_zeros, peakOf_zeros, ← silentMem,
    validDelta_eq_of_never_overflows (shiftOverflows_silentMem _), add_chooseDelta_zero hP]

/-- Settles O56: each stage of the engine keeps zeros, and a peak of 0 sends the exponent to its top. -/
theorem silenceStaysSilent : Obligations.SilenceStaysSilent := by
  intro P sexp aq n hP
  have hlen : (aqFixed P aq).length = P.lpco := by rw [aqFixed, tab, List.length_map, List.length_range]
  have hmem := hlen ▸ toMem_zeros P.lpco sexp
  have hexp := add_frameDelta_silent hP n hmem
  rw [← toState_silentMem _ P.sexpMax, ← hlen]
  simp only [synthesize, hmem, hexp, rescale_silentMem, excFixed_zeros]
  simp only [silentMem, stFilter_zeros, deemph_zeros, List.map_replicate, rndShr_zero, sat16_zero]

end Sys2Proof.Machine
end

section
/-! PROOFS, part 17. The two errors and the interrupt line (`60_exceptions.md`): the rejected `CMD` write (R401), the
rejected DECODE (R402), when an error bit falls and `ERRINFO` changes (R404), and when the line moves (R405). -/

namespace Sys2Proof.Machine

/-! ### Rejections -/

/-- An idle block rejects a word that does not decode (R401). -/
theorem perform_write_cmd_illegal {s : State} (hidle : s.busy = false) {w : Word} {e : DecodeError}
    (he : decodeWord w = .error e) :
    perform s (.write .w32 0x000 w) = .next { s.rejectCmd w with answer := .written } := by
  have hc : checkAccess Config.profile .w32 0x000 = .ok .cmd := checkAccess_register _ (by norm_num) rfl
  simp [perform, busWrite, hc, State.writeCmd, hidle, he]

/-- Settles O8: a busy block rejects every word, an idle one those that do not decode. -/
theorem commandRejected : Obligations.CommandRejected := by
  intro s w hcase
  cases hb : s.busy with
  | true =>
    rw [perform_write_cmd_busy hb, State.rejectCmd, hb]
    rfl
  | false =>
    have hillegal : w.extractLsb' 4 28 ≠ 0 ∨ 6 ≤ (w.extractLsb' 0 4).toNat := by simpa [hb, or_comm] using hcase
    obtain ⟨e, he⟩ := (illegalWordsRefused w).2 hillegal
    rw [perform_write_cmd_illegal hb he, State.rejectCmd, hb]
    rfl

/-- A DECODE of an IndexSet whose first slot out of range is `k0` is rejected there (R147, R402). -/
theorem exec_decode_rejected {s : State} {ws : List Word} {k0 : Nat} (h : HoldsSlots Config.profile s.mem ws)
    (hbad : firstBadSlot Config.profile ws = some k0) : exec .decode s = .next (s.rejectIdx k0) := by
  simp only [exec, execDecode, readIdx_ok.2 h, hbad]

/-- Settles O28: the index check finds the smallest slot out of range. -/
theorem decodeRejected : Obligations.DecodeRejected := fun _ _ _ h0 hholds hbad hbefore =>
  exec_decode_rejected hholds ((firstBadSlot_some hholds.length).2 ⟨h0, hbad, hbefore⟩)

/-! ### The error bits and `ERRINFO` -/

/-- What a step can do to the error bits and `ERRINFO` (R38, R404): keep them, reset them with everything else, clear
the bits a `STATUS` write names, reject a `CMD` write, reject a DECODE. -/
inductive ErrorStep (s t : State) : Prop where
  | kept (errCmd : t.errCmd = s.errCmd) (errIdx : t.errIdx = s.errIdx) (errinfo : t.errinfo = s.errinfo)
  | powerOn (rest : List HostEvent) (inputs : s.inputs = .powerOn :: rest)
  | statusWrite (w : Word) (rest : List HostEvent) (inputs : s.inputs = .write .w32 0x004 w :: rest)
      (errCmd : t.errCmd = (s.errCmd && !w.getLsbD 2)) (errIdx : t.errIdx = (s.errIdx && !w.getLsbD 3))
      (errinfo : t.errinfo = s.errinfo)
  | cmdRejected (w : Word) (rest : List HostEvent) (inputs : s.inputs = .write .w32 0x000 w :: rest)
      (errCmd : t.errCmd = true) (errIdx : t.errIdx = s.errIdx)
  | idxRejected (cmd : s.cmd = some (encode .decode)) (wait : s.wait = 0) (errCmd : t.errCmd = s.errCmd)
      (errIdx : t.errIdx = true) (done : t.done = s.done)

/-- Only a rejected DECODE touches the errors among the commands (R402). -/
theorem exec_errorStep {s t : State} {i : Instr} (hcmd : s.cmd = some (encode i)) (hwait : s.wait = 0)
    (h : exec i s = .next t) : ErrorStep s t := by
  rcases exec_next h with ⟨-, rfl⟩ | ⟨-, rfl⟩ | ⟨-, rfl⟩ | ⟨-, pcm, -, rfl⟩ | ⟨rfl, ws, -, hcheck⟩ | ⟨-, rfl⟩
  · exact .kept rfl rfl rfl
  · exact .kept rfl rfl rfl
  · exact .kept rfl rfl rfl
  · exact .kept rfl rfl rfl
  · rcases hcheck with ⟨k0, -, rfl⟩ | ⟨-, rfl⟩
    · exact .idxRejected hcmd hwait rfl rfl rfl
    · exact .kept rfl rfl rfl
  · exact .kept rfl rfl rfl

/-- An accepted `CMD` access is the 32-bit one at offset 0 (R81). -/
theorem eq_of_checkAccess_cmd {P : Profile} {width : Width} {a : Nat} (h : checkAccess P width a = .ok .cmd) :
    width = .w32 ∧ a = 0x000 := by
  obtain ⟨hw, h4, -, hreg⟩ := checkAccess_register_inv h (by simp)
  exact ⟨hw, registerAt_eq_cmd hreg.symm h4⟩

/-- An accepted `STATUS` access is the 32-bit one at offset 4 (R81). -/
theorem eq_of_checkAccess_status {P : Profile} {width : Width} {a : Nat} (h : checkAccess P width a = .ok .status) :
    width = .w32 ∧ a = 0x004 := by
  obtain ⟨hw, h4, -, hreg⟩ := checkAccess_register_inv h (by simp)
  exact ⟨hw, registerAt_eq_status hreg.symm h4⟩

/-- Among the events, power-on reset, a `STATUS` write and a rejected `CMD` write touch the errors (R34, R401, R430). -/
theorem perform_errorStep {s t : State} {e : HostEvent} {rest : List HostEvent} {n : Nat} (hin : s.inputs = e :: rest)
    (h : perform { s with wait := n, inputs := rest } e = .next t) : ErrorStep s t := by
  cases e with
  | powerOn => exact .powerOn rest hin
  | read width a =>
    rw [(readsChangeNothing _ _ _ _ h).1]
    exact .kept rfl rfl rfl
  | write width a w =>
    rcases busWrite_next h with ⟨hc, rfl⟩ | ⟨hc, rfl⟩ | ⟨-, rfl⟩ | rfl | ⟨-, -, rfl⟩
    · obtain ⟨rfl, rfl⟩ := eq_of_checkAccess_cmd hc
      rcases writeCmd_cases { s with wait := n, inputs := rest } w with ⟨-, -, heq⟩ | heq <;> rw [heq]
      · exact .kept rfl rfl rfl
      · exact .cmdRejected w rest hin rfl rfl
    · obtain ⟨rfl, rfl⟩ := eq_of_checkAccess_status hc
      exact .statusWrite w rest hin rfl rfl rfl
    · exact .kept rfl rfl rfl
    · exact .kept rfl rfl rfl
    · exact .kept rfl rfl rfl

theorem step_errorStep {s t : State} (h : step s = .next t) : ErrorStep s t := by
  rcases step_next h with ⟨w, i, hcmd, hwait, hi, hexec⟩ | ⟨n, -, ⟨-, rfl⟩ | ⟨e, rest, hin, hperf⟩⟩
  · rw [decodeWord_ok_iff.1 hi] at hcmd
    exact exec_errorStep hcmd hwait hexec
  · exact .kept rfl rfl rfl
  · exact perform_errorStep hin hperf

/-- Settles O20: each thing a step can do to the errors, against the three clauses. -/
theorem errorBitsSticky : Obligations.ErrorBitsSticky := by
  intro s t h
  cases step_errorStep h with
  | kept hcmd hidx hinfo =>
    exact ⟨fun hset hclear => by simp [hcmd, hset] at hclear, fun hset hclear => by simp [hidx, hset] at hclear,
      fun hne => absurd hinfo hne⟩
  | powerOn rest hin => exact ⟨fun _ _ => ⟨rest, .inl hin⟩, fun _ _ => ⟨rest, .inl hin⟩, fun _ => .inl ⟨rest, hin⟩⟩
  | statusWrite w rest hin hcmd hidx hinfo =>
    refine ⟨fun hset hclear => ⟨rest, .inr ⟨w, hin, ?_⟩⟩, fun hset hclear => ⟨rest, .inr ⟨w, hin, ?_⟩⟩,
      fun hne => absurd hinfo hne⟩
    · simpa [hset, hclear] using hcmd
    · simpa [hset, hclear] using hidx
  | cmdRejected w rest hin hcmd hidx =>
    exact ⟨fun _ hclear => by simp [hcmd] at hclear, fun hset hclear => by simp [hidx, hset] at hclear,
      fun _ => .inr (.inl ⟨w, rest, hin, hcmd⟩)⟩
  | idxRejected hdec hwait hcmd hidx hdone =>
    exact ⟨fun hset hclear => by simp [hcmd, hset] at hclear, fun _ hclear => by simp [hidx] at hclear,
      fun _ => .inr (.inr ⟨hdec, hwait, hidx, hdone⟩)⟩

/-! ### The interrupt line -/

/-- Settles O11: the line is a function of the pending bits and the enables, which a read keeps. -/
theorem interruptDrops : Obligations.InterruptDrops := by
  refine ⟨fun s t h => ?clrst, fun s t h => ?inten, fun s t width offset h => ?read⟩
  case clrst =>
    rw [HostEvent.clrst, perform_write_status] at h
    cases h
    simp [irq]
  case inten =>
    rw [perform_write_inten] at h
    cases h
    simp [irq]
  case read =>
    rw [(readsChangeNothing _ _ _ _ h).1]
    rfl

end Sys2Proof.Machine
end

section
/-! PROOFS, part 18. The concealment machine (`47_plc.md`): its noise generator in closed form (R372), the energy of the
scaled noise (R373), the fade over a run of frames (R379, R381), the memories a CONCEAL updates (R374, R377, R378), and
the transitions of the two states (R370, R371). -/

namespace Sys2Proof.Machine

/-! ### The noise generator -/

/-- The generator's state after a run is the last of its steps (R372). -/
theorem lcgRun_state (P : Profile) (n : Nat) (idum : Word) : (lcgRun P n idum).2 = (lcgNext P)^[n] idum := by
  induction n generalizing idum with
  | zero => rfl
  | succ n ih => rw [Function.iterate_succ_apply, ← ih, lcgRun]

/-- Sample `k` of a run is the high half of the state after step `k + 1` (R372). -/
theorem lcgRun_sample (P : Profile) {n k : Nat} (hk : k < n) (idum : Word) :
    (lcgRun P n idum).1.getD k 0 = noiseSample ((lcgNext P)^[k + 1] idum) := by
  induction n generalizing k idum with
  | zero => exact absurd hk (Nat.not_lt_zero k)
  | succ n ih =>
    cases k with
    | zero => rfl
    | succ k =>
      rw [Function.iterate_succ_apply, ← ih (Nat.lt_of_succ_lt_succ hk), lcgRun, List.getD_cons_succ]

/-- Horner's rule for the geometric sum of the generator's multiplier. -/
theorem sum_map_pow_range_succ (a n : Nat) :
    ((List.range (n + 1)).map fun k => a ^ k).sum = a * ((List.range n).map fun k => a ^ k).sum + 1 := by
  rw [List.range_succ_eq_map, List.map_cons, List.sum_cons, List.map_map, ← List.sum_map_mul_left, pow_zero, add_comm]
  simp only [Function.comp_def, Nat.succ_eq_add_one, pow_succ, mul_comm]

/-- The steps of the generator in closed form (R372). -/
theorem iterate_lcgNext (P : Profile) (n : Nat) (idum : Word) :
    (lcgNext P)^[n] idum = BitVec.ofNat 32 (P.lcgA.toNat ^ n * idum.toNat
      + P.lcgC.toNat * ((List.range n).map fun k => P.lcgA.toNat ^ k).sum) := by
  induction n with
  | zero => simp
  | succ n ih =>
    set S := ((List.range n).map fun k => P.lcgA.toNat ^ k).sum
    have hnext : P.lcgA.toNat ^ (n + 1) * idum.toNat + P.lcgC.toNat * (P.lcgA.toNat * S + 1)
        = P.lcgA.toNat * (P.lcgA.toNat ^ n * idum.toNat + P.lcgC.toNat * S) + P.lcgC.toNat := by ring
    rw [Function.iterate_succ_apply', ih, sum_map_pow_range_succ, hnext, lcgNext]
    simp only [BitVec.ofNat_add, BitVec.ofNat_mul, BitVec.ofNat_toNat, BitVec.setWidth_eq]

/-- Settles O36: the generator's steps, and the samples of their states. -/
theorem noiseGenerator : Obligations.NoiseGenerator := by
  intro P idum n
  refine ⟨by rw [lcgRun_state, iterate_lcgNext], length_lcgRun P n idum, fun k hk => ?_⟩
  rw [lcgRun_sample P hk, lcgRun_state, noiseSample]

/-! ### The scaled noise -/

/-- The scaling bias, the bounds the other way round (R373). -/
theorem plcScale_eq {P : Profile} (hP : P.PlcOk) (per : Rat) :
    plcScale P per = max P.scplcMin (min P.scplcMax (P.scplcA + P.scplcB * per)) := by
  rw [plcScale, clamp, min_comm, max_comm, max_min_distrib_left, max_eq_right hP.scplcMin_le]

/-- Scaling multiplies the energy by the square of the gain. -/
theorem energy_scaledNoise (gain : Rat) (noise : List Int) :
    ((scaledNoise gain noise).map fun c => c ^ 2).sum = gain ^ 2 * noiseEnergy noise := by
  rw [scaledNoise, noiseEnergy, List.map_map, ← List.sum_map_mul_left]
  refine congrArg List.sum (List.map_congr_left fun v _ => ?_)
  simp only [Function.comp_apply, sq]
  ring

/-- The energy of the scaled noise, through the root of R373. -/
theorem energy_plcGain {P : Profile} (hP : P.PlcOk) (N : Num) (eLast per : Rat) {noise : List Int}
    (hen : 0 < noiseEnergy noise) :
    ((scaledNoise (plcGain P N eLast per (noiseEnergy noise)) noise).map fun c => c ^ 2).sum
      = N.sqrt (eLast / noiseEnergy noise) ^ 2 * (max P.scplcMin (min P.scplcMax (P.scplcA + P.scplcB * per))) ^ 2
        * noiseEnergy noise := by
  rw [energy_scaledNoise, plcGain, if_pos hen, plcScale_eq hP, mul_pow]

/-- Where the root is exact, the scaled noise has the energy asked for (R373). -/
theorem energy_plcGain_of_exact {P : Profile} (hP : P.PlcOk) {N : Num} {eLast : Rat} (per : Rat) {noise : List Int}
    (hen : 0 < noiseEnergy noise)
    (hroot : N.sqrt (eLast / noiseEnergy noise) ^ 2 = eLast / noiseEnergy noise) :
    ((scaledNoise (plcGain P N eLast per (noiseEnergy noise)) noise).map fun c => c ^ 2).sum
      = eLast * (max P.scplcMin (min P.scplcMax (P.scplcA + P.scplcB * per))) ^ 2 := by
  rw [energy_plcGain hP N eLast per hen, hroot, mul_right_comm, div_mul_cancel₀ _ hen.ne']

/-- Settles O34: the gain squared times the energy, and a gain of 0 for noise without energy. -/
theorem noiseEnergyScaling : Obligations.NoiseEnergyScaling := by
  intro P N hP hN noise eLast per en cn sc
  refine ⟨energy_plcGain hP.plc N eLast per, fun r hen hr hE => ?exact, fun hen c hc => ?silent⟩
  case exact =>
    have hquot : eLast / en = r * r := by rw [hE, mul_div_cancel_right₀ _ hen.ne', pow_two]
    exact energy_plcGain_of_exact hP.plc per hen (by rw [hquot, hN.sqrt_sq r hr, pow_two])
  case silent =>
    obtain ⟨v, -, rfl⟩ := List.mem_map.1 hc
    rw [plcGain, if_neg hen.not_gt, zero_mul]

/-! ### What a CONCEAL keeps, and the fade -/

theorem fade_of_hold_lt {P : Profile} {d : Dec} (h : P.holdPlc < d.cfecount) :
    fade P d = { d with bqLast := d.bqLast.map (P.attnTaps * ·), eLast := P.attnE * d.eLast } := if_pos h

theorem fade_of_le_hold {P : Profile} {d : Dec} (h : d.cfecount ≤ P.holdPlc) : fade P d = d := if_neg h.not_gt

/-- The fade touches the taps and the innovation energy only (R379). -/
theorem fade_frame (P : Profile) (d : Dec) :
    fade P d = { d with bqLast := (fade P d).bqLast, eLast := (fade P d).eLast } := by
  unfold fade
  split <;> rfl

/-- The scaled noise of a CONCEAL (R373). -/
def concealNoise (P : Profile) (N : Num) (d : Dec) : List Rat :=
  let noise := (lcgRun P P.frsz d.idum).1
  scaledNoise (plcGain P N d.eLast d.per (noiseEnergy noise)) noise

/-- The gain state of a CONCEAL after `k` subframes (R378). -/
def concealGainAt (P : Profile) (N : Num) (d : Dec) (k : Nat) : GainState :=
  (List.range k).foldl (fun g s => gainConceal P N g (subframeEnergy P (concealNoise P N d) s)) d.gain

/-- The context of a CONCEAL before the fade (R371 to R378). -/
def concealUpdate (P : Profile) (N : Num) (d : Dec) : Dec :=
  let lt := ltSynth d.bqLast d.ppLast d.ltsym (concealNoise P N d)
  { d with
    cfecount := cfeNext P d.cfecount
    idum := (lcgRun P P.frsz d.idum).2
    ltsym := lt.2
    syn := (synthesize P d.syn (lsp2a P N d.lsplast) lt.1).2
    lsppm := lspHold P d.lsppm d.lsplast
    gain := concealGainAt P N d P.nsf }

/-- CONCEAL is its updates, then the fade (R379). -/
theorem concealFrame_context (P : Profile) (N : Num) (d : Dec) :
    (concealFrame P N d).2 = fade P (concealUpdate P N d) := rfl

/-- The context of a CONCEAL, but for the taps and the innovation energy (R376, R380). -/
theorem concealFrame_frame (P : Profile) (N : Num) (d : Dec) :
    (concealFrame P N d).2 = { concealUpdate P N d with
      bqLast := (concealFrame P N d).2.bqLast, eLast := (concealFrame P N d).2.eLast } := fade_frame P _

/-- Through the hold threshold a CONCEAL keeps the taps and the innovation energy (R379). -/
theorem concealFrame_hold {P : Profile} {N : Num} {d : Dec} (h : (concealFrame P N d).2.cfecount ≤ P.holdPlc) :
    (concealFrame P N d).2.bqLast = d.bqLast ∧ (concealFrame P N d).2.eLast = d.eLast := by
  rw [concealFrame_context, fade_cfecount] at h
  rw [concealFrame_context, fade_of_le_hold h]
  exact ⟨rfl, rfl⟩

/-- Above the hold threshold a CONCEAL fades them (R379). -/
theorem concealFrame_fade {P : Profile} {N : Num} {d : Dec} (h : P.holdPlc < (concealFrame P N d).2.cfecount) :
    (concealFrame P N d).2.bqLast = d.bqLast.map (P.attnTaps * ·)
      ∧ (concealFrame P N d).2.eLast = P.attnE * d.eLast := by
  rw [concealFrame_context, fade_cfecount] at h
  rw [concealFrame_context, fade_of_hold_lt h]
  exact ⟨rfl, rfl⟩

/-- A CONCEAL leaves in `D` the context of its pipeline (R148). -/
theorem exec_conceal_dec {s t : State} (h : exec .conceal s = .next t) :
    t.dec = (concealFrame Config.profile Config.num s.dec).2 := by
  cases h
  rfl

/-- Settles O32: both sides of the threshold, and the fields that no update names. -/
theorem concealFade : Obligations.ConcealFade := by
  intro s t h
  rw [exec_conceal_dec h]
  refine ⟨?kept, concealFrame_fade, concealFrame_hold⟩
  rw [concealFrame_frame]
  exact ⟨rfl, rfl, rfl, rfl, rfl, rfl⟩

/-! ### A run of concealed frames -/

/-- What a run of `n` CONCEALs from a Normal context has left (R379, R381). -/
structure Concealed (P : Profile) (d : Dec) (n : Nat) (dn : Dec) : Prop where
  cfecount : dn.cfecount = min n P.cfeMax
  per : dn.per = d.per
  eLast : dn.eLast = P.attnE ^ (n - P.holdPlc) * d.eLast
  bqLast : dn.bqLast = d.bqLast.map fun b => P.attnTaps ^ (n - P.holdPlc) * b

theorem concealed_zero {P : Profile} {d : Dec} (h : d.cfecount = 0) : Concealed P d 0 d where
  cfecount := by rw [h, Nat.zero_min]
  per := rfl
  eLast := by rw [Nat.zero_sub, pow_zero, one_mul]
  bqLast := by simp only [Nat.zero_sub, pow_zero, one_mul, List.map_id']

/-- One more frame holds or fades as the counter, which has not saturated below the threshold, says (R371, R379). -/
theorem Concealed.succ {P : Profile} (hP : P.PlcOk) (N : Num) {d dn : Dec} {n : Nat} (h : Concealed P d n dn) :
    Concealed P d (n + 1) (concealFrame P N dn).2 := by
  have hcount : (concealFrame P N dn).2.cfecount = min (n + 1) P.cfeMax := by
    rw [concealFrame_cfecount, h.cfecount]
    omega
  have hper : (concealFrame P N dn).2.per = d.per := by
    rw [concealFrame_frame]
    exact h.per
  have hhold := hP.hold_lt
  rcases Nat.lt_or_ge P.holdPlc (n + 1) with hlt | hle
  · obtain ⟨hbq, hE⟩ := concealFrame_fade (N := N) (d := dn) (P := P) (by omega)
    have hexp : n + 1 - P.holdPlc = n - P.holdPlc + 1 := by omega
    refine ⟨hcount, hper, ?_, ?_⟩
    · rw [hE, h.eLast, hexp, pow_succ', mul_assoc]
    · rw [hbq, h.bqLast, List.map_map, hexp]
      simp only [Function.comp_def, pow_succ', mul_assoc]
  · obtain ⟨hbq, hE⟩ := concealFrame_hold (N := N) (d := dn) (P := P) (by omega)
    have hexp : n + 1 - P.holdPlc = n - P.holdPlc := by omega
    exact ⟨hcount, hper, by rw [hE, h.eLast, hexp], by rw [hbq, h.bqLast, hexp]⟩

theorem concealed_iterate {P : Profile} (hP : P.PlcOk) (N : Num) {d : Dec} (h : d.cfecount = 0) (n : Nat) :
    Concealed P d n ((fun c => (concealFrame P N c).2)^[n] d) := by
  induction n with
  | zero => exact concealed_zero h
  | succ n ih =>
    rw [Function.iterate_succ_apply']
    exact ih.succ hP N

/-- Settles O35, by induction on the number of frames. -/
theorem innovationDecay : Obligations.InnovationDecay := by
  intro P N hP _ d n h dn noise sc
  have hrun : Concealed P d n dn := concealed_iterate hP.plc N h n
  refine ⟨hrun.cfecount, hrun.per, hrun.eLast, hrun.bqLast, fun hen hroot => ?_⟩
  rw [energy_plcGain_of_exact hP.plc dn.per hen hroot, hrun.per, hrun.eLast]

/-! ### The transitions -/

/-- The machine is in Concealing where it has counted an erasure (R370). -/
theorem plcMode_eq_concealing_iff {d : Dec} : plcMode d = .concealing ↔ 0 < d.cfecount := by
  unfold plcMode
  split_ifs with h <;> simp [h]

theorem plcMode_of_cfecount_zero {d : Dec} (h : d.cfecount = 0) : plcMode d = .normal := by
  rw [plcMode, if_neg (by omega)]

/-- Settles O31: each event by the counter it leaves. -/
theorem plcTransitions : Obligations.PlcTransitions := by
  refine ⟨fun s t h => ?conceal, fun s ws t hready h => ?decode, fun s ws t hholds hbad h => ?rejected,
    fun s t h => ?resetDec, fun s t h => ?powerOn, fun s => ?status⟩
  case conceal =>
    rw [exec_conceal_dec h, plcMode_eq_concealing_iff]
    exact ⟨concealFrame_cfecount _ _ _, concealFrame_cfecount_pos Config.setup.profileOk.plc _ _⟩
  case decode =>
    obtain rfl := decodeWith_of_exec hready h
    exact ⟨rfl, plcMode_of_cfecount_zero rfl⟩
  case rejected =>
    obtain ⟨k0, hk0⟩ : ∃ k0, firstBadSlot Config.profile ws = some k0 := by
      rw [← Option.ne_none_iff_exists', Ne, firstBadSlot_none hholds.length]
      obtain ⟨k, hk, hout⟩ := hbad
      exact fun hall => hout (hall k hk)
    rw [exec_decode_rejected hholds hk0] at h
    cases h
    exact rejectIdx_dec s k0
  case resetDec | powerOn =>
    cases h
    exact plcMode_of_cfecount_zero rfl
  case status => simp only [statusWord_plc, plcMode_eq_concealing_iff]

/-! ### The memories a CONCEAL updates -/

/-- The `k`-th sample of a run of noise (R372). -/
def noiseAt (P : Profile) (idum : Word) (k : Nat) : Rat := noiseSample ((lcgNext P)^[k + 1] idum)

/-- A run of noise is its samples (R372). -/
theorem lcgRun_noise (P : Profile) (n : Nat) (idum : Word) :
    (lcgRun P n idum).1.map (fun v : Int => (v : Rat)) = tab n (noiseAt P idum) := by
  refine List.ext_getElem (by simp [length_lcgRun]) fun k hk _ => ?_
  have hk' : k < (lcgRun P n idum).1.length := by simpa using hk
  have hsample := lcgRun_sample P (length_lcgRun P n idum ▸ hk') idum
  rw [List.getD_eq_getElem _ _ hk'] at hsample
  simp [tab, noiseAt, hsample]

/-- The energy of a run of noise (R373). -/
theorem noiseEnergy_lcgRun (P : Profile) (n : Nat) (idum : Word) :
    noiseEnergy (lcgRun P n idum).1 = sumTo n fun k => noiseAt P idum k ^ 2 := by
  have hsq : noiseEnergy (lcgRun P n idum).1 = (((lcgRun P n idum).1.map fun v : Int => (v : Rat)).map sq).sum := by
    rw [noiseEnergy, List.map_map]
    rfl
  rw [hsq, lcgRun_noise, tab, List.map_map, sumTo, tab]
  simp only [Function.comp_def, sq, pow_two]

/-- The scaled noise of a CONCEAL, sample by sample (R372, R373). -/
theorem concealNoise_eq (P : Profile) (N : Num) (d : Dec) :
    concealNoise P N d = tab P.frsz fun n =>
      plcGain P N d.eLast d.per (sumTo P.frsz fun k => noiseAt P d.idum k ^ 2) * noiseAt P d.idum n := by
  have hscaled : ∀ gain noise, scaledNoise gain noise = (noise.map fun v : Int => (v : Rat)).map (gain * ·) :=
    fun gain noise => by rw [List.map_map]; rfl
  rw [concealNoise, hscaled, lcgRun_noise, noiseEnergy_lcgRun, tab, List.map_map, tab]
  rfl

theorem length_concealNoise (P : Profile) (N : Num) (d : Dec) : (concealNoise P N d).length = P.frsz := by
  rw [concealNoise_eq, length_tab]

/-- A new error enters the log-gain predictor's memory at the head, and the others move on (R274, R378). -/
theorem elt_lgpm_gainShift (P : Profile) (g : GainState) (err lgq : Rat) {j : Nat} (hj : j < P.lgporder) :
    elt (gainShift P g err lgq).lgpm j = elt (err :: g.lgpm) j := by
  simp only [gainShift, elt, List.getD_eq_getElem?_getD, List.getElem?_take_of_lt hj]

/-- The gain state of a concealed subframe (R378). -/
theorem gainConceal_spec {P : Profile} (hP : P.DimsOk) (N : Num) (g : GainState) (es : Rat) :
    gainConceal P N g es = { levelUpdate P g g.prevlg0 with
        lgpm := (gainConceal P N g es).lgpm, prevlg0 := logEnergy P N es, prevlg1 := g.prevlg0 }
      ∧ elt (gainConceal P N g es).lgpm 0 = logEnergy P N es - gainPredict P g
      ∧ ∀ j, 1 ≤ j → j < P.lgporder → elt (gainConceal P N g es).lgpm j = elt g.lgpm (j - 1) := by
  refine ⟨rfl, elt_lgpm_gainShift P _ _ _ hP.lgporder_pos, fun j h1 hj => ?_⟩
  obtain ⟨k, rfl⟩ := Nat.exists_eq_add_of_le' h1
  exact elt_lgpm_gainShift P _ _ _ hj

theorem concealGainAt_succ (P : Profile) (N : Num) (d : Dec) (k : Nat) :
    concealGainAt P N d (k + 1)
      = gainConceal P N (concealGainAt P N d k) (subframeEnergy P (concealNoise P N d) k) := foldl_range_succ _ _ k

/-- The samples of subframe `k` are samples of the frame (R9). -/
theorem subframe_lt_frsz {P : Profile} (hP : P.DimsOk) {k m : Nat} (hk : k < P.nsf) (hm : m < P.sfrsz) :
    k * P.sfrsz + m < P.frsz := by
  rw [hP.frsz_eq]
  calc k * P.sfrsz + m < (k + 1) * P.sfrsz := by rw [Nat.succ_mul]; omega
    _ ≤ P.nsf * P.sfrsz := Nat.mul_le_mul_right _ hk

/-- A buffer after a push and what follows it: the buffer and all that follows, without the oldest sample (R311). -/
theorem push_append {α : Type} (m : List α) (x : α) (rest : List α) : push m x ++ rest = (m ++ x :: rest).drop 1 := by
  rw [push, ← List.drop_append_of_le_length (by simp), List.append_assoc, List.singleton_append]

theorem elt_append_of_lt {m : List Rat} {i : Nat} (h : i < m.length) (l : List Rat) : elt (m ++ l) i = elt m i :=
  List.getD_append _ _ _ _ h

theorem elt_drop_one (l : List Rat) (i : Nat) : elt (l.drop 1) i = elt l (i + 1) := by
  rw [elt, elt, List.getD_eq_getElem?_getD, List.getElem?_drop, Nat.add_comm, List.getD_eq_getElem?_getD]

/-- The long-term memory takes the run of samples, the oldest leaving (R320, R374). -/
theorem ltSynth_mem (bq : List Rat) (pp : Nat) (m cs : List Rat) :
    (ltSynth bq pp m cs).2 = (m ++ (ltSynth bq pp m cs).1).drop cs.length := by
  induction cs generalizing m with
  | nil => simp [ltSynth]
  | cons c cs ih =>
    simp only [ltSynth, List.length_cons]
    rw [ih, push_append, List.drop_drop, Nat.add_comm]

/-- Each sample of the run is its contribution and the prediction from what stood before it: the memory, then the run
(R320, R374). -/
theorem elt_ltSynth (bq : List Rat) {pp : Nat} (hpp : 2 ≤ pp) {m cs : List Rat} (hm : pp + 1 ≤ m.length) {n : Nat}
    (hn : n < cs.length) :
    elt (ltSynth bq pp m cs).1 n = elt cs n + sumTo 3 fun k => elt bq k
      * elt (m ++ (ltSynth bq pp m cs).1) (m.length + n - (pp - 1 + k)) := by
  induction cs generalizing m n with
  | nil => exact absurd hn (Nat.not_lt_zero n)
  | cons c cs ih =>
    simp only [ltSynth]
    set x := ltPredict m bq pp + c
    set rest := (ltSynth bq pp (push m x) cs).1 with hrest
    cases n with
    | zero =>
      rw [elt_cons_zero, elt_cons_zero, add_comm c]
      refine congrArg (· + c) (sumTo_congr fun k hk => ?_)
      rw [past_eq (by omega) (by omega), Nat.add_zero, elt_append_of_lt (by omega)]
    | succ n =>
      rw [elt_cons_succ, elt_cons_succ, ih (by rwa [length_push]) (Nat.lt_of_succ_lt_succ hn), ← hrest]
      refine congrArg (elt cs n + ·) (sumTo_congr fun k hk => ?_)
      have hidx : m.length + n - (pp - 1 + k) + 1 = m.length + (n + 1) - (pp - 1 + k) := by omega
      rw [length_push, push_append, elt_drop_one, hidx]

/-- Settles O33: the four updates, each read off its stage. -/
theorem concealLspMemory : Obligations.ConcealLspMemory := by
  intro s t h idum noise en sc cn
  set P := Config.profile
  set N := Config.num
  have hplc : P.PlcOk := Config.setup.profileOk.plc
  have hcn : concealNoise P N s.dec = tab P.frsz cn := by
    rw [concealNoise_eq, plcGain, plcScale_eq hplc]
    rfl
  rw [exec_conceal_dec h, concealFrame_frame]
  refine ⟨lcgRun_state P _ _, fun i hi => ⟨?newest, lspShift_older P _ _ i hi⟩,
    ⟨concealGainAt P N s.dec, rfl, rfl, fun k hk => ?gain⟩, rfl, rfl, fun hlen hmin hmax => ?longTerm⟩
  case newest =>
    exact (lspShift_newest profile_dims _ _ i hi).trans ((elt_tab _ hi).trans (congrArg _ (elt_tab _ hi)))
  case gain =>
    have hes : subframeEnergy P (concealNoise P N s.dec) k
        = 1 / P.sfrsz * sumTo P.sfrsz fun m => cn (k * P.sfrsz + m) ^ 2 := by
      refine congrArg (1 / (P.sfrsz : Rat) * ·) (sumTo_congr fun m hm => ?_)
      rw [hcn, elt_tab _ (subframe_lt_frsz profile_dims hk hm), sq, pow_two]
    rw [concealGainAt_succ, hes]
    exact gainConceal_spec profile_dims N _ _
  case longTerm =>
    have hpp : 2 ≤ s.dec.ppLast := by
      have hvdim : 1 ≤ P.vdim := profile_dims.vdim_pos
      have hlag : P.vdim + 1 ≤ P.minpp := profile_dims.vdim_lt_minpp
      omega
    have hfrsz := length_concealNoise P N s.dec
    refine ⟨(ltSynth s.dec.bqLast s.dec.ppLast s.dec.ltsym (concealNoise P N s.dec)).1, ?_, ?_, fun n hn => ?_⟩
    · rw [(ltSynth_lengths _ _ _ _).1, hfrsz]
    · rw [← hfrsz]
      exact ltSynth_mem _ _ _ _
    · rw [elt_ltSynth _ hpp (by omega) (hfrsz.symm ▸ hn), hlen]
      exact congrArg (· + _) ((congrArg (elt · n) hcn).trans (elt_tab _ hn))

end Sys2Proof.Machine
end

section
/-! PROOFS, part 19. Hazards and reset (`70_reset_and_hazards.md`): the two contexts are independent (R153, R439), the
state after power-on reset meets the invariant (R431), and no step stops while the host keeps its duties (R434,
R436). -/

namespace Sys2Proof.Machine

/-! ### Independent contexts -/

/-- A DECODE that goes on, rejected or not, leaves `E` (R439). -/
theorem exec_decode_enc {s t : State} (h : exec .decode s = .next t) : t.enc = s.enc := by
  rcases exec_next h with ⟨⟨⟩, -⟩ | ⟨⟨⟩, -⟩ | ⟨⟨⟩, -⟩ | ⟨⟨⟩, -⟩ | ⟨-, ws, -, hcheck⟩ | ⟨⟨⟩, -⟩
  rcases hcheck with ⟨k0, -, rfl⟩ | ⟨-, rfl⟩
  · exact rejectIdx_enc s k0
  · exact decodeWith_enc s ws

/-- Buffers with equal samples in `PCM_IN` hold the same frame (R40). -/
theorem HoldsPcm.eq_of_read16_eq {P : Profile} {m m' : Memory} {pcm pcm' : List Sample} (h : HoldsPcm P m pcm)
    (h' : HoldsPcm P m' pcm') (heq : ∀ n < P.frsz, m.read16 (pcmInOff n) = m'.read16 (pcmInOff n)) : pcm = pcm' := by
  refine List.ext_getElem (h.length.trans h'.length.symm) fun n hn hn' => ?_
  have hread := heq n (h.length ▸ hn)
  rw [pcmInOff, h.sample n hn, h'.sample n hn'] at hread
  exact Option.some.inj hread

/-- Every sample of `PCM_OUT` once a whole frame was written, whatever stood there (R41). -/
theorem read16_writePcmOut_congr {pcm : List Int} {n : Nat} (hn : n < pcm.length) (m m' : Memory) :
    (writePcmOut m pcm).read16 (pcmOutOff n) = (writePcmOut m' pcm).read16 (pcmOutOff n) :=
  (read16_writePcmOut hn).trans (read16_writePcmOut hn).symm

/-- Settles O30: each command writes one context, and what it writes is a function of that context and its operands. -/
theorem contextIndependence : Obligations.ContextIndependence := by
  refine ⟨fun s t h => ?encodeKeeps, fun s t h => exec_decode_enc h, fun s t h => ?concealKeeps,
    fun s s' t t' henc hpcm h h' => ?encode, fun s s' ws t t' hdec hready hready' h h' => ?decode,
    fun s s' t t' hdec h h' => ?conceal⟩
  case encodeKeeps =>
    obtain ⟨pcm, -, rfl⟩ := exec_encode_next h
    exact encodeWith_dec s pcm
  case concealKeeps =>
    cases h
    rfl
  case encode =>
    obtain ⟨pcm, hholds, rfl⟩ := exec_encode_next h
    obtain ⟨pcm', hholds', rfl⟩ := exec_encode_next h'
    obtain rfl := hholds.eq_of_read16_eq hholds' hpcm
    exact ⟨by simp only [encodeWith_enc, henc], fun k hk => by simp only [read32_encodeWith _ _ hk, henc]⟩
  case decode =>
    obtain rfl := decodeWith_of_exec hready h
    obtain rfl := decodeWith_of_exec hready' h'
    simp only [decodeWith_dec, decodeWith_mem, hdec]
    exact ⟨trivial, fun n hn => read16_writePcmOut_congr (by rwa [length_decodeFrame Config.setup.profileOk]) _ _⟩
  case conceal =>
    cases h
    cases h'
    simp only [complete_dec, complete_mem, hdec]
    exact ⟨trivial, fun n hn => read16_writePcmOut_congr (by rwa [length_concealFrame]) _ _⟩

/-! ### The invariant at reset -/

/-- Settles O58: power-on reset of the reset state is that state, and every power-on reset meets the invariant. -/
theorem invariantAtReset : Obligations.InvariantAtReset := State.reset.powerOn_inv

/-! ### No step stops -/

/-- A run of elements that are all written is read (R43). -/
theorem exists_readRun_ok {α : Type} {get : Nat → Option α} {stride n a : Nat}
    (h : ∀ k < n, (get (a + stride * k)).isSome) : ∃ vs, readRun get stride n a = .ok vs := by
  cases hr : readRun get stride n a with
  | ok vs => exact ⟨vs, rfl⟩
  | error b =>
    obtain ⟨k, hk, rfl, hnone, -⟩ := readRun_error_iff.1 hr
    exact absurd (h k hk) (by simp [hnone])

/-- A command whose operands are written is executed to its end (R434). -/
theorem exec_proceeds {i : Instr} {s : State} (h : operandsWritten Config.profile s.mem i) : Proceeds (exec i s) := by
  cases i with
  | nop | resetEnc | resetDec | conceal => exact ⟨_, rfl⟩
  | encode =>
    obtain ⟨pcm, hpcm⟩ : ∃ pcm, readPcmIn Config.profile s.mem = .ok pcm := exists_readRun_ok h
    exact ⟨_, exec_encode_ready (readPcmIn_ok.1 hpcm)⟩
  | decode =>
    obtain ⟨ws, hws⟩ : ∃ ws, readIdx Config.profile s.mem = .ok ws := exists_readRun_ok h
    cases hbad : firstBadSlot Config.profile ws with
    | some k0 => exact ⟨_, exec_decode_rejected (readIdx_ok.1 hws) hbad⟩
    | none =>
      have hholds := readIdx_ok.1 hws
      exact ⟨_, exec_decode_ready ⟨hholds, (firstBadSlot_none hholds.length).1 hbad⟩⟩

/-- A written element is read (R43). -/
theorem readBuffer_proceeds {s : State} {width : Width} {a : Nat} (h : elementWritten s.mem width a = true) :
    Proceeds (readBuffer s width a) := by
  cases width with
  | w32 =>
    obtain ⟨v, hv⟩ := Option.isSome_iff_exists.1 h
    exact ⟨_, (readBuffer_w32 s a).1 v hv⟩
  | w8 | w16 =>
    obtain ⟨v, hv⟩ := Option.isSome_iff_exists.1 h
    exact ⟨_, (readBuffer_w16 s a).1 v hv⟩

section
variable {s : State} {width : Width} {a : Nat}

/-- A read the host may do is answered (R82, R88). -/
theorem perform_read_proceeds (h : hostMay Config.profile s (.read width a) = true) :
    Proceeds (perform s (.read width a)) := by
  cases hc : checkAccess Config.profile width a with
  | error why => simp [hostMay, hc] at h
  | ok l =>
    simp only [hostMay, hc] at h
    simp only [perform, busRead, hc]
    cases l with
    | pcmIn => exact readBuffer_proceeds h
    | pcmOut | idx =>
      cases hb : s.busy with
      | true => exact ⟨_, rfl⟩
      | false => exact readBuffer_proceeds (by simpa [hb] using h)
    | cmd | status | inten | ident | profile0 | profile1 | profile2 | errinfo | decinfo => exact ⟨_, rfl⟩

/-- A write the host may do is performed (R82, R436). -/
theorem perform_write_proceeds {w : Word} (h : hostMay Config.profile s (.write width a w) = true) :
    Proceeds (perform s (.write width a w)) := by
  cases hc : checkAccess Config.profile width a with
  | error why => simp [hostMay, hc] at h
  | ok l =>
    simp only [hostMay, hc] at h
    simp only [perform, busWrite, hc]
    cases l with
    | errinfo | decinfo | pcmOut => cases h
    | pcmIn | idx =>
      have hidle : s.busy = false := by simpa using h
      exact ⟨_, by rw [writeBuffer, hidle]; rfl⟩
    | cmd | status | inten | ident | profile0 | profile1 | profile2 => exact ⟨_, rfl⟩

end

/-- A bus cycle goes on where the event that arrives is one the host may do (R89). -/
theorem busCycle_proceeds {s : State} (h : ∀ e rest, s.inputs = e :: rest → hostMay Config.profile s e = true) :
    Proceeds (busCycle s) := by
  obtain ⟨-, -, hempty, hevent⟩ := busCyclePassesToPort s
  cases hin : s.inputs with
  | nil => exact ⟨s, hempty hin⟩
  | cons e rest =>
    have hmay : hostMay Config.profile { s with inputs := rest } e = true := h e rest hin
    rw [hevent e rest hin]
    cases e with
    | powerOn => exact ⟨_, rfl⟩
    | read width a => exact perform_read_proceeds hmay
    | write width a w => exact perform_write_proceeds hmay

/-- Settles O60: a command that ends has its operands, and the latched word is one that decodes; any other step is a bus
cycle. -/
theorem compliantStepProceeds : Obligations.CompliantStepProceeds := by
  intro s hinv ⟨hoperands, hevent⟩
  obtain ⟨hidle, hbusy, -, -⟩ := busCyclePassesToPort s
  cases hcmd : s.cmd with
  | none =>
    rw [hidle hcmd]
    exact busCycle_proceeds fun e rest => hevent e rest (.inl hcmd)
  | some w =>
    cases hwait : s.wait with
    | zero =>
      obtain ⟨i, hi⟩ := (decodeWord_isOk w).2 (hinv.cmdLegal w hcmd)
      rw [step_of_wait_eq_zero hcmd hwait hi]
      exact exec_proceeds (hoperands w i hcmd hwait hi)
    | succ n =>
      rw [hbusy w n hcmd hwait]
      exact busCycle_proceeds fun e rest => hevent e rest (.inr (hwait ▸ n.succ_pos))

end Sys2Proof.Machine
end
